-- ==== Sys2Proof/Word.lean ====
section
/-! DEFINITION. The word types of the 80960SB (R8, R11, 00_scope.md). -/
namespace Sys2Proof

/-- A byte: 8 bits (R11). -/
abbrev Byte := BitVec 8

/-- A word: 32 bits (R11); registers, addresses and control words are words (R8). -/
abbrev Word := BitVec 32

/-- The contents of a floating-point register: 80 bits, extended-real format (R26). -/
abbrev Ext := BitVec 80

/-- `BYTE_ORDER` (R84, D2): which byte of a word lies at its lowest address, the least significant one or the most
significant one. -/
inductive ByteOrder where
  | little
  | big
deriving DecidableEq, Repr

/-- A register number, 0 to 15 local, 16 to 31 global (R124). -/
abbrev Reg := BitVec 5

end Sys2Proof
end

