-- ==== Sys2Proof/Syntax.lean ====
section
/-! DEFINITION. The instructions of the 80960SB as decoded terms: one constructor per row of
spec/opcode_table.json (R132 to R135, 30_encoding.md; decision D1 models at this level). -/
namespace Sys2Proof

/-- The three real-number formats, named by the instruction suffixes r, rl and re (R13, R160). -/
inductive Fmt where
  | real
  | long
  | ext
deriving DecidableEq, Repr

/-- A source operand of a REG-format instruction that is not floating point: an integer register, or a
literal 0 to 31 (R125). -/
inductive Src where
  | reg (n : Reg)
  | lit (v : BitVec 5)
deriving DecidableEq, Repr

/-- A floating-point source operand: integer registers from `n` on, a floating-point register, or one of the
two literals 0.0 and 1.0 (R126). -/
inductive FpSrc where
  | reg (n : Reg)
  | fpr (k : BitVec 2)
  | zero
  | one
deriving DecidableEq, Repr

/-- A floating-point destination operand: integer registers from `n` on, or a floating-point register
(R126). -/
inductive FpDst where
  | reg (n : Reg)
  | fpr (k : BitVec 2)
deriving DecidableEq, Repr

/-- The effective address of a MEM-format instruction: the two MEMA forms (R128) and the seven MEMB modes
that have a meaning (R129). -/
inductive Addr where
  /-- MEMA, `md = 0`: a 12-bit offset. -/
  | offset (off : BitVec 12)
  /-- MEMA, `md = 1`: a base register and a 12-bit offset. -/
  | baseOffset (base : Reg) (off : BitVec 12)
  /-- MEMB mode 0100: a base register. -/
  | base (base : Reg)
  /-- MEMB mode 0101: IP + 8 + displacement. -/
  | ipDisp (disp : Word)
  /-- MEMB mode 0111: base + index * 2^scale. -/
  | baseIndex (base index : Reg) (scale : BitVec 3)
  /-- MEMB mode 1100: a 32-bit displacement. -/
  | disp (disp : Word)
  /-- MEMB mode 1101: base + displacement. -/
  | baseDisp (base : Reg) (disp : Word)
  /-- MEMB mode 1110: index * 2^scale + displacement. -/
  | indexDisp (index : Reg) (scale : BitVec 3) (disp : Word)
  /-- MEMB mode 1111: base + index * 2^scale + displacement. -/
  | baseIndexDisp (base index : Reg) (scale : BitVec 3) (disp : Word)
deriving DecidableEq, Repr

/-- The word displacement `disp[23:2]` of a CTRL-format instruction (R127). -/
abbrev CtrlDisp := BitVec 22

/-- The instructions, named by their mnemonics. Operands stand in assembler order, sources first (R140). -/
inductive Instr where
  -- conversions between integers and reals, R250 to R255
  | cvtir (src : Src) (dst : FpDst)
  | cvtilr (src : Src) (dst : FpDst)
  | cvtri (src : FpSrc) (dst : Reg)
  | cvtril (src : FpSrc) (dst : Reg)
  | cvtzri (src : FpSrc) (dst : Reg)
  | cvtzril (src : FpSrc) (dst : Reg)
  -- scale, R372, R373
  | scaler (src1 : Src) (src2 : FpSrc) (dst : FpDst)
  | scalerl (src1 : Src) (src2 : FpSrc) (dst : FpDst)
  -- real format
  | atanr (src1 src2 : FpSrc) (dst : FpDst)
  | logepr (src1 src2 : FpSrc) (dst : FpDst)
  | logr (src1 src2 : FpSrc) (dst : FpDst)
  | remr (src1 src2 : FpSrc) (dst : FpDst)
  | cmpor (src1 src2 : FpSrc)
  | cmpr (src1 src2 : FpSrc)
  | sqrtr (src : FpSrc) (dst : FpDst)
  | expr (src : FpSrc) (dst : FpDst)
  | logbnr (src : FpSrc) (dst : FpDst)
  | roundr (src : FpSrc) (dst : FpDst)
  | sinr (src : FpSrc) (dst : FpDst)
  | cosr (src : FpSrc) (dst : FpDst)
  | tanr (src : FpSrc) (dst : FpDst)
  | classr (src : FpSrc)
  -- long-real format
  | atanrl (src1 src2 : FpSrc) (dst : FpDst)
  | logeprl (src1 src2 : FpSrc) (dst : FpDst)
  | logrl (src1 src2 : FpSrc) (dst : FpDst)
  | remrl (src1 src2 : FpSrc) (dst : FpDst)
  | cmporl (src1 src2 : FpSrc)
  | cmprl (src1 src2 : FpSrc)
  | sqrtrl (src : FpSrc) (dst : FpDst)
  | exprl (src : FpSrc) (dst : FpDst)
  | logbnrl (src : FpSrc) (dst : FpDst)
  | roundrl (src : FpSrc) (dst : FpDst)
  | sinrl (src : FpSrc) (dst : FpDst)
  | cosrl (src : FpSrc) (dst : FpDst)
  | tanrl (src : FpSrc) (dst : FpDst)
  | classrl (src : FpSrc)
  -- floating-point moves, R232 to R239
  | movr (src : FpSrc) (dst : FpDst)
  | movrl (src : FpSrc) (dst : FpDst)
  | movre (src : FpSrc) (dst : FpDst)
  | cpysre (src1 src2 : FpSrc) (dst : FpDst)
  | cpyrsre (src1 src2 : FpSrc) (dst : FpDst)
  -- basic arithmetic, R274 to R281
  | divr (src1 src2 : FpSrc) (dst : FpDst)
  | mulr (src1 src2 : FpSrc) (dst : FpDst)
  | subr (src1 src2 : FpSrc) (dst : FpDst)
  | addr (src1 src2 : FpSrc) (dst : FpDst)
  | divrl (src1 src2 : FpSrc) (dst : FpDst)
  | mulrl (src1 src2 : FpSrc) (dst : FpDst)
  | subrl (src1 src2 : FpSrc) (dst : FpDst)
  | addrl (src1 src2 : FpSrc) (dst : FpDst)
  -- other REG-format instructions, R133
  | alterbit (bitpos src : Src) (dst : Reg)
  | addo (src1 src2 : Src) (dst : Reg)
  | chkbit (bitpos src : Src)
  | mov (src : Src) (dst : Reg)
  | movl (src : Src) (dst : Reg)
  | movt (src : Src) (dst : Reg)
  | synmov (dst src : Src)
  | synld (src : Src) (dst : Reg)
  | modac (mask src : Src) (dst : Reg)
  | modtc (mask src : Src) (dst : Reg)
  | modpc (src mask : Src) (srcdst : Reg)
  | calls (targ : Src)
  | mark
  | fmark
  | flushreg
  | syncf
  | ediv (src1 src2 : Src) (dst : Reg)
  -- CTRL format, R134
  | b (disp : CtrlDisp)
  | call (disp : CtrlDisp)
  | ret
  | bal (disp : CtrlDisp)
  | bno (disp : CtrlDisp)
  | bg (disp : CtrlDisp)
  | be (disp : CtrlDisp)
  | bge (disp : CtrlDisp)
  | bl (disp : CtrlDisp)
  | bne (disp : CtrlDisp)
  | ble (disp : CtrlDisp)
  | bo (disp : CtrlDisp)
  | faultno
  | faultg
  | faulte
  | faultge
  | faultl
  | faultne
  | faultle
  | faulto
  -- MEM format, R135
  | bx (targ : Addr)
  | balx (targ : Addr) (dst : Reg)
  | callx (targ : Addr)
  | ld (src : Addr) (dst : Reg)
  | st (src : Reg) (dst : Addr)
  | ldl (src : Addr) (dst : Reg)
  | stl (src : Reg) (dst : Addr)
  | ldt (src : Addr) (dst : Reg)
  | stt (src : Reg) (dst : Addr)
deriving DecidableEq, Repr

end Sys2Proof
end

