-- ==== Sys2Proof/WellFormed.lean ====
section
/-! DEFINITION. Which instruction terms an encoding exists for, and which keep the register-alignment rules
of R27 (10_state.md) and R138 (30_encoding.md). -/
namespace Sys2Proof

/-- A register number that may start a pair (R27, R138). -/
def Reg.isEven (n : Reg) : Bool := n.setWidth 1 == 0#1

/-- A register number that may start a triple (R27, R138). -/
def Reg.isQuad (n : Reg) : Bool := n.setWidth 2 == 0#2

/-- The register-alignment rule of a format: none, even, or a multiple of four (R27). -/
def Reg.fits (f : Fmt) (n : Reg) : Bool :=
  match f with
  | .real => true
  | .long => Reg.isEven n
  | .ext => Reg.isQuad n

/-- A floating-point source in format `f` keeps the alignment rule; floating-point registers and literals
always do (R126). -/
def FpSrc.fits (f : Fmt) (x : FpSrc) : Bool :=
  match x with
  | .reg n => Reg.fits f n
  | .fpr _ => true
  | .zero => true
  | .one => true

/-- A floating-point destination in format `f` keeps the alignment rule (R126). -/
def FpDst.fits (f : Fmt) (x : FpDst) : Bool :=
  match x with
  | .reg n => Reg.fits f n
  | .fpr _ => true

/-- An integer source that names a register pair keeps the alignment rule (R138). -/
def Src.isEven (x : Src) : Bool :=
  match x with
  | .reg n => Reg.isEven n
  | .lit _ => true

/-- An integer source that names a register triple keeps the alignment rule (R138). -/
def Src.isQuad (x : Src) : Bool :=
  match x with
  | .reg n => Reg.isQuad n
  | .lit _ => true

/-- The scale field is 0 to 4; 5 to 7 are reserved (R129). -/
def scaleOk (c : BitVec 3) : Bool := c.ult 5#3

/-- An effective address that an encoding exists for: its scale, where it has one, is 0 to 4 (R129). -/
def Addr.encodable (a : Addr) : Bool :=
  match a with
  | .offset _ | .baseOffset _ _ | .base _ | .ipDisp _ | .disp _ | .baseDisp _ _ => true
  | .baseIndex _ _ c | .indexDisp _ c _ | .baseIndexDisp _ _ c _ => scaleOk c

/-- The instruction has an encoding: every operand fits its field by its type, and a scale is 0 to 4. -/
def Instr.wellFormed (i : Instr) : Bool :=
  match i with
  | .bx a | .callx a => a.encodable
  | .balx a _ | .ld a _ | .ldl a _ | .ldt a _ => a.encodable
  | .st _ a | .stl _ a | .stt _ a => a.encodable
  | .cvtir _ _ | .cvtilr _ _ | .cvtri _ _ | .cvtril _ _ | .cvtzri _ _ | .cvtzril _ _ => true
  | .scaler _ _ _ | .scalerl _ _ _ | .atanr _ _ _ | .logepr _ _ _ | .logr _ _ _ | .remr _ _ _ => true
  | .cmpor _ _ | .cmpr _ _ | .sqrtr _ _ | .expr _ _ | .logbnr _ _ | .roundr _ _ | .sinr _ _ => true
  | .cosr _ _ | .tanr _ _ | .classr _ | .atanrl _ _ _ | .logeprl _ _ _ | .logrl _ _ _ => true
  | .remrl _ _ _ | .cmporl _ _ | .cmprl _ _ | .sqrtrl _ _ | .exprl _ _ | .logbnrl _ _ => true
  | .roundrl _ _ | .sinrl _ _ | .cosrl _ _ | .tanrl _ _ | .classrl _ | .movr _ _ | .movrl _ _ => true
  | .movre _ _ | .cpysre _ _ _ | .cpyrsre _ _ _ | .divr _ _ _ | .mulr _ _ _ | .subr _ _ _ => true
  | .addr _ _ _ | .divrl _ _ _ | .mulrl _ _ _ | .subrl _ _ _ | .addrl _ _ _ => true
  | .alterbit _ _ _ | .addo _ _ _ | .chkbit _ _ | .mov _ _ | .movl _ _ | .movt _ _ => true
  | .synmov _ _ | .synld _ _ | .modac _ _ _ | .modtc _ _ _ | .modpc _ _ _ | .calls _ => true
  | .mark | .fmark | .flushreg | .syncf | .ediv _ _ _ => true
  | .b _ | .call _ | .ret | .bal _ | .bno _ | .bg _ | .be _ | .bge _ | .bl _ | .bne _ | .ble _ => true
  | .bo _ | .faultno | .faultg | .faulte | .faultge | .faultl | .faultne | .faultle | .faulto => true

/-- Every register operand of the instruction keeps the alignment rule of its width (R27, R138). An
instruction that breaks it has an encoding: a floating-point one is refused, another raises
Operation.InvalidOperand (R138). -/
def Instr.regsAligned (i : Instr) : Bool :=
  match i with
  | .cvtir _ _ | .cvtri _ _ | .cvtzri _ _ | .scaler _ _ _ | .atanr _ _ _ | .logepr _ _ _ => true
  | .logr _ _ _ | .remr _ _ _ | .cmpor _ _ | .cmpr _ _ | .sqrtr _ _ | .expr _ _ | .logbnr _ _ => true
  | .roundr _ _ | .sinr _ _ | .cosr _ _ | .tanr _ _ | .classr _ | .movr _ _ => true
  | .divr _ _ _ | .mulr _ _ _ | .subr _ _ _ | .addr _ _ _ => true
  | .cvtilr s d => s.isEven && d.fits .long
  | .cvtril _ d | .cvtzril _ d => Reg.isEven d
  | .scalerl _ y d => y.fits .long && d.fits .long
  | .atanrl x y d | .logeprl x y d | .logrl x y d | .remrl x y d | .divrl x y d | .mulrl x y d
  | .subrl x y d | .addrl x y d => x.fits .long && y.fits .long && d.fits .long
  | .cmporl x y | .cmprl x y => x.fits .long && y.fits .long
  | .sqrtrl x d | .exprl x d | .logbnrl x d | .roundrl x d | .sinrl x d | .cosrl x d | .tanrl x d
  | .movrl x d => x.fits .long && d.fits .long
  | .classrl x => x.fits .long
  | .movre x d => x.fits .ext && d.fits .ext
  | .cpysre x y d | .cpyrsre x y d => x.fits .ext && y.fits .ext && d.fits .ext
  | .movl s d => s.isEven && Reg.isEven d
  | .movt s d => s.isQuad && Reg.isQuad d
  | .ediv _ n d => n.isEven && Reg.isEven d
  | .ldl _ r | .stl r _ => Reg.isEven r
  | .ldt _ r | .stt r _ => Reg.isQuad r
  | .alterbit _ _ _ | .addo _ _ _ | .chkbit _ _ | .mov _ _ | .synmov _ _ | .synld _ _ => true
  | .modac _ _ _ | .modtc _ _ _ | .modpc _ _ _ | .calls _ => true
  | .mark | .fmark | .flushreg | .syncf => true
  | .b _ | .call _ | .ret | .bal _ | .bno _ | .bg _ | .be _ | .bge _ | .bl _ | .bne _ | .ble _ => true
  | .bo _ | .faultno | .faultg | .faulte | .faultge | .faultl | .faultne | .faultle | .faulto => true
  | .bx _ | .balx _ _ | .callx _ | .ld _ _ | .st _ _ => true

end Sys2Proof
end

