-- ==== Sys2Proof/Decode.lean ====
section
/-! DEFINITION. The decoder and the encoder, written from the formats and opcode tables of 30_encoding.md
(R121 to R137). All of that file is marked general knowledge by the spec: PRESUMED, log 1. -/
namespace Sys2Proof

/-- Why the decoder gives a word no instruction and no fault. -/
inductive DecodeRefusal where
  /-- An opcode that is valid on the chip and not in the spec (R136). -/
  | unknownOpcode
  /-- A reserved or unused field that is not zero (R123, R129). -/
  | reservedBits
deriving DecidableEq, Repr

/-- What the decoder answers: an instruction; an undefined opcode or addressing mode, which raises the
invalid-opcode fault (R137); or a refusal. -/
inductive Decoded where
  | instr (i : Instr)
  | invalidOpcode
  | refused (r : DecodeRefusal)
deriving DecidableEq, Repr

/-! ### Fields (R123, R127 to R129) -/

/-- Bits 31:24, the opcode byte. -/
def op8Field (w : Word) : BitVec 8 := w.extractLsb' 24 8

/-- Bits 10:7, the low four bits of a REG opcode. -/
def op4Field (w : Word) : BitVec 4 := w.extractLsb' 7 4

/-- The 12-bit opcode of a REG instruction: `op8 ++ op4`. -/
def op12Field (w : Word) : BitVec 12 := op8Field w ++ op4Field w

/-- Bits 23:19. -/
def srcdstField (w : Word) : BitVec 5 := w.extractLsb' 19 5

/-- Bits 18:14: `src2`, or `abase` in the MEM formats. -/
def src2Field (w : Word) : BitVec 5 := w.extractLsb' 14 5

/-- Bits 4:0: `src1`, or `index` in MEMB. -/
def src1Field (w : Word) : BitVec 5 := w.extractLsb' 0 5

/-- Bit 13, the mode of `srcdst`. -/
def m3Field (w : Word) : Bool := w.getLsbD 13

/-- Bit 12, the mode of `src2`; in the MEM formats it selects MEMB. -/
def m2Field (w : Word) : Bool := w.getLsbD 12

/-- Bit 11, the mode of `src1`. -/
def m1Field (w : Word) : Bool := w.getLsbD 11

/-- Bits 6:5, reserved in REG and MEMB. -/
def rsvField (w : Word) : BitVec 2 := w.extractLsb' 5 2

/-- Bits 11:0, the offset of MEMA. -/
def offsetField (w : Word) : BitVec 12 := w.extractLsb' 0 12

/-- Bits 13:10, the mode of MEMB. -/
def modeField (w : Word) : BitVec 4 := w.extractLsb' 10 4

/-- Bits 9:7, the scale of MEMB. -/
def scaleField (w : Word) : BitVec 3 := w.extractLsb' 7 3

/-- Bits 23:2, the word displacement of CTRL. -/
def ctrlField (w : Word) : CtrlDisp := w.extractLsb' 2 22

/-! ### Operands (R125, R126) -/

/-- An integer source: mode 0 a register, mode 1 a literal (R125). -/
def decodeSrc (m : Bool) (f : BitVec 5) : Src := if m then .lit f else .reg f

/-- A floating-point source: mode 0 registers, mode 1 the table of R126; `none` is a reserved value. -/
def decodeFpSrc (m : Bool) (f : BitVec 5) : Option FpSrc :=
  if m then
    if f.extractLsb' 2 3 = 0#3 then some (.fpr (f.setWidth 2))
    else if f = 0b10000#5 then some .zero
    else if f = 0b10110#5 then some .one
    else none
  else some (.reg f)

/-- A floating-point destination: as a source, literals excluded (R126). -/
def decodeFpDst (m : Bool) (f : BitVec 5) : Option FpDst :=
  if m then
    if f.extractLsb' 2 3 = 0#3 then some (.fpr (f.setWidth 2)) else none
  else some (.reg f)

/-- An integer destination: a register; mode 1 is reserved (R125). -/
def decodeDst (m : Bool) (f : BitVec 5) : Option Reg := if m then none else some f

/-- `src1` as an integer source. -/
def intSrc1 (w : Word) : Src := decodeSrc (m1Field w) (src1Field w)

/-- `src2` as an integer source. -/
def intSrc2 (w : Word) : Src := decodeSrc (m2Field w) (src2Field w)

/-- `srcdst` as an integer destination. -/
def intDst (w : Word) : Option Reg := decodeDst (m3Field w) (srcdstField w)

/-- `src1` as a floating-point source. -/
def fpSrc1 (w : Word) : Option FpSrc := decodeFpSrc (m1Field w) (src1Field w)

/-- `src2` as a floating-point source. -/
def fpSrc2 (w : Word) : Option FpSrc := decodeFpSrc (m2Field w) (src2Field w)

/-- `srcdst` as a floating-point destination. -/
def fpDst (w : Word) : Option FpDst := decodeFpDst (m3Field w) (srcdstField w)

/-- An unused `src2`: field and mode bit zero (R123). -/
def noSrc2 (w : Word) : Bool := src2Field w == 0#5 && !m2Field w

/-- An unused `srcdst`: field and mode bit zero (R123). -/
def noSrcdst (w : Word) : Bool := srcdstField w == 0#5 && !m3Field w

/-- An unused `src1`: field and mode bit zero (R123). -/
def noSrc1 (w : Word) : Bool := src1Field w == 0#5 && !m1Field w

/-- Bits 6:5 zero (R123). -/
def noRsv (w : Word) : Bool := rsvField w == 0#2

/-- The outcome of a shape: reserved bits refuse (R123), an operand with no meaning is an invalid opcode (R137).
Where a word has both, it is refused: DESIGN CHOICE, log 12. -/
def decoded (clean : Bool) (i : Option Instr) : Decoded :=
  if clean then
    match i with
    | some i => .instr i
    | none => .invalidOpcode
  else .refused .reservedBits

/-! ### The shapes of REG instructions (R132, R133) -/

/-- Two floating-point sources and a floating-point destination. -/
def decodeFpFpFp (w : Word) (mk : FpSrc → FpSrc → FpDst → Instr) : Decoded :=
  decoded (noRsv w) do return mk (← fpSrc1 w) (← fpSrc2 w) (← fpDst w)

/-- One floating-point source and a floating-point destination. -/
def decodeFpFp (w : Word) (mk : FpSrc → FpDst → Instr) : Decoded :=
  decoded (noRsv w && noSrc2 w) do return mk (← fpSrc1 w) (← fpDst w)

/-- Two floating-point sources. -/
def decodeFpCmp (w : Word) (mk : FpSrc → FpSrc → Instr) : Decoded :=
  decoded (noRsv w && noSrcdst w) do return mk (← fpSrc1 w) (← fpSrc2 w)

/-- One floating-point source. -/
def decodeFpClass (w : Word) (mk : FpSrc → Instr) : Decoded :=
  decoded (noRsv w && noSrc2 w && noSrcdst w) do return mk (← fpSrc1 w)

/-- An integer source and a floating-point destination. -/
def decodeIntToFp (w : Word) (mk : Src → FpDst → Instr) : Decoded :=
  decoded (noRsv w && noSrc2 w) do return mk (intSrc1 w) (← fpDst w)

/-- A floating-point source and an integer destination. -/
def decodeFpToInt (w : Word) (mk : FpSrc → Reg → Instr) : Decoded :=
  decoded (noRsv w && noSrc2 w) do return mk (← fpSrc1 w) (← intDst w)

/-- An integer source, a floating-point source and a floating-point destination. -/
def decodeScale (w : Word) (mk : Src → FpSrc → FpDst → Instr) : Decoded :=
  decoded (noRsv w) do return mk (intSrc1 w) (← fpSrc2 w) (← fpDst w)

/-- Two integer sources and an integer destination. -/
def decodeInt3 (w : Word) (mk : Src → Src → Reg → Instr) : Decoded :=
  decoded (noRsv w) do return mk (intSrc1 w) (intSrc2 w) (← intDst w)

/-- Two integer sources. -/
def decodeIntSrcs (w : Word) (mk : Src → Src → Instr) : Decoded :=
  decoded (noRsv w && noSrcdst w) (some (mk (intSrc1 w) (intSrc2 w)))

/-- One integer source and an integer destination. -/
def decodeInt2 (w : Word) (mk : Src → Reg → Instr) : Decoded :=
  decoded (noRsv w && noSrc2 w) do return mk (intSrc1 w) (← intDst w)

/-- One integer source. -/
def decodeInt1 (w : Word) (mk : Src → Instr) : Decoded :=
  decoded (noRsv w && noSrc2 w && noSrcdst w) (some (mk (intSrc1 w)))

/-- No operands. -/
def decodeNullary (w : Word) (i : Instr) : Decoded :=
  decoded (noRsv w && noSrc1 w && noSrc2 w && noSrcdst w) (some i)

/-- The REG format, by its 12-bit opcode (R132, R133). -/
def decodeReg (w : Word) : Decoded :=
  match (op12Field w).toNat with
  | 0x58F => decodeInt3 w .alterbit
  | 0x590 => decodeInt3 w .addo
  | 0x5AE => decodeIntSrcs w .chkbit
  | 0x5CC => decodeInt2 w .mov
  | 0x5DC => decodeInt2 w .movl
  | 0x5EC => decodeInt2 w .movt
  | 0x600 => decodeIntSrcs w .synmov
  | 0x615 => decodeInt2 w .synld
  | 0x645 => decodeInt3 w .modac
  | 0x654 => decodeInt3 w .modtc
  | 0x655 => decodeInt3 w .modpc
  | 0x660 => decodeInt1 w .calls
  | 0x66B => decodeNullary w .mark
  | 0x66C => decodeNullary w .fmark
  | 0x66D => decodeNullary w .flushreg
  | 0x66F => decodeNullary w .syncf
  | 0x671 => decodeInt3 w .ediv
  | 0x674 => decodeIntToFp w .cvtir
  | 0x675 => decodeIntToFp w .cvtilr
  | 0x676 => decodeScale w .scalerl
  | 0x677 => decodeScale w .scaler
  | 0x680 => decodeFpFpFp w .atanr
  | 0x681 => decodeFpFpFp w .logepr
  | 0x682 => decodeFpFpFp w .logr
  | 0x683 => decodeFpFpFp w .remr
  | 0x684 => decodeFpCmp w .cmpor
  | 0x685 => decodeFpCmp w .cmpr
  | 0x688 => decodeFpFp w .sqrtr
  | 0x689 => decodeFpFp w .expr
  | 0x68A => decodeFpFp w .logbnr
  | 0x68B => decodeFpFp w .roundr
  | 0x68C => decodeFpFp w .sinr
  | 0x68D => decodeFpFp w .cosr
  | 0x68E => decodeFpFp w .tanr
  | 0x68F => decodeFpClass w .classr
  | 0x690 => decodeFpFpFp w .atanrl
  | 0x691 => decodeFpFpFp w .logeprl
  | 0x692 => decodeFpFpFp w .logrl
  | 0x693 => decodeFpFpFp w .remrl
  | 0x694 => decodeFpCmp w .cmporl
  | 0x695 => decodeFpCmp w .cmprl
  | 0x698 => decodeFpFp w .sqrtrl
  | 0x699 => decodeFpFp w .exprl
  | 0x69A => decodeFpFp w .logbnrl
  | 0x69B => decodeFpFp w .roundrl
  | 0x69C => decodeFpFp w .sinrl
  | 0x69D => decodeFpFp w .cosrl
  | 0x69E => decodeFpFp w .tanrl
  | 0x69F => decodeFpClass w .classrl
  | 0x6C0 => decodeFpToInt w .cvtri
  | 0x6C1 => decodeFpToInt w .cvtril
  | 0x6C2 => decodeFpToInt w .cvtzri
  | 0x6C3 => decodeFpToInt w .cvtzril
  | 0x6C9 => decodeFpFp w .movr
  | 0x6D9 => decodeFpFp w .movrl
  | 0x6E1 => decodeFpFp w .movre
  | 0x6E2 => decodeFpFpFp w .cpysre
  | 0x6E3 => decodeFpFpFp w .cpyrsre
  | 0x78B => decodeFpFpFp w .divr
  | 0x78C => decodeFpFpFp w .mulr
  | 0x78D => decodeFpFpFp w .subr
  | 0x78F => decodeFpFpFp w .addr
  | 0x79B => decodeFpFpFp w .divrl
  | 0x79C => decodeFpFpFp w .mulrl
  | 0x79D => decodeFpFpFp w .subrl
  | 0x79F => decodeFpFpFp w .addrl
  | _ => .refused .unknownOpcode

/-- The CTRL format (R127, R134). Bits 1:0, and the displacement of `ret` and the fault-if instructions, are
ignored (R127). -/
def decodeCtrl (w : Word) : Decoded :=
  match (op8Field w).toNat with
  | 0x08 => .instr (.b (ctrlField w))
  | 0x09 => .instr (.call (ctrlField w))
  | 0x0A => .instr .ret
  | 0x0B => .instr (.bal (ctrlField w))
  | 0x10 => .instr (.bno (ctrlField w))
  | 0x11 => .instr (.bg (ctrlField w))
  | 0x12 => .instr (.be (ctrlField w))
  | 0x13 => .instr (.bge (ctrlField w))
  | 0x14 => .instr (.bl (ctrlField w))
  | 0x15 => .instr (.bne (ctrlField w))
  | 0x16 => .instr (.ble (ctrlField w))
  | 0x17 => .instr (.bo (ctrlField w))
  | 0x18 => .instr .faultno
  | 0x19 => .instr .faultg
  | 0x1A => .instr .faulte
  | 0x1B => .instr .faultge
  | 0x1C => .instr .faultl
  | 0x1D => .instr .faultne
  | 0x1E => .instr .faultle
  | 0x1F => .instr .faulto
  | _ => .refused .unknownOpcode

/-! ### The MEM formats (R128 to R131) -/

/-- An effective address, or why there is none. -/
inductive DecodedAddr where
  | addr (a : Addr)
  | invalidOpcode
  | reservedBits
deriving DecidableEq, Repr

/-- A MEMB mode that uses the base alone leaves index and scale unused, zero. -/
def noIndex (w : Word) : Bool := src1Field w == 0#5 && scaleField w == 0#3

/-- The outcome of a MEMB mode: bits 6:5 and unused fields must be zero. -/
def decodedAddr (clean : Bool) (a : Addr) : DecodedAddr := if clean then .addr a else .reservedBits

/-- The effective address of a MEM instruction with first word `w` and second word `d` (R128, R129). A scale or
mode with no meaning is an invalid opcode (R137), whatever the reserved and unused fields hold: DESIGN CHOICE,
log 12. -/
def decodeAddr (w d : Word) : DecodedAddr :=
  if m2Field w then
    if scaleOk (scaleField w) then
      match (modeField w).toNat with
      | 0x4 => decodedAddr (noRsv w && noIndex w) (.base (src2Field w))
      | 0x5 => decodedAddr (noRsv w && noIndex w && src2Field w == 0#5) (.ipDisp d)
      | 0x7 => decodedAddr (noRsv w) (.baseIndex (src2Field w) (src1Field w) (scaleField w))
      | 0xC => decodedAddr (noRsv w && noIndex w && src2Field w == 0#5) (.disp d)
      | 0xD => decodedAddr (noRsv w && noIndex w) (.baseDisp (src2Field w) d)
      | 0xE => decodedAddr (noRsv w && src2Field w == 0#5) (.indexDisp (src1Field w) (scaleField w) d)
      | 0xF => decodedAddr (noRsv w) (.baseIndexDisp (src2Field w) (src1Field w) (scaleField w) d)
      | _ => .invalidOpcode
    else .invalidOpcode
  else if m3Field w then .addr (.baseOffset (src2Field w) (offsetField w))
  else if src2Field w = 0#5 then .addr (.offset (offsetField w))
  else .reservedBits

/-- A MEM instruction that uses `srcdst`. -/
def decodeMem (w d : Word) (mk : Addr → Instr) : Decoded :=
  match decodeAddr w d with
  | .addr a => .instr (mk a)
  | .invalidOpcode => .invalidOpcode
  | .reservedBits => .refused .reservedBits

/-- A MEM instruction that leaves `srcdst` unused, zero; if it is not, the word is refused before its mode is
looked at: DESIGN CHOICE, log 12. -/
def decodeMemBare (w d : Word) (mk : Addr → Instr) : Decoded :=
  if srcdstField w = 0#5 then decodeMem w d mk else .refused .reservedBits

/-- The MEM formats, by the opcode byte (R135). -/
def decodeMemFormat (w d : Word) : Decoded :=
  match (op8Field w).toNat with
  | 0x84 => decodeMemBare w d .bx
  | 0x85 => decodeMem w d fun a => .balx a (srcdstField w)
  | 0x86 => decodeMemBare w d .callx
  | 0x90 => decodeMem w d fun a => .ld a (srcdstField w)
  | 0x92 => decodeMem w d fun a => .st (srcdstField w) a
  | 0x98 => decodeMem w d fun a => .ldl a (srcdstField w)
  | 0x9A => decodeMem w d fun a => .stl (srcdstField w) a
  | 0xA0 => decodeMem w d fun a => .ldt a (srcdstField w)
  | 0xA2 => decodeMem w d fun a => .stt (srcdstField w) a
  | _ => .refused .unknownOpcode

/-- The decoder: the format by the opcode byte (R122). `d` is the second word, read only by the addressing
modes that have one. An opcode byte outside the four ranges is an undefined opcode (R122, R137): DEDUCED,
log 11. One in the COBR range is valid on the chip (R136). -/
def decode (w d : Word) : Decoded :=
  let op := (op8Field w).toNat
  if op < 0x20 then decodeCtrl w
  else if op < 0x40 then .refused .unknownOpcode
  else if op < 0x58 then .invalidOpcode
  else if op < 0x80 then decodeReg w
  else if op < 0xD0 then decodeMemFormat w d
  else .invalidOpcode

/-- The instruction has a second word, told from the first alone (R131). -/
def hasSecondWord (w : Word) : Bool :=
  let op := (op8Field w).toNat
  decide (0x80 ≤ op) && decide (op < 0xD0) && m2Field w && (modeField w == 0x5#4 || m3Field w)

/-- A word from four bytes in memory order, the lowest address first (R84, R85). -/
def wordOfBytes (o : ByteOrder) (b0 b1 b2 b3 : Byte) : Word :=
  match o with
  | .little => b3 ++ b2 ++ b1 ++ b0
  | .big => b0 ++ b1 ++ b2 ++ b3

/-- The `k`-th byte of a word in memory order (R84). -/
def byteOfWord (o : ByteOrder) (w : Word) (k : Nat) : Byte :=
  match o with
  | .little => w.extractLsb' (8 * k) 8
  | .big => w.extractLsb' (24 - 8 * k) 8

/-- The decoder on the bytes of memory from the instruction's address on; bytes that are not there read as
zero. -/
def decodeBytes (o : ByteOrder) (bs : List Byte) : Decoded :=
  let byte := fun k => bs.getD k 0#8
  decode (wordOfBytes o (byte 0) (byte 1) (byte 2) (byte 3)) (wordOfBytes o (byte 4) (byte 5) (byte 6) (byte 7))

/-- The two words of an instruction whose bits are `w`, the first word in bits 31:0. -/
def tableWord (nbits w : Nat) (k : Nat) : Word := BitVec.ofNat 32 (w % 2 ^ nbits / 2 ^ (32 * k))

/-- The instruction the decoder reads from an instruction whose bits are `w`, bit 0 the least significant of
the first word; every bit from `nbits` on is zero. The words lie in memory in the default byte order (R84).
PRESUMED, log 2. -/
def decodeTableWord (nbits w : Nat) : Option Instr :=
  let w0 := tableWord nbits w 0
  let w1 := tableWord nbits w 1
  match decodeBytes .little ((List.range 4).map (byteOfWord .little w0) ++
    (List.range 4).map (byteOfWord .little w1)) with
  | .instr i => some i
  | .invalidOpcode => none
  | .refused _ => none

/-! ### The encoder -/

/-- The words of an instruction: the first, and the displacement word where there is one (R121). -/
structure Encoded where
  first : Word
  second : Option Word
deriving DecidableEq, Repr

/-- A mode bit and a field, for an integer source (R125). -/
def encodeSrc (x : Src) : Bool × BitVec 5 :=
  match x with
  | .reg n => (false, n)
  | .lit v => (true, v)

/-- A mode bit and a field, for a floating-point source (R126). -/
def encodeFpSrc (x : FpSrc) : Bool × BitVec 5 :=
  match x with
  | .reg n => (false, n)
  | .fpr k => (true, k.setWidth 5)
  | .zero => (true, 0b10000#5)
  | .one => (true, 0b10110#5)

/-- A mode bit and a field, for a floating-point destination (R126). -/
def encodeFpDst (x : FpDst) : Bool × BitVec 5 :=
  match x with
  | .reg n => (false, n)
  | .fpr k => (true, k.setWidth 5)

/-- The REG format (R123): `op8 srcdst src2 M3 M2 M1 op4 00 src1`. -/
def regWord (op : BitVec 12) (d s2 s1 : Bool × BitVec 5) : Word :=
  op.extractLsb' 4 8 ++ d.2 ++ s2.2 ++ BitVec.ofBool d.1 ++ BitVec.ofBool s2.1 ++ BitVec.ofBool s1.1 ++
    op.extractLsb' 0 4 ++ 0#2 ++ s1.2

/-- An unused operand: mode bit and field zero (R123). -/
def unused : Bool × BitVec 5 := (false, 0#5)

/-- Encodes `decodeFpFpFp`. -/
def encodeFpFpFp (op : BitVec 12) (a b : FpSrc) (d : FpDst) : Word :=
  regWord op (encodeFpDst d) (encodeFpSrc b) (encodeFpSrc a)

/-- Encodes `decodeFpFp`. -/
def encodeFpFp (op : BitVec 12) (a : FpSrc) (d : FpDst) : Word :=
  regWord op (encodeFpDst d) unused (encodeFpSrc a)

/-- Encodes `decodeFpCmp`. -/
def encodeFpCmp (op : BitVec 12) (a b : FpSrc) : Word :=
  regWord op unused (encodeFpSrc b) (encodeFpSrc a)

/-- Encodes `decodeFpClass`. -/
def encodeFpClass (op : BitVec 12) (a : FpSrc) : Word := regWord op unused unused (encodeFpSrc a)

/-- Encodes `decodeIntToFp`. -/
def encodeIntToFp (op : BitVec 12) (a : Src) (d : FpDst) : Word :=
  regWord op (encodeFpDst d) unused (encodeSrc a)

/-- Encodes `decodeFpToInt`. -/
def encodeFpToInt (op : BitVec 12) (a : FpSrc) (d : Reg) : Word :=
  regWord op (false, d) unused (encodeFpSrc a)

/-- Encodes `decodeScale`. -/
def encodeScale (op : BitVec 12) (a : Src) (b : FpSrc) (d : FpDst) : Word :=
  regWord op (encodeFpDst d) (encodeFpSrc b) (encodeSrc a)

/-- Encodes `decodeInt3`. -/
def encodeInt3 (op : BitVec 12) (a b : Src) (d : Reg) : Word :=
  regWord op (false, d) (encodeSrc b) (encodeSrc a)

/-- Encodes `decodeIntSrcs`. -/
def encodeIntSrcs (op : BitVec 12) (a b : Src) : Word := regWord op unused (encodeSrc b) (encodeSrc a)

/-- Encodes `decodeInt2`. -/
def encodeInt2 (op : BitVec 12) (a : Src) (d : Reg) : Word := regWord op (false, d) unused (encodeSrc a)

/-- Encodes `decodeInt1`. -/
def encodeInt1 (op : BitVec 12) (a : Src) : Word := regWord op unused unused (encodeSrc a)

/-- Encodes `decodeNullary`. -/
def encodeNullary (op : BitVec 12) : Word := regWord op unused unused unused

/-- The CTRL format (R127). -/
def encodeCtrl (op : BitVec 8) (t : CtrlDisp) : Word := op ++ t ++ 0#2

/-- The MEMB format (R129): `op8 srcdst abase mode scale 00 index`, bit 12 being bit 2 of the mode. -/
def membWord (op : BitVec 8) (r base : BitVec 5) (mode : BitVec 4) (scale : BitVec 3) (index : BitVec 5) :
    Word :=
  op ++ r ++ base ++ mode ++ scale ++ 0#2 ++ index

/-- The MEM formats (R128, R129). -/
def encodeMem (op : BitVec 8) (r : Reg) (a : Addr) : Encoded :=
  match a with
  | .offset o => ⟨op ++ r ++ 0#5 ++ 0b00#2 ++ o, none⟩
  | .baseOffset n o => ⟨op ++ r ++ n ++ 0b10#2 ++ o, none⟩
  | .base n => ⟨membWord op r n 0x4#4 0#3 0#5, none⟩
  | .ipDisp d => ⟨membWord op r 0#5 0x5#4 0#3 0#5, some d⟩
  | .baseIndex n x c => ⟨membWord op r n 0x7#4 c x, none⟩
  | .disp d => ⟨membWord op r 0#5 0xC#4 0#3 0#5, some d⟩
  | .baseDisp n d => ⟨membWord op r n 0xD#4 0#3 0#5, some d⟩
  | .indexDisp x c d => ⟨membWord op r 0#5 0xE#4 c x, some d⟩
  | .baseIndexDisp n x c d => ⟨membWord op r n 0xF#4 c x, some d⟩

/-- The encoder: the words of a well-formed instruction, from the tables R132 to R135. -/
def encode (i : Instr) : Encoded :=
  match i with
  | .alterbit a b d => ⟨encodeInt3 0x58F#12 a b d, none⟩
  | .addo a b d => ⟨encodeInt3 0x590#12 a b d, none⟩
  | .chkbit a b => ⟨encodeIntSrcs 0x5AE#12 a b, none⟩
  | .mov a d => ⟨encodeInt2 0x5CC#12 a d, none⟩
  | .movl a d => ⟨encodeInt2 0x5DC#12 a d, none⟩
  | .movt a d => ⟨encodeInt2 0x5EC#12 a d, none⟩
  | .synmov a b => ⟨encodeIntSrcs 0x600#12 a b, none⟩
  | .synld a d => ⟨encodeInt2 0x615#12 a d, none⟩
  | .modac a b d => ⟨encodeInt3 0x645#12 a b d, none⟩
  | .modtc a b d => ⟨encodeInt3 0x654#12 a b d, none⟩
  | .modpc a b d => ⟨encodeInt3 0x655#12 a b d, none⟩
  | .calls a => ⟨encodeInt1 0x660#12 a, none⟩
  | .mark => ⟨encodeNullary 0x66B#12, none⟩
  | .fmark => ⟨encodeNullary 0x66C#12, none⟩
  | .flushreg => ⟨encodeNullary 0x66D#12, none⟩
  | .syncf => ⟨encodeNullary 0x66F#12, none⟩
  | .ediv a b d => ⟨encodeInt3 0x671#12 a b d, none⟩
  | .cvtir a d => ⟨encodeIntToFp 0x674#12 a d, none⟩
  | .cvtilr a d => ⟨encodeIntToFp 0x675#12 a d, none⟩
  | .scalerl a b d => ⟨encodeScale 0x676#12 a b d, none⟩
  | .scaler a b d => ⟨encodeScale 0x677#12 a b d, none⟩
  | .atanr a b d => ⟨encodeFpFpFp 0x680#12 a b d, none⟩
  | .logepr a b d => ⟨encodeFpFpFp 0x681#12 a b d, none⟩
  | .logr a b d => ⟨encodeFpFpFp 0x682#12 a b d, none⟩
  | .remr a b d => ⟨encodeFpFpFp 0x683#12 a b d, none⟩
  | .cmpor a b => ⟨encodeFpCmp 0x684#12 a b, none⟩
  | .cmpr a b => ⟨encodeFpCmp 0x685#12 a b, none⟩
  | .sqrtr a d => ⟨encodeFpFp 0x688#12 a d, none⟩
  | .expr a d => ⟨encodeFpFp 0x689#12 a d, none⟩
  | .logbnr a d => ⟨encodeFpFp 0x68A#12 a d, none⟩
  | .roundr a d => ⟨encodeFpFp 0x68B#12 a d, none⟩
  | .sinr a d => ⟨encodeFpFp 0x68C#12 a d, none⟩
  | .cosr a d => ⟨encodeFpFp 0x68D#12 a d, none⟩
  | .tanr a d => ⟨encodeFpFp 0x68E#12 a d, none⟩
  | .classr a => ⟨encodeFpClass 0x68F#12 a, none⟩
  | .atanrl a b d => ⟨encodeFpFpFp 0x690#12 a b d, none⟩
  | .logeprl a b d => ⟨encodeFpFpFp 0x691#12 a b d, none⟩
  | .logrl a b d => ⟨encodeFpFpFp 0x692#12 a b d, none⟩
  | .remrl a b d => ⟨encodeFpFpFp 0x693#12 a b d, none⟩
  | .cmporl a b => ⟨encodeFpCmp 0x694#12 a b, none⟩
  | .cmprl a b => ⟨encodeFpCmp 0x695#12 a b, none⟩
  | .sqrtrl a d => ⟨encodeFpFp 0x698#12 a d, none⟩
  | .exprl a d => ⟨encodeFpFp 0x699#12 a d, none⟩
  | .logbnrl a d => ⟨encodeFpFp 0x69A#12 a d, none⟩
  | .roundrl a d => ⟨encodeFpFp 0x69B#12 a d, none⟩
  | .sinrl a d => ⟨encodeFpFp 0x69C#12 a d, none⟩
  | .cosrl a d => ⟨encodeFpFp 0x69D#12 a d, none⟩
  | .tanrl a d => ⟨encodeFpFp 0x69E#12 a d, none⟩
  | .classrl a => ⟨encodeFpClass 0x69F#12 a, none⟩
  | .cvtri a d => ⟨encodeFpToInt 0x6C0#12 a d, none⟩
  | .cvtril a d => ⟨encodeFpToInt 0x6C1#12 a d, none⟩
  | .cvtzri a d => ⟨encodeFpToInt 0x6C2#12 a d, none⟩
  | .cvtzril a d => ⟨encodeFpToInt 0x6C3#12 a d, none⟩
  | .movr a d => ⟨encodeFpFp 0x6C9#12 a d, none⟩
  | .movrl a d => ⟨encodeFpFp 0x6D9#12 a d, none⟩
  | .movre a d => ⟨encodeFpFp 0x6E1#12 a d, none⟩
  | .cpysre a b d => ⟨encodeFpFpFp 0x6E2#12 a b d, none⟩
  | .cpyrsre a b d => ⟨encodeFpFpFp 0x6E3#12 a b d, none⟩
  | .divr a b d => ⟨encodeFpFpFp 0x78B#12 a b d, none⟩
  | .mulr a b d => ⟨encodeFpFpFp 0x78C#12 a b d, none⟩
  | .subr a b d => ⟨encodeFpFpFp 0x78D#12 a b d, none⟩
  | .addr a b d => ⟨encodeFpFpFp 0x78F#12 a b d, none⟩
  | .divrl a b d => ⟨encodeFpFpFp 0x79B#12 a b d, none⟩
  | .mulrl a b d => ⟨encodeFpFpFp 0x79C#12 a b d, none⟩
  | .subrl a b d => ⟨encodeFpFpFp 0x79D#12 a b d, none⟩
  | .addrl a b d => ⟨encodeFpFpFp 0x79F#12 a b d, none⟩
  | .b t => ⟨encodeCtrl 0x08#8 t, none⟩
  | .call t => ⟨encodeCtrl 0x09#8 t, none⟩
  | .ret => ⟨encodeCtrl 0x0A#8 0#22, none⟩
  | .bal t => ⟨encodeCtrl 0x0B#8 t, none⟩
  | .bno t => ⟨encodeCtrl 0x10#8 t, none⟩
  | .bg t => ⟨encodeCtrl 0x11#8 t, none⟩
  | .be t => ⟨encodeCtrl 0x12#8 t, none⟩
  | .bge t => ⟨encodeCtrl 0x13#8 t, none⟩
  | .bl t => ⟨encodeCtrl 0x14#8 t, none⟩
  | .bne t => ⟨encodeCtrl 0x15#8 t, none⟩
  | .ble t => ⟨encodeCtrl 0x16#8 t, none⟩
  | .bo t => ⟨encodeCtrl 0x17#8 t, none⟩
  | .faultno => ⟨encodeCtrl 0x18#8 0#22, none⟩
  | .faultg => ⟨encodeCtrl 0x19#8 0#22, none⟩
  | .faulte => ⟨encodeCtrl 0x1A#8 0#22, none⟩
  | .faultge => ⟨encodeCtrl 0x1B#8 0#22, none⟩
  | .faultl => ⟨encodeCtrl 0x1C#8 0#22, none⟩
  | .faultne => ⟨encodeCtrl 0x1D#8 0#22, none⟩
  | .faultle => ⟨encodeCtrl 0x1E#8 0#22, none⟩
  | .faulto => ⟨encodeCtrl 0x1F#8 0#22, none⟩
  | .bx a => encodeMem 0x84#8 0#5 a
  | .balx a r => encodeMem 0x85#8 r a
  | .callx a => encodeMem 0x86#8 0#5 a
  | .ld a r => encodeMem 0x90#8 r a
  | .st r a => encodeMem 0x92#8 r a
  | .ldl a r => encodeMem 0x98#8 r a
  | .stl r a => encodeMem 0x9A#8 r a
  | .ldt a r => encodeMem 0xA0#8 r a
  | .stt r a => encodeMem 0xA2#8 r a

end Sys2Proof
end

