-- ==== Sys2Proof/Machine/Bits.lean ====
section
/-! DEFINITION. Bit-field helpers over words (R10, 00_scope.md). -/
namespace Sys2Proof.Machine

/-- `v[i]` (R10). -/
def getBit (v : Word) (i : Nat) : Bool := v.getLsbD i

/-- `v` with `v[i]` set to `b`. -/
def setBit (v : Word) (i : Nat) (b : Bool) : Word :=
  if b then v ||| (1#32 <<< i) else v &&& ~~~(1#32 <<< i)

/-- The mask that covers bits `lo` to `lo + w - 1`. -/
def fieldMask (lo w : Nat) : Word := BitVec.ofNat 32 ((2 ^ w - 1) * 2 ^ lo)

/-- `v` with the `w` bits from `lo` on replaced by `x`. -/
def setField (v : Word) (lo w : Nat) (x : BitVec w) : Word :=
  (v &&& ~~~(fieldMask lo w)) ||| (x.setWidth 32 <<< lo)

/-- `(x AND m) OR (v AND NOT m)`: the bits of `v` that the mask `m` selects replaced by those of `x`
(R420, R422, R424). -/
def maskedUpdate (v m x : Word) : Word := (x &&& m) ||| (v &&& ~~~m)

/-- The low two bits cleared: a code address (R87), or an entry of a table (R387). -/
def wordAligned (a : Word) : Word := a &&& 0xFFFFFFFC#32

/-- The low six bits cleared: a frame address (R23, R397). -/
def frameAligned (a : Word) : Word := a &&& 0xFFFFFFC0#32

/-- The displacement of a CTRL instruction: a signed multiple of four (R127). -/
def ctrlOffset (t : BitVec 22) : Word := (t ++ 0#2).signExtend 32

end Sys2Proof.Machine
end

