-- ==== Sys2Proof/Config.lean ====
section
/-! DEFINITION. What the spec leaves open and the model leaves free: constants with no body, so that no proof
can see their value (R9, 00_scope.md; 92_eei_decisions.md). The OPEN parameters that choose among what the spec
describes are the record Params of Machine/Parameters.lean. -/
namespace Sys2Proof.Config

/-- The `n`-th value the sources leave open (`draw`, R12, 00_scope.md). DESIGN CHOICE, log 9: the counter
`State.draws` numbers them. -/
opaque freeWord : Nat → Word

/-- `MODPC_TRACE_DELAY` (R595, D29): for how many instructions after a `modpc` the old trace-enable flag is
still seen, 0 to 4. Log 21. -/
opaque modpcTraceDelay : Fin 5

/-- The value of an operand: an exact nonzero number, or a zero or an infinity with its sign. -/
inductive FpValue where
  | zero (neg : Bool)
  | num (v : Rat)
  | inf (neg : Bool)
deriving DecidableEq, Repr

/-- `REM_STATUS` (R287): the arithmetic status written by the remainder instructions, an uninterpreted function
of the two operand values, dividend first. Log 17; that the values carry the signs of zeros and infinities is a DESIGN
CHOICE named there. -/
opaque remStatus : FpValue → FpValue → BitVec 4

/-- `TRANSCENDENTAL.sin` before the constraints of R332 are applied (R331, D12). Log 18. -/
opaque sinRaw : Rat → Rat

/-- `TRANSCENDENTAL.cos` before the constraints of R332 are applied (R331, D12). Log 18. -/
opaque cosRaw : Rat → Rat

/-- `TRANSCENDENTAL.tan` before the constraints of R332 are applied (R331, D12). Log 18. -/
opaque tanRaw : Rat → Rat

/-- `TRANSCENDENTAL.atan2`, ordinate first (R342), before the constraints of R332 are applied. Log 18. -/
opaque atan2Raw : FpValue → FpValue → Rat

/-- `TRANSCENDENTAL.ylog2x` of X and Y (R358) before the constraints of R332 are applied. Log 18. -/
opaque ylog2xRaw : Rat → Rat → Rat

/-- `TRANSCENDENTAL.ylog2xp1` of X and Y (R362) before the constraints of R332 are applied. Log 18. -/
opaque ylog2xp1Raw : Rat → Rat → Rat

/-- `TRANSCENDENTAL.exp2m1` (R366) before the constraints of R332 are applied. Log 18. -/
opaque exp2m1Raw : Rat → Rat

/-- `INT_OVERFLOW_RESULT` of a width and an integer (R256) where it is not the spec's default; the low bits of the
width are used. Log 20. -/
opaque intOverflowResult : Nat → Int → BitVec 64

end Sys2Proof.Config
end

