-- ==== Sys2Proof/Machine/Parameters.lean ====
section
/-! DEFINITION. The named parameters the model takes as arguments (R9, 00_scope.md; the OPEN rows of
92_eei_decisions.md): one record, a field of State that no step changes, and the spec's defaults. The OPEN
parameters that are left uninterpreted are constants of Config. -/
namespace Sys2Proof.Machine

/-- The four rounding modes (R178). -/
inductive RoundMode where
  | up
  | down
  | zero
  | nearest
deriving DecidableEq, Repr

/-- `DATA_ALIGN_POLICY` (D3, R89): what becomes of a load or store at an address that is not a multiple of its
natural alignment. -/
inductive DataAlign where
  /-- It is refused, the spec's default. -/
  | refuse
  /-- It is split into accesses to its bytes, as R89 says that real hardware may do. DESIGN CHOICE, log 43. -/
  | split
deriving DecidableEq, Repr

/-- `PIN_TIE_ORDER` (D21, R529): the two orders the sources give. -/
inductive PinOrder where
  | int0First
  | int3First
deriving DecidableEq, Repr

/-- `INT_OVERFLOW_RESULT` (D25, R256): the spec's default, or an uninterpreted function. -/
inductive IntOverflow where
  | lowBits
  | other
deriving DecidableEq, Repr

/-- `CLASS_CODES` (D39, R318): the three low bits of the code of each class. -/
structure ClassCodes where
  zero : BitVec 3
  denorm : BitVec 3
  norm : BitVec 3
  inf : BitVec 3
  qnan : BitVec 3
  snan : BitVec 3
  reserved : BitVec 3
deriving DecidableEq, Repr

/-- `FAULT_RECORD_LAYOUT` (D22, R487): offsets from the start of the 48-byte record. The type word is at offset
40, which the source states (R471). -/
structure FaultLayout where
  /-- The three words of the fault data. -/
  data : Word
  /-- The saved process controls. -/
  pc : Word
  /-- The saved arithmetic controls. -/
  ac : Word
  /-- The address of the faulting instruction. -/
  afi : Word
deriving DecidableEq, Repr

/-- `INTERRUPT_RECORD_LAYOUT` (D22, R520): the size of the record in bytes, and offsets from its start. -/
structure InterruptLayout where
  size : Word
  /-- The saved process controls. -/
  pc : Word
  /-- The saved arithmetic controls. -/
  ac : Word
  /-- The vector number. -/
  vector : Word
deriving DecidableEq, Repr

/-- The parameters of R9 that choose among what the spec describes. -/
structure Params where
  /-- `BYTE_ORDER` (D2, R84). Log 2. -/
  byteOrder : ByteOrder
  /-- `DATA_ALIGN_POLICY` (D3, R89). Log 7, 43. -/
  dataAlign : DataAlign
  /-- The boundary in bytes that `SALIGN` gives (R584). Log 42. -/
  salignBytes : Nat
  /-- `RC_DECODE` (D6, R178): the mode that each value of `AC.rc` selects. Log 14. -/
  rcDecode : Vector RoundMode 4
  /-- `STD_QNAN_SIGN` (D9, R175): the sign of the standard QNaN. Log 15. -/
  stdQnanSign : Bool
  /-- `NAN_TIE_CHOICE` (D8, R174): of two NaNs with equal fractions the first source is chosen. Log 15. -/
  nanTieFirst : Bool
  /-- `OVERFLOW_DETECT` (D35, R181): overflow is judged after rounding. Log 16. -/
  overflowAfterRounding : Bool
  /-- `REM_KIND` (D36, R285): the quotient of the remainder instructions is rounded to nearest (the IEEE kind),
  or else toward zero. Log 17. -/
  remIsIeee : Bool
  /-- `CLASS_CODES` (D39, R318). Log 19. -/
  classCodes : ClassCodes
  /-- `INT_OVERFLOW_RESULT` (D25, R256). Log 20. -/
  intOverflow : IntOverflow
  /-- `FAULT_RECORD_LAYOUT` (D22, R487). Log 23. -/
  faultRecord : FaultLayout
  /-- `INTERRUPT_RECORD_LAYOUT` (D22, R520). Log 23. -/
  interruptRecord : InterruptLayout
  /-- `PIN_TIE_ORDER` (D21, R529). Log 25. -/
  pinOrder : PinOrder
deriving DecidableEq, Repr

/-- The boundary in bytes the PRCB stands on: that of `SALIGN`, and at least 64 (R88, R584). -/
def Params.controlBlockBoundary (p : Params) : Nat := max 64 p.salignBytes

/-- The fault record as R487 lays it out. -/
def defaultFaultLayout : FaultLayout := { data := 20#32, pc := 32#32, ac := 36#32, afi := 44#32 }

/-- The interrupt record as R520 lays it out. -/
def defaultInterruptLayout : InterruptLayout := { size := 16#32, pc := 0#32, ac := 4#32, vector := 8#32 }

/-- The defaults that 92_eei_decisions.md gives. Log 37. -/
def defaultParams : Params where
  byteOrder := .little
  dataAlign := .refuse
  salignBytes := 16
  rcDecode := #v[.up, .down, .zero, .nearest]
  stdQnanSign := false
  nanTieFirst := false
  overflowAfterRounding := true
  remIsIeee := false
  classCodes :=
    { zero := 0b000#3, denorm := 0b001#3, norm := 0b010#3, inf := 0b011#3, qnan := 0b100#3, snan := 0b101#3
      reserved := 0b110#3 }
  intOverflow := .lowBits
  faultRecord := defaultFaultLayout
  interruptRecord := defaultInterruptLayout
  pinOrder := .int0First

/-- `NSETS` (R8): the local register sets on the chip. -/
def numSets : Nat := 4

/-- The pins in the order of their priority (R529). -/
def pinSequence (o : PinOrder) : List Nat :=
  match o with
  | .int0First => [0, 1, 2, 3]
  | .int3First => [3, 2, 1, 0]

/-- The size of a fault record: 48 bytes (R484). -/
def faultRecordSize : Word := 48#32

end Sys2Proof.Machine
end

