-- ==== Sys2Proof/Machine/State.lean ====
section
/-! DEFINITION. The state of one 80960SB processor (R20, 10_state.md), the reasons a step can stop, and the
state after reset (R570 to R579, 70_reset_and_hazards.md). -/
namespace Sys2Proof.Machine

/-- What the processor is doing (R56, R563). Whether it is executing or interrupted is `PC.state`, which mirrors
it: it is not stored twice (`procState`, Flags.lean). -/
inductive ProcStatus where
  /-- RESET has been received and the first stage of initialization (R571) has not run yet. -/
  | reset
  /-- Executing a program or servicing an interrupt, as `PC.state` says. -/
  | running
  /-- Stopped by a failed checksum (R572); only reset leaves it. -/
  | stopped
  /-- Stuck in a fault delivery that has no usable handler (R497); only reset leaves it. -/
  | stuck
deriving DecidableEq, Repr

/-- A breakpoint register (R52): whether it is enabled, and the instruction pointer it holds. -/
structure Breakpoint where
  enabled : Bool
  ip : Word
deriving DecidableEq, Repr

/-- A cached local register set of an earlier procedure: its frame address and its sixteen registers
(R25, R383). -/
structure RegSet where
  addr : Word
  regs : Vector Word 16
deriving DecidableEq, Repr

/-- Memory: the bytes that differ from what an unlisted address reads as, by rising address. -/
abbrev Memory := List Host.Cell

/-- Everything the spec gives the machine (R20), and the model's own fields named in INVENTORY.md. -/
structure State where
  /-- g0 to g15 (R21). -/
  globals : Vector Word 16
  /-- r0 to r15 of the current procedure (R22). -/
  cur : Vector Word 16
  /-- The cached sets of the calling procedures, newest first (R25, R383). -/
  older : List RegSet
  /-- fp0 to fp3 (R26). -/
  fp : Vector Ext 4
  /-- The instruction pointer (R28). -/
  ip : Word
  /-- The arithmetic controls (R29). -/
  ac : Word
  /-- The process controls (R40). -/
  pc : Word
  /-- The trace controls (R48). -/
  tc : Word
  /-- Breakpoint register 0 (R52). -/
  bp0 : Breakpoint
  /-- Breakpoint register 1 (R52). -/
  bp1 : Breakpoint
  /-- The interrupt-control register (R53). -/
  icr : Word
  /-- The latched interrupt-pin signals (R54). -/
  pinLatch : BitVec 4
  /-- MODEL: the byte an external interrupt controller will supply on an acknowledge (R528, log 25). -/
  intrVector : Byte
  /-- Cached pointer: system address table (R55). -/
  satBase : Word
  /-- Cached pointer: processor control block (R55). -/
  prcbBase : Word
  /-- Cached pointer: system-procedure table (R55). -/
  sysprocBase : Word
  /-- Cached pointer: trace table (R55). -/
  traceBase : Word
  /-- Cached pointer: interrupt table (R55). -/
  intTable : Word
  /-- Cached pointer: interrupt stack (R55). -/
  intStack : Word
  /-- Cached pointer: fault table (R55). -/
  faultTable : Word
  /-- The processor state, but for what `PC.state` mirrors (R56). -/
  status : ProcStatus
  /-- The FAIL output (R572). -/
  failPin : Bool
  /-- Memory (R59). -/
  mem : Memory
  /-- The address of the most recently completed instruction (R548). -/
  lastIp : Word
  /-- MODEL: instructions for which a trace-enable flag changed by `modpc` is not yet seen (R595, log 21). -/
  teHold : Nat
  /-- MODEL: the trace-enable flag still seen while `teHold` is not zero (R595, log 21). -/
  teOld : Bool
  /-- MODEL: addresses of the words fetched since reset, rising (R108, log 8). -/
  executed : List Nat
  /-- MODEL: those of them stored to since, rising (R108, log 8). -/
  stale : List Nat
  /-- MODEL: how many free values have been drawn (R12, log 9). -/
  draws : Nat
  /-- MODEL: the named parameters of R9, which no step changes (log 37). -/
  params : Params
deriving DecidableEq, Repr

/-- Why the machine stops with a fault. -/
inductive Fault where
  /-- Raised by `step` in the stopped state: "the processor ceases all activity" (R563). Safe. -/
  | stopped
  /-- Raised by `step` in the stuck condition of R497: no further instruction step. Safe. -/
  | stuck
deriving DecidableEq, Repr

/-- Why the model gives a situation no meaning: the situations the spec itself marks `refuse` (R12). -/
inductive Refusal where
  /-- An arm of `exec` that has no meaning yet. Safe. -/
  | notModelled (mnemonic : String)
  /-- Raised by the fetch: an opcode that is valid on the chip and not in the spec (R136, D34). Safe. -/
  | unknownOpcode
  /-- Raised by the fetch: a field that must be written as zero is not (R123, R129). Safe. -/
  | reservedBits
  /-- Raised by the fetch: a word stored to after it was executed is fetched again (R108, D5). Safe. -/
  | staleCode
  /-- Raised by memory accesses: an address not a multiple of the access's natural alignment (R89, D3); and where
  the system address table or the processor control block is off its boundary (R88). Safe. -/
  | misaligned
  /-- Raised by memory accesses and the fetch: the reserved upper 16M bytes (R82, D31). Safe. -/
  | reservedSpace
  /-- Raised where the processor reads a table: the address of the entry would pass 0xFFFFFFFF (R90,
  93_implementation_defined.md). Safe. -/
  | addressWrap
  /-- Raised by calls and implicit calls: a stack frame past 0xFFFFFFFF (R382, D18). Safe. -/
  | frameOverflow
  /-- Raised by floating-point instructions: a register operand that breaks the alignment of R27 (R138, D10).
  Safe. -/
  | misalignedFpRegister
  /-- Raised by arithmetic floating-point instructions: the extended-real pattern with exponent 0 and j-bit 1
  (R166, D11). Safe. -/
  | unnamedFpEncoding
  /-- Raised by `ret`: the PFP was changed without `flushreg` (R383, R596). Safe. -/
  | pfpChanged
  /-- Raised by `ret`: a reserved return status (R398, D28). Safe. -/
  | reservedReturnStatus
  /-- Raised by `ret`: a supervisor or interrupt return in user mode (R398, R527, D41). Safe. -/
  | returnInUserMode
  /-- Raised by `ret`: a restored PC whose resume flag is set (R491, R527, D14). Safe. -/
  | resumeFlag
  /-- Raised by `calls`: a reserved entry type of the system-procedure table (R388, D28). Safe. -/
  | reservedEntryType
  /-- Raised by `modpc`: the mask selects a reserved bit of PC (R420, D16). Safe. -/
  | reservedPcBits
deriving DecidableEq, Repr

/-- Why an operation of the machine stops. -/
inductive Stop where
  | fault (f : Fault)
  | refused (r : Refusal)
deriving DecidableEq, Repr

/-- The result of an operation that may stop. -/
abbrev Result (α : Type) := Except Stop α

/-- The machine when RESET is received (R570, R574 to R578): PC, TC, the breakpoint registers, the
interrupt-control register, the latch and the register cache as the spec states; the first step runs the first
stage of initialization (R571). DESIGN CHOICE, log 3 and 4: every value the spec does not state is zero, and
memory lists nothing. The parameters are the spec's defaults (log 37). -/
def State.reset : State where
  globals := Vector.replicate 16 0#32
  cur := Vector.replicate 16 0#32
  older := []
  fp := Vector.replicate 4 0#80
  ip := 0#32
  ac := 0#32
  pc := 0x001F2002#32
  tc := 0#32
  bp0 := ⟨false, 0#32⟩
  bp1 := ⟨false, 0#32⟩
  icr := 0xFF000000#32
  pinLatch := 0#4
  intrVector := 0#8
  satBase := 0#32
  prcbBase := 0#32
  sysprocBase := 0#32
  traceBase := 0#32
  intTable := 0#32
  intStack := 0#32
  faultTable := 0#32
  status := .reset
  failPin := false
  mem := []
  lastIp := 0#32
  teHold := 0
  teOld := false
  executed := []
  stale := []
  draws := 0
  params := defaultParams

end Sys2Proof.Machine
end

