-- ==== Sys2Proof/Machine/Memory.lean ====
section
/-! DEFINITION. Memory: bytes, words, and the accesses the processor makes (20_memory.md). -/
namespace Sys2Proof.Machine

/-! ### Bytes -/

/-- What a byte that memory does not list reads as. DESIGN CHOICE, log 4, unsafe: the sources give memory no
contents at power-on (R60). -/
def unlistedByte : Byte := 0#8

/-- The byte at address `a`. -/
def memRead : Memory → Nat → Byte
  | [], _ => unlistedByte
  | (b, v) :: rest, a => if a = b then v else memRead rest a

/-- The cells of `m` with the cell of address `a` set to `v`, in rising order. A cell that would hold what an
unlisted address reads as is not listed. -/
def memWrite : Memory → Nat → Byte → Memory
  | [], a, v => if v = unlistedByte then [] else [(a, v)]
  | (b, x) :: rest, a, v =>
    if a < b then
      if v = unlistedByte then (b, x) :: rest else (a, v) :: (b, x) :: rest
    else if a = b then
      if v = unlistedByte then rest else (a, v) :: rest
    else (b, x) :: memWrite rest a v

/-- The canonical form from address `lo` on: addresses strictly rising and below 2^32, no cell equal to what an
unlisted address reads as. -/
def memSorted : Nat → Memory → Bool
  | _, [] => true
  | lo, (b, v) :: rest => decide (lo ≤ b) && decide (b < 2 ^ 32) && decide (v ≠ unlistedByte) &&
      memSorted (b + 1) rest

/-- The canonical form of memory. -/
def Memory.wf (m : Memory) : Bool := memSorted 0 m

/-! ### Words (R84, R85), in the byte order `o` -/

/-- The word at address `a`: `MemRead(a, 4)`. -/
def memReadWord (o : ByteOrder) (m : Memory) (a : Nat) : Word :=
  wordOfBytes o (memRead m a) (memRead m (a + 1)) (memRead m (a + 2)) (memRead m (a + 3))

/-- Memory with the word at address `a` set to `v`: `MemWrite(a, 4, v)`. -/
def memWriteWord (o : ByteOrder) (m : Memory) (a : Nat) (v : Word) : Memory :=
  memWrite (memWrite (memWrite (memWrite m a (byteOfWord o v 0)) (a + 1) (byteOfWord o v 1))
    (a + 2) (byteOfWord o v 2)) (a + 3) (byteOfWord o v 3)

/-- The word in memory at address `a`. -/
def wordAt (s : State) (a : Nat) : Word := memReadWord s.params.byteOrder s.mem a

/-! ### What the spec says of an address -/

/-- The upper 16M bytes, reserved for special functions (R82). -/
def isReserved (a : Word) : Bool := a.extractLsb' 24 8 == 0xFF#8

/-- The address of the interrupt-control register (R83). -/
def icrAddress : Word := 0xFF000004#32

/-- The check every access makes: a multiple of its natural alignment (R89, D3), outside the reserved space
(R82, D31). An access that passes cannot wrap or cross into the reserved space (R90). Log 7. -/
def checkAccess (align : Nat) (a : Word) : Result Unit :=
  if a.toNat % align ≠ 0 then .error (.refused .misaligned)
  else if isReserved a then .error (.refused .reservedSpace)
  else .ok ()

/-- The check of a load or store of `n` bytes with natural alignment `align`, by `DATA_ALIGN_POLICY` (R89): if it is
split, its first and its last byte lie outside the reserved space, so that it cannot wrap (R82, R90). Log 43. -/
def checkData (p : DataAlign) (align n : Nat) (a : Word) : Result Unit :=
  match p with
  | .refuse => checkAccess align a
  | .split =>
    if isReserved a || isReserved (a + BitVec.ofNat 32 (n - 1)) then .error (.refused .reservedSpace) else .ok ()

/-- The boundary check of a memory-resident structure (R88). -/
def checkBoundary (n : Nat) (a : Word) : Result Unit :=
  if a.toNat % n ≠ 0 then .error (.refused .misaligned) else .ok ()

/-! ### Rising lists of word addresses, for R108 -/

/-- A rising list of addresses with `a` in it. -/
def insertAddr : List Nat → Nat → List Nat
  | [], a => [a]
  | b :: rest, a => if a < b then a :: b :: rest else if a = b then b :: rest else b :: insertAddr rest a

/-- The address is in the list. -/
def hasAddr (l : List Nat) (a : Nat) : Bool := l.contains a

/-- Addresses strictly rising from `lo` on. -/
def addrsRising : Nat → List Nat → Bool
  | _, [] => true
  | lo, a :: rest => decide (lo ≤ a) && addrsRising (a + 1) rest

/-- The state after a store to the byte at `a`: the word it lies in is stale if it has been executed (R108).
Log 8. -/
def markStale (s : State) (a : Nat) : State :=
  let w := a - a % 4
  if hasAddr s.executed w then { s with stale := insertAddr s.stale w } else s

/-- The state after the word at `a` is fetched (R108). Log 8. -/
def markExecuted (s : State) (a : Nat) : State := { s with executed := insertAddr s.executed a }

/-! ### Free values (R12 `draw`, log 9) and the scratch space (R587) -/

/-- The free value `k` places on from the counter. -/
def freeAt (s : State) (k : Nat) : Word := Config.freeWord (s.draws + k)

/-- The state after `k` free values are drawn. -/
def drawn (s : State) (k : Nat) : State := { s with draws := s.draws + k }

/-- The byte at `a` lies in the scratch space of the PRCB: bytes 80 to 175 (R587). Only the current PRCB has one:
the spec does not say what those bytes of a former PRCB hold once initialization or reinitialization has moved it, and
the model reads them as last stored. DESIGN CHOICE, log 45. -/
def inScratch (s : State) (a : Word) : Bool := decide (80 ≤ (a - s.prcbBase).toNat) &&
  decide ((a - s.prcbBase).toNat ≤ 175)

/-- The word at `a` lies in the scratch space, in whole or in part. -/
def scratchWord (s : State) (a : Word) : Bool := inScratch s a || inScratch s (a + 3#32)

/-! ### Accesses of the processor -/

/-- The word at `a`, with the state after the read; a free value if `free`. -/
def readWord (free : Bool) (s : State) (a : Word) : Word × State :=
  if free then (freeAt s 0, drawn s 1) else (wordAt s a.toNat, s)

/-- Reads the word at `a` for the processor itself; in the scratch space it is any value (R587). Log 10. -/
def loadWord (s : State) (a : Word) : Result (Word × State) :=
  match checkAccess 4 a with
  | .error e => .error e
  | .ok () => .ok (readWord (scratchWord s a) s a)

/-- The address of the entry at `offset` in the table at `base`: one that passes 2^32 is refused (R90,
93_implementation_defined.md Part 1). -/
def entryAddr (base offset : Word) : Result Word :=
  if base.toNat + offset.toNat < 2 ^ 32 then .ok (base + offset) else .error (.refused .addressWrap)

/-- Reads the word at `offset` in the table at `base`. -/
def loadEntry (s : State) (base offset : Word) : Result (Word × State) :=
  match entryAddr base offset with
  | .error e => .error e
  | .ok a => loadWord s a

/-- The state after the word `v` is written at `a`, without a check. -/
def putWord (s : State) (a : Word) (v : Word) : State :=
  markStale (markStale { s with mem := memWriteWord s.params.byteOrder s.mem a.toNat v } a.toNat) (a.toNat + 3)

/-- The state after the words of `vs` are written at `a`, `a + 4` and so on, without a check. -/
def putWords : State → Word → List Word → State
  | s, _, [] => s
  | s, a, v :: vs => putWords (putWord s a v) (a + 4#32) vs

/-- Writes the word `v` at `a`. -/
def storeWord (s : State) (a v : Word) : Result State :=
  match checkAccess 4 a with
  | .error e => .error e
  | .ok () => .ok (putWord s a v)

/-- Reads the byte at `a` for the processor itself; in the scratch space it is any value (R587). Log 10. -/
def loadByte (s : State) (a : Word) : Result (Byte × State) :=
  match checkAccess 1 a with
  | .error e => .error e
  | .ok () => .ok (if inScratch s a then ((freeAt s 0).setWidth 8, drawn s 1) else (memRead s.mem a.toNat, s))

/-- Writes the byte `v` at `a`. -/
def storeByte (s : State) (a : Word) (v : Byte) : Result State :=
  match checkAccess 1 a with
  | .error e => .error e
  | .ok () => .ok (markStale { s with mem := memWrite s.mem a.toNat v } a.toNat)

/-- Writes the words of `vs` at `a`, `a + 4` and so on. -/
def storeWords : State → Word → List Word → Result State
  | s, _, [] => .ok s
  | s, a, v :: vs =>
    match storeWord s a v with
    | .error e => .error e
    | .ok s' => storeWords s' (a + 4#32) vs

/-- Writes the words of the pairs `(offset, word)` at `a + offset`, in turn: the fields of a record. -/
def storeFields : State → Word → List (Word × Word) → Result State
  | s, _, [] => .ok s
  | s, a, (o, v) :: vs =>
    match storeWord s (a + o) v with
    | .error e => .error e
    | .ok s' => storeFields s' a vs

/-- The state after an external agent writes the byte `v` at `a` (R103); the same hazard R108 applies. -/
def externalPut (s : State) (a : Word) (v : Byte) : State :=
  markStale { s with mem := memWrite s.mem a.toNat v } a.toNat

end Sys2Proof.Machine
end

