-- ==== Sys2Proof/Machine/Flags.lean ====
section
/-! DEFINITION. The fields of the control registers: arithmetic controls (R29), process controls (R40), trace
controls (R48), interrupt-control register (R53). -/
namespace Sys2Proof.Machine

/-! ### Arithmetic controls (R29) -/

/-- `AC.cc`, bits 2:0 (R30). -/
def acCc (s : State) : BitVec 3 := s.ac.extractLsb' 0 3

/-- `AC.cc <- v`. -/
def setCc (s : State) (v : BitVec 3) : State := { s with ac := setField s.ac 0 3 v }

/-- `AC.as`, bits 6:3 (R31). -/
def acAs (s : State) : BitVec 4 := s.ac.extractLsb' 3 4

/-- `AC.as <- v`. -/
def setAs (s : State) (v : BitVec 4) : State := { s with ac := setField s.ac 3 4 v }

/-- A flag or mask bit of AC. -/
def acBit (s : State) (i : Nat) : Bool := getBit s.ac i

/-- The state with bit `i` of AC set: flags are sticky, no rule clears one (R32, R192). -/
def setAcFlag (s : State) (i : Nat) : State := { s with ac := setBit s.ac i true }

/-- `AC.iof`, the integer overflow flag, bit 8 (R32). -/
def iofBit : Nat := 8
/-- `AC.iom`, the integer overflow mask, bit 12 (R32). -/
def iomBit : Nat := 12
/-- `AC.fof`, the floating overflow flag, bit 16 (R33). -/
def fofBit : Nat := 16
/-- `AC.fuf`, the floating underflow flag, bit 17 (R33). -/
def fufBit : Nat := 17
/-- `AC.fvf`, the floating invalid-operation flag, bit 18 (R33). -/
def fvfBit : Nat := 18
/-- `AC.fzf`, the floating zero-divide flag, bit 19 (R33). -/
def fzfBit : Nat := 19
/-- `AC.fxf`, the floating inexact flag, bit 20 (R33). -/
def fxfBit : Nat := 20
/-- `AC.fom`, the floating overflow mask, bit 24 (R34). -/
def fomBit : Nat := 24
/-- `AC.fum`, the floating underflow mask, bit 25 (R34). -/
def fumBit : Nat := 25
/-- `AC.fvm`, the floating invalid-operation mask, bit 26 (R34). -/
def fvmBit : Nat := 26
/-- `AC.fzm`, the floating zero-divide mask, bit 27 (R34). -/
def fzmBit : Nat := 27
/-- `AC.fxm`, the floating inexact mask, bit 28 (R34). -/
def fxmBit : Nat := 28
/-- `AC.nm`, the normalizing-mode flag, bit 29 (R35). -/
def nmBit : Nat := 29

/-- `AC.rc`, rounding control, bits 31:30 (R36). -/
def acRc (s : State) : BitVec 2 := s.ac.extractLsb' 30 2

/-! ### Process controls (R40) -/

/-- `PC.te`, the trace-enable flag, bit 0. -/
def pcTe (s : State) : Bool := getBit s.pc 0

/-- `PC.em`, the execution mode, bit 1: supervisor if set (R41). -/
def pcEm (s : State) : Bool := getBit s.pc 1

/-- `PC.resume`, bit 9, of a process-controls word (R45). -/
def resumeFlag (pc : Word) : Bool := getBit pc 9

/-- `PC.tfp`, the trace-fault-pending flag, bit 10 (R44). -/
def pcTfp (s : State) : Bool := getBit s.pc 10

/-- `PC.state`, bit 13: interrupted if set (R43). -/
def pcState (s : State) : Bool := getBit s.pc 13

/-- The processor states of R56, and initialization, which comes before them. -/
inductive ProcState where
  | executing
  | interrupted
  | stopped
  | initializing
deriving DecidableEq, Repr

/-- The processor state: `executing` and `interrupted` are mirrored by `PC.state` (R43, R56); the stuck condition
is treated as the stopped state (R563). -/
def procState (s : State) : ProcState :=
  match s.status with
  | .reset => .initializing
  | .running => if pcState s then .interrupted else .executing
  | .stopped => .stopped
  | .stuck => .stopped

/-- `PC.priority`, bits 20:16 (R42). -/
def pcPriority (s : State) : BitVec 5 := s.pc.extractLsb' 16 5

/-- PC replaced as a whole. A delay of R595 that was running ends: only `modpc` has one (log 21). -/
def setPc (s : State) (pc : Word) : State := { s with pc := pc, teHold := 0 }

/-- `PC.te <- b` by anything but `modpc`: no delay (R595). -/
def setTe (s : State) (b : Bool) : State := setPc s (setBit s.pc 0 b)

/-- `PC.em <- b`. -/
def setEm (s : State) (b : Bool) : State := { s with pc := setBit s.pc 1 b }

/-- `PC.tfp <- b`. -/
def setTfp (s : State) (b : Bool) : State := { s with pc := setBit s.pc 10 b }

/-- The trace-enable flag that `signal` and the pre-instruction check see (R595): the old one while a change
by `modpc` is held back. Log 21. -/
def seenTe (s : State) : Bool := if s.teHold = 0 then pcTe s else s.teOld

/-! ### Trace controls (R48) -/

/-- The seven trace modes, numbered as the bits of TC and of the trace-fault subtype (R48, R471). -/
inductive TraceEvent where
  | instruction
  | branch
  | call
  | ret
  | prereturn
  | supervisor
  | breakpoint
deriving DecidableEq, Repr

/-- The mode flag's bit number (R48). -/
def modeBit (e : TraceEvent) : Nat :=
  match e with
  | .instruction => 1
  | .branch => 2
  | .call => 3
  | .ret => 4
  | .prereturn => 5
  | .supervisor => 6
  | .breakpoint => 7

/-- The trace mode is enabled: its mode flag is set (R49). -/
def traceMode (s : State) (e : TraceEvent) : Bool := getBit s.tc (modeBit e)

/-- The event flags, TC[23:17] (R48). -/
def eventFlags (s : State) : BitVec 7 := s.tc.extractLsb' 17 7

/-- `TC[23:17] <- 0` (R548). -/
def clearEvents (s : State) : State := { s with tc := setField s.tc 17 7 0#7 }

/-- `signal(e)` (R547): the event flag, and the trace-fault-pending flag if tracing is enabled. -/
def signal (e : TraceEvent) (s : State) : State :=
  let s1 := { s with tc := setBit s.tc (16 + modeBit e) true }
  if seenTe s then setTfp s1 true else s1

/-- The event detected, if its trace mode is enabled (R540 to R546). -/
def signalIfEnabled (e : TraceEvent) (s : State) : State := if traceMode s e then signal e s else s

/-- The bits of TC that are not reserved (R48, R422). -/
def tcDefined : Word := 0x00FE00FE#32

/-! ### Interrupt-control register (R53) -/

/-- The vector field of pin `k`: bits 8k+7 : 8k (R53). -/
def icrVector (s : State) (k : Nat) : Byte := s.icr.extractLsb' (8 * k) 8

/-- INTR/INTA mode: the INT2 vector field is 0 (R528). -/
def intrMode (s : State) : Bool := icrVector s 2 == 0#8

end Sys2Proof.Machine
end

