-- ==== Sys2Proof/Machine/Ops.lean ====
section
/-! DEFINITION. The shared operations: registers, free values, the call operation (R384), taking a fault
(R480), taking an interrupt (R523), the returns (R397, R491, R527), and what ends every instruction (R552). -/
namespace Sys2Proof.Machine

/-! ### Registers (R21, R22, R124) -/

/-- r0, the PFP in its linkage role (R23). -/
def pfpReg : Reg := 0#5
/-- r1, the SP (R23). -/
def spReg : Reg := 1#5
/-- r2, the RIP (R23). -/
def ripReg : Reg := 2#5
/-- g14, the link register of `bal` (R392). -/
def linkReg : Reg := 30#5
/-- g15, the FP (R23). -/
def fpReg : Reg := 31#5

/-- The register number names a global register (R124). -/
def isGlobal (n : Reg) : Bool := n.getLsbD 4

/-- The index of a register in its set of sixteen. -/
def regIndex (n : Reg) : BitVec 4 := n.setWidth 4

/-- `x[n]` (R12, R124). -/
def getReg (s : State) (n : Reg) : Word :=
  if isGlobal n then s.globals[(regIndex n).toNat]'(regIndex n).isLt
  else s.cur[(regIndex n).toNat]'(regIndex n).isLt

/-- `x[n] <- v` (R12, R124). No register is hard-wired (R21). -/
def setReg (s : State) (n : Reg) (v : Word) : State :=
  if isGlobal n then { s with globals := s.globals.set (regIndex n).toNat v (regIndex n).isLt }
  else { s with cur := s.cur.set (regIndex n).toNat v (regIndex n).isLt }

/-- `fp[k]` (R26). -/
def getFp (s : State) (k : BitVec 2) : Ext := s.fp[k.toNat]'k.isLt

/-- `fp[k] <- v` (R26). -/
def setFp (s : State) (k : BitVec 2) (v : Ext) : State := { s with fp := s.fp.set k.toNat v k.isLt }

/-- The frame address of the current procedure (R23, R383). -/
def curFrame (s : State) : Word := frameAligned (getReg s fpReg)

/-! ### Program loads (R100, R587, D33) -/

/-- The word at `a` lies in the register-save area of a frame at `f`, its first 64 bytes, in whole or in part
(R100). -/
def inSaveArea (f a : Word) : Bool := frameAligned a == f || frameAligned (a + 3#32) == f

/-- A program's read of the word at `a` has no defined value: the save area of a frame whose register set is
on the chip (R100, D33), or the scratch space (R587). Log 10. -/
def readIsFree (s : State) (a : Word) : Bool :=
  inSaveArea (curFrame s) a || s.older.any (fun e => inSaveArea e.addr a) || scratchWord s a

/-- The value a program reads at the address `a`, and the state after the read. -/
def programRead (s : State) (a : Word) : Word × State := readWord (readIsFree s a) s a

/-! ### The register cache and the call operation (R382 to R384) -/

/-- The sixteen words of a register set, written to its save area: `r[i]` at `a + 4*i` (R383). -/
def spillSet (s : State) (e : RegSet) : Result State := storeWords s e.addr e.regs.toList

/-- The sixteen words of the save area of the frame at `t` (R383): what lies in the scratch space is any value
(R587). -/
def savedRegs (s : State) (t : Word) : Vector Word 16 :=
  Vector.ofFn fun i : Fin 16 =>
    if scratchWord s (t + BitVec.ofNat 32 (4 * i.val)) then freeAt s i.val else wordAt s (t.toNat + 4 * i.val)

/-- The register set of the frame at `t` is read back (R383). The whole save area lies in one aligned block. -/
def reloadSet (s : State) (t : Word) : Result (Vector Word 16) :=
  match checkAccess 4 t with
  | .error e => .error e
  | .ok () => .ok (savedRegs s t)

/-- `alloc_set()` (R383): the current set joins the cached ones under frame address `old`; the oldest is
spilled if more than `NSETS - 1` are cached; the new set holds free values (D15). -/
def allocSet (s : State) : Result State :=
  let older := ⟨curFrame s, s.cur⟩ :: s.older
  let fresh := Vector.ofFn fun i : Fin 16 => freeAt s i.val
  let s1 := drawn { s with cur := fresh } 16
  if older.length ≤ numSets - 1 then .ok { s1 with older := older }
  else
    match older.getLast? with
    | none => .ok { s1 with older := older }
    | some e => spillSet { s1 with older := older.dropLast } e

/-- `release_set(T)` (R383): the registers of the frame returned to, from the chip or from memory. -/
def releaseSet (s : State) (t : Word) : Result State :=
  match s.older with
  | [] =>
    match reloadSet s t with
    | .error e => .error e
    | .ok regs => .ok (drawn { s with cur := regs } 16)
  | e :: rest =>
    if e.addr = t then .ok { s with cur := e.regs, older := rest } else .error (.refused .pfpChanged)

/-- The new frame pointer above the stack pointer `b`: the next 64-byte boundary (R382). -/
def nextFrame (b : Word) : Word := frameAligned (b + 63#32)

/-- The frame above `b` and its new SP stay below 2^32 (R382, D18). -/
def frameFits (b : Word) : Bool :=
  decide (b.toNat + 63 < 2 ^ 32) && decide ((nextFrame b).toNat + 64 < 2 ^ 32)

/-- The first word of a new frame: the old frame address, the prereturn-trace flag from the call-trace mode,
and the return status; bits 5:4 are zero (R24, R384). -/
def newPfp (old : Word) (p : Bool) (status : BitVec 3) : Word :=
  frameAligned old ||| setBit 0#32 3 p ||| status.setWidth 32

/-- The call operation `call_op(target, b, status)` (R384). -/
def callOp (target b : Word) (status : BitVec 3) (s : State) : Result State :=
  if frameFits b then
    match allocSet s with
    | .error e => .error e
    | .ok s1 =>
      let s2 := setReg s1 pfpReg (newPfp (curFrame s) (traceMode s .call) status)
      let s3 := setReg s2 spReg (nextFrame b + 64#32)
      let s4 := setReg s3 fpReg (nextFrame b)
      .ok (signalIfEnabled .call { s4 with ip := wordAligned target })
  else .error (.refused .frameOverflow)

/-- The return operation `return_op()` (R397). -/
def returnOp (s : State) : Result State :=
  let t := frameAligned (getReg s pfpReg)
  match releaseSet (setReg s fpReg t) t with
  | .error e => .error e
  | .ok s1 => .ok { s1 with ip := wordAligned (getReg s1 ripReg) }

/-! ### Taking a fault (R470 to R490) -/

/-- What a fault puts into its record (R484, R487) and into r2 of the faulting frame (R488). `none` is a field
that has no defined value. -/
structure FaultInfo where
  /-- The fault type (R471). -/
  ftype : Byte
  /-- The fault subtype (R471). -/
  subtype : Byte
  /-- F0 of the fault flags (R207). -/
  f0 : Option Bool := none
  /-- F1 of the fault flags (R207). -/
  f1 : Option Bool := none
  /-- The fault data: an extended-real value (R207). -/
  data : Option Ext := none
  /-- The address of the faulting instruction (R484). -/
  afi : Option Word
  /-- The saved IP (R488). -/
  sip : Option Word
deriving DecidableEq, Repr

/-- Bit `i` of `v`, replaced where its value is defined. -/
def setBitIfDefined (v : Word) (i : Nat) (b : Option Bool) : Word :=
  match b with
  | some x => setBit v i x
  | none => v

/-- The word at offset 40 of the fault record (R471, R487): flags, type, reserved, subtype; the bits without a
defined value are those of the free value `w`. -/
def faultTypeWord (f : FaultInfo) (w : Word) : Word :=
  setBitIfDefined (setBitIfDefined (setField (setField w 0 8 f.subtype) 16 8 f.ftype) 24 f.f0) 25 f.f1

/-- The three words of the fault data (R487), low word first; what is not used is free. -/
def faultData (f : FaultInfo) (s : State) : Word × Word × Word :=
  match f.data with
  | some d => (d.extractLsb' 0 32, d.extractLsb' 32 32, setField (freeAt s 2) 0 16 (d.extractLsb' 64 16))
  | none => (freeAt s 0, freeAt s 1, freeAt s 2)

/-- The words of a fault record with their offsets (R487): fault data, saved PC, saved AC, type word at offset 40
(R471), address of the faulting instruction. The rest of the record is not written. Log 23. -/
def faultRecord (f : FaultInfo) (pc ac : Word) (s : State) : List (Word × Word) :=
  let l := s.params.faultRecord
  let d := faultData f s
  [(l.data, d.1), (l.data + 4#32, d.2.1), (l.data + 8#32, d.2.2), (l.pc, pc), (l.ac, ac),
   (40#32, faultTypeWord f (freeAt s 3)), (l.afi, f.afi.getD (freeAt s 4))]

/-- A handler as the fault table gives it (R482): its address, the stack pointer its stack starts from, and
the state with mode and trace-enable flag as they are for the handler. -/
structure Handler where
  target : Word
  nsp : Word
  state : State

/-- The offset of entry `n` in a procedure table (R387). -/
def procedureOffset (n : Word) : Word := 48#32 + 4#32 * n

/-- The handler behind entry `n` of the procedure table at `table` (R480, R490); `none` is a stuck processor. -/
def procedureHandler (s : State) (table : Word) (n : Word) : Result (Option Handler) := do
  if n.toNat > 259 then return none
  let (entry, s1) ← loadEntry s table (procedureOffset n)
  match (entry.setWidth 2).toNat with
  | 0 => return some ⟨wordAligned entry, getReg s1 spReg, s1⟩
  | 2 =>
    let (w, s2) ← loadEntry s1 table 12#32
    return some ⟨wordAligned entry, if pcEm s2 then getReg s2 spReg else wordAligned w,
      setTe (setEm s2 true) (getBit w 0)⟩
  | _ => return none

/-- The offset of the fault-table entry of fault type `t` (R481). -/
def faultOffset (t : Byte) : Word := 8#32 * t.setWidth 32

/-- The handler that the fault table gives for fault type `t` (R480 to R482). -/
def faultHandler (s : State) (t : Byte) : Result (Option Handler) := do
  let (e0, s1) ← loadEntry s s.faultTable (faultOffset t)
  let (e1, s2) ← loadEntry s1 s.faultTable (faultOffset t + 4#32)
  match (e0.setWidth 2).toNat with
  | 0 => return some ⟨wordAligned e0, getReg s2 spReg, s2⟩
  | 2 =>
    if e1 = 0x27F#32 then procedureHandler s2 s2.sysprocBase (e0 >>> 2)
    else if e1 = 0x2BF#32 ∨ e1 = 0x2FF#32 then procedureHandler s2 s2.traceBase (e0 >>> 2)
    else return none
  | _ => return none

/-- Taking a fault: `deliver_fault` (R480). The record goes below the new frame, r2 of the frame that faulted
receives the saved IP, and the handler is called with return status 001. With no usable handler the processor
is stuck (R497, D17, log 24). -/
def deliverFault (f : FaultInfo) (s : State) : Result State := do
  match ← faultHandler s f.ftype with
  | none => return { s with status := .stuck }
  | some h =>
    if decide (h.nsp.toNat + 48 < 2 ^ 32) && frameFits (h.nsp + faultRecordSize) then
      let nfp := nextFrame (h.nsp + faultRecordSize)
      let s1 ← storeFields h.state (nfp - faultRecordSize) (faultRecord f s.pc s.ac h.state)
      let s2 := setReg s1 ripReg (f.sip.getD (freeAt s1 5))
      callOp h.target (h.nsp + faultRecordSize) 0b001#3 (drawn s2 6)
    else throw (.refused .frameOverflow)

/-- An operation fault, invalid opcode (R472). -/
def invalidOpcodeFault (s : State) : FaultInfo :=
  { ftype := 0x02, subtype := 0x01, afi := some s.ip, sip := none }

/-- An operation fault, invalid operand (R472). -/
def invalidOperandFault (s : State) : FaultInfo :=
  { ftype := 0x02, subtype := 0x04, afi := some s.ip, sip := none }

/-- An arithmetic fault, integer overflow (R473); the saved IP is the next instruction. -/
def integerOverflowFault (s : State) : FaultInfo :=
  { ftype := 0x03, subtype := 0x01, afi := some s.ip, sip := some (s.ip + 4#32) }

/-- An arithmetic fault, zero divide (R473). -/
def zeroDivideFault (s : State) : FaultInfo :=
  { ftype := 0x03, subtype := 0x02, afi := some s.ip, sip := some (s.ip + 4#32) }

/-- A floating-point fault that carries no data (R474, R488). -/
def floatingFault (sub : Byte) (s : State) : FaultInfo :=
  { ftype := 0x04, subtype := sub, afi := some s.ip, sip := some (s.ip + 4#32) }

/-- A constraint fault, range (R475). -/
def constraintRangeFault (s : State) : FaultInfo :=
  { ftype := 0x05, subtype := 0x01, afi := some s.ip, sip := none }

/-- A protection fault, length (R476): the saved IP is the `calls` itself. -/
def protectionLengthFault (s : State) : FaultInfo :=
  { ftype := 0x07, subtype := 0x02, afi := some s.ip, sip := some s.ip }

/-- A type fault, mismatch (R477). -/
def typeMismatchFault (s : State) : FaultInfo :=
  { ftype := 0x0A, subtype := 0x01, afi := some s.ip, sip := none }

/-- `trace_fault(sip, afi)` (R548): the event flags make the subtype; they and the trace-fault-pending flag are
cleared before PC is saved (D27). -/
def traceFault (sip : Word) (afi : Option Word) (s : State) : Result State :=
  deliverFault { ftype := 0x01, subtype := eventFlags s ++ 0#1, afi := afi, sip := some sip }
    (setTfp (clearEvents s) false)

/-! ### Taking an interrupt (R510 to R529) -/

/-- The priority of a vector: `v / 8` (R511). -/
def vectorPriority (v : Byte) : BitVec 5 := v.extractLsb' 3 5

/-- The words of an interrupt record with their offsets (R520). Log 23. -/
def interruptRecord (v : Byte) (s : State) : List (Word × Word) :=
  let l := s.params.interruptRecord
  [(l.pc, s.pc), (l.ac, s.ac), (l.vector, setField (freeAt s 0) 0 8 v)]

/-- The offset of the interrupt-table entry of the vector `v` (R512). -/
def vectorOffset (v : Byte) : Word := 36#32 + 4#32 * (v.setWidth 32 - 8#32)

/-- PC in the handler of the vector `v` (R523). -/
def interruptPc (v : Byte) (s : State) : Word :=
  setBit (setBit (setBit (setBit (setField s.pc 16 5 (vectorPriority v)) 13 true) 1 true) 10 false) 0 false

/-- The stack pointer an interrupt starts from: the interrupt stack, or the current stack if it interrupts a handler
(R523). -/
def interruptStackPointer (s : State) : Word := if pcState s then getReg s spReg else s.intStack

/-- The handler's address, of the words read before and after the record is written. R606 has the entry read first,
R523's pseudocode last; which of them is taken is left open, by a free value: DESIGN CHOICE, log 40. -/
def handlerWord (s : State) (before after : Word) : Word := if getBit (freeAt s 0) 0 then before else after

/-- Interrupt entry, `interrupt_entry(v)` (R523). The entry of the interrupt table is read before and after the record
is written: the two differ where the record overlaps it. -/
def interruptEntry (v : Byte) (s : State) : Result State := do
  let size := s.params.interruptRecord.size
  let nsp := interruptStackPointer s
  if decide (nsp.toNat + size.toNat < 2 ^ 32) && frameFits (nsp + size) then
    let (before, s1) ← loadEntry s s.intTable (vectorOffset v)
    let s2 ← storeFields s1 (nextFrame (nsp + size) - size) (interruptRecord v s1)
    let s3 := setPc (setReg s2 ripReg s.ip) (interruptPc v s)
    let (after, s4) ← loadEntry (drawn s3 1) s.intTable (vectorOffset v)
    callOp (handlerWord s4 before after) (nsp + size) 0b111#3 (drawn s4 1)
  else throw (.refused .frameOverflow)

/-- The offset of the byte of pending vectors of priority `p` in the interrupt table (R513). -/
def pendingOffset (p : BitVec 5) : Word := 4#32 + p.setWidth 32

/-- `post(v)` (R516): the vector's bit and its priority's bit in the pending-interrupt record. -/
def postInterrupt (v : Byte) (s : State) : Result State := do
  let a ← entryAddr s.intTable (pendingOffset (vectorPriority v))
  let (b, s1) ← loadByte s a
  let s2 ← storeByte s1 a (b ||| (1#8 <<< (v.toNat % 8)))
  let (w, s3) ← loadWord s2 s.intTable
  storeWord s3 s.intTable (setBit w (vectorPriority v).toNat true)

/-- A priority is serviced at once: above the processor's, or 31 (R515). -/
def isServiced (s : State) (p : BitVec 5) : Bool := (pcPriority s).ult p || p == 31#5

/-- `receive_interrupt(v)` (R515). -/
def receiveInterrupt (v : Byte) (s : State) : Result State :=
  if isServiced s (vectorPriority v) then interruptEntry v s else postInterrupt v s

/-- The number of the highest set bit of a byte, of the bits below `n`. -/
def highestBit (b : Byte) : Nat → Option Nat
  | 0 => none
  | n + 1 => if b.getLsbD n then some n else highestBit b n

/-- The search of `check_pending_interrupts` over the priorities from `p` down to 1 (R518, R519): a priority
bit set over an all-zero byte is skipped (D47). -/
def checkPendingFrom (pp : Word) (s : State) : Nat → Result State
  | 0 => .ok s
  | p + 1 =>
    let prio := p + 1
    if getBit pp prio && isServiced s (BitVec.ofNat 5 prio) then do
      let a ← entryAddr s.intTable (pendingOffset (BitVec.ofNat 5 prio))
      let (byte, s1) ← loadByte s a
      match highestBit byte 8 with
      | none => checkPendingFrom pp s1 p
      | some k =>
        let rest := byte &&& ~~~(1#8 <<< k)
        let s2 ← storeByte s1 a rest
        let s3 ← if rest = 0#8 then storeWord s2 s.intTable (setBit pp prio false) else pure s2
        interruptEntry (BitVec.ofNat 8 (8 * prio + k)) s3
    else checkPendingFrom pp s p

/-- `check_pending_interrupts()` (R518). -/
def checkPending (s : State) : Result State := do
  let (pp, s1) ← loadWord s s.intTable
  checkPendingFrom pp s1 31

/-! ### What ends an instruction (R552) -/

/-- What an instruction's rule comes to. -/
inductive Effect where
  /-- It has completed; IP is the next instruction's address. -/
  | done (s : State)
  /-- It has completed and asks for a check of pending interrupts after its events (R420, R552). -/
  | doneCheck (s : State)
  /-- A `ret` that restored PC has completed, its events signaled in its rule; `check` asks for a check of
  pending interrupts (R491, R527). -/
  | restored (s : State) (check : Bool)
  /-- It faults before it executes: nothing has changed (R550, D46). -/
  | early (f : FaultInfo)
  /-- It faults after it has completed (R550, D46). -/
  | late (s : State) (f : FaultInfo)

/-- A breakpoint register holds the instruction address `a`, its low two bits ignored (R546). -/
def bpMatches (b : Breakpoint) (a : Word) : Bool := b.enabled && wordAligned b.ip == a

/-- The breakpoint-register event of the instruction at `a` (R546). -/
def signalBreakpoint (a : Word) (s : State) : State :=
  if bpMatches s.bp0 a || bpMatches s.bp1 a then signalIfEnabled .breakpoint s else s

/-- The events every completed instruction may cause: breakpoint register and instruction (R540, R546). -/
def commonEvents (a : Word) (s : State) : State := signalIfEnabled .instruction (signalBreakpoint a s)

/-- The instruction at `a` has completed: `last_ip` (R552), and one instruction less for which a trace-enable
change is held back (R595). -/
def retire (a : Word) (s : State) : State := { s with lastIp := a, teHold := s.teHold - 1 }

/-- Stages 4 to 6 of the machine step (R552) for an instruction at `s0.ip` whose rule comes to `e`. -/
def finishEffect (s0 : State) (e : Effect) : Result State :=
  match e with
  | .done s => .ok (retire s0.ip (commonEvents s0.ip s))
  | .doneCheck s => checkPending (retire s0.ip (commonEvents s0.ip s))
  | .restored s check => if check then checkPending (retire s0.ip s) else .ok (retire s0.ip s)
  | .early f => deliverFault f s0
  | .late s f => deliverFault f (retire s0.ip (commonEvents s0.ip s))

/-- The outcome the host reads. -/
def toOutcome (r : Result State) : Host.Outcome State Fault Refusal :=
  match r with
  | .ok s => .next s
  | .error (.fault f) => .fault f
  | .error (.refused r) => .refused r

/-- The outcome of the instruction at `s0.ip` whose rule comes to `r`. -/
def finish (s0 : State) (r : Result Effect) : Host.Outcome State Fault Refusal :=
  toOutcome (r.bind (finishEffect s0))

/-- A one-word instruction has completed in state `s`: IP goes on to the next (R28). -/
def next4 (s : State) : Effect := .done { s with ip := s.ip + 4#32 }

end Sys2Proof.Machine
end

