-- ==== Sys2Proof/Machine/Boot.lean ====
section
/-! DEFINITION. The first stage of initialization and the pointers cached from the initial memory image
(70_reset_and_hazards.md, R571 to R588). -/
namespace Sys2Proof.Machine

/-- Check-sum word `i`: `x(i)` (R571, R581). -/
def checksumWord (s : State) (i : Nat) : Word := wordAt s (4 * i)

/-- `a add_with_carry b` with carry `c`: the sum and the carry out (R573). -/
def addWithCarry (a b : Word) (c : Bool) : Word × Bool :=
  let n := a.toNat + b.toNat + c.toNat
  (BitVec.ofNat 32 n, decide (2 ^ 32 ≤ n))

/-- The value and the carry after the check-sum words from the first of `l` on (R573). -/
def checksumFrom (s : State) : List Nat → Word × Bool → Word × Bool
  | [], t => t
  | i :: rest, t => checksumFrom s rest (addWithCarry t.1 (checksumWord s i) t.2)

/-- The check sum (R571, R573): from 0xFFFFFFFF with carry 0 over the eight words. -/
def checksum (s : State) : Word := (checksumFrom s (List.range 8) (0xFFFFFFFF#32, false)).1

/-- The pointers read from the initial memory image and cached (R579, R588, D30): `sat` is where the system
address table is looked for, `prcb` the processor control block, whose scratch space is the processor's from here on
(log 45). They stand on their boundaries (R88, R584); if not, the load is refused as misaligned: DESIGN CHOICE, log
42. -/
def loadPointers (sat prcb : Word) (s : State) : Result State := do
  checkBoundary 4096 sat
  checkBoundary s.params.controlBlockBoundary prcb
  let (satBase, s1) ← loadEntry { s with prcbBase := prcb } sat 136#32
  checkBoundary 4096 satBase
  let (sysproc, s2) ← loadEntry s1 satBase 152#32
  let (trace, s3) ← loadEntry s2 satBase 168#32
  let (intTable, s4) ← loadEntry s3 prcb 20#32
  let (intStack, s5) ← loadEntry s4 prcb 24#32
  let (faultTable, s6) ← loadEntry s5 prcb 40#32
  return { s6 with
    satBase := satBase, sysprocBase := sysproc, traceBase := trace
    intTable := intTable, intStack := intStack, faultTable := faultTable }

/-- No word counts as executed (R108: since reset or re-initialization). -/
def forgetExecuted (s : State) : State := { s with executed := [], stale := [] }

/-- The first stage of initialization (R571), of a processor whose self test passes (R572, log 6): with a check
sum other than zero it stops with FAIL asserted; else it loads its pointers, IP and FP, sets its priority to 31
and its state to interrupted, and runs. -/
def firstStage (s : State) : Result State :=
  if checksum s ≠ 0#32 then .ok { s with status := .stopped, failPin := true }
  else do
    let s1 ← loadPointers (checksumWord s 0) (checksumWord s 1) s
    let s2 := setReg s1 fpReg s1.intStack
    return { forgetExecuted s2 with
      pc := setBit (setField s2.pc 16 5 31#5) 13 true
      ip := wordAligned (checksumWord s 3), pinLatch := 0#4, status := .running }

end Sys2Proof.Machine
end

