-- ==== Sys2Proof/Machine/Operands.lean ====
section
/-! DEFINITION. Integer operands and effective addresses (R125, R128, R129, 30_encoding.md). -/
namespace Sys2Proof.Machine

/-- The value of an integer source: the register, or the literal zero-extended (R125). -/
def srcValue (s : State) (x : Src) : Word :=
  match x with
  | .reg n => getReg s n
  | .lit v => v.setWidth 32

/-- Word `k` of an integer source of two or three words (R12): register `n + k`. The words above the first of a
literal have no value in the spec: free values. DESIGN CHOICE, log 31. -/
def srcWord (s : State) (x : Src) (k : Nat) : Word :=
  match x with
  | .reg n => getReg s (n + BitVec.ofNat 5 k)
  | .lit v => if k = 0 then v.setWidth 32 else freeAt s (k - 1)

/-- The free values that reading words 1 to `k` of an integer source draws. -/
def srcDraws (x : Src) (k : Nat) : Nat :=
  match x with
  | .reg _ => 0
  | .lit _ => k

/-- The 64-bit value of an integer source: `x[n+1] ++ x[n]` (R12). -/
def srcLong (s : State) (x : Src) : BitVec 64 := srcWord s x 1 ++ srcWord s x 0

/-- `xl[n] <- v` (R12): the low word in the lower-numbered register. -/
def setRegLong (s : State) (n : Reg) (v : BitVec 64) : State :=
  setReg (setReg s n (v.extractLsb' 0 32)) (n + 1#5) (v.extractLsb' 32 32)

/-- `x[index] * 2^scale` (R129). -/
def scaled (s : State) (x : Reg) (c : BitVec 3) : Word := getReg s x <<< c.toNat

/-- The effective address (R128, R129), modulo 2^32. -/
def effectiveAddr (s : State) (a : Addr) : Word :=
  match a with
  | .offset o => o.setWidth 32
  | .baseOffset n o => getReg s n + o.setWidth 32
  | .base n => getReg s n
  | .ipDisp d => s.ip + 8#32 + d
  | .baseIndex n x c => getReg s n + scaled s x c
  | .disp d => d
  | .baseDisp n d => getReg s n + d
  | .indexDisp x c d => scaled s x c + d
  | .baseIndexDisp n x c d => getReg s n + scaled s x c + d

/-- The length in bytes of a MEM instruction with this address: 8 where there is a displacement word (R131). -/
def memLength (a : Addr) : Word :=
  match a with
  | .offset _ | .baseOffset _ _ | .base _ | .baseIndex _ _ _ => 4#32
  | .ipDisp _ | .disp _ | .baseDisp _ _ | .indexDisp _ _ _ | .baseIndexDisp _ _ _ _ => 8#32

/-- A MEM instruction that does not transfer control has completed in state `s`. -/
def nextMem (a : Addr) (s : State) : Effect := .done { s with ip := s.ip + memLength a }

/-- The rule `e` of an instruction other than floating point whose register operands keep the alignment of
their width if `ok`; if not, Operation.InvalidOperand is raised before execution (R138). PRESUMED, log 30. -/
def requireAligned (ok : Bool) (s : State) (e : Result Effect) : Result Effect :=
  if ok then e else .ok (.early (invalidOperandFault s))

end Sys2Proof.Machine
end

