-- ==== Sys2Proof/Machine/CallReturn.lean ====
section
/-! DEFINITION. Procedure calls, returns and branches (47_call_return.md; 44_fp_compare_classify.md R321 to
R324). -/
namespace Sys2Proof.Machine

/-- The target of a CTRL instruction: `IP + disp` (R127), modulo 2^32: one that passes 0 lies in the reserved space and
is refused at the fetch. DESIGN CHOICE, log 38. -/
def ctrlTarget (s : State) (t : CtrlDisp) : Word := s.ip + ctrlOffset t

/-! ### Calls -/

/-- The RIP stored in the caller's r2, then the call operation (R384). -/
def callFrom (rip target b : Word) (status : BitVec 3) (s : State) : Result State :=
  callOp target b status (setReg s ripReg rip)

/-- `call` (R385). -/
def ruleCall (t : CtrlDisp) (s : State) : Result Effect := do
  let s1 ← callFrom (s.ip + 4#32) (ctrlTarget s t) (getReg s spReg) 0b000#3 s
  return .done s1

/-- `call targ` (R385). -/
def execCall (t : CtrlDisp) (s : State) : Host.Outcome State Fault Refusal := finish s (ruleCall t s)

/-- `callx` (R386): the address is computed before r2 is written. -/
def ruleCallx (a : Addr) (s : State) : Result Effect := do
  let s1 ← callFrom (s.ip + memLength a) (effectiveAddr s a) (getReg s spReg) 0b000#3 s
  return .done s1

/-- `callx targ` (R386). -/
def execCallx (a : Addr) (s : State) : Host.Outcome State Fault Refusal := finish s (ruleCallx a s)

/-- The supervisor event of a `calls` whose entry is a supervisor procedure (R544). -/
def supervisorEvent (s : State) : State := signalIfEnabled .supervisor s

/-- The return status of a supervisor call from user mode: 01 and the old trace-enable flag (R388). -/
def supervisorStatus (te : Bool) : BitVec 3 := 0b01#2 ++ BitVec.ofBool te

/-- `calls` to the entry word of the system-procedure table (R388). -/
def callEntry (entry : Word) (s : State) : Result Effect :=
  match (entry.setWidth 2).toNat with
  | 0 => do
    let s1 ← callFrom (s.ip + 4#32) (wordAligned entry) (getReg s spReg) 0b000#3 s
    return .done s1
  | 2 =>
    if pcEm s then do
      let s1 ← callFrom (s.ip + 4#32) (wordAligned entry) (getReg s spReg) 0b000#3 s
      return .done (supervisorEvent s1)
    else do
      let (w, s1) ← loadEntry s s.sysprocBase 12#32
      let s2 ← callFrom (s.ip + 4#32) (wordAligned entry) (wordAligned w) (supervisorStatus (pcTe s))
        (setEm (setTe s1 (getBit w 0)) true)
      return .done (supervisorEvent s2)
  | _ => .error (.refused .reservedEntryType)

/-- `calls` (R388): a procedure number above 259 raises Protection.Length (R476). -/
def ruleCalls (targ : Src) (s : State) : Result Effect :=
  let n := srcValue s targ
  if n.toNat > 259 then .ok (.early (protectionLengthFault s))
  else do
    let (entry, s1) ← loadEntry s s.sysprocBase (procedureOffset n)
    callEntry entry s1

/-- `calls targ` (R388). -/
def execCalls (targ : Src) (s : State) : Host.Outcome State Fault Refusal := finish s (ruleCalls targ s)

/-! ### Branch and link (R390 to R392) -/

/-- The call event of a branch-and-link, which also sets the prereturn-trace flag of the current frame
(R391, R542). -/
def linkEvent (s : State) : State :=
  if traceMode s .call then signal .call (setReg s pfpReg (setBit (getReg s pfpReg) 3 true)) else s

/-- `bal` (R392). -/
def ruleBal (t : CtrlDisp) (s : State) : Result Effect :=
  let s1 := linkEvent (setReg s linkReg (s.ip + 4#32))
  .ok (.done { s1 with ip := ctrlTarget s t })

/-- `bal targ` (R392). -/
def execBal (t : CtrlDisp) (s : State) : Host.Outcome State Fault Refusal := finish s (ruleBal t s)

/-- `balx` (R391): the address is computed first. -/
def ruleBalx (a : Addr) (dst : Reg) (s : State) : Result Effect :=
  let s1 := linkEvent (setReg s dst (s.ip + memLength a))
  .ok (.done { s1 with ip := wordAligned (effectiveAddr s a) })

/-- `balx targ, dst` (R391). -/
def execBalx (a : Addr) (dst : Reg) (s : State) : Host.Outcome State Fault Refusal :=
  finish s (ruleBalx a dst s)

/-! ### Branches (R321 to R324, R393, R394) -/

/-- A branch that branches: IP and the branch event (R541). -/
def branchTo (target : Word) (s : State) : Effect := .done (signalIfEnabled .branch { s with ip := target })

/-- `bx targ` (R393). -/
def execBx (a : Addr) (s : State) : Host.Outcome State Fault Refusal :=
  finish s (.ok (branchTo (wordAligned (effectiveAddr s a)) s))

/-- `b targ` (R394). -/
def execB (t : CtrlDisp) (s : State) : Host.Outcome State Fault Refusal :=
  finish s (.ok (branchTo (ctrlTarget s t) s))

/-- The condition of a mask against the condition code (R321, R440). -/
def conditionHolds (m cc : BitVec 3) : Bool := (m &&& cc) != 0#3 || (m == 0#3 && cc == 0#3)

/-- A conditional branch with mask `m` (R321). -/
def ruleBranchIf (m : BitVec 3) (t : CtrlDisp) (s : State) : Result Effect :=
  .ok (if conditionHolds m (acCc s) then branchTo (ctrlTarget s t) s else next4 s)

/-- `bno targ` (R323). -/
def execBno (t : CtrlDisp) (s : State) : Host.Outcome State Fault Refusal :=
  finish s (ruleBranchIf 0b000#3 t s)

/-- `bg targ` (R324). -/
def execBg (t : CtrlDisp) (s : State) : Host.Outcome State Fault Refusal :=
  finish s (ruleBranchIf 0b001#3 t s)

/-- `be targ` (R324). -/
def execBe (t : CtrlDisp) (s : State) : Host.Outcome State Fault Refusal :=
  finish s (ruleBranchIf 0b010#3 t s)

/-- `bge targ` (R324). -/
def execBge (t : CtrlDisp) (s : State) : Host.Outcome State Fault Refusal :=
  finish s (ruleBranchIf 0b011#3 t s)

/-- `bl targ` (R324). -/
def execBl (t : CtrlDisp) (s : State) : Host.Outcome State Fault Refusal :=
  finish s (ruleBranchIf 0b100#3 t s)

/-- `bne targ` (R324). -/
def execBne (t : CtrlDisp) (s : State) : Host.Outcome State Fault Refusal :=
  finish s (ruleBranchIf 0b101#3 t s)

/-- `ble targ` (R324). -/
def execBle (t : CtrlDisp) (s : State) : Host.Outcome State Fault Refusal :=
  finish s (ruleBranchIf 0b110#3 t s)

/-- `bo targ` (R322). -/
def execBo (t : CtrlDisp) (s : State) : Host.Outcome State Fault Refusal :=
  finish s (ruleBranchIf 0b111#3 t s)

/-! ### Return (R396 to R400) -/

/-- The return event (R543). -/
def returnEvent (s : State) : State := signalIfEnabled .ret s

/-- `signal_own_events()` of a `ret` at `a` whose PC is restored from a record (R491). -/
def retOwnEvents (a : Word) (s : State) : State := commonEvents a (returnEvent s)

/-- PC restored from a record (R491, R527); a set resume flag is refused (D14). -/
def restorePc (pc : Word) (s : State) : Result State :=
  if resumeFlag pc then .error (.refused .resumeFlag) else .ok (setPc s pc)

/-- Return from a fault handler, `fault_return()` (R491): AC from the record; PC as well in supervisor mode
(R492). -/
def faultReturn (s : State) : Result Effect := do
  let record := curFrame s - faultRecordSize
  let (ac, s1) ← loadWord s (record + s.params.faultRecord.ac)
  if pcEm s then
    let (pc, s2) ← loadWord s1 (record + s.params.faultRecord.pc)
    let s3 ← restorePc pc { retOwnEvents s.ip s2 with ac := ac }
    let s4 ← returnOp s3
    return .restored s4 false
  else
    let s2 ← returnOp { s1 with ac := ac }
    return .done (returnEvent s2)

/-- Return from an interrupt handler, `interrupt_return()` (R527); the processor state follows the restored
`PC.state` (R56). -/
def interruptReturn (s : State) : Result Effect := do
  if !pcEm s then throw (.refused .returnInUserMode)
  let record := curFrame s - s.params.interruptRecord.size
  let (ac, s1) ← loadWord s (record + s.params.interruptRecord.ac)
  let (pc, s2) ← loadWord s1 (record + s.params.interruptRecord.pc)
  let s3 ← restorePc pc { retOwnEvents s.ip s2 with ac := ac }
  let s4 ← returnOp s3
  return .restored s4 true

/-- The supervisor return (R398, R399): the trace-enable flag from the status, then user mode. -/
def supervisorReturn (te : Bool) (s : State) : Result Effect := do
  if !pcEm s then throw (.refused .returnInUserMode)
  let s1 ← returnOp (setEm (setTe s te) false)
  return .done (returnEvent (supervisorEvent s1))

/-- `ret` (R398), by the return status in r0. -/
def ruleRet (s : State) : Result Effect :=
  match ((getReg s pfpReg).setWidth 3).toNat with
  | 0 => do
    let s1 ← returnOp s
    return .done (returnEvent s1)
  | 1 => faultReturn s
  | 2 => supervisorReturn false s
  | 3 => supervisorReturn true s
  | 7 => interruptReturn s
  | _ => .error (.refused .reservedReturnStatus)

/-- `ret` (R398). -/
def execRet (s : State) : Host.Outcome State Fault Refusal := finish s (ruleRet s)

/-! ### flushreg (R404) -/

/-- Every cached set written to its frame, newest first (R404). -/
def spillAll : List RegSet → State → Result State
  | [], s => .ok s
  | e :: rest, s =>
    match spillSet s e with
    | .error x => .error x
    | .ok s' => spillAll rest s'

/-- `flushreg` (R404): the cached sets are written to memory and forgotten; the current set is not. -/
def ruleFlushreg (s : State) : Result Effect := do
  let s1 ← spillAll s.older s
  return next4 { s1 with older := [] }

/-- `flushreg` (R404). -/
def execFlushreg (s : State) : Host.Outcome State Fault Refusal := finish s (ruleFlushreg s)

end Sys2Proof.Machine
end

