-- ==== Sys2Proof/Machine/Numerics.lean ====
section
/-! DEFINITION. Floating-point numerics (40_fp_numerics.md): formats, operand fetch, NaN results, rounding, and
the stages of an arithmetic instruction. Values are exact rationals. -/
namespace Sys2Proof.Machine

/-! ### Formats (R160) -/

/-- Exponent bits (R160). -/
def expBits (f : Fmt) : Nat :=
  match f with
  | .real => 8
  | .long => 11
  | .ext => 15

/-- Fraction bits (R160). -/
def fracBits (f : Fmt) : Nat :=
  match f with
  | .real => 23
  | .long => 52
  | .ext => 63

/-- `p_F`, the significand bits including the j-bit (R160). -/
def precision (f : Fmt) : Nat := fracBits f + 1

/-- The biasing constant (R160). -/
def expBias (f : Fmt) : Nat := 2 ^ (expBits f - 1) - 1

/-- The largest biased exponent, that of infinities and NaNs (R164). -/
def expMax (f : Fmt) : Nat := 2 ^ expBits f - 1

/-- `emin_F` (R160). -/
def eMin (f : Fmt) : Int := 1 - expBias f

/-- `emax_F` (R160). -/
def eMax (f : Fmt) : Int := expBias f

/-- `2 ^ k` for an integer `k`. -/
def pow2 (k : Int) : Rat :=
  match k with
  | .ofNat n => ((2 ^ n : Nat) : Rat)
  | .negSucc n => mkRat 1 (2 ^ (n + 1))

/-- `abs v`. -/
def ratAbs (v : Rat) : Rat := if v < 0 then -v else v

/-- `floor(log2 (abs v))` for `v` not zero. -/
def floorLog2 (v : Rat) : Int :=
  let n := v.num.natAbs
  let e : Int := (Nat.log2 n : Int) - (Nat.log2 v.den : Int)
  if pow2 e ≤ ratAbs v then e else e - 1

/-! ### Decoding (R166) -/

/-- The class and value of a bit pattern (R166). A NaN's fraction is left-aligned in 63 bits (R174). -/
inductive FVal where
  | zero (neg : Bool)
  | denorm (neg : Bool) (v : Rat)
  | norm (neg : Bool) (v : Rat)
  | inf (neg : Bool)
  | snan (neg : Bool) (frac : BitVec 63)
  | qnan (neg : Bool) (frac : BitVec 63)
  /-- A reserved encoding: nonzero exponent with the j-bit 0, extended real only. -/
  | reserved
  /-- Exponent 0 with the j-bit 1, extended real only: the spec gives it no meaning. -/
  | unnamed (neg : Bool)
deriving DecidableEq, Repr

/-- `v` with the sign `neg`. -/
def signed (neg : Bool) (v : Rat) : Rat := if neg then -v else v

/-- R165 and R166 for the fields of a pattern: sign, biased exponent, j-bit (implied in real and long real),
fraction. -/
def classify (f : Fmt) (neg : Bool) (e : Nat) (j : Bool) (frac : Nat) : FVal :=
  let frac63 : BitVec 63 := BitVec.ofNat 63 (frac * 2 ^ (63 - fracBits f))
  if e = 0 then
    if j then .unnamed neg
    else if frac = 0 then .zero neg
    else .denorm neg (signed neg (frac * pow2 (eMin f - fracBits f)))
  else if !j then .reserved
  else if e = expMax f then
    if frac = 0 then .inf neg
    else if frac63.getLsbD 62 then .qnan neg frac63
    else .snan neg frac63
  else .norm neg (signed neg (((2 ^ fracBits f + frac : Nat) : Rat) * pow2 ((e : Int) - expBias f - fracBits f)))

/-- `decode_real` (R161, R166): the j-bit is implied. -/
def decodeReal (w : Word) : FVal :=
  let e := (w.extractLsb' 23 8).toNat
  classify .real (w.getLsbD 31) e (e != 0) (w.extractLsb' 0 23).toNat

/-- `decode_long` (R162, R166): the j-bit is implied. -/
def decodeLong (w : BitVec 64) : FVal :=
  let e := (w.extractLsb' 52 11).toNat
  classify .long (w.getLsbD 63) e (e != 0) (w.extractLsb' 0 52).toNat

/-- `decode_ext` (R163, R166). -/
def decodeExt (w : Ext) : FVal :=
  classify .ext (w.getLsbD 79) (w.extractLsb' 64 15).toNat (w.getLsbD 63) (w.extractLsb' 0 63).toNat

/-! ### Operand fetch (R167) -/

/-- `xl[n]` (R12). -/
def getRegLong (s : State) (n : Reg) : BitVec 64 := getReg s (n + 1#5) ++ getReg s n

/-- The 80 bits of `xt[n]` (R163): bits 31:16 of the third register are ignored (D13). -/
def getRegExt (s : State) (n : Reg) : Ext :=
  (getReg s (n + 2#5)).extractLsb' 0 16 ++ getReg s (n + 1#5) ++ getReg s n

/-- `decode_F` of the registers from `n` on (R167). -/
def decodeRegs (f : Fmt) (s : State) (n : Reg) : FVal :=
  match f with
  | .real => decodeReal (getReg s n)
  | .long => decodeLong (getRegLong s n)
  | .ext => decodeExt (getRegExt s n)

/-- `fetch(F, opnd)` (R167): a floating-point register is always extended real; the literals are 0.0 and 1.0. -/
def fetch (f : Fmt) (s : State) (x : FpSrc) : FVal :=
  match x with
  | .reg n => decodeRegs f s n
  | .fpr k => decodeExt (getFp s k)
  | .zero => .zero false
  | .one => .norm false 1

/-- `Fd`, the destination format (R169). -/
def destFmt (f : Fmt) (dst : FpDst) : Fmt :=
  match dst with
  | .reg _ => f
  | .fpr _ => .ext

/-! ### Encoding and store (R165, R169) -/

/-- The fields of a pattern in format `f`, in the low bits of 80 (R161 to R163). -/
def packFields (f : Fmt) (neg : Bool) (e : Nat) (j : Bool) (frac : Nat) : Ext :=
  match f with
  | .real => (BitVec.ofBool neg ++ BitVec.ofNat 8 e ++ BitVec.ofNat 23 frac).setWidth 80
  | .long => (BitVec.ofBool neg ++ BitVec.ofNat 11 e ++ BitVec.ofNat 52 frac).setWidth 80
  | .ext => BitVec.ofBool neg ++ BitVec.ofNat 15 e ++ BitVec.ofBool j ++ BitVec.ofNat 63 frac

/-- A zero in format `f` (R164). -/
def encodeZero (f : Fmt) (neg : Bool) : Ext := packFields f neg 0 false 0

/-- An infinity in format `f` (R164). -/
def encodeInf (f : Fmt) (neg : Bool) : Ext := packFields f neg (expMax f) true 0

/-- A nonzero number representable in format `f` (R165): normalized, or denormalized below `2 ^ emin`. -/
def encodeNum (f : Fmt) (v : Rat) : Ext :=
  let a := ratAbs v
  let e := floorLog2 v
  if e < eMin f then packFields f (decide (v < 0)) 0 false (a * pow2 (fracBits f - eMin f)).floor.toNat
  else
    packFields f (decide (v < 0)) (e + expBias f).toNat true
      ((a * pow2 (fracBits f - e)).floor.toNat - 2 ^ fracBits f)

/-- A number representable in format `f`, a zero with the sign `neg`. -/
def encodeValue (f : Fmt) (neg : Bool) (v : Rat) : Ext := if v = 0 then encodeZero f neg else encodeNum f v

/-- `store(Fd, dst, bits)` (R169): the upper half of the third integer register is written as zero (D13). -/
def storeFp (f : Fmt) (dst : FpDst) (bits : Ext) (s : State) : State :=
  match dst with
  | .fpr k => setFp s k bits
  | .reg n =>
    match f with
    | .real => setReg s n (bits.extractLsb' 0 32)
    | .long => setRegLong s n (bits.extractLsb' 0 64)
    | .ext => setReg (setRegLong s n (bits.extractLsb' 0 64)) (n + 2#5) ((bits.extractLsb' 64 16).setWidth 32)

/-! ### NaN results (R172 to R175) -/

/-- The left-aligned fraction of a NaN operand and its sign. -/
def nanPart (a : FVal) : Option (Bool × BitVec 63) :=
  match a with
  | .snan neg f => some (neg, f)
  | .qnan neg f => some (neg, f)
  | .zero _ | .denorm _ _ | .norm _ _ | .inf _ | .reserved | .unnamed _ => none

/-- Of two NaNs, the one whose fraction is greater; on a tie `NAN_TIE_CHOICE` decides (R174, D8). -/
def chooseNan (tieFirst : Bool) (a b : Bool × BitVec 63) : Bool × BitVec 63 :=
  if b.2.ult a.2 then a else if a.2.ult b.2 then b else if tieFirst then a else b

/-- The NaN chosen among the operands (R174), if one is a NaN. -/
def chosenNan (tieFirst : Bool) : List FVal → Option (Bool × BitVec 63)
  | [] => none
  | a :: rest =>
    match nanPart a, chosenNan tieFirst rest with
    | some x, some y => some (chooseNan tieFirst x y)
    | some x, none => some x
    | none, y => y

/-- The QNaN of sign `neg` whose left-aligned fraction is `frac`, in format `f`: truncated, and its top
fraction bit set (R174). -/
def encodeQnan (f : Fmt) (neg : Bool) (frac : BitVec 63) : Ext :=
  packFields f neg (expMax f) true ((frac.toNat / 2 ^ (63 - fracBits f)) ||| 2 ^ (fracBits f - 1))

/-- `std_qnan(Fd)` (R175), its sign by `STD_QNAN_SIGN`. -/
def stdQnan (p : Params) (f : Fmt) : Ext := encodeQnan f p.stdQnanSign 0#63

/-- `nan_result(Fd, operands)` if an operand is a NaN, else the standard QNaN (R174, R175, R197). -/
def nanResult (p : Params) (f : Fmt) (ops : List FVal) : Ext :=
  match chosenNan p.nanTieFirst ops with
  | some (neg, frac) => encodeQnan f neg frac
  | none => stdQnan p f

/-! ### Rounding (R179 to R181) -/

/-- `round_grid(m, v, q)` (R179). -/
def roundGrid (m : RoundMode) (v q : Rat) : Rat :=
  let n := (v / q).floor
  let lo := q * n
  let hi := lo + q
  if v = lo then v
  else
    match m with
    | .up => hi
    | .down => lo
    | .zero => if 0 < v then lo else hi
    | .nearest =>
      if v - lo < hi - v then lo
      else if hi - v < v - lo then hi
      else if n % 2 = 0 then lo else hi

/-- `round_p(m, v, p)` (R179): `p` significant bits, unbounded exponent. -/
def roundP (m : RoundMode) (v : Rat) (p : Nat) : Rat := roundGrid m v (pow2 (floorLog2 v - p + 1))

/-- The maximum finite value of a format (R181). -/
def maxFinite (f : Fmt) : Rat := (2 - pow2 (1 - precision f)) * pow2 (eMax f)

/-- The result of a masked overflow, Tables 10-6 and 10-7 (R181). -/
def overflowResult (f : Fmt) (m : RoundMode) (neg : Bool) : Ext :=
  let toInf : Bool :=
    match m with
    | .up => !neg
    | .down => neg
    | .zero => false
    | .nearest => true
  if toInf then encodeInf f neg else encodeNum f (signed neg (maxFinite f))

/-- The exact value `v`, rounded to `u`, overflows format `f` (R180, R181; `OVERFLOW_DETECT`). -/
def overflows (p : Params) (f : Fmt) (v u : Rat) : Bool :=
  if p.overflowAfterRounding then decide (pow2 (eMax f + 1) ≤ ratAbs u) else decide (maxFinite f < ratAbs v)

/-- The result rounded to `u` is tiny in format `f`: tininess is detected after rounding (R180, R203). -/
def isTiny (f : Fmt) (u : Rat) : Bool := decide (ratAbs u < pow2 (eMin f))

/-- The denormalized result of a tiny value (R180). -/
def denormalize (f : Fmt) (m : RoundMode) (v : Rat) : Rat := roundGrid m v (pow2 (eMin f - precision f + 1))

/-! ### The result stage (R200 to R207) -/

/-- The rounding mode in force (R36), by `RC_DECODE`. -/
def roundMode (s : State) : RoundMode := s.params.rcDecode[(acRc s).toNat]'(acRc s).isLt

/-- The subtype bits of the floating-point faults (R190). -/
def subOverflow : Byte := 0x01
/-- Floating underflow. -/
def subUnderflow : Byte := 0x02
/-- Floating invalid operation. -/
def subInvalid : Byte := 0x04
/-- Floating zero divide. -/
def subZeroDivide : Byte := 0x08
/-- Floating inexact. -/
def subInexact : Byte := 0x10
/-- Floating reserved encoding. -/
def subReserved : Byte := 0x20

/-- The state a floating-point fault is raised in after its instruction: IP is the next instruction (R200). -/
def advance (s : State) : State := { s with ip := s.ip + 4#32 }

/-- `store(Fd, dst, res)` and completion. -/
def storeDone (f : Fmt) (dst : FpDst) (res : Ext) (s : State) : Effect := next4 (storeFp f dst res s)

/-- The store of an inexact result (R205): the flag if the mask is set, else the fault after the store. -/
def storeInexact (f : Fmt) (dst : FpDst) (res : Ext) (s : State) : Effect :=
  if acBit s fxmBit then storeDone f dst res (setAcFlag s fxfBit)
  else .late (advance (storeFp f dst res s)) (floatingFault subInexact s)

/-- The fault data and F1 of an unmasked overflow of `u`, of sign `neg` (R202, R374); F1 has no value in the
massive case. -/
def overflowData (f : Fmt) (m : RoundMode) (neg : Bool) (u : Rat) : Ext × Option Bool :=
  let e := floorLog2 u
  if e ≤ 16383 then (encodeNum .ext u, some false)
  else if e - 24576 ≤ 16383 then (encodeNum .ext (u / pow2 24576), some true)
  else
    let inf := overflowResult f m neg = encodeInf f neg
    (if inf then encodeInf .ext neg else encodeNum .ext (signed neg (maxFinite f)), none)

/-- The fault data and F1 of an unmasked underflow (R204, R374); F1 has no value in the massive case. -/
def underflowData (f : Fmt) (m : RoundMode) (v u : Rat) : Ext × Option Bool :=
  let e := floorLog2 u
  if -16382 ≤ e then (encodeNum .ext u, some false)
  else if -16382 ≤ e + 24576 then (encodeNum .ext (u * pow2 24576), some true)
  else (encodeValue .ext (decide (v < 0)) (denormalize f m v), none)

/-- An unmasked overflow or underflow fault with fault data `d` (R200, R202, R204): the inexact subtype bit if
the rounded result is inexact and its mask is clear; F0 tells the direction of the rounding (R207). -/
def rangeFault (sub : Byte) (v u : Rat) (d : Ext × Option Bool) (s : State) : Effect :=
  let inexact := decide (u ≠ v)
  .late (advance s)
    { floatingFault (if inexact && !acBit s fxmBit then sub ||| subInexact else sub) s with
      f0 := if inexact then some (decide (v < u)) else none
      f1 := d.2
      data := some d.1 }

/-- `deliver(Fd, dst, v)` (R200) for an exact value `v` that is not zero. -/
def deliver (f : Fmt) (dst : FpDst) (v : Rat) (s : State) : Effect :=
  let m := roundMode s
  let neg := decide (v < 0)
  let u := roundP m v (precision f)
  if overflows s.params f v u then
    if acBit s fomBit then storeInexact f dst (overflowResult f m neg) (setAcFlag s fofBit)
    else rangeFault subOverflow v u (overflowData f m neg u) s
  else if isTiny f u then
    if acBit s fumBit then
      let d := denormalize f m v
      if d = v then storeDone f dst (encodeValue f neg d) s
      else storeInexact f dst (encodeValue f neg d) (setAcFlag s fufBit)
    else rangeFault subUnderflow v u (underflowData f m v u) s
  else if u = v then storeDone f dst (encodeNum f u) s
  else storeInexact f dst (encodeNum f u) s

/-! ### The first-category exceptions (R194 to R199) -/

/-- The reserved-encoding fault (R194). -/
def reservedFault (s : State) : Effect := .early (floatingFault subReserved s)

/-- `invalid(Fd, dst, operands)` (R197). -/
def invalidResult (f : Fmt) (dst : FpDst) (ops : List FVal) (s : State) : Effect :=
  if acBit s fvmBit then storeDone f dst (nanResult s.params f ops) (setAcFlag s fvfBit)
  else .early (floatingFault subInvalid s)

/-- `zerodivide(Fd, dst, s)` (R198). -/
def zeroDivideResult (f : Fmt) (dst : FpDst) (neg : Bool) (s : State) : Effect :=
  if acBit s fzmBit then storeDone f dst (encodeInf f neg) (setAcFlag s fzfBit)
  else .early (floatingFault subZeroDivide s)

/-- The operand raises reserved encoding: a reserved encoding, or a denormalized number when not in
normalizing mode (R194). -/
def isReservedOperand (s : State) (a : FVal) : Bool :=
  match a with
  | .reserved => true
  | .denorm _ _ => !acBit s nmBit
  | .zero _ | .norm _ _ | .inf _ | .snan _ _ | .qnan _ _ | .unnamed _ => false

/-- The operand is a signaling NaN. -/
def isSnan (a : FVal) : Bool :=
  match a with
  | .snan _ _ => true
  | .zero _ | .denorm _ _ | .norm _ _ | .inf _ | .qnan _ _ | .reserved | .unnamed _ => false

/-- The operand is a NaN. -/
def isNan (a : FVal) : Bool := (nanPart a).isSome

/-- The operand has no meaning in the spec (R166). -/
def isUnnamed (a : FVal) : Bool :=
  match a with
  | .unnamed _ => true
  | .zero _ | .denorm _ _ | .norm _ _ | .inf _ | .snan _ _ | .qnan _ _ | .reserved => false

/-- An operand as the instruction rules look at it: denormalized and normalized numbers are numbers; what the
operand checks have dealt with is `nan`. -/
inductive Arg where
  | zero (neg : Bool)
  | num (v : Rat)
  | inf (neg : Bool)
  | nan
deriving DecidableEq, Repr

/-- The operand as an instruction rule looks at it. -/
def toArg (a : FVal) : Arg :=
  match a with
  | .zero neg => .zero neg
  | .denorm _ v => .num v
  | .norm _ v => .num v
  | .inf neg => .inf neg
  | .snan _ _ | .qnan _ _ | .reserved | .unnamed _ => .nan

/-- What the rule of an arithmetic instruction gives for operands that are neither reserved nor signaling. -/
inductive FpOutcome where
  /-- The instruction's invalid-operation condition holds. -/
  | invalid
  /-- An operand is a quiet NaN, and the invalid-operation condition does not hold. -/
  | nan
  /-- The zero-divide condition holds; the result's sign. -/
  | zeroDivide (neg : Bool)
  /-- An exact zero. -/
  | zero (neg : Bool)
  /-- An exact infinity. -/
  | inf (neg : Bool)
  /-- An exact nonzero number that the destination format represents, stored as it is. -/
  | exact (v : Rat)
  /-- An exact nonzero number that goes through `deliver`. -/
  | value (v : Rat)
  /-- An integral number rounded from another value, stored as it is, a zero with the sign `neg`; it signals
  inexact (R292). -/
  | rounded (neg : Bool) (v : Rat)
deriving DecidableEq, Repr

/-- The store of an outcome (R272, steps 2 to 6). -/
def storeOutcome (f : Fmt) (dst : FpDst) (ops : List FVal) (o : FpOutcome) (s : State) : Effect :=
  match o with
  | .invalid => invalidResult f dst ops s
  | .nan => storeDone f dst (nanResult s.params f ops) s
  | .zeroDivide neg => zeroDivideResult f dst neg s
  | .zero neg => storeDone f dst (encodeZero f neg) s
  | .inf neg => storeDone f dst (encodeInf f neg) s
  | .exact v => storeDone f dst (encodeNum f v) s
  | .value v => deliver f dst v s
  | .rounded neg v => storeInexact f dst (encodeValue f neg v) s

/-- The checks every arithmetic instruction makes on its operands before its own rule `k` (R199, D7): a pattern
with no meaning is refused (D11), then reserved encoding. -/
def checkOperands (ops : List FVal) (s : State) (k : Result Effect) : Result Effect :=
  if ops.any isUnnamed then .error (.refused .unnamedFpEncoding)
  else if ops.any (isReservedOperand s) then .ok (reservedFault s)
  else k

/-- The skeleton of an arithmetic instruction with a floating-point result (R199, R272): `o` is the outcome its
rule gives. -/
def arith (f : Fmt) (dst : FpDst) (ops : List FVal) (o : FpOutcome) (s : State) : Result Effect :=
  checkOperands ops s
    (.ok (if ops.any isSnan then invalidResult f dst ops s else storeOutcome f dst ops o s))

/-- The rule `e` of a floating-point instruction whose register operands keep the alignment of their format if
`ok`; if not, it is refused (R138, D10). Log 30. -/
def requireFpAligned (ok : Bool) (e : Result Effect) : Result Effect :=
  if ok then e else .error (.refused .misalignedFpRegister)

/-- The rule of a one-source arithmetic instruction of format `f`: `o` gives its outcome from the destination
format and the operand. -/
def arith1 (f : Fmt) (o : Fmt → Arg → FpOutcome) (src : FpSrc) (dst : FpDst) (s : State) : Result Effect :=
  let a := fetch f s src
  let fd := destFmt f dst
  requireFpAligned (src.fits f && dst.fits f) (arith fd dst [a] (o fd (toArg a)) s)

/-- The rule of a two-source arithmetic instruction of format `f`: `o` gives its outcome from the first and the
second operand. -/
def arith2 (f : Fmt) (o : Arg → Arg → FpOutcome) (src1 src2 : FpSrc) (dst : FpDst) (s : State) :
    Result Effect :=
  let a := fetch f s src1
  let b := fetch f s src2
  requireFpAligned (src1.fits f && src2.fits f && dst.fits f)
    (arith (destFmt f dst) dst [a, b] (o (toArg a) (toArg b)) s)

end Sys2Proof.Machine
end

