-- ==== Sys2Proof/Machine/FpArith.lean ====
section
/-! DEFINITION. Basic floating-point arithmetic (43_fp_basic_arithmetic.md). -/
namespace Sys2Proof.Machine

/-- The number is negative. -/
def isNeg (v : Rat) : Bool := decide (v < 0)

/-- A zero sum of operands of unlike sign: +0, but -0 when rounding down (R273). -/
def cancelled (m : RoundMode) : FpOutcome := .zero (m == .down)

/-- `x + y` (R273, R274). -/
def addOutcome (m : RoundMode) (x y : Arg) : FpOutcome :=
  match x, y with
  | .nan, _ => .nan
  | _, .nan => .nan
  | .inf p, .inf q => if p = q then .inf p else .invalid
  | .inf p, .zero _ => .inf p
  | .inf p, .num _ => .inf p
  | .zero _, .inf q => .inf q
  | .num _, .inf q => .inf q
  | .zero p, .zero q => if p = q then .zero p else cancelled m
  | .zero _, .num w => .value w
  | .num v, .zero _ => .value v
  | .num v, .num w => if v + w = 0 then cancelled m else .value (v + w)

/-- The operand with its sign reversed (R273). -/
def negArg (x : Arg) : Arg :=
  match x with
  | .zero p => .zero (!p)
  | .num v => .num (-v)
  | .inf p => .inf (!p)
  | .nan => .nan

/-- `src2 - src1` (R276). -/
def subOutcome (m : RoundMode) (x y : Arg) : FpOutcome := addOutcome m (negArg x) y

/-- `x * y` (R273, R278). -/
def mulOutcome (x y : Arg) : FpOutcome :=
  match x, y with
  | .nan, _ => .nan
  | _, .nan => .nan
  | .zero _, .inf _ => .invalid
  | .inf _, .zero _ => .invalid
  | .inf p, .inf q => .inf (p ^^ q)
  | .inf p, .num w => .inf (p ^^ isNeg w)
  | .num v, .inf q => .inf (isNeg v ^^ q)
  | .zero p, .zero q => .zero (p ^^ q)
  | .zero p, .num w => .zero (p ^^ isNeg w)
  | .num v, .zero q => .zero (isNeg v ^^ q)
  | .num v, .num w => .value (v * w)

/-- `src2 / src1` (R273, R280): the first operand is the divisor. -/
def divOutcome (x y : Arg) : FpOutcome :=
  match x, y with
  | .nan, _ => .nan
  | _, .nan => .nan
  | .zero _, .zero _ => .invalid
  | .inf _, .inf _ => .invalid
  | .zero p, .num w => .zeroDivide (p ^^ isNeg w)
  | .zero p, .inf q => .inf (p ^^ q)
  | .num v, .inf q => .inf (isNeg v ^^ q)
  | .inf p, .zero q => .zero (p ^^ q)
  | .inf p, .num w => .zero (p ^^ isNeg w)
  | .num v, .zero q => .zero (isNeg v ^^ q)
  | .num v, .num w => .value (w / v)

/-- `addr src1, src2, dst` (R274). -/
def execAddr (src1 src2 : FpSrc) (dst : FpDst) (s : State) : Host.Outcome State Fault Refusal :=
  finish s (arith2 .real (addOutcome (roundMode s)) src1 src2 dst s)

/-- `addrl src1, src2, dst` (R275). -/
def execAddrl (src1 src2 : FpSrc) (dst : FpDst) (s : State) : Host.Outcome State Fault Refusal :=
  finish s (arith2 .long (addOutcome (roundMode s)) src1 src2 dst s)

/-- `subr src1, src2, dst` (R276). -/
def execSubr (src1 src2 : FpSrc) (dst : FpDst) (s : State) : Host.Outcome State Fault Refusal :=
  finish s (arith2 .real (subOutcome (roundMode s)) src1 src2 dst s)

/-- `subrl src1, src2, dst` (R277). -/
def execSubrl (src1 src2 : FpSrc) (dst : FpDst) (s : State) : Host.Outcome State Fault Refusal :=
  finish s (arith2 .long (subOutcome (roundMode s)) src1 src2 dst s)

/-- `mulr src1, src2, dst` (R278). -/
def execMulr (src1 src2 : FpSrc) (dst : FpDst) (s : State) : Host.Outcome State Fault Refusal :=
  finish s (arith2 .real mulOutcome src1 src2 dst s)

/-- `mulrl src1, src2, dst` (R279). -/
def execMulrl (src1 src2 : FpSrc) (dst : FpDst) (s : State) : Host.Outcome State Fault Refusal :=
  finish s (arith2 .long mulOutcome src1 src2 dst s)

/-- `divr src1, src2, dst` (R280). -/
def execDivr (src1 src2 : FpSrc) (dst : FpDst) (s : State) : Host.Outcome State Fault Refusal :=
  finish s (arith2 .real divOutcome src1 src2 dst s)

/-- `divrl src1, src2, dst` (R281). -/
def execDivrl (src1 src2 : FpSrc) (dst : FpDst) (s : State) : Host.Outcome State Fault Refusal :=
  finish s (arith2 .long divOutcome src1 src2 dst s)

/-! ### Remainder (R285 to R288) -/

/-- The quotient `N` of the remainder, by `REM_KIND` (R285): rounded to nearest if `ieee`, else toward zero. -/
def remQuotient (ieee : Bool) (x y : Rat) : Int := (roundGrid (if ieee then .nearest else .zero) (x / y) 1).floor

/-- `src2 rem src1` (R286): the first operand is the divisor. The remainder is delivered (R204), so that a tiny one
underflows in a destination as wide as the operands too, where R286 lists underflow for a narrower one only: DESIGN
CHOICE, log 44. -/
def remOutcome (ieee : Bool) (y x : Arg) : FpOutcome :=
  match y, x with
  | .zero _, _ => .invalid
  | _, .inf _ => .invalid
  | .nan, _ => .nan
  | _, .nan => .nan
  | .inf _, .num v => .value v
  | .inf _, .zero p => .zero p
  | .num _, .zero p => .zero p
  | .num w, .num v =>
    let r := v - remQuotient ieee v w * w
    if r = 0 then .zero (isNeg v) else .value r

/-- The value of an operand, with the sign of a zero and of an infinity; a NaN has none. -/
def argValue (a : Arg) : Option Config.FpValue :=
  match a with
  | .zero neg => some (.zero neg)
  | .num v => some (.num v)
  | .inf neg => some (.inf neg)
  | .nan => none

/-- The effect with the arithmetic status written where a numeric result is stored (R286): on completion, and on
an inexact fault, which comes after the store. DEDUCED, log 17. -/
def withStatus (st : BitVec 4) (e : Effect) : Effect :=
  match e with
  | .done s => .done (setAs s st)
  | .doneCheck s => .doneCheck s
  | .restored s c => .restored s c
  | .early f => .early f
  | .late s f => .late (if f.subtype = subInexact then setAs s st else s) f

/-- The arithmetic status the remainder of the divisor `y` and the dividend `x` writes where it stores a numeric
result (R286, R287); none on the invalid and NaN paths. -/
def remStatusOf (ieee : Bool) (y x : Arg) : Option (BitVec 4) :=
  match remOutcome ieee y x, argValue x, argValue y with
  | .invalid, _, _ => none
  | _, some p, some q => some (Config.remStatus p q)
  | _, _, _ => none

/-- The rule of the remainder instructions (R286): `AC.as` is unchanged on the invalid, NaN and fault paths. -/
def ruleRem (f : Fmt) (src1 src2 : FpSrc) (dst : FpDst) (s : State) : Result Effect :=
  let st := remStatusOf s.params.remIsIeee (toArg (fetch f s src1)) (toArg (fetch f s src2))
  (arith2 f (remOutcome s.params.remIsIeee) src1 src2 dst s).map fun e =>
    match st with
    | some v => withStatus v e
    | none => e

/-- `remr src1, src2, dst` (R286). -/
def execRemr (src1 src2 : FpSrc) (dst : FpDst) (s : State) : Host.Outcome State Fault Refusal :=
  finish s (ruleRem .real src1 src2 dst s)

/-- `remrl src1, src2, dst` (R288). -/
def execRemrl (src1 src2 : FpSrc) (dst : FpDst) (s : State) : Host.Outcome State Fault Refusal :=
  finish s (ruleRem .long src1 src2 dst s)

/-! ### Round to integral value (R292) -/

/-- The outcome of the round instructions in destination format `f` (R292). A large value is delivered, as the
pseudocode has it, and overflows a narrower destination, which the rule's list of exceptions leaves out: DESIGN CHOICE,
log 44. -/
def roundOutcome (m : RoundMode) (f : Fmt) (a : Arg) : FpOutcome :=
  match a with
  | .nan => .nan
  | .zero neg => .zero neg
  | .inf neg => .inf neg
  | .num v =>
    if pow2 (precision f - 1) ≤ ratAbs v then .value v
    else
      let n := roundGrid m v 1
      if n = v then .exact v else .rounded (isNeg v) n

/-- `roundr src, dst` (R292). -/
def execRoundr (src : FpSrc) (dst : FpDst) (s : State) : Host.Outcome State Fault Refusal :=
  finish s (arith1 .real (roundOutcome (roundMode s)) src dst s)

/-- `roundrl src, dst` (R293). -/
def execRoundrl (src : FpSrc) (dst : FpDst) (s : State) : Host.Outcome State Fault Refusal :=
  finish s (arith1 .long (roundOutcome (roundMode s)) src dst s)

/-! ### Square root (R296) -/

/-- The integer square root of `m`, from its bits below `2 ^ k` and the root `r` of those above. -/
def isqrtFrom (m : Nat) : Nat → Nat → Nat
  | 0, r => r
  | k + 1, r => if (r + 2 ^ k) * (r + 2 ^ k) ≤ m then isqrtFrom m k (r + 2 ^ k) else isqrtFrom m k r

/-- The square root of a positive value, or, where it is not rational, a value strictly between the two
neighbours of a 71-bit root, which rounds as the root does (R296). Log 33. -/
def sqrtValue (v : Rat) : Rat :=
  let k : Int := 70 - floorLog2 v / 2
  let m := (v * pow2 (2 * k)).floor.toNat
  let r := isqrtFrom m 72 0
  if r * r = m then r * pow2 (-k) else (r + mkRat 1 2) * pow2 (-k)

/-- The outcome of the square-root instructions (R296). The root is delivered, and can overflow or underflow a narrower
destination, where R296 says that a square root never does: DESIGN CHOICE, log 44. -/
def sqrtOutcome (_ : Fmt) (a : Arg) : FpOutcome :=
  match a with
  | .nan => .nan
  | .zero neg => .zero neg
  | .inf neg => if neg then .invalid else .inf false
  | .num v => if v < 0 then .invalid else .value (sqrtValue v)

/-- `sqrtr src, dst` (R296). -/
def execSqrtr (src : FpSrc) (dst : FpDst) (s : State) : Host.Outcome State Fault Refusal :=
  finish s (arith1 .real sqrtOutcome src dst s)

/-- `sqrtrl src, dst` (R297). -/
def execSqrtrl (src : FpSrc) (dst : FpDst) (s : State) : Host.Outcome State Fault Refusal :=
  finish s (arith1 .long sqrtOutcome src dst s)

end Sys2Proof.Machine
end

