-- ==== Sys2Proof/Machine/FpCompare.lean ====
section
/-! DEFINITION. Floating-point comparison and classification (44_fp_compare_classify.md). -/
namespace Sys2Proof.Machine

/-- The condition code of an ordering of the first operand against the second (R311). -/
def ordCc (o : Ordering) : BitVec 3 :=
  match o with
  | .gt => 0b001#3
  | .eq => 0b010#3
  | .lt => 0b100#3

/-- The ordering of two numbers. -/
def ratOrd (v w : Rat) : Ordering := if v < w then .lt else if v = w then .eq else .gt

/-- The place of an operand on the extended real line: `-1` below, `1` above every finite value, and the finite
value, zero for either zero (R311). -/
def lineOrd (x y : Arg) : Ordering :=
  match x, y with
  | .inf p, .inf q => if p = q then .eq else if p then .lt else .gt
  | .inf p, _ => if p then .lt else .gt
  | _, .inf q => if q then .gt else .lt
  | .num v, .num w => ratOrd v w
  | .num v, _ => ratOrd v 0
  | _, .num w => ratOrd 0 w
  | _, _ => .eq

/-- `AC.cc <- 000` for an unordered pair that signals invalid operation if `signals` (R312, R314). -/
def unordered (signals : Bool) (s : State) : Effect :=
  if signals then
    if acBit s fvmBit then next4 (setCc (setAcFlag s fvfBit) 0b000#3) else .early (floatingFault subInvalid s)
  else next4 (setCc s 0b000#3)

/-- The compare instructions (R312, R314): an SNaN signals, and with `ordered` any NaN. -/
def ruleCompare (f : Fmt) (ordered : Bool) (src1 src2 : FpSrc) (s : State) : Result Effect :=
  let a := fetch f s src1
  let b := fetch f s src2
  requireFpAligned (src1.fits f && src2.fits f)
    (checkOperands [a, b] s
      (.ok (if isNan a || isNan b then unordered (ordered || isSnan a || isSnan b) s
        else next4 (setCc s (ordCc (lineOrd (toArg a) (toArg b)))))))

/-- `cmpr src1, src2` (R312). -/
def execCmpr (src1 src2 : FpSrc) (s : State) : Host.Outcome State Fault Refusal :=
  finish s (ruleCompare .real false src1 src2 s)

/-- `cmprl src1, src2` (R313). -/
def execCmprl (src1 src2 : FpSrc) (s : State) : Host.Outcome State Fault Refusal :=
  finish s (ruleCompare .long false src1 src2 s)

/-- `cmpor src1, src2` (R314). -/
def execCmpor (src1 src2 : FpSrc) (s : State) : Host.Outcome State Fault Refusal :=
  finish s (ruleCompare .real true src1 src2 s)

/-- `cmporl src1, src2` (R315). -/
def execCmporl (src1 src2 : FpSrc) (s : State) : Host.Outcome State Fault Refusal :=
  finish s (ruleCompare .long true src1 src2 s)

/-- The code of an operand's class by `CLASS_CODES` (D39, R318); `none` for the pattern the spec gives no
meaning. Log 19. -/
def classCode (c : ClassCodes) (a : FVal) : Option (BitVec 3) :=
  match a with
  | .zero _ => some c.zero
  | .denorm _ _ => some c.denorm
  | .norm _ _ => some c.norm
  | .inf _ => some c.inf
  | .qnan _ _ => some c.qnan
  | .snan _ _ => some c.snan
  | .reserved => some c.reserved
  | .unnamed _ => none

/-- The sign bit of an operand's pattern (R318). -/
def signBit (f : Fmt) (s : State) (x : FpSrc) : Bool :=
  match x with
  | .reg n =>
    match f with
    | .real => (getReg s n).getLsbD 31
    | .long => (getRegLong s n).getLsbD 63
    | .ext => (getRegExt s n).getLsbD 79
  | .fpr k => (getFp s k).getLsbD 79
  | .zero => false
  | .one => false

/-- The classify instructions (R319): the class of the pattern, whatever its value; for the pattern without a
meaning the class is free (D11). -/
def ruleClass (f : Fmt) (src : FpSrc) (s : State) : Result Effect :=
  let neg := BitVec.ofBool (signBit f s src)
  requireFpAligned (src.fits f)
    (.ok (match classCode s.params.classCodes (fetch f s src) with
      | some c => next4 (setAs s (neg ++ c))
      | none => next4 (drawn (setAs s (neg ++ (freeAt s 0).setWidth 3)) 1)))

/-- `classr src` (R319). -/
def execClassr (src : FpSrc) (s : State) : Host.Outcome State Fault Refusal :=
  finish s (ruleClass .real src s)

/-- `classrl src` (R320). -/
def execClassrl (src : FpSrc) (s : State) : Host.Outcome State Fault Refusal :=
  finish s (ruleClass .long src s)

end Sys2Proof.Machine
end

