-- ==== Sys2Proof/Machine/FpConvert.lean ====
section
/-! DEFINITION. Conversions between integers and reals (42_fp_conversion.md). -/
namespace Sys2Proof.Machine

/-- The outcome of converting the integer `n` (R250). -/
def integerOutcome (n : Int) : FpOutcome := if n = 0 then .zero false else .value n

/-- `cvtir src, dst` (R250). -/
def execCvtir (src : Src) (dst : FpDst) (s : State) : Host.Outcome State Fault Refusal :=
  finish s (.ok (storeOutcome (destFmt .real dst) dst [] (integerOutcome (srcValue s src).toInt) s))

/-- The long integer of `cvtilr` (R251): a register pair, or a literal 0 to 31. -/
def longInteger (s : State) (x : Src) : Int :=
  match x with
  | .reg n => (getRegLong s n).toInt
  | .lit v => v.toNat

/-- `cvtilr src, dst` (R251). -/
def execCvtilr (src : Src) (dst : FpDst) (s : State) : Host.Outcome State Fault Refusal :=
  finish s (requireFpAligned (src.isEven && dst.fits .long)
    (.ok (storeOutcome (destFmt .long dst) dst [] (integerOutcome (longInteger s src)) s)))

/-- The width of an integer destination: 64 bits if `wide`, else 32 (R252). -/
def intWidth (wide : Bool) : Nat := if wide then 64 else 32

/-- An integer result written as two's complement of its width (R252). -/
def setInteger (wide : Bool) (dst : Reg) (v : BitVec 64) (s : State) : State :=
  if wide then setRegLong s dst v else setReg s dst (v.extractLsb' 0 32)

/-- `INT_OVERFLOW_RESULT(W, n)` for a finite integer (D25, R256): the low bits, or left open. Log 20. -/
def intOverflowResult (p : Params) (wide : Bool) (n : Int) : BitVec 64 :=
  match p.intOverflow with
  | .lowBits => (BitVec.ofInt (intWidth wide) n).setWidth 64
  | .other => Config.intOverflowResult (intWidth wide) n

/-- `int_overflow(W, dst, n)` (R256): the result is stored first; `none` is an infinity, for which it is a free
value (D25). -/
def intOverflow (wide : Bool) (dst : Reg) (n : Option Int) (s : State) : Effect :=
  let s1 :=
    match n with
    | some n => setInteger wide dst (intOverflowResult s.params wide n) s
    | none => drawn (setInteger wide dst (freeAt s 1 ++ freeAt s 0) s) 2
  if acBit s iomBit then next4 (setAcFlag s1 iofBit) else .late (advance s1) (integerOverflowFault s)

/-- The maximum negative integer of the width (R197). -/
def minInteger (wide : Bool) : BitVec 64 := BitVec.ofInt 64 (-(2 ^ (intWidth wide - 1) : Nat))

/-- The conversion of a number `v`, rounded to the integer `n` (R252). -/
def convertNumber (wide : Bool) (dst : Reg) (v : Rat) (n : Int) (s : State) : Effect :=
  let bound : Int := (2 ^ (intWidth wide - 1) : Nat)
  if -bound ≤ n ∧ n ≤ bound - 1 then
    let s1 := setInteger wide dst (BitVec.ofInt 64 n) s
    if v = n then next4 s1
    else if acBit s fxmBit then next4 (setAcFlag s1 fxfBit)
    else .late (advance s1) (floatingFault subInexact s)
  else intOverflow wide dst (some n) s

/-- `cvt(W, m, src, dst)` (R252): any NaN is an invalid operation. -/
def ruleCvt (wide : Bool) (m : RoundMode) (src : FpSrc) (dst : Reg) (s : State) : Result Effect :=
  let a := fetch .real s src
  checkOperands [a] s
    (.ok (match toArg a with
      | .nan =>
        if acBit s fvmBit then next4 (setAcFlag (setInteger wide dst (minInteger wide) s) fvfBit)
        else .early (floatingFault subInvalid s)
      | .zero _ => next4 (setInteger wide dst 0#64 s)
      | .inf _ => intOverflow wide dst none s
      | .num v => convertNumber wide dst v (roundGrid m v 1).floor s))

/-- `cvtri src, dst` (R252). -/
def execCvtri (src : FpSrc) (dst : Reg) (s : State) : Host.Outcome State Fault Refusal :=
  finish s (ruleCvt false (roundMode s) src dst s)

/-- `cvtril src, dst` (R253). -/
def execCvtril (src : FpSrc) (dst : Reg) (s : State) : Host.Outcome State Fault Refusal :=
  finish s (requireFpAligned (Reg.isEven dst) (ruleCvt true (roundMode s) src dst s))

/-- `cvtzri src, dst` (R254): rounding toward zero. -/
def execCvtzri (src : FpSrc) (dst : Reg) (s : State) : Host.Outcome State Fault Refusal :=
  finish s (ruleCvt false .zero src dst s)

/-- `cvtzril src, dst` (R255): rounding toward zero. -/
def execCvtzril (src : FpSrc) (dst : Reg) (s : State) : Host.Outcome State Fault Refusal :=
  finish s (requireFpAligned (Reg.isEven dst) (ruleCvt true .zero src dst s))

end Sys2Proof.Machine
end

