-- ==== Sys2Proof/Machine/FpTrig.lean ====
section
/-! DEFINITION. Trigonometric instructions (45_fp_trigonometric.md). The value before the final rounding is an
uninterpreted function that meets the constraints of R332 (D12, log 18). -/
namespace Sys2Proof.Machine

/-- The value needs more than 64 significant bits, so that every destination makes it inexact (R332 item 3). -/
def isWide (v : Rat) : Bool := decide (v ≠ 0) && decide (roundP .zero v 64 ≠ v)

/-- The number of sign `neg` whose magnitude is that of the value `raw` of an uninterpreted function, where it
meets the constraints of R332: width, and the bound `ok` on the magnitude; otherwise `alt`, which meets them. -/
def constrained (neg : Bool) (ok : Rat → Bool) (alt raw : Rat) : Rat :=
  signed neg (if isWide raw && ok (ratAbs raw) then ratAbs raw else alt)

/-- A value that needs more than 64 significant bits and is at most one: one half and 2^-80. -/
def wideHalf : Rat := mkRat 1 2 + pow2 (-80)

/-- The processor's value of pi (R345). -/
def pi66 : Rat := mkRat 0x3243F6A8885A308D3 (2 ^ 64)

/-- The number of half turns of the processor's pi, offset by `d`, in `n` times the magnitude of `v`. A
floating-point operand is never a whole number of them. -/
def halfTurns (n d v : Rat) : Int := (n * ratAbs v / pi66 + d).floor

/-- The sign of the sine, of period twice the processor's pi (R332 items 4 and 5). Log 18. -/
def sinSign (v : Rat) : Bool := isNeg v ^^ (halfTurns 1 0 v % 2 != 0)

/-- The sign of the cosine (R332 items 4 and 5). Log 18. -/
def cosSign (v : Rat) : Bool := halfTurns 1 (mkRat 1 2) v % 2 != 0

/-- The sign of the tangent (R332 items 4 and 5). Log 18. -/
def tanSign (v : Rat) : Bool := isNeg v ^^ (halfTurns 2 0 v % 2 != 0)

/-- `TRANSCENDENTAL.sin` (R331, R332): an odd function. -/
def sinFn (v : Rat) : Rat :=
  constrained (sinSign v) (fun r => decide (r ≤ 1)) wideHalf (Config.sinRaw (ratAbs v))

/-- `TRANSCENDENTAL.cos` (R331, R332): an even function. -/
def cosFn (v : Rat) : Rat :=
  constrained (cosSign v) (fun r => decide (r ≤ 1)) wideHalf (Config.cosRaw (ratAbs v))

/-- `TRANSCENDENTAL.tan` (R331, R332): an odd function. -/
def tanFn (v : Rat) : Rat := constrained (tanSign v) (fun _ => true) wideHalf (Config.tanRaw (ratAbs v))

/-- The sign of a coordinate. -/
def arcSign (y : Config.FpValue) : Bool :=
  match y with
  | .zero neg => neg
  | .num v => isNeg v
  | .inf neg => neg

/-- The magnitude of a coordinate. -/
def arcAbs (y : Config.FpValue) : Config.FpValue :=
  match y with
  | .zero _ => .zero false
  | .num v => .num (ratAbs v)
  | .inf _ => .inf false

/-- `TRANSCENDENTAL.atan2`, ordinate first (R332, R342): odd in the ordinate. -/
def atan2Fn (y x : Config.FpValue) : Rat :=
  constrained (arcSign y) (fun r => decide (r ≤ pi66)) wideHalf (Config.atan2Raw (arcAbs y) x)

/-- The outcome of the sine instructions (R333, R334). -/
def sinOutcome (_ : Fmt) (a : Arg) : FpOutcome :=
  match a with
  | .nan => .nan
  | .inf _ => .invalid
  | .zero neg => .zero neg
  | .num v => .value (sinFn v)

/-- The outcome of the cosine instructions (R333, R336). -/
def cosOutcome (_ : Fmt) (a : Arg) : FpOutcome :=
  match a with
  | .nan => .nan
  | .inf _ => .invalid
  | .zero _ => .exact 1
  | .num v => .value (cosFn v)

/-- The outcome of the tangent instructions (R333, R338). -/
def tanOutcome (_ : Fmt) (a : Arg) : FpOutcome :=
  match a with
  | .nan => .nan
  | .inf _ => .invalid
  | .zero neg => .zero neg
  | .num v => .value (tanFn v)

/-- The outcome of the arctangent instructions (R342): the first operand is the abscissa. -/
def atanOutcome (x y : Arg) : FpOutcome :=
  match x, y with
  | .nan, _ => .nan
  | _, .nan => .nan
  | .zero p, .zero q => if p then .value (atan2Fn (.zero q) (.zero p)) else .zero q
  | .num v, .zero q => if v < 0 then .value (atan2Fn (.zero q) (.num v)) else .zero q
  | .inf p, .zero q => if p then .value (atan2Fn (.zero q) (.inf p)) else .zero q
  | .inf p, .num w => if p then .value (atan2Fn (.num w) (.inf p)) else .zero (isNeg w)
  | .zero p, .num w => .value (atan2Fn (.num w) (.zero p))
  | .num v, .num w => .value (atan2Fn (.num w) (.num v))
  | .zero p, .inf q => .value (atan2Fn (.inf q) (.zero p))
  | .num v, .inf q => .value (atan2Fn (.inf q) (.num v))
  | .inf p, .inf q => .value (atan2Fn (.inf q) (.inf p))

/-- `sinr src, dst` (R334). -/
def execSinr (src : FpSrc) (dst : FpDst) (s : State) : Host.Outcome State Fault Refusal :=
  finish s (arith1 .real sinOutcome src dst s)

/-- `sinrl src, dst` (R335). -/
def execSinrl (src : FpSrc) (dst : FpDst) (s : State) : Host.Outcome State Fault Refusal :=
  finish s (arith1 .long sinOutcome src dst s)

/-- `cosr src, dst` (R336). -/
def execCosr (src : FpSrc) (dst : FpDst) (s : State) : Host.Outcome State Fault Refusal :=
  finish s (arith1 .real cosOutcome src dst s)

/-- `cosrl src, dst` (R337). -/
def execCosrl (src : FpSrc) (dst : FpDst) (s : State) : Host.Outcome State Fault Refusal :=
  finish s (arith1 .long cosOutcome src dst s)

/-- `tanr src, dst` (R338). -/
def execTanr (src : FpSrc) (dst : FpDst) (s : State) : Host.Outcome State Fault Refusal :=
  finish s (arith1 .real tanOutcome src dst s)

/-- `tanrl src, dst` (R339). -/
def execTanrl (src : FpSrc) (dst : FpDst) (s : State) : Host.Outcome State Fault Refusal :=
  finish s (arith1 .long tanOutcome src dst s)

/-- `atanr src1, src2, dst` (R342). -/
def execAtanr (src1 src2 : FpSrc) (dst : FpDst) (s : State) : Host.Outcome State Fault Refusal :=
  finish s (arith2 .real atanOutcome src1 src2 dst s)

/-- `atanrl src1, src2, dst` (R343). -/
def execAtanrl (src1 src2 : FpSrc) (dst : FpDst) (s : State) : Host.Outcome State Fault Refusal :=
  finish s (arith2 .long atanOutcome src1 src2 dst s)

end Sys2Proof.Machine
end

