-- ==== Sys2Proof/Machine/FpLog.lean ====
section
/-! DEFINITION. Logarithmic, exponential and scale instructions (46_fp_log_exp_scale.md). -/
namespace Sys2Proof.Machine

/-! ### Log binary (R354) -/

/-- The outcome of the log-binary instructions (R354). A zero exponent is +0: PRESUMED, log 32. -/
def logbnOutcome (_ : Fmt) (a : Arg) : FpOutcome :=
  match a with
  | .nan => .nan
  | .inf _ => .inf false
  | .zero _ => .zeroDivide true
  | .num v => if floorLog2 v = 0 then .zero false else .exact (floorLog2 v)

/-- `logbnr src, dst` (R354). -/
def execLogbnr (src : FpSrc) (dst : FpDst) (s : State) : Host.Outcome State Fault Refusal :=
  finish s (arith1 .real logbnOutcome src dst s)

/-- `logbnrl src, dst` (R355). -/
def execLogbnrl (src : FpSrc) (dst : FpDst) (s : State) : Host.Outcome State Fault Refusal :=
  finish s (arith1 .long logbnOutcome src dst s)

/-! ### Log and log epsilon (R358, R362) -/

/-- `TRANSCENDENTAL.ylog2x` (R332, R358): odd in Y. -/
def ylog2xFn (x y : Rat) : Rat :=
  constrained (isNeg y ^^ decide (x < 1)) (fun _ => true) wideHalf (Config.ylog2xRaw x (ratAbs y))

/-- `TRANSCENDENTAL.ylog2xp1` (R332, R362): odd in Y. -/
def ylog2xp1Fn (x y : Rat) : Rat :=
  constrained (isNeg y ^^ isNeg x) (fun _ => true) wideHalf (Config.ylog2xp1Raw x (ratAbs y))

/-- `k` where the positive number is exactly `2 ^ k`. -/
def exactLog2 (x : Rat) : Option Int := if x = pow2 (floorLog2 x) then some (floorLog2 x) else none

/-- `y * log2 x` (R358): the first operand is X, the second Y. -/
def logOutcome (x y : Arg) : FpOutcome :=
  match x, y with
  | .inf true, _ => .invalid
  | .num v, .nan => if v < 0 then .invalid else .nan
  | .nan, _ => .nan
  | _, .nan => .nan
  | .inf false, .zero _ => .invalid
  | .inf false, .num w => .inf (isNeg w)
  | .inf false, .inf q => .inf q
  | .zero _, .zero _ => .invalid
  | .zero _, .num w => .zeroDivide (!isNeg w)
  | .zero _, .inf q => .inf (!q)
  | .num v, .zero q => if v < 0 then .invalid else .zero (q ^^ decide (v < 1))
  | .num v, .inf q => if v < 0 ∨ v = 1 then .invalid else .inf (q ^^ decide (v < 1))
  | .num v, .num w =>
    if v < 0 then .invalid
    else if v = 1 then .zero (isNeg w)
    else
      match exactLog2 v with
      | some k => .value (w * k)
      | none => .value (ylog2xFn v w)

/-- `y * log2 (x + 1)` (R362): the first operand is X, the second Y. -/
def logepOutcome (x y : Arg) : FpOutcome :=
  match x, y with
  | .inf true, _ => .invalid
  | .num v, .nan => if v < -1 then .invalid else .nan
  | .nan, _ => .nan
  | _, .nan => .nan
  | .inf false, .zero _ => .invalid
  | .inf false, .num w => .inf (isNeg w)
  | .inf false, .inf q => .inf q
  | .zero _, .inf _ => .invalid
  | .zero p, .zero q => .zero (p ^^ q)
  | .zero p, .num w => .zero (p ^^ isNeg w)
  | .num v, .zero q => if v ≤ -1 then .invalid else .zero (q ^^ isNeg v)
  | .num v, .inf q => if v < -1 then .invalid else if v = -1 then .inf (!q) else .inf (q ^^ isNeg v)
  | .num v, .num w =>
    if v < -1 then .invalid
    else if v = -1 then .zeroDivide (!isNeg w)
    else
      match exactLog2 (v + 1) with
      | some k => .value (w * k)
      | none => .value (ylog2xp1Fn v w)

/-- `logr src1, src2, dst` (R358). -/
def execLogr (src1 src2 : FpSrc) (dst : FpDst) (s : State) : Host.Outcome State Fault Refusal :=
  finish s (arith2 .real logOutcome src1 src2 dst s)

/-- `logrl src1, src2, dst` (R359). -/
def execLogrl (src1 src2 : FpSrc) (dst : FpDst) (s : State) : Host.Outcome State Fault Refusal :=
  finish s (arith2 .long logOutcome src1 src2 dst s)

/-- `logepr src1, src2, dst` (R362). -/
def execLogepr (src1 src2 : FpSrc) (dst : FpDst) (s : State) : Host.Outcome State Fault Refusal :=
  finish s (arith2 .real logepOutcome src1 src2 dst s)

/-- `logeprl src1, src2, dst` (R363). -/
def execLogeprl (src1 src2 : FpSrc) (dst : FpDst) (s : State) : Host.Outcome State Fault Refusal :=
  finish s (arith2 .long logepOutcome src1 src2 dst s)

/-! ### Exponent (R366) -/

/-- From this argument on `2 ^ x - 1` is beyond every bias-adjusted exponent (R366). -/
def expMassive : Int := 40962

/-- `TRANSCENDENTAL.exp2m1` (R332, R366): above -1, and from `expMassive` on as large as R366 says. -/
def exp2m1Fn (x : Rat) : Rat :=
  if x < expMassive then
    constrained (isNeg x) (fun r => !isNeg x || decide (r < 1)) wideHalf (Config.exp2m1Raw x)
  else
    constrained false (fun r => decide (pow2 expMassive ≤ r)) (pow2 expMassive * (1 + pow2 (-80)))
      (Config.exp2m1Raw x)

/-- `2 ^ k - 1` for a nonzero integer `k`, or a value that rounds to `p` bits as it does, where that is shorter
(R366, executable shortcuts). Log 32. -/
def exp2m1Int (p : Nat) (k : Int) : Rat :=
  if k ≤ p + 2 then pow2 k - 1
  else
    let c := min k expMassive
    pow2 c - pow2 (c - p - 2)

/-- `2 ^ x - 1` (R366) in destination format `f`. -/
def expOutcome (f : Fmt) (a : Arg) : FpOutcome :=
  let p := precision f
  match a with
  | .nan => .nan
  | .zero neg => .zero neg
  | .inf neg => if neg then .exact (-1) else .inf false
  | .num v =>
    if v ≤ -((p : Int) + 2 : Int) then .value (-1 + pow2 (-((p : Int) + 2)))
    else if v = v.floor then .value (exp2m1Int p v.floor)
    else .value (exp2m1Fn v)

/-- `expr src, dst` (R366). -/
def execExpr (src : FpSrc) (dst : FpDst) (s : State) : Host.Outcome State Fault Refusal :=
  finish s (arith1 .real expOutcome src dst s)

/-- `exprl src, dst` (R367). -/
def execExprl (src : FpSrc) (dst : FpDst) (s : State) : Host.Outcome State Fault Refusal :=
  finish s (arith1 .long expOutcome src dst s)

/-! ### Scale (R372) -/

/-- The scale amount, clamped to where every larger one gives the same outcome (R372). -/
def clampScale (n : Int) : Int := max (-200000) (min n 200000)

/-- `y * 2 ^ n` (R372). -/
def scaleOutcome (n : Int) (_ : Fmt) (y : Arg) : FpOutcome :=
  match y with
  | .nan => .nan
  | .zero neg => .zero neg
  | .inf neg => .inf neg
  | .num v => .value (v * pow2 (clampScale n))

/-- `scaler src1, src2, dst` (R372). -/
def execScaler (src1 : Src) (src2 : FpSrc) (dst : FpDst) (s : State) : Host.Outcome State Fault Refusal :=
  finish s (arith1 .real (scaleOutcome (srcValue s src1).toInt) src2 dst s)

/-- `scalerl src1, src2, dst` (R373). -/
def execScalerl (src1 : Src) (src2 : FpSrc) (dst : FpDst) (s : State) : Host.Outcome State Fault Refusal :=
  finish s (arith1 .long (scaleOutcome (srcValue s src1).toInt) src2 dst s)

end Sys2Proof.Machine
end

