-- ==== Sys2Proof/Machine/FpMove.lean ====
section
/-! DEFINITION. Floating-point data movement (41_fp_data_movement.md). -/
namespace Sys2Proof.Machine

/-- The outcome of `movr` and `movrl` (R232): the value itself, through `deliver`. A denormalized number moved to
its own format underflows there, as R232's pseudocode has it; its list of exceptions names underflow for a move to
an integer register only: DESIGN CHOICE, log 41. -/
def moveOutcome (_ : Fmt) (a : Arg) : FpOutcome :=
  match a with
  | .zero neg => .zero neg
  | .num v => .value v
  | .inf neg => .inf neg
  | .nan => .nan

/-- `movr src, dst` (R232). -/
def execMovr (src : FpSrc) (dst : FpDst) (s : State) : Host.Outcome State Fault Refusal :=
  finish s (arith1 .real moveOutcome src dst s)

/-- `movrl src, dst` (R233). -/
def execMovrl (src : FpSrc) (dst : FpDst) (s : State) : Host.Outcome State Fault Refusal :=
  finish s (arith1 .long moveOutcome src dst s)

/-- The 80 bits of an extended-real operand, undecoded (R236). -/
def bits80 (s : State) (x : FpSrc) : Ext :=
  match x with
  | .reg n => getRegExt s n
  | .fpr k => getFp s k
  | .zero => 0#80
  | .one => 0x3FFF8000000000000000#80

/-- `movre src, dst` (R236). -/
def execMovre (src : FpSrc) (dst : FpDst) (s : State) : Host.Outcome State Fault Refusal :=
  finish s (requireFpAligned (src.fits .ext && dst.fits .ext)
    (.ok (storeDone .ext dst (bits80 s src) s)))

/-- The value of sign `neg` and magnitude of `a` (R238). -/
def withSign (neg : Bool) (a : Ext) : Ext := BitVec.ofBool neg ++ a.extractLsb' 0 79

/-- `cpysre src1, src2, dst` (R238). -/
def execCpysre (src1 src2 : FpSrc) (dst : FpDst) (s : State) : Host.Outcome State Fault Refusal :=
  finish s (requireFpAligned (src1.fits .ext && src2.fits .ext && dst.fits .ext)
    (.ok (storeDone .ext dst (withSign ((bits80 s src2).getLsbD 79) (bits80 s src1)) s)))

/-- `cpyrsre src1, src2, dst` (R239). -/
def execCpyrsre (src1 src2 : FpSrc) (dst : FpDst) (s : State) : Host.Outcome State Fault Refusal :=
  finish s (requireFpAligned (src1.fits .ext && src2.fits .ext && dst.fits .ext)
    (.ok (storeDone .ext dst (withSign (!(bits80 s src2).getLsbD 79) (bits80 s src1)) s)))

end Sys2Proof.Machine
end

