-- ==== Sys2Proof/Machine/Integer.lean ====
section
/-! DEFINITION. Moves, bit and arithmetic instructions on integer registers (48_system_and_other.md, R455 to
R463). -/
namespace Sys2Proof.Machine

/-- `mov src, dst` (R455). -/
def execMov (src : Src) (dst : Reg) (s : State) : Host.Outcome State Fault Refusal :=
  finish s (.ok (next4 (setReg s dst (srcValue s src))))

/-- A move of `n` words into the registers from `dst` on, all read before any is written (R456, R457). -/
def moveWords (s : State) (src : Src) (dst : Reg) (n : Nat) : State :=
  (List.range n).foldl (fun t k => setReg t (dst + BitVec.ofNat 5 k) (srcWord s src k))
    (drawn s (srcDraws src (n - 1)))

/-- `movl src, dst` (R456). -/
def execMovl (src : Src) (dst : Reg) (s : State) : Host.Outcome State Fault Refusal :=
  finish s (requireAligned (src.isEven && Reg.isEven dst) s (.ok (next4 (moveWords s src dst 2))))

/-- `movt src, dst` (R457). -/
def execMovt (src : Src) (dst : Reg) (s : State) : Host.Outcome State Fault Refusal :=
  finish s (requireAligned (src.isQuad && Reg.isQuad dst) s (.ok (next4 (moveWords s src dst 3))))

/-- A bit position: the operand modulo 32 (R460, R461). -/
def bitPosition (s : State) (x : Src) : Nat := (srcValue s x).toNat % 32

/-- `chkbit bitpos, src` (R460). -/
def execChkbit (bitpos src : Src) (s : State) : Host.Outcome State Fault Refusal :=
  finish s (.ok (next4 (setCc s (if getBit (srcValue s src) (bitPosition s bitpos) then 0b010#3 else 0b000#3))))

/-- `alterbit bitpos, src, dst` (R461): the bit becomes bit 1 of the condition code. -/
def execAlterbit (bitpos src : Src) (dst : Reg) (s : State) : Host.Outcome State Fault Refusal :=
  finish s (.ok (next4 (setReg s dst
    (setBit (srcValue s src) (bitPosition s bitpos) ((acCc s).getLsbD 1)))))

/-- `addo src1, src2, dst` (R462). -/
def execAddo (src1 src2 : Src) (dst : Reg) (s : State) : Host.Outcome State Fault Refusal :=
  finish s (.ok (next4 (setReg s dst (srcValue s src2 + srcValue s src1))))

/-- `ediv` (R463): remainder and quotient of an unsigned division, 64 bits by 32. -/
def ruleEdiv (src1 src2 : Src) (dst : Reg) (s : State) : Result Effect :=
  let d := (srcValue s src1).toNat
  if d = 0 then .ok (.early (zeroDivideFault s))
  else
    let n := (srcLong s src2).toNat
    .ok (next4 (setReg (setReg (drawn s (srcDraws src2 1)) dst (BitVec.ofNat 32 (n % d)))
      (dst + 1#5) (BitVec.ofNat 32 (n / d))))

/-- `ediv src1, src2, dst` (R463). -/
def execEdiv (src1 src2 : Src) (dst : Reg) (s : State) : Host.Outcome State Fault Refusal :=
  finish s (requireAligned (src2.isEven && Reg.isEven dst) s (ruleEdiv src1 src2 dst s))

end Sys2Proof.Machine
end

