-- ==== Sys2Proof/Machine/LoadStore.lean ====
section
/-! DEFINITION. Loads, stores and synchronous accesses (48_system_and_other.md, R444 to R452). -/
namespace Sys2Proof.Machine

/-- A program's reads of `n` words from `a` on into registers from `r` on (R86); all addresses are computed
before. -/
def loadRegs : Nat → Word → Reg → State → State
  | 0, _, _, s => s
  | n + 1, a, r, s =>
    let p := programRead s a
    loadRegs n (a + 4#32) (r + 1#5) (setReg p.2 r p.1)

/-- A load of `n` words, natural alignment `align` (R86, R89). The reads use the frame and cache as they are before
any destination is written. -/
def ruleLoad (n align : Nat) (a : Addr) (dst : Reg) (s : State) : Result Effect :=
  let ea := effectiveAddr s a
  match checkData s.params.dataAlign align (4 * n) ea with
  | .error e => .error e
  | .ok () => .ok (nextMem a (loadRegs n ea dst s))

/-- The values of the `n` registers from `r` on. -/
def regsFrom (s : State) (r : Reg) (n : Nat) : List Word :=
  (List.range n).map fun k => getReg s (r + BitVec.ofNat 5 k)

/-- A store of `n` words, natural alignment `align` (R89). -/
def ruleStore (n align : Nat) (src : Reg) (a : Addr) (s : State) : Result Effect :=
  let ea := effectiveAddr s a
  match checkData s.params.dataAlign align (4 * n) ea with
  | .error e => .error e
  | .ok () => .ok (nextMem a (putWords s ea (regsFrom s src n)))

/-- `ld src, dst` (R445). -/
def execLd (a : Addr) (dst : Reg) (s : State) : Host.Outcome State Fault Refusal :=
  finish s (ruleLoad 1 4 a dst s)

/-- `ldl src, dst` (R446). -/
def execLdl (a : Addr) (dst : Reg) (s : State) : Host.Outcome State Fault Refusal :=
  finish s (requireAligned (Reg.isEven dst) s (ruleLoad 2 8 a dst s))

/-- `ldt src, dst` (R447). -/
def execLdt (a : Addr) (dst : Reg) (s : State) : Host.Outcome State Fault Refusal :=
  finish s (requireAligned (Reg.isQuad dst) s (ruleLoad 3 16 a dst s))

/-- `st src, dst` (R448). -/
def execSt (src : Reg) (a : Addr) (s : State) : Host.Outcome State Fault Refusal :=
  finish s (ruleStore 1 4 src a s)

/-- `stl src, dst` (R449). -/
def execStl (src : Reg) (a : Addr) (s : State) : Host.Outcome State Fault Refusal :=
  finish s (requireAligned (Reg.isEven src) s (ruleStore 2 8 src a s))

/-- `stt src, dst` (R450). -/
def execStt (src : Reg) (a : Addr) (s : State) : Host.Outcome State Fault Refusal :=
  finish s (requireAligned (Reg.isQuad src) s (ruleStore 3 16 src a s))

/-- The condition code that reports completion of a synchronous access (R451). -/
def syncDone (s : State) : State := setCc s 0b010#3

/-- The word a synchronous access reads at `a`, and the state after the read: the interrupt-control register at
its address (R53, R83), memory outside the reserved space. -/
def syncRead (s : State) (a : Word) : Result (Word × State) :=
  if a = icrAddress then .ok (s.icr, s)
  else
    match checkAccess 4 a with
    | .error e => .error e
    | .ok () => .ok (programRead s a)

/-- `synld` (R451). -/
def ruleSynld (src : Src) (dst : Reg) (s : State) : Result Effect :=
  match syncRead s (wordAligned (srcValue s src)) with
  | .error e => .error e
  | .ok p => .ok (next4 (syncDone (setReg p.2 dst p.1)))

/-- `synld src, dst` (R451). -/
def execSynld (src : Src) (dst : Reg) (s : State) : Host.Outcome State Fault Refusal :=
  finish s (ruleSynld src dst s)

/-- `synmov` (R452): a write to the interrupt-control register or to memory; the IAC message space and the
rest of the reserved space are refused. A source at the interrupt-control register reads it (R53: `synmov` can read
the register; R452 has a memory read only): DEDUCED, log 39. -/
def ruleSynmov (dst src : Src) (s : State) : Result Effect :=
  let d := wordAligned (srcValue s dst)
  match syncRead s (wordAligned (srcValue s src)) with
  | .error e => .error e
  | .ok p =>
    if d = icrAddress then .ok (next4 (syncDone { p.2 with icr := p.1 }))
    else
      match storeWord p.2 d p.1 with
      | .error e => .error e
      | .ok s1 => .ok (next4 (syncDone s1))

/-- `synmov dst, src` (R452). -/
def execSynmov (dst src : Src) (s : State) : Host.Outcome State Fault Refusal :=
  finish s (ruleSynmov dst src s)

end Sys2Proof.Machine
end

