-- ==== Sys2Proof/Machine/System.lean ====
section
/-! DEFINITION. The instructions on the control registers, the breakpoint instructions, `syncf` and the
fault-if instructions (48_system_and_other.md, R420 to R440). -/
namespace Sys2Proof.Machine

/-- The bits of PC that are reserved (R46, R420). -/
def pcReserved : Word := 0xFFE0D9FC#32

/-- PC as `modpc` changes it: a changed trace-enable flag is held back for `MODPC_TRACE_DELAY` instructions
after this one (R595). What a change does while an earlier one is still held back, the spec does not say. DESIGN
CHOICE, log 21: the flag seen until then goes on being seen, and the count starts again; a `modpc` that leaves the
flag as PC has it leaves the earlier delay running. -/
def modifyPc (pc : Word) (s : State) : State :=
  if getBit pc 0 = pcTe s then { s with pc := pc }
  else if Config.modpcTraceDelay.val = 0 then { s with pc := pc, teHold := 0 }
  else { s with pc := pc, teHold := Config.modpcTraceDelay.val + 1, teOld := seenTe s }

/-- `modpc` (R420): a zero mask only reads PC, in either mode; any other needs supervisor mode. -/
def ruleModpc (mask : Src) (srcdst : Reg) (s : State) : Result Effect :=
  let m := srcValue s mask
  if m = 0#32 then .ok (next4 (setReg s srcdst s.pc))
  else if !pcEm s then .ok (.early (typeMismatchFault s))
  else if m &&& pcReserved ≠ 0#32 then .error (.refused .reservedPcBits)
  else
    let s1 := setReg (modifyPc (maskedUpdate s.pc m (getReg s srcdst)) s) srcdst s.pc
    let s2 := { s1 with ip := s.ip + 4#32 }
    .ok (if (pcPriority s2).ult (pcPriority s) then .doneCheck s2 else .done s2)

/-- `modpc src, mask, src/dst` (R420); `src` is a dummy operand. -/
def execModpc (_src mask : Src) (srcdst : Reg) (s : State) : Host.Outcome State Fault Refusal :=
  finish s (ruleModpc mask srcdst s)

/-- `modtc` (R422): only the mode and event flags can be changed. -/
def ruleModtc (mask src : Src) (dst : Reg) (s : State) : Result Effect :=
  let m := srcValue s mask &&& tcDefined
  .ok (next4 (setReg { s with tc := maskedUpdate s.tc m (srcValue s src) } dst s.tc))

/-- `modtc mask, src, dst` (R422). -/
def execModtc (mask src : Src) (dst : Reg) (s : State) : Host.Outcome State Fault Refusal :=
  finish s (ruleModtc mask src dst s)

/-- `modac` (R424). -/
def ruleModac (mask src : Src) (dst : Reg) (s : State) : Result Effect :=
  .ok (next4 (setReg { s with ac := maskedUpdate s.ac (srcValue s mask) (srcValue s src) } dst s.ac))

/-- `modac mask, src, dst` (R424). -/
def execModac (mask src : Src) (dst : Reg) (s : State) : Host.Outcome State Fault Refusal :=
  finish s (ruleModac mask src dst s)

/-- `mark` (R426): a breakpoint event if tracing and the breakpoint-trace mode are enabled. -/
def execMark (s : State) : Host.Outcome State Fault Refusal :=
  finish s (.ok (next4 (if pcTe s && traceMode s .breakpoint then signal .breakpoint s else s)))

/-- `fmark` (R427): a breakpoint event if tracing is enabled. -/
def execFmark (s : State) : Host.Outcome State Fault Refusal :=
  finish s (.ok (next4 (if pcTe s then signal .breakpoint s else s)))

/-- `syncf` (R430): acts as a no-op. -/
def execSyncf (s : State) : Host.Outcome State Fault Refusal := finish s (.ok (next4 s))

/-- The fault-if instructions (R440): Constraint.Range after execution if the condition holds. -/
def ruleFaultIf (m : BitVec 3) (s : State) : Result Effect :=
  .ok (if conditionHolds m (acCc s) then .late { s with ip := s.ip + 4#32 } (constraintRangeFault s)
    else next4 s)

/-- `faultno` (R432). -/
def execFaultno (s : State) : Host.Outcome State Fault Refusal := finish s (ruleFaultIf 0b000#3 s)

/-- `faultg` (R433). -/
def execFaultg (s : State) : Host.Outcome State Fault Refusal := finish s (ruleFaultIf 0b001#3 s)

/-- `faulte` (R434). -/
def execFaulte (s : State) : Host.Outcome State Fault Refusal := finish s (ruleFaultIf 0b010#3 s)

/-- `faultge` (R435). -/
def execFaultge (s : State) : Host.Outcome State Fault Refusal := finish s (ruleFaultIf 0b011#3 s)

/-- `faultl` (R436). -/
def execFaultl (s : State) : Host.Outcome State Fault Refusal := finish s (ruleFaultIf 0b100#3 s)

/-- `faultne` (R437). -/
def execFaultne (s : State) : Host.Outcome State Fault Refusal := finish s (ruleFaultIf 0b101#3 s)

/-- `faultle` (R438). -/
def execFaultle (s : State) : Host.Outcome State Fault Refusal := finish s (ruleFaultIf 0b110#3 s)

/-- `faulto` (R439). -/
def execFaulto (s : State) : Host.Outcome State Fault Refusal := finish s (ruleFaultIf 0b111#3 s)

end Sys2Proof.Machine
end

