-- ==== Sys2Proof/Machine/Dispatch.lean ====
section
/-! DEFINITION. The meaning of each instruction: one arm per constructor, one direct call per arm. -/
namespace Sys2Proof.Machine

/-- The effect of an instruction: stages 4 to 6 of the machine step (R552). -/
def exec (i : Instr) (s : State) : Host.Outcome State Fault Refusal :=
  match i with
  | .cvtir a d => Sys2Proof.Machine.execCvtir a d s
  | .cvtilr a d => Sys2Proof.Machine.execCvtilr a d s
  | .cvtri a d => Sys2Proof.Machine.execCvtri a d s
  | .cvtril a d => Sys2Proof.Machine.execCvtril a d s
  | .cvtzri a d => Sys2Proof.Machine.execCvtzri a d s
  | .cvtzril a d => Sys2Proof.Machine.execCvtzril a d s
  | .scaler a b d => Sys2Proof.Machine.execScaler a b d s
  | .scalerl a b d => Sys2Proof.Machine.execScalerl a b d s
  | .atanr a b d => Sys2Proof.Machine.execAtanr a b d s
  | .logepr a b d => Sys2Proof.Machine.execLogepr a b d s
  | .logr a b d => Sys2Proof.Machine.execLogr a b d s
  | .remr a b d => Sys2Proof.Machine.execRemr a b d s
  | .cmpor a b => Sys2Proof.Machine.execCmpor a b s
  | .cmpr a b => Sys2Proof.Machine.execCmpr a b s
  | .sqrtr a d => Sys2Proof.Machine.execSqrtr a d s
  | .expr a d => Sys2Proof.Machine.execExpr a d s
  | .logbnr a d => Sys2Proof.Machine.execLogbnr a d s
  | .roundr a d => Sys2Proof.Machine.execRoundr a d s
  | .sinr a d => Sys2Proof.Machine.execSinr a d s
  | .cosr a d => Sys2Proof.Machine.execCosr a d s
  | .tanr a d => Sys2Proof.Machine.execTanr a d s
  | .classr a => Sys2Proof.Machine.execClassr a s
  | .atanrl a b d => Sys2Proof.Machine.execAtanrl a b d s
  | .logeprl a b d => Sys2Proof.Machine.execLogeprl a b d s
  | .logrl a b d => Sys2Proof.Machine.execLogrl a b d s
  | .remrl a b d => Sys2Proof.Machine.execRemrl a b d s
  | .cmporl a b => Sys2Proof.Machine.execCmporl a b s
  | .cmprl a b => Sys2Proof.Machine.execCmprl a b s
  | .sqrtrl a d => Sys2Proof.Machine.execSqrtrl a d s
  | .exprl a d => Sys2Proof.Machine.execExprl a d s
  | .logbnrl a d => Sys2Proof.Machine.execLogbnrl a d s
  | .roundrl a d => Sys2Proof.Machine.execRoundrl a d s
  | .sinrl a d => Sys2Proof.Machine.execSinrl a d s
  | .cosrl a d => Sys2Proof.Machine.execCosrl a d s
  | .tanrl a d => Sys2Proof.Machine.execTanrl a d s
  | .classrl a => Sys2Proof.Machine.execClassrl a s
  | .movr a d => Sys2Proof.Machine.execMovr a d s
  | .movrl a d => Sys2Proof.Machine.execMovrl a d s
  | .movre a d => Sys2Proof.Machine.execMovre a d s
  | .cpysre a b d => Sys2Proof.Machine.execCpysre a b d s
  | .cpyrsre a b d => Sys2Proof.Machine.execCpyrsre a b d s
  | .divr a b d => Sys2Proof.Machine.execDivr a b d s
  | .mulr a b d => Sys2Proof.Machine.execMulr a b d s
  | .subr a b d => Sys2Proof.Machine.execSubr a b d s
  | .addr a b d => Sys2Proof.Machine.execAddr a b d s
  | .divrl a b d => Sys2Proof.Machine.execDivrl a b d s
  | .mulrl a b d => Sys2Proof.Machine.execMulrl a b d s
  | .subrl a b d => Sys2Proof.Machine.execSubrl a b d s
  | .addrl a b d => Sys2Proof.Machine.execAddrl a b d s
  | .alterbit p a d => Sys2Proof.Machine.execAlterbit p a d s
  | .addo a b d => Sys2Proof.Machine.execAddo a b d s
  | .chkbit p a => Sys2Proof.Machine.execChkbit p a s
  | .mov a d => Sys2Proof.Machine.execMov a d s
  | .movl a d => Sys2Proof.Machine.execMovl a d s
  | .movt a d => Sys2Proof.Machine.execMovt a d s
  | .synmov d a => Sys2Proof.Machine.execSynmov d a s
  | .synld a d => Sys2Proof.Machine.execSynld a d s
  | .modac m a d => Sys2Proof.Machine.execModac m a d s
  | .modtc m a d => Sys2Proof.Machine.execModtc m a d s
  | .modpc a m d => Sys2Proof.Machine.execModpc a m d s
  | .calls t => Sys2Proof.Machine.execCalls t s
  | .mark => Sys2Proof.Machine.execMark s
  | .fmark => Sys2Proof.Machine.execFmark s
  | .flushreg => Sys2Proof.Machine.execFlushreg s
  | .syncf => Sys2Proof.Machine.execSyncf s
  | .ediv a b d => Sys2Proof.Machine.execEdiv a b d s
  | .b t => Sys2Proof.Machine.execB t s
  | .call t => Sys2Proof.Machine.execCall t s
  | .ret => Sys2Proof.Machine.execRet s
  | .bal t => Sys2Proof.Machine.execBal t s
  | .bno t => Sys2Proof.Machine.execBno t s
  | .bg t => Sys2Proof.Machine.execBg t s
  | .be t => Sys2Proof.Machine.execBe t s
  | .bge t => Sys2Proof.Machine.execBge t s
  | .bl t => Sys2Proof.Machine.execBl t s
  | .bne t => Sys2Proof.Machine.execBne t s
  | .ble t => Sys2Proof.Machine.execBle t s
  | .bo t => Sys2Proof.Machine.execBo t s
  | .faultno => Sys2Proof.Machine.execFaultno s
  | .faultg => Sys2Proof.Machine.execFaultg s
  | .faulte => Sys2Proof.Machine.execFaulte s
  | .faultge => Sys2Proof.Machine.execFaultge s
  | .faultl => Sys2Proof.Machine.execFaultl s
  | .faultne => Sys2Proof.Machine.execFaultne s
  | .faultle => Sys2Proof.Machine.execFaultle s
  | .faulto => Sys2Proof.Machine.execFaulto s
  | .bx t => Sys2Proof.Machine.execBx t s
  | .balx t d => Sys2Proof.Machine.execBalx t d s
  | .callx t => Sys2Proof.Machine.execCallx t s
  | .ld a d => Sys2Proof.Machine.execLd a d s
  | .st a d => Sys2Proof.Machine.execSt a d s
  | .ldl a d => Sys2Proof.Machine.execLdl a d s
  | .stl a d => Sys2Proof.Machine.execStl a d s
  | .ldt a d => Sys2Proof.Machine.execLdt a d s
  | .stt a d => Sys2Proof.Machine.execStt a d s

end Sys2Proof.Machine
end

