-- ==== Sys2Proof/Machine/Fetch.lean ====
section
/-! DEFINITION. What comes before an instruction executes: stages 1 to 3 of the machine step (R552,
60_exceptions.md). -/
namespace Sys2Proof.Machine

/-! ### Stage 1: the interrupt pins (R517, R528, R529) -/

/-- The vector of a request on pin `k`; `none` where the request is ignored: INTR takes the controller's byte,
and INTA is an output (R528). -/
def pinVector (s : State) (k : Nat) : Option Byte :=
  if intrMode s && k == 2 then some s.intrVector
  else if intrMode s && k == 3 then none
  else some (icrVector s k)

/-- The requests on the pins of `l`, in turn: the latch is cleared and the vector received (R517). -/
def servicePins : List Nat → State → Result State
  | [], s => .ok s
  | k :: rest, s =>
    if s.pinLatch.getLsbD k then
      let s1 := { s with pinLatch := s.pinLatch &&& ~~~(1#4 <<< k) }
      match pinVector s1 k with
      | none => servicePins rest s1
      | some v => do
        let s2 ← receiveInterrupt v s1
        servicePins rest s2
    else servicePins rest s

/-! ### Stage 3: fetch (R121, R85, R108) -/

/-- The instruction word at `a`, now executed (R108); in the scratch space it is any value (R587). -/
def fetchWord (s : State) (a : Word) : Result (Word × State) :=
  match checkAccess 4 a with
  | .error e => .error e
  | .ok () =>
    if hasAddr s.stale a.toNat then .error (.refused .staleCode)
    else .ok (readWord (scratchWord s a) (markExecuted s a.toNat) a)

/-- The words of the instruction at IP: the second where the first asks for one (R131), else zero. -/
def fetchInstr (s : State) : Result (Word × Word × State) := do
  let (w, s1) ← fetchWord s s.ip
  if hasSecondWord w then
    let (d, s2) ← fetchWord s1 (s.ip + 4#32)
    return (w, d, s2)
  else return (w, 0#32, s1)

/-! ### The stages together -/

/-- What stages 1 to 3 come to: the step has ended in a fault, or the instruction executes. -/
inductive Prepared where
  | ended (s : State)
  | run (i : Instr) (s : State)

/-- The prereturn-trace check of a `ret` (R545): `true` if the step has ended in a prereturn fault. -/
def prereturnCheck (s : State) : Result (Bool × State) :=
  if getBit (getReg s pfpReg) 3 && traceMode s .prereturn then
    let s1 := signal .prereturn (setReg s pfpReg (setBit (getReg s pfpReg) 3 false))
    if pcTfp s1 && seenTe s1 then (traceFault s.ip none s1).map fun t => (true, t)
    else .ok (false, s1)
  else .ok (false, s)

/-- Stage 3 of the step (R552): fetch, decode, and the prereturn check of a `ret`. -/
def fetchStage (s : State) : Result Prepared := do
  let (w, d, s1) ← fetchInstr s
  match decode w d with
  | .refused .unknownOpcode => throw (.refused .unknownOpcode)
  | .refused .reservedBits => throw (.refused .reservedBits)
  | .invalidOpcode => return .ended (← deliverFault (invalidOpcodeFault s1) s1)
  | .instr i =>
    if i = .ret then
      let (ended, s2) ← prereturnCheck s1
      return if ended then .ended s2 else .run i s2
    else return .run i s1

/-- Stages 2 and 3 of the step (R548, R552): a pending trace fault ends it; with tracing disabled the event flags
are cleared instead (D43). -/
def traceStage (s : State) : Result Prepared :=
  if pcTfp s then
    if seenTe s then (traceFault s.ip (some s.lastIp) s).map .ended
    else fetchStage (clearEvents s)
  else fetchStage s

/-- Stages 1 to 3 of the step (R552). -/
def prepare (s : State) : Result Prepared := do
  let s1 ← servicePins (pinSequence s.params.pinOrder) s
  traceStage s1

end Sys2Proof.Machine
end

