-- ==== Sys2Proof/Machine/Step.lean ====
section
/-! DEFINITION. The machine step (R552, 60_exceptions.md). -/
namespace Sys2Proof.Machine

/-- One step of the processor: the first stage of initialization after RESET (R571); no step when stopped or
stuck (R563, R497); else stages 1 to 3 and the instruction (R552). -/
def step (s : State) : Host.Outcome State Fault Refusal :=
  match s.status with
  | .reset => toOutcome (firstStage s)
  | .stopped => .fault .stopped
  | .stuck => .fault .stuck
  | .running =>
    match prepare s with
    | .error e => toOutcome (.error e)
    | .ok (.ended s') => .next s'
    | .ok (.run i s') => exec i s'

/-- `s` with an instruction's words stored where the next step fetches, and nothing pending that would come
before it: the processor is past initialization, no pin is latched, no trace fault is pending, and the words are
not stale. Log 5. -/
def State.withFetchWord (s : State) (nbits w : Nat) : State :=
  let a := s.ip.toNat
  let mem1 := memWriteWord s.params.byteOrder s.mem a (tableWord nbits w 0)
  { setTfp s false with
    mem := memWriteWord s.params.byteOrder mem1 (a + 4) (tableWord nbits w 1)
    status := .running
    pinLatch := 0#4
    stale := s.stale.filter fun x => x ≠ a ∧ x ≠ a + 4 }

end Sys2Proof.Machine
end

