-- ==== Sys2Proof/Machine/HostActions.lean ====
section
/-! DEFINITION. What the outside world does to the processor, between two steps (R103, 20_memory.md; R530,
R552, 60_exceptions.md; R570, R588, 70_reset_and_hazards.md). -/
namespace Sys2Proof.Machine

/-- A request on interrupt pin `k` (R54, R517). -/
def requestPin (k : BitVec 2) (s : State) : State := { s with pinLatch := s.pinLatch ||| (1#4 <<< k.toNat) }

/-- A request on the INTR pin by an interrupt controller that will supply the vector `v` (R528). -/
def requestIntr (v : Byte) (s : State) : State := requestPin 2#2 { s with intrVector := v }

/-- The processor is running: host actions that it must act on have no effect when it has stopped (R515). -/
def isRunning (s : State) : Bool :=
  match s.status with
  | .running => true
  | .reset => false
  | .stopped => false
  | .stuck => false

/-- `iac_interrupt(v)` (R530). -/
def iacInterrupt (v : Byte) (s : State) : Result State :=
  if isRunning s then receiveInterrupt v s else .ok s

/-- `iac_test_pending` (R530). -/
def iacTestPending (s : State) : Result State := if isRunning s then checkPending s else .ok s

/-- `iac_set_breakpoint(bp0, bp1)` (R530, R558): `none` disables a register. -/
def iacSetBreakpoint (bp0 bp1 : Option Word) (s : State) : State :=
  if isRunning s then
    { s with bp0 := ⟨bp0.isSome, bp0.getD s.bp0.ip⟩, bp1 := ⟨bp1.isSome, bp1.getD s.bp1.ip⟩ }
  else s

/-- `iac_reinitialize(sat, prcb, ip)` (R588): the pointers and IP; PC, TC, AC, the registers, g15 and the
register cache stay. -/
def iacReinitialize (sat prcb ip : Word) (s : State) : Result State :=
  if isRunning s then do
    let s1 ← loadPointers sat prcb s
    return { forgetExecuted s1 with ip := wordAligned ip }
  else .ok s

/-- An external agent writes the byte `v` at `a` (R103). -/
def externalWrite (a : Word) (v : Byte) (s : State) : State := externalPut s a v

/-- RESET is asserted (R570): the whole processor state is replaced, memory is not. -/
def hardReset (s : State) : State :=
  { State.reset with mem := s.mem, draws := s.draws, intrVector := s.intrVector, params := s.params }

end Sys2Proof.Machine
end

