-- ==== Sys2Proof/Safety.lean ====
section
/-! DEFINITION. What counts as a safe run: the invariant of the machine, and a run of steps that ends in no fault
and no refusal. -/
namespace Sys2Proof.Machine

/-- A code address: its low two bits are zero (R28, R87, 10_state.md and 20_memory.md). -/
def isCodeAddress (a : Word) : Prop := wordAligned a = a

/-- What holds of every state the processor reaches. -/
structure Inv (s : State) : Prop where
  /-- Memory keeps its canonical form. -/
  memory : Memory.wf s.mem = true
  /-- At most `NSETS - 1` sets of calling procedures are on the chip (R25, R383). -/
  cached : s.older.length ≤ numSets - 1
  /-- A cached set belongs to a frame, which starts on a 64-byte boundary (R23, R382). -/
  frames : ∀ e ∈ s.older, frameAligned e.addr = e.addr
  /-- IP is a code address (R28). -/
  code : isCodeAddress s.ip
  /-- The last instruction stood at a code address (R28, R548). -/
  lastCode : isCodeAddress s.lastIp
  /-- The reserved bits of TC are zero (R48, R422). -/
  trace : s.tc &&& ~~~tcDefined = 0#32
  /-- FAIL is asserted exactly while the processor is stopped by a failed check sum (R572). -/
  fail : s.failPin = true ↔ s.status = .stopped
  /-- At most four instructions after a `modpc` see the old trace-enable flag (R595). -/
  delay : s.teHold ≤ 5
  /-- The words executed are listed once each, in rising order (log 8). -/
  executedRising : addrsRising 0 s.executed = true
  /-- The stale words are listed once each, in rising order (log 8). -/
  staleRising : addrsRising 0 s.stale = true
  /-- Only executed words are stale (R108). -/
  staleExecuted : ∀ a ∈ s.stale, a ∈ s.executed

/-- `k` steps from `s` end in `t`: none of them ends in a fault or a refusal. -/
def runsTo : Nat → State → State → Prop
  | 0, s, t => t = s
  | k + 1, s, t => ∃ s1, step s = .next s1 ∧ runsTo k s1 t

/-- The processor is executing a program or servicing an interrupt (R56, R563). -/
def isRunningState (s : State) : Prop := s.status = .running

end Sys2Proof.Machine
end

