-- ==== Sys2Proof/Certificates/Slice0/Obligations.lean ====
section
/-! DEFINITION. The statements for the provers, and the words they are said in. -/
namespace Sys2Proof.Claims
open Machine

/-! ### What an instruction keeps -/

/-- The state after the instruction at `a` whose own effect gives `u`: the events of every completed instruction
have been signaled, and it is the last one completed (stages 5 and 6 of R552). What it changes of `u` is the
subject of `Obligations.EventsAfterInstruction`. -/
def ended (a : Word) (u : State) : State := retire a (commonEvents a u)

/-- The outcome of a step that takes the fault `f` in state `s` (R480). -/
def faultsWith (f : FaultInfo) (s : State) : Host.Outcome State Fault Refusal := toOutcome (deliverFault f s)

/-- The registers outside any instruction's reach but those that name them: breakpoint registers,
interrupt-control register, latched pins, cached pointers, the processor state but for what PC.state mirrors, the
FAIL output, and the model's parameters. -/
structure SameSystem (s u : State) : Prop where
  bp0 : u.bp0 = s.bp0
  bp1 : u.bp1 = s.bp1
  icr : u.icr = s.icr
  pinLatch : u.pinLatch = s.pinLatch
  intrVector : u.intrVector = s.intrVector
  satBase : u.satBase = s.satBase
  prcbBase : u.prcbBase = s.prcbBase
  sysprocBase : u.sysprocBase = s.sysprocBase
  traceBase : u.traceBase = s.traceBase
  intTable : u.intTable = s.intTable
  intStack : u.intStack = s.intStack
  faultTable : u.faultTable = s.faultTable
  status : u.status = s.status
  failPin : u.failPin = s.failPin
  params : u.params = s.params

/-- Nothing of a kind. -/
def nothing {α : Type} (_ : α) : Prop := False

/-- One register. -/
def only (d : Reg) (r : Reg) : Prop := r = d

/-- The pair from `d` on (R27). -/
def pairOf (d : Reg) (r : Reg) : Prop := r = d ∨ r = d + 1#5

/-- The triple from `d` on (R27). -/
def tripleOf (d : Reg) (r : Reg) : Prop := r = d ∨ r = d + 1#5 ∨ r = d + 2#5

/-- The `n` bytes from address `a` on. -/
def bytesFrom (a n : Nat) (x : Nat) : Prop := a ≤ x ∧ x < a + n

/-- What `u` keeps of `s`: every register but `regs`, every floating-point register but `fps`, every byte of memory
but `bytes`, the cached register sets and the system registers. -/
structure Kept (regs : Reg → Prop) (fps : BitVec 2 → Prop) (bytes : Nat → Prop) (s u : State) : Prop where
  regs : ∀ r, ¬ regs r → getReg u r = getReg s r
  fps : ∀ k, ¬ fps k → getFp u k = getFp s k
  bytes : ∀ a, ¬ bytes a → memRead u.mem a = memRead s.mem a
  cache : u.older = s.older
  system : SameSystem s u

/-- PC and TC are unchanged. -/
def SameControls (s u : State) : Prop := u.pc = s.pc ∧ u.tc = s.tc

/-- AC is unchanged but for the condition code, which is `cc` (R30). -/
def OnlyCc (cc : BitVec 3) (s u : State) : Prop :=
  acCc u = cc ∧ ∀ i, 3 ≤ i → getBit u.ac i = getBit s.ac i

/-- The event `e`, if its mode is enabled, is all that changes PC and TC: its event flag is set, and the
trace-fault-pending flag if tracing is enabled (R547). -/
def EventOnly (e : TraceEvent) (s u : State) : Prop :=
  (∀ i, getBit u.tc i = (getBit s.tc i || (traceMode s e && i == 16 + modeBit e))) ∧
  (∀ i, getBit u.pc i = (getBit s.pc i || (traceMode s e && seenTe s && i == 10)))

/-- The processor reads the word at `a` from memory: word aligned, outside the reserved space and outside the scratch
space (R82, R89, R587). -/
def okWord (s : State) (a : Word) : Prop := a.toNat % 4 = 0 ∧ isReserved a = false ∧ scratchWord s a = false

/-- The processor reads the entry at offset `o` of the table at `base` from memory; its address does not pass 2^32
(R90). -/
def okEntry (s : State) (base o : Word) : Prop := base.toNat + o.toNat < 2 ^ 32 ∧ okWord s (base + o)

/-- A stack frame at the next 64-byte boundary above `b`, with its 64 bytes, stays below 2^32 (R382). -/
def roomAt (b : Word) : Prop := b.toNat + 63 < 2 ^ 32 ∧ ((b + 63#32) &&& 0xFFFFFFC0#32).toNat + 64 < 2 ^ 32

/-- The frame pointer of a frame made above `b` (R382). -/
def frameAbove (b : Word) : Word := (b + 63#32) &&& 0xFFFFFFC0#32

/-- What the call operation leaves (R384), called in state `s` with the return address already in r2, where a
register set is free: the new frame's linkage words, the caller's set on the chip, IP; the local registers r2 to
r15 of the new procedure have no defined value. -/
structure Called (target b : Word) (status : BitVec 3) (s u : State) : Prop where
  ip : u.ip = target &&& 0xFFFFFFFC#32
  fp : getReg u fpReg = frameAbove b
  sp : getReg u spReg = frameAbove b + 64#32
  pfpFrame : getReg u pfpReg &&& 0xFFFFFFC0#32 = getReg s fpReg &&& 0xFFFFFFC0#32
  pfpStatus : (getReg u pfpReg).setWidth 3 = status
  pfpTrace : getBit (getReg u pfpReg) 3 = getBit s.tc 3
  pfpZero : (getReg u pfpReg).extractLsb' 4 2 = 0#2
  globals : ∀ r, isGlobal r = true → r ≠ fpReg → getReg u r = getReg s r
  fps : u.fp = s.fp
  ac : u.ac = s.ac

/-- A load or store of `n` bytes with natural alignment `align` at `a` is carried out: at a multiple of it outside the
reserved space, or, where DATA_ALIGN_POLICY splits it, anywhere with its first and last byte outside that space (R82,
R89, R90; log 43). -/
def DataAllowed (s : State) (align n : Nat) (a : Word) : Prop :=
  isReserved a = false ∧
    (a.toNat % align = 0 ∨ (s.params.dataAlign = .split ∧ isReserved (a + BitVec.ofNat 32 (n - 1)) = false))

/-- The registers of the caller are kept on the chip under its frame address (R383). -/
def Pushed (s u : State) : Prop := u.older = ⟨getReg s fpReg &&& 0xFFFFFFC0#32, s.cur⟩ :: s.older

/-- The registers of the caller, in state `c`, and the sets `e` and `f` are on the chip; the oldest set `g` has been
written to its frame's save area; every other byte of memory but `bytes` is as in `s` (R383). -/
structure Spilled (c : State) (e f g : RegSet) (bytes : Nat → Prop) (s u : State) : Prop where
  cache : u.older = [⟨getReg s fpReg &&& 0xFFFFFFC0#32, c.cur⟩, e, f]
  saved : ∀ i : Fin 16, wordAt u (g.addr.toNat + 4 * i.val) = g.regs[i]
  rest : ∀ a, ¬ bytesFrom g.addr.toNat 64 a → ¬ bytes a → memRead u.mem a = memRead s.mem a

/-- A return to the frame at `t` finds its registers: on the chip as the newest set, or in memory where no set is on
the chip (R383). -/
def Returnable (t : Word) (s : State) : Prop :=
  (∀ e rest, s.older = e :: rest → e.addr = t) ∧ (s.older = [] → isReserved t = false)

/-- The return to the frame at `t`: its registers taken back, from the chip or from its save area, FP, IP from r2; no
other register and no memory changes (R397). -/
structure Returned (t : Word) (s u : State) : Prop where
  fromChip : ∀ e rest, s.older = e :: rest → u.cur = e.regs ∧ u.older = rest
  fromMemory : s.older = [] → u.older = [] ∧ ∀ i : Fin 16,
    scratchWord s (t + BitVec.ofNat 32 (4 * i.val)) = false → u.cur[i] = wordAt s (t.toNat + 4 * i.val)
  fp : getReg u fpReg = t
  ip : u.ip = getReg u ripReg &&& 0xFFFFFFFC#32
  globals : ∀ r, isGlobal r = true → r ≠ fpReg → getReg u r = getReg s r
  fps : u.fp = s.fp
  mem : u.mem = s.mem

/-- The record of the fault `f` below the frame at `nfp`, laid out as R487 has it by default (log 23): saved PC and AC,
the type word, the address of the faulting instruction, the fault data; a field without a defined value is free. -/
structure FaultRecorded (f : FaultInfo) (nfp : Word) (s u : State) : Prop where
  pc : wordAt u (nfp.toNat - 16) = s.pc
  ac : wordAt u (nfp.toNat - 12) = s.ac
  subtype : (wordAt u (nfp.toNat - 8)).extractLsb' 0 8 = f.subtype
  ftype : (wordAt u (nfp.toNat - 8)).extractLsb' 16 8 = f.ftype
  f0 : ∀ b, f.f0 = some b → getBit (wordAt u (nfp.toNat - 8)) 24 = b
  f1 : ∀ b, f.f1 = some b → getBit (wordAt u (nfp.toNat - 8)) 25 = b
  afi : ∀ a, f.afi = some a → wordAt u (nfp.toNat - 4) = a
  data : ∀ d, f.data = some d → wordAt u (nfp.toNat - 28) = d.extractLsb' 0 32 ∧
    wordAt u (nfp.toNat - 24) = d.extractLsb' 32 32 ∧
    (wordAt u (nfp.toNat - 20)).extractLsb' 0 16 = d.extractLsb' 64 16

/-- The two words of the fault-table entry of the fault `f` (R481). -/
def FaultTableEntry (f : FaultInfo) (s : State) (e0 e1 : Word) : Prop :=
  okEntry s s.faultTable (8#32 * f.ftype.setWidth 32) ∧ okEntry s s.faultTable (8#32 * f.ftype.setWidth 32 + 4#32) ∧
    e0 = wordAt s (s.faultTable + 8#32 * f.ftype.setWidth 32).toNat ∧
    e1 = wordAt s (s.faultTable + (8#32 * f.ftype.setWidth 32 + 4#32)).toNat

/-- The fault-table entry names an entry of a procedure table, and `entry` is that entry: of the system-procedure table
for 0x27F, of the trace-fault-handler table for 0x2BF and 0x2FF (R482, R483). -/
def ProcedureTableEntry (s : State) (e0 e1 base entry : Word) : Prop :=
  e0.setWidth 2 = 2#2 ∧ (e0 >>> 2).toNat ≤ 259 ∧
    ((e1 = 0x27F#32 ∧ base = s.sysprocBase) ∨ ((e1 = 0x2BF#32 ∨ e1 = 0x2FF#32) ∧ base = s.traceBase)) ∧
    okEntry s base (48#32 + 4#32 * (e0 >>> 2)) ∧ entry = wordAt s (base + (48#32 + 4#32 * (e0 >>> 2))).toNat

/-- The fault table gives the fault `f` the handler at `entry`, on the stack from `nsp`; `sup` is the word at offset 12
of its table if the handler is a supervisor procedure (R480, R482, R490). -/
def HandledAt (f : FaultInfo) (s : State) (entry nsp : Word) (sup : Option Word) : Prop :=
  ∃ e0 e1 : Word, FaultTableEntry f s e0 e1 ∧
    ((e0.setWidth 2 = 0#2 ∧ entry = e0 ∧ nsp = getReg s spReg ∧ sup = none) ∨
      ∃ base, ProcedureTableEntry s e0 e1 base entry ∧
        ((entry.setWidth 2 = 0#2 ∧ nsp = getReg s spReg ∧ sup = none) ∨
          (entry.setWidth 2 = 2#2 ∧ okEntry s base 12#32 ∧
            ∃ w, sup = some w ∧ w = wordAt s (base + 12#32).toNat ∧
              nsp = if getBit s.pc 1 = true then getReg s spReg else w &&& 0xFFFFFFFC#32)))

/-- There is room for a record of `n` bytes and a frame above `nsp` (R382). -/
def recordRoom (nsp n : Word) : Prop := nsp.toNat + n.toNat < 2 ^ 32 ∧ roomAt (nsp + n)

/-- What taking the fault `f` does to PC and TC: through a local entry only the call event changes them; through a
supervisor entry the handler runs in supervisor mode with the trace-enable flag of its table (R480, R490). -/
def HandlerControls (sup : Option Word) (s u : State) : Prop :=
  match sup with
  | none => EventOnly .call s u
  | some w => getBit u.pc 1 = true ∧ getBit u.pc 0 = getBit w 0 ∧
      getBit u.pc 10 = (getBit s.pc 10 || (getBit w 0 && getBit s.tc 3)) ∧
      (∀ i, i ≠ 0 → i ≠ 1 → i ≠ 10 → getBit u.pc i = getBit s.pc i) ∧
      (∀ i, getBit u.tc i = (getBit s.tc i || (getBit s.tc 3 && i == 19)))

/-- What calls of the entry `entry` does to PC and TC; `w` is the word at offset 12 of the system-procedure table
(R388, R553). -/
def CallControls (entry w : Word) (s u : State) : Prop :=
  (entry.setWidth 2 = 0#2 → EventOnly .call s u) ∧
    (entry.setWidth 2 = 2#2 →
      (∀ i, getBit u.tc i = (getBit s.tc i || (getBit s.tc 3 && i == 19) || (getBit s.tc 6 && i == 22))) ∧
      (pcEm s = true →
        (∀ i, i ≠ 10 → getBit u.pc i = getBit s.pc i) ∧
        getBit u.pc 10 = (getBit s.pc 10 || (seenTe s && (getBit s.tc 3 || getBit s.tc 6)))) ∧
      (pcEm s = false →
        getBit u.pc 1 = true ∧ getBit u.pc 0 = getBit w 0 ∧
        getBit u.pc 10 = (getBit s.pc 10 || (getBit w 0 && (getBit s.tc 3 || getBit s.tc 6))) ∧
        (∀ i, i ≠ 0 → i ≠ 1 → i ≠ 10 → getBit u.pc i = getBit s.pc i)))

/-- The entry `n` of the system-procedure table is `entry`; calls makes its frame above `b` with the return status
`status`; `w` is the word at offset 12, read where a supervisor entry is called from user mode (R387, R388). -/
def SystemEntry (n : Word) (s : State) (entry w b : Word) (status : BitVec 3) : Prop :=
  n.toNat ≤ 259 ∧ okEntry s s.sysprocBase (48#32 + 4#32 * n) ∧
    entry = wordAt s (s.sysprocBase + (48#32 + 4#32 * n)).toNat ∧
    (((entry.setWidth 2 = 0#2 ∨ (entry.setWidth 2 = 2#2 ∧ pcEm s = true)) ∧ b = getReg s spReg ∧ status = 0b000#3) ∨
      (entry.setWidth 2 = 2#2 ∧ pcEm s = false ∧ okEntry s s.sysprocBase 12#32 ∧
        w = wordAt s (s.sysprocBase + 12#32).toNat ∧ b = w &&& 0xFFFFFFFC#32 ∧
        status = 0b01#2 ++ BitVec.ofBool (getBit s.pc 0)))

/-- The vector `v` has the entry `entry` in the interrupt table; its record goes below the frame at `nfp` on the stack
from `nsp`, and does not overlap the entry (R512, R520, R523). -/
structure Vectored (v : Byte) (s : State) (nsp nfp entry : Word) : Prop where
  layout : s.params.interruptRecord = defaultInterruptLayout
  stack : nsp = if getBit s.pc 13 = true then getReg s spReg else s.intStack
  frame : nfp = frameAbove (nsp + 16#32)
  writable : isReserved (nfp - 16#32) = false
  readable : okEntry s s.intTable (36#32 + 4#32 * (v.setWidth 32 - 8#32))
  apart : ∀ x, bytesFrom (nfp.toNat - 16) 12 x →
    ¬ bytesFrom (s.intTable + (36#32 + 4#32 * (v.setWidth 32 - 8#32))).toNat 4 x
  target : entry = wordAt s (s.intTable + (36#32 + 4#32 * (v.setWidth 32 - 8#32))).toNat

/-- The handler of the vector `v` has been entered at `entry`, the record written below the frame at `nfp` (R523). -/
structure InterruptEntered (v : Byte) (nsp nfp entry : Word) (s u : State) : Prop where
  called : Called entry (nsp + 16#32) 0b111#3 s u
  pc : wordAt u (nfp.toNat - 16) = s.pc
  ac : wordAt u (nfp.toNat - 12) = s.ac
  vector : (wordAt u (nfp.toNat - 8)).setWidth 8 = v
  bits : getBit u.pc 13 = true ∧ getBit u.pc 1 = true ∧ getBit u.pc 0 = false ∧ getBit u.pc 10 = false
  priority : (pcPriority u).toNat = v.toNat / 8
  rest : ∀ i, i ≠ 0 → i ≠ 1 → i ≠ 10 → i ≠ 13 → (i < 16 ∨ 20 < i) → getBit u.pc i = getBit s.pc i
  events : ∀ i, getBit u.tc i = (getBit s.tc i || (getBit s.tc 3 && i == 19))
  interrupted : s.status = .running → procState u = .interrupted
  system : SameSystem s u

/-- The byte of pending vectors of priority `p` in the interrupt table is zero (R513). -/
def NothingAt (s : State) (p : Fin 32) : Prop :=
  inScratch s (s.intTable + BitVec.ofNat 32 (4 + p.val)) = false ∧ memRead s.mem (s.intTable.toNat + 4 + p.val) = 0#8

/-! ### Floating-point operands and results -/

/-- The registers a destination operand of format `f` names. -/
def inDst (f : Fmt) (d : FpDst) (r : Reg) : Prop :=
  match d with
  | .fpr _ => False
  | .reg n =>
    match f with
    | .real => only n r
    | .long => pairOf n r
    | .ext => tripleOf n r

/-- The floating-point register a destination operand names. -/
def isDst (d : FpDst) (k : BitVec 2) : Prop := d = .fpr k

/-- A destination operand, read as a source. -/
def FpDst.asSrc (d : FpDst) : FpSrc :=
  match d with
  | .reg n => .reg n
  | .fpr k => .fpr k

/-- The operand `x` is the nonzero number `v`: normalized, or denormalized in normalizing mode (R35, R166). -/
def Number (f : Fmt) (s : State) (x : FpSrc) (v : Rat) : Prop :=
  (∃ neg, fetch f s x = .norm neg v) ∨ (acBit s nmBit = true ∧ ∃ neg, fetch f s x = .denorm neg v)

/-- The operand is one an arithmetic instruction takes without a reserved-encoding fault and without a signal:
anything but a reserved encoding, a pattern with no meaning, and a denormalized number outside normalizing mode
(R166, R194). -/
def Usable (f : Fmt) (s : State) (x : FpSrc) : Prop :=
  isUnnamed (fetch f s x) = false ∧ isReservedOperand s (fetch f s x) = false

/-- The upper half of the third register of an extended real in integer registers is zero (R169). -/
def UpperZero (d : FpDst) (u : State) : Prop := ∀ n, d = .reg n → (getReg u (n + 2#5)).extractLsb' 16 16 = 0#16

/-- The operand `x` has the value `v`: a nonzero number, or a zero or an infinity with its sign. -/
def HasValue (f : Fmt) (s : State) (x : FpSrc) (v : Config.FpValue) : Prop :=
  match v with
  | .zero neg => fetch f s x = .zero neg
  | .num v => Number f s x v
  | .inf neg => fetch f s x = .inf neg

/-- Every floating-point exception is masked (R34). -/
def AllMasked (s : State) : Prop :=
  acBit s fomBit = true ∧ acBit s fumBit = true ∧ acBit s fvmBit = true ∧ acBit s fzmBit = true ∧
    acBit s fxmBit = true

/-- The number `e` rounded to the precision of the destination, by the rounding mode (R179, R180). -/
def rounded (f : Fmt) (d : FpDst) (s : State) (e : Rat) : Rat := roundP (roundMode s) e (precision (destFmt f d))

/-- The largest finite number of a format (R181). -/
def largest (f : Fmt) : Rat := (2 - pow2 (-(fracBits f : Int))) * pow2 (eMax f)

/-- The result `e` overflows, judged after or before rounding by `OVERFLOW_DETECT` (R180, R181). -/
def Overflow (f : Fmt) (d : FpDst) (s : State) (e : Rat) : Prop :=
  if s.params.overflowAfterRounding = true then pow2 (eMax (destFmt f d) + 1) ≤ |rounded f d s e|
  else largest (destFmt f d) < |e|

/-- The nonzero result `e` can be stored without overflow and underflow (R180). -/
def InRange (f : Fmt) (d : FpDst) (s : State) (e : Rat) : Prop :=
  e ≠ 0 ∧ pow2 (eMin (destFmt f d)) ≤ |rounded f d s e| ∧ ¬ Overflow f d s e

/-- The destination reads as the rounded result, and the inexact flag is set if rounding changed it (R200, R205). -/
def Rounded (f : Fmt) (d : FpDst) (s u : State) (e : Rat) : Prop :=
  fetch f u (FpDst.asSrc d) = .norm (decide (e < 0)) (rounded f d s e) ∧
  (∀ i, getBit u.ac i = (getBit s.ac i || (decide (rounded f d s e ≠ e) && i == fxfBit)))

/-- The inexact exception is masked, or does not occur (R205). -/
def InexactQuiet (f : Fmt) (d : FpDst) (s : State) (e : Rat) : Prop :=
  acBit s fxmBit = true ∨ rounded f d s e = e

/-- A floating-point instruction changes nothing but its destination, AC and IP, and goes on to the next
instruction (R212). -/
structure FpKept (f : Fmt) (d : FpDst) (s u : State) : Prop where
  kept : Kept (inDst f d) (isDst d) nothing s u
  controls : SameControls s u
  next : u.ip = s.ip + 4#32

/-- Of AC, only exception flags are changed, and only from clear to set (R33, R212). -/
def FlagsOnly (s u : State) : Prop :=
  ∀ i, getBit u.ac i = getBit s.ac i ∨
    ((i = fofBit ∨ i = fufBit ∨ i = fvfBit ∨ i = fzfBit ∨ i = fxfBit) ∧ getBit u.ac i = true)

/-- The operand is finite, with the sign `neg`. -/
def FiniteSign (f : Fmt) (s : State) (x : FpSrc) (neg : Bool) : Prop :=
  fetch f s x = .zero neg ∨ ∃ v, Number f s x v ∧ neg = decide (v < 0)

/-- The operand is an infinity or a nonzero number, with the sign `neg`. -/
def NonzeroSign (f : Fmt) (s : State) (x : FpSrc) (neg : Bool) : Prop :=
  fetch f s x = .inf neg ∨ ∃ v, Number f s x v ∧ neg = decide (v < 0)

/-- The instruction completes with `r` in its destination and no flag changed. -/
def Leaves (i : Instr) (f : Fmt) (d : FpDst) (r : FVal) (s : State) : Prop :=
  ∃ u, exec i s = .next (ended s.ip u) ∧ fetch f u (FpDst.asSrc d) = r ∧ u.ac = s.ac ∧ FpKept f d s u

/-- The instruction ends with its result stored, as in `u`, which rounding has changed or not: a changed one sets the
inexact flag of `ac` if its mask is set, and else takes the inexact fault after the store, AC being `ac` (R205). -/
def EndsInexact (i : Instr) (s : State) (ac : Word) (u : State) (changed : Prop) : Prop :=
  (¬ changed → exec i s = .next (ended s.ip u) ∧ u.ac = ac) ∧
    (changed → acBit s fxmBit = true →
      exec i s = .next (ended s.ip u) ∧ ∀ k, getBit u.ac k = (getBit ac k || k == fxfBit)) ∧
    (changed → acBit s fxmBit = false →
      exec i s = faultsWith { ftype := 0x04, subtype := 0x10, afi := some s.ip, sip := some (s.ip + 4#32) }
        (ended s.ip u) ∧ u.ac = ac)

/-- The instruction ends with a result stored that rounding has changed, as in `u`, and the exception flag `flag` of
`ac` set: with the inexact flag if its mask is set, and else with the inexact fault after the store (R201, R203,
R205). -/
def EndsWithFlag (i : Instr) (s : State) (ac : Word) (u : State) (flag : Nat) : Prop :=
  (acBit s fxmBit = true →
      exec i s = .next (ended s.ip u) ∧ ∀ k, getBit u.ac k = (getBit ac k || k == flag || k == fxfBit)) ∧
    (acBit s fxmBit = false →
      exec i s = faultsWith { ftype := 0x04, subtype := 0x10, afi := some s.ip, sip := some (s.ip + 4#32) }
        (ended s.ip u) ∧ ∀ k, getBit u.ac k = (getBit ac k || k == flag))

/-- The instruction ends with an integer overflow, its result stored as in `u`: the flag if the mask is set, and else
the fault after the store, AC unchanged (R256, R473). -/
def IntegerOverflows (i : Instr) (s u : State) : Prop :=
  (acBit s iomBit = true →
      exec i s = .next (ended s.ip u) ∧ ∀ k, getBit u.ac k = (getBit s.ac k || k == iofBit)) ∧
    (acBit s iomBit = false →
      exec i s = faultsWith { ftype := 0x03, subtype := 0x01, afi := some s.ip, sip := some (s.ip + 4#32) }
        (ended s.ip u) ∧ u.ac = s.ac)

/-- The integer `n` is the number `v` rounded to an integer in the mode `m`: less than one away, on the side the mode
selects; of two nearest integers the even one (R179). -/
def RoundsTo (m : RoundMode) (v : Rat) (n : Int) : Prop :=
  |(n : Rat) - v| < 1 ∧ (m = .up → v ≤ n) ∧ (m = .down → (n : Rat) ≤ v) ∧ (m = .zero → |(n : Rat)| ≤ |v|) ∧
    (m = .nearest → 2 * |(n : Rat) - v| ≤ 1 ∧ (2 * |(n : Rat) - v| = 1 → n % 2 = 0))

/-- The sign and the left-aligned fraction of a NaN. -/
def nanOf (x : FVal) : Option (Bool × BitVec 63) :=
  match x with
  | .snan neg fr => some (neg, fr)
  | .qnan neg fr => some (neg, fr)
  | .zero _ | .denorm _ _ | .norm _ _ | .inf _ | .reserved | .unnamed _ => none

/-- The NaN chosen of two operands (R174): the only one, or the one with the greater fraction, or by
`NAN_TIE_CHOICE`. -/
def Chosen (tieFirst : Bool) (x y : Option (Bool × BitVec 63)) (c : Bool × BitVec 63) : Prop :=
  (x = some c ∧ y = none) ∨ (x = none ∧ y = some c) ∨
    ∃ m n, x = some m ∧ y = some n ∧
      c = if n.2.toNat < m.2.toNat then m else if m.2.toNat < n.2.toNat then n else if tieFirst = true then m else n

/-- The destination holds the quiet version of the NaN of sign `neg` and fraction `fr`, truncated to its width
(R174). -/
def HoldsNan (f : Fmt) (d : FpDst) (neg : Bool) (fr : BitVec 63) (u : State) : Prop :=
  ∃ fr', fetch f u (FpDst.asSrc d) = .qnan neg fr' ∧
    ∀ i, i < 63 → fr'.getLsbD i = (i == 62 || (fr.getLsbD i && decide (63 - fracBits (destFmt f d) ≤ i)))

/-- Of two usable operands at least one is a NaN, and that of sign `neg` and fraction `fr` is chosen. -/
def NanAmong (f : Fmt) (a b : FpSrc) (d : FpDst) (neg : Bool) (fr : BitVec 63) (s : State) : Prop :=
  (a.fits f && b.fits f && d.fits f) = true ∧ Usable f s a ∧ Usable f s b ∧
    Chosen s.params.nanTieFirst (nanOf (fetch f s a)) (nanOf (fetch f s b)) (neg, fr)

/-- The instruction completes with the quiet version of a NaN, no flag changed. -/
def StoresNan (i : Instr) (f : Fmt) (d : FpDst) (neg : Bool) (fr : BitVec 63) (s : State) : Prop :=
  ∃ u, exec i s = .next (ended s.ip u) ∧ HoldsNan f d neg fr u ∧ u.ac = s.ac ∧ FpKept f d s u

/-- The invalid operation with a NaN operand (R197): masked, the quiet version of the NaN and the flag; unmasked, the
fault with nothing changed. -/
def InvalidNan (i : Instr) (f : Fmt) (d : FpDst) (neg : Bool) (fr : BitVec 63) (s : State) : Prop :=
  (acBit s fvmBit = true →
    ∃ u, exec i s = .next (ended s.ip u) ∧ HoldsNan f d neg fr u ∧
      (∀ k, getBit u.ac k = (getBit s.ac k || k == fvfBit)) ∧ FpKept f d s u) ∧
  (acBit s fvmBit = false →
    exec i s = faultsWith { ftype := 0x04, subtype := 0x04, afi := some s.ip, sip := some (s.ip + 4#32) } s)

/-- The one-source arithmetic instructions with a floating-point destination, with their formats. -/
def unary : List (Fmt × (FpSrc → FpDst → Instr)) :=
  [(.real, .movr), (.long, .movrl), (.real, .sqrtr), (.long, .sqrtrl), (.real, .expr), (.long, .exprl),
   (.real, .logbnr), (.long, .logbnrl), (.real, .roundr), (.long, .roundrl), (.real, .sinr), (.long, .sinrl),
   (.real, .cosr), (.long, .cosrl), (.real, .tanr), (.long, .tanrl)]

/-- The two-source arithmetic instructions with a floating-point destination, but for the remainder. -/
def binary : List (Fmt × (FpSrc → FpSrc → FpDst → Instr)) :=
  [(.real, .addr), (.long, .addrl), (.real, .subr), (.long, .subrl), (.real, .mulr), (.long, .mulrl),
   (.real, .divr), (.long, .divrl), (.real, .atanr), (.long, .atanrl), (.real, .logr), (.long, .logrl),
   (.real, .logepr), (.long, .logeprl)]

/-- The remainder instructions. -/
def remainders : List (Fmt × (FpSrc → FpSrc → FpDst → Instr)) := [(.real, .remr), (.long, .remrl)]

/-- The exponent instructions. -/
def exponents : List (Fmt × (FpSrc → FpDst → Instr)) := [(.real, .expr), (.long, .exprl)]

/-- The log instructions. -/
def logs : List (Fmt × (FpSrc → FpSrc → FpDst → Instr)) := [(.real, .logr), (.long, .logrl)]

/-- The log epsilon instructions. -/
def logEpsilons : List (Fmt × (FpSrc → FpSrc → FpDst → Instr)) := [(.real, .logepr), (.long, .logeprl)]

/-- The scale instructions. -/
def scales : List (Fmt × (Src → FpSrc → FpDst → Instr)) := [(.real, .scaler), (.long, .scalerl)]

/-- The four basic operations, with the exact result from the first and the second operand (R271 to R281). -/
def basic : List (Fmt × (FpSrc → FpSrc → FpDst → Instr) × (Rat → Rat → Rat)) :=
  [(.real, .addr, fun v w => w + v), (.long, .addrl, fun v w => w + v),
   (.real, .subr, fun v w => w - v), (.long, .subrl, fun v w => w - v),
   (.real, .mulr, fun v w => w * v), (.long, .mulrl, fun v w => w * v),
   (.real, .divr, fun v w => w / v), (.long, .divrl, fun v w => w / v)]

/-- `r` is what is left of `x` after an integral number of `y`, the quotient rounded toward zero, or to nearest, by
`REM_KIND` (R285, log 17). -/
def RemainderIs (s : State) (x y r : Rat) : Prop :=
  ∃ n : Int, r = x - n * y ∧
    if s.params.remIsIeee = true then 2 * |r| ≤ |y| ∧ (2 * |r| = |y| → n % 2 = 0)
    else |r| < |y| ∧ (r ≠ 0 → (r < 0 ↔ x < 0)) ∧ |(n : Rat) * y| ≤ |x|

/-- AC with the arithmetic status of the remainder of `x` by `y` (R287). -/
def remAc (s : State) (x y : Config.FpValue) : Word := setField s.ac 3 4 (Config.remStatus x y)

/-- The one-source instructions that deliver a function of the operand, a number. -/
def functions : List (Fmt × (FpSrc → FpDst → Instr) × (Rat → Rat)) :=
  [(.real, .movr, id), (.long, .movrl, id), (.real, .sinr, sinFn), (.long, .sinrl, sinFn), (.real, .cosr, cosFn),
   (.long, .cosrl, cosFn), (.real, .tanr, tanFn), (.long, .tanrl, tanFn)]

/-- The arctangent of the ordinate `y` and the abscissa `x` is delivered, not stored as a zero (R342). -/
def HasArc (y x : Config.FpValue) : Prop :=
  match y with
  | .zero _ => x = .zero true ∨ x = .inf true ∨ ∃ v, v < 0 ∧ x = .num v
  | .num _ => x ≠ .inf false
  | .inf _ => True

/-- The instruction delivers the exact number `e` to the destination `d` of format `f`, and if it stores a result
without a fault before, AC is `ac` but for the exception flags. -/
inductive Delivers (f : Fmt) (d : FpDst) (s : State) : Instr → Word → Rat → Prop
  /-- A basic operation on two numbers (R273). -/
  | basic {mk op a b v w} : (f, mk, op) ∈ basic → Number f s a v → Number f s b w →
      (a.fits f && b.fits f && d.fits f) = true → Delivers f d s (mk a b d) s.ac (op v w)
  /-- A number scaled by a power of two, the amount clamped (R372). -/
  | scale {mk x a v} : (f, mk) ∈ scales → Number f s a v → (a.fits f && d.fits f) = true →
      Delivers f d s (mk x a d) s.ac (v * pow2 (max (-200000) (min (srcValue s x).toInt 200000)))
  /-- A moved number (R232), or the sine, cosine or tangent of one (R333; log 18). -/
  | function {mk g a v} : (f, mk, g) ∈ functions → Number f s a v → (a.fits f && d.fits f) = true →
      Delivers f d s (mk a d) s.ac (g v)
  /-- A converted integer (R250). -/
  | integer {x} : f = .real → Delivers f d s (.cvtir x d) s.ac (srcValue s x).toInt
  /-- A converted long integer in a register pair (R251). -/
  | longInteger {n} : f = .long → ((Src.reg n).isEven && d.fits f) = true →
      Delivers f d s (.cvtilr (.reg n) d) s.ac (getReg s (n + 1#5) ++ getReg s n).toInt
  /-- A number rounded to an integer, from 2^(p-1) up, where every number of the destination is one (R292). -/
  | round {mk a v} : (f, mk) ∈ [(Fmt.real, Instr.roundr), (.long, .roundrl)] → Number f s a v →
      (a.fits f && d.fits f) = true → pow2 (precision (destFmt f d) - 1) ≤ |v| → Delivers f d s (mk a d) s.ac v
  /-- The root of a positive number (R296; log 33). -/
  | root {mk a v} : (f, mk) ∈ [(Fmt.real, Instr.sqrtr), (.long, .sqrtrl)] → Number f s a v →
      (a.fits f && d.fits f) = true → 0 < v → Delivers f d s (mk a d) s.ac (sqrtValue v)
  /-- The remainder of two numbers (R286). -/
  | remainder {mk a b y x r} : (f, mk) ∈ remainders → Number f s a y → Number f s b x →
      (a.fits f && b.fits f && d.fits f) = true → RemainderIs s x y r →
      Delivers f d s (mk a b d) (remAc s (.num x) (.num y)) r
  /-- A number divided by an infinity leaves that number (R286). -/
  | unreduced {mk a b neg x} : (f, mk) ∈ remainders → fetch f s a = .inf neg → Number f s b x →
      (a.fits f && b.fits f && d.fits f) = true → Delivers f d s (mk a b d) (remAc s (.num x) (.inf neg)) x
  /-- 2^k - 1 for an integer k (R366). -/
  | power {mk a} {k : Int} : (f, mk) ∈ exponents → Number f s a k → (a.fits f && d.fits f) = true → k < 40962 →
      Delivers f d s (mk a d) s.ac (pow2 k - 1)
  /-- 2^v - 1 for another number, not far below zero (R366; log 18). -/
  | exponent {mk a v} : (f, mk) ∈ exponents → Number f s a v → (a.fits f && d.fits f) = true → (∀ k : Int, v ≠ k) →
      -((precision (destFmt f d) : Rat) + 2) < v → Delivers f d s (mk a d) s.ac (exp2m1Fn v)
  /-- 2^v - 1 for a number far below zero, by the value that rounds as it does (R366; log 32). -/
  | lowExponent {mk a v} : (f, mk) ∈ exponents → Number f s a v → (a.fits f && d.fits f) = true →
      v ≤ -((precision (destFmt f d) : Rat) + 2) →
      Delivers f d s (mk a d) s.ac (-1 + pow2 (-(precision (destFmt f d) + 2)))
  /-- A multiple of the logarithm of 2^k (R358). -/
  | powerLog {mk a b w} {k : Int} : (f, mk) ∈ logs → Number f s a (pow2 k) → Number f s b w →
      (a.fits f && b.fits f && d.fits f) = true → k ≠ 0 → Delivers f d s (mk a b d) s.ac (w * k)
  /-- A multiple of the logarithm of another positive number (R358; log 18). -/
  | log {mk a b v w} : (f, mk) ∈ logs → Number f s a v → Number f s b w →
      (a.fits f && b.fits f && d.fits f) = true → 0 < v → (∀ k, v ≠ pow2 k) →
      Delivers f d s (mk a b d) s.ac (ylog2xFn v w)
  /-- A multiple of the logarithm of 2^k, from 2^k - 1 (R362). -/
  | powerLogEpsilon {mk a b w} {k : Int} : (f, mk) ∈ logEpsilons → Number f s a (pow2 k - 1) → Number f s b w →
      (a.fits f && b.fits f && d.fits f) = true → k ≠ 0 → Delivers f d s (mk a b d) s.ac (w * k)
  /-- A multiple of the logarithm of another number above 0, from that number less 1 (R362; log 18). -/
  | logEpsilon {mk a b v w} : (f, mk) ∈ logEpsilons → Number f s a v → Number f s b w →
      (a.fits f && b.fits f && d.fits f) = true → -1 < v → (∀ k, v + 1 ≠ pow2 k) →
      Delivers f d s (mk a b d) s.ac (ylog2xp1Fn v w)
  /-- The arctangent of an ordinate and an abscissa (R342; log 18). -/
  | arctangent {mk a b y x} : (f, mk) ∈ [(Fmt.real, Instr.atanr), (.long, .atanrl)] → HasValue f s a x →
      HasValue f s b y → (a.fits f && b.fits f && d.fits f) = true → HasArc y x →
      Delivers f d s (mk a b d) s.ac (atan2Fn y x)

/-- The destination holds the nonzero number `e` rounded into it, changed or not (R200, R205). -/
def EndsRounded (i : Instr) (f : Fmt) (d : FpDst) (s : State) (ac : Word) (e : Rat) : Prop :=
  ∃ u, EndsInexact i s ac u (rounded f d s e ≠ e) ∧
    fetch f u (FpDst.asSrc d) = .norm (decide (e < 0)) (rounded f d s e) ∧ FpKept f d s u

/-- The result of an overflow of sign `neg` in format `f`: an infinity when rounding to nearest or outward, else the
largest finite number (R181). -/
def OverflowValue (f : Fmt) (m : RoundMode) (neg : Bool) (x : FVal) : Prop :=
  (m = .nearest ∨ (m = .up ∧ neg = false) ∨ (m = .down ∧ neg = true) → x = .inf neg) ∧
    (m = .zero ∨ (m = .up ∧ neg = true) ∨ (m = .down ∧ neg = false) →
      x = .norm neg ((if neg = true then -1 else 1) * largest f))

/-- `r` is the tiny number `e` rounded by the mode to a multiple of the least denormalized number of the format `f`
(R179, R180). -/
def DenormalizedTo (f : Fmt) (m : RoundMode) (e r : Rat) : Prop :=
  ∃ (q : Rat) (n : Int), q = pow2 (eMin f - fracBits f) ∧ r = q * n ∧ |r - e| < q ∧
    (m = .up → e ≤ r) ∧ (m = .down → r ≤ e) ∧ (m = .zero → |r| ≤ |e|) ∧
    (m = .nearest → 2 * |r - e| ≤ q ∧ (2 * |r - e| = q → n % 2 = 0))

/-- The number `r`, or a zero of sign `neg`, in format `f`. -/
def IsValue (f : Fmt) (neg : Bool) (r : Rat) (x : FVal) : Prop :=
  if r = 0 then x = .zero neg else if |r| < pow2 (eMin f) then x = .denorm neg r else x = .norm neg r

/-- An unmasked overflow or underflow fault of the instruction in `s` (R200, R202, R204, R207): `code` is its subtype
bit; `changed` says that rounding changed the result, upward if `up`. -/
structure RangeFault (g : FaultInfo) (s : State) (code : Byte) (changed up : Prop) : Prop where
  ftype : g.ftype = 0x04
  afi : g.afi = some s.ip
  sip : g.sip = some (s.ip + 4#32)
  exactBits : ¬ changed ∨ acBit s fxmBit = true → g.subtype = code
  inexactBits : changed → acBit s fxmBit = false → g.subtype = code ||| 0x10
  direction : changed → ∃ b, g.f0 = some b ∧ (b = true ↔ up)

/-- The place of an operand on the extended real line (R311): its side if it is an infinity, and its value; a NaN has
none, nor has a pattern that is no number. -/
def onLine (x : FVal) : Option (Int × Rat) :=
  match x with
  | .zero _ => some (0, 0)
  | .denorm _ v => some (0, v)
  | .norm _ v => some (0, v)
  | .inf neg => some (if neg then -1 else 1, 0)
  | .snan _ _ | .qnan _ _ | .reserved | .unnamed _ => none

/-- The first place lies above the second. -/
def Above (p q : Int × Rat) : Prop := q.1 < p.1 ∨ (q.1 = p.1 ∧ q.2 < p.2)

/-- The compare instructions, with their formats and whether they signal any NaN (R312, R314). -/
def compares : List (Fmt × Bool × (FpSrc → FpSrc → Instr)) :=
  [(.real, false, .cmpr), (.long, false, .cmprl), (.real, true, .cmpor), (.long, true, .cmporl)]

/-- The conversions of reals to integers; the first component says that the integer is of 64 bits. -/
def toIntegers : List (Bool × (FpSrc → Reg → Instr)) :=
  [(false, .cvtri), (true, .cvtril), (false, .cvtzri), (true, .cvtzril)]

/-- The conditional branches with their masks (R134, R321). -/
def condBranches : List (BitVec 3 × (CtrlDisp → Instr)) :=
  [(0b000#3, .bno), (0b001#3, .bg), (0b010#3, .be), (0b011#3, .bge), (0b100#3, .bl), (0b101#3, .bne),
   (0b110#3, .ble), (0b111#3, .bo)]

/-- The fault-if instructions with their masks (R432 to R439). -/
def faultIfs : List (BitVec 3 × Instr) :=
  [(0b000#3, .faultno), (0b001#3, .faultg), (0b010#3, .faulte), (0b011#3, .faultge), (0b100#3, .faultl),
   (0b101#3, .faultne), (0b110#3, .faultle), (0b111#3, .faulto)]

/-- The condition of a mask (R321, R440). -/
def Holds (m cc : BitVec 3) : Prop := m &&& cc ≠ 0#3 ∨ (m = 0#3 ∧ cc = 0#3)

/-- An operation fault, invalid operand, of the instruction in `s` (R138, R472). -/
def invalidOperand (s : State) : FaultInfo :=
  { ftype := 0x02, subtype := 0x04, afi := some s.ip, sip := none }

/-- A floating-point fault without data of the instruction in `s` (R474). -/
def floating (sub : Byte) (s : State) : FaultInfo :=
  { ftype := 0x04, subtype := sub, afi := some s.ip, sip := some (s.ip + 4#32) }

end Sys2Proof.Claims

open Sys2Proof Sys2Proof.Machine Sys2Proof.Claims

/-- Whatever the state before, after RESET and after the first stage of initialization the trace controls are 0,
both breakpoint registers disabled, the interrupt-control register 0xFF000000 and no pin is latched; the pins
INT0 and INT1 have vector 0, pins 2 and 3 are INTR, which takes the vector the controller supplies, and INTA,
whose field is ignored. A vector 0 is posted, whatever the state, and never serviced. (R576) -/
def Obligations.ResetValues : Prop :=
  (∀ s t : State, t = hardReset s ∨ step (hardReset s) = .next t →
      t.tc = 0#32 ∧ t.bp0.enabled = false ∧ t.bp1.enabled = false ∧ t.icr = 0xFF000000#32 ∧ t.pinLatch = 0#4 ∧
      pinVector t 0 = some 0#8 ∧ pinVector t 1 = some 0#8 ∧ pinVector t 2 = some t.intrVector ∧
      pinVector t 3 = none) ∧
    ∀ s : State, receiveInterrupt 0#8 s = postInterrupt 0#8 s

/-- The check sum is the 32-bit sum that starts from 0xFFFFFFFF with carry 0 and adds each of the eight words at
address 0 with the carry out of the step before. In the reset state, with a check sum of zero, tables on their
boundaries and readable, the step loads the SAT, PRCB, interrupt-table, interrupt-stack, fault-table and
procedure-table pointers from their places in the initial memory image, IP from the fourth word and g15 from the
interrupt stack pointer; the priority becomes 31 and the processor is interrupted, latches no pin and changes no
memory and nothing else of PC and TC. With a SAT off a 4K boundary, or a PRCB off the boundary that SALIGN gives
and that is at least 64 bytes (R88), it is refused; with any other check sum the processor stops with FAIL
asserted, and no further step is made. That all these pointers are read once is the spec's own decision D30;
that the refusal falls at this step, that the stage is one step, and that only the new PRCB has scratch space,
is the model's choice (log 5, 42, 45); the definition of addition with carry is general knowledge in R573. (R56,
R88, R563, R571, R572, R573, R574, R577, R579, R584) -/
def Obligations.FirstStageOfInitialization : Prop :=
  ∀ s : State, s.status = .reset →
    (∀ t c : Nat → Nat, t 0 = 0xFFFFFFFF → c 0 = 0 →
      (∀ i, i < 8 → t (i + 1) < 2 ^ 32 ∧ t (i + 1) + 2 ^ 32 * c (i + 1) = t i + (wordAt s (4 * i)).toNat + c i) →
      checksum s = BitVec.ofNat 32 (t 8)) ∧
    (checksum s ≠ 0#32 →
      ∃ t, step s = .next t ∧ t.status = .stopped ∧ t.failPin = true ∧ t.mem = s.mem ∧
        step t = .fault .stopped) ∧
    (checksum s = 0#32 →
      ∀ (sat prcb start satBase : Word) (q : State), q = { s with prcbBase := prcb } →
        sat = wordAt s 0 → prcb = wordAt s 4 → start = wordAt s 12 →
        satBase = wordAt s (sat + 136#32).toNat →
        (sat.toNat % 4096 ≠ 0 ∨ prcb.toNat % max 64 s.params.salignBytes ≠ 0 → step s = .refused .misaligned) ∧
        (sat.toNat % 4096 = 0 → prcb.toNat % max 64 s.params.salignBytes = 0 → satBase.toNat % 4096 = 0 →
        okEntry q sat 136#32 → okEntry q satBase 152#32 → okEntry q satBase 168#32 →
        okEntry q prcb 20#32 → okEntry q prcb 24#32 → okEntry q prcb 40#32 →
        ∃ t, step s = .next t ∧ t.ip = start &&& 0xFFFFFFFC#32 ∧
          getReg t fpReg = wordAt s (prcb + 24#32).toNat ∧
          t.satBase = satBase ∧ t.prcbBase = prcb ∧
          t.sysprocBase = wordAt s (satBase + 152#32).toNat ∧
          t.traceBase = wordAt s (satBase + 168#32).toNat ∧
          t.intTable = wordAt s (prcb + 20#32).toNat ∧
          t.intStack = wordAt s (prcb + 24#32).toNat ∧
          t.faultTable = wordAt s (prcb + 40#32).toNat ∧
          t.status = .running ∧ procState t = .interrupted ∧ (pcPriority t).toNat = 31 ∧
          (∀ i, i ≠ 13 → (i < 16 ∨ 20 < i) → getBit t.pc i = getBit s.pc i) ∧
          t.pinLatch = 0#4 ∧ t.mem = s.mem ∧ t.tc = s.tc))

/-- For every well-formed instruction, with every operand at every value its encoding admits, the decoder reads
from the words the encoder writes that same instruction; where it is one word long the word after it does not
matter. The formats and opcodes are general knowledge in the spec (log 1). (R121, R122, R123, R125, R126, R127,
R128, R129, R132, R133, R134, R135) -/
def Obligations.DecodeEncode : Prop :=
  ∀ (i : Instr) (d : Word), i.wellFormed = true →
    decode (encode i).first ((encode i).second.getD d) = .instr i

/-- The words that the spec's examples print for addr, cvtir, movre, addo, modpc, ld, callx, b and ret decode to
those instructions with the operands the examples name. Each MEMA and MEMB mode gives its sum modulo 2^32:
offset; base plus offset; base; IP + 8 + displacement; base plus scaled index; displacement; base plus
displacement; scaled index plus displacement; all three. The instruction is 8 bytes long exactly where there is
a displacement. The opcodes and the addressing modes are general knowledge in the spec (log 1). (R128, R129,
R131, R132, R133, R134, R135) -/
def Obligations.EncodingsAndAddresses : Prop :=
  (decode 0x78944790#32 0#32 = .instr (.addr (.reg 16#5) (.reg 17#5) (.reg 18#5)) ∧
      decode 0x67880210#32 0#32 = .instr (.cvtir (.reg 16#5) (.reg 17#5)) ∧
      decode 0x6E102094#32 0#32 = .instr (.movre (.reg 20#5) (.fpr 2#2)) ∧
      decode 0x590E1001#32 0#32 = .instr (.addo (.reg 1#5) (.lit 24#5) 1#5) ∧
      decode 0x658C0290#32 0#32 = .instr (.modpc (.reg 16#5) (.reg 16#5) 17#5) ∧
      decode 0x90242010#32 0#32 = .instr (.ld (.baseOffset 16#5 16#12) 4#5) ∧
      decode 0x86041000#32 0#32 = .instr (.callx (.base 16#5)) ∧
      decode 0x08FFFFF0#32 0#32 = .instr (.b 0x3FFFFC#22) ∧
      decode 0x0A000000#32 0#32 = .instr .ret) ∧
    (∀ (s : State) (b x : Reg) (c : BitVec 3) (o : BitVec 12) (d : Word),
      (effectiveAddr s (.offset o)).toNat = o.toNat ∧ memLength (.offset o) = 4#32 ∧
      (effectiveAddr s (.baseOffset b o)).toNat = ((getReg s b).toNat + o.toNat) % 2 ^ 32 ∧
        memLength (.baseOffset b o) = 4#32 ∧
      effectiveAddr s (.base b) = getReg s b ∧ memLength (.base b) = 4#32 ∧
      (effectiveAddr s (.ipDisp d)).toNat = (s.ip.toNat + 8 + d.toNat) % 2 ^ 32 ∧ memLength (.ipDisp d) = 8#32 ∧
      (effectiveAddr s (.baseIndex b x c)).toNat =
        ((getReg s b).toNat + (getReg s x).toNat * 2 ^ c.toNat) % 2 ^ 32 ∧ memLength (.baseIndex b x c) = 4#32 ∧
      effectiveAddr s (.disp d) = d ∧ memLength (.disp d) = 8#32 ∧
      (effectiveAddr s (.baseDisp b d)).toNat = ((getReg s b).toNat + d.toNat) % 2 ^ 32 ∧
        memLength (.baseDisp b d) = 8#32 ∧
      (effectiveAddr s (.indexDisp x c d)).toNat = ((getReg s x).toNat * 2 ^ c.toNat + d.toNat) % 2 ^ 32 ∧
        memLength (.indexDisp x c d) = 8#32 ∧
      (effectiveAddr s (.baseIndexDisp b x c d)).toNat =
        ((getReg s b).toNat + (getReg s x).toNat * 2 ^ c.toNat + d.toNat) % 2 ^ 32 ∧
        memLength (.baseIndexDisp b x c d) = 8#32)

/-- A word whose opcode byte is not assigned (0x40 to 0x57, 0xD0 to 0xFF) is an undefined opcode, and so is a
word of any MEM instruction with the MEMB mode 0110, the one unassigned, or in any MEMB mode with scale 5 to 7,
where bx and callx leave their unused field zero; a step that fetches an undefined opcode takes
Operation.InvalidOpcode with the address of the faulting instruction equal to IP and nothing else changed first.
Any other word whose opcode no instruction of the spec has is refused as unknown, and a REG word of a known
opcode with bits 6:5 not zero, or a one-source floating-point word with an unused src2 field or mode bit not
zero, as reserved bits; a step that fetches such a word is refused so. A word-aligned st into a word that has
been executed makes it stale, and a step that fetches a stale word is refused. That an unassigned opcode byte is
an undefined opcode is DEDUCED, log 11. The formats are general knowledge in the spec (log 1); which of two
errors of a word counts is the model's choice (log 12). That a stored-to word is refused is the spec's own
decision D5 (log 8), the unknown opcodes D34. (R108, R122, R123, R129, R135, R136, R137, R472) -/
def Obligations.UndefinedAndRefusedWords : Prop :=
  (∀ w d : Word, ((0x40 ≤ (w >>> 24).toNat ∧ (w >>> 24).toNat < 0x58) ∨ 0xD0 ≤ (w >>> 24).toNat) →
      decode w d = .invalidOpcode) ∧
    (∀ w d : Word,
      op8Field w ∈ [0x84#8, 0x85#8, 0x86#8, 0x90#8, 0x92#8, 0x98#8, 0x9A#8, 0xA0#8, 0xA2#8] →
      (op8Field w = 0x84#8 ∨ op8Field w = 0x86#8 → srcdstField w = 0#5) → m2Field w = true →
      (5 ≤ (scaleField w).toNat ∨ modeField w = 6#4) → decode w d = .invalidOpcode) ∧
    (∀ w d mask : Word,
      mask = (if 0x58 ≤ (w >>> 24).toNat ∧ (w >>> 24).toNat < 0x80 then 0xFF000780#32 else 0xFF000000#32) →
      ((w >>> 24).toNat < 0x40 ∨ (0x58 ≤ (w >>> 24).toNat ∧ (w >>> 24).toNat < 0xD0)) →
      ((∀ i : Instr, (encode i).first &&& mask ≠ w &&& mask) → decode w d = .refused .unknownOpcode) ∧
      (∀ i : Instr, (encode i).first &&& mask = w &&& mask → mask = 0xFF000780#32 → rsvField w ≠ 0#2 →
        decode w d = .refused .reservedBits) ∧
      (∀ (p : Fmt × (FpSrc → FpDst → Instr)) (x : FpSrc) (y : FpDst), p ∈ unary →
        (encode (p.2 x y)).first &&& mask = w &&& mask → src2Field w ≠ 0#5 ∨ m2Field w = true →
        decode w d = .refused .reservedBits)) ∧
    (∀ (s : State) (w d : Word) (s1 : State), isRunningState s → s.pinLatch = 0#4 → pcTfp s = false →
      fetchInstr s = .ok (w, d, s1) →
      (decode w d = .invalidOpcode →
        step s = faultsWith { ftype := 0x02, subtype := 0x01, afi := some s.ip, sip := none } s1) ∧
      (∀ r, decode w d = .refused r → (r = .unknownOpcode → step s = .refused .unknownOpcode) ∧
        (r = .reservedBits → step s = .refused .reservedBits))) ∧
    (∀ (s : State) (w : Word), isRunningState s → s.pinLatch = 0#4 → pcTfp s = false →
      s.ip.toNat % 4 = 0 → isReserved s.ip = false →
      (s.ip.toNat ∈ s.stale → step s = .refused .staleCode) ∧
      (okWord s s.ip → s.ip.toNat ∉ s.stale → w = wordAt s s.ip.toNat → hasSecondWord w = true →
        isReserved (s.ip + 4#32) = false → (s.ip + 4#32).toNat ∈ s.stale → step s = .refused .staleCode)) ∧
    (∀ (s : State) (m : Addr) (r : Reg) (a : Word), a = effectiveAddr s m → a.toNat % 4 = 0 → isReserved a = false →
      a.toNat ∈ s.executed → ∃ u, exec (.st r m) s = .next u ∧ a.toNat ∈ u.stale)

/-- With the processor running, no interrupt pin latched, no trace fault pending, and the instruction's one or
two words at IP readable and not stale, the step is exec of the decoded instruction in the state itself, with
the word addresses noted as executed (log 8). For a ret whose prereturn-trace flag is set under prereturn trace
mode see TraceFaults. The order of the stages is R552 with the spec's decisions D20 and D46. (R552, R121, R131)
-/
def Obligations.StepRunsInstruction : Prop :=
  ∀ (s : State) (w d : Word) (i : Instr) (s1 : State),
    isRunningState s → s.pinLatch = 0#4 → pcTfp s = false →
    okWord s s.ip → s.ip.toNat ∉ s.stale → w = wordAt s s.ip.toNat →
    (if hasSecondWord w = true then
        okWord s (s.ip + 4#32) ∧ (s.ip + 4#32).toNat ∉ s.stale ∧ d = wordAt s (s.ip + 4#32).toNat ∧
          s1 = markExecuted (markExecuted s s.ip.toNat) (s.ip + 4#32).toNat
      else d = 0#32 ∧ s1 = markExecuted s s.ip.toNat) →
    decode w d = .instr i →
    (i = .ret → getBit (getReg s pfpReg) 3 = false ∨ traceMode s .prereturn = false) →
    step s = exec i s1

/-- State.reset satisfies the machine's invariant Inv (Safety.lean). What the invariant says of the model's own
lists is the model's choice (log 8). (R570, R574, R576, R578) -/
def Obligations.InvAtReset : Prop :=
  Inv State.reset

/-- From every state that satisfies Inv, a step that gives a next state gives one that satisfies Inv: memory
keeps its canonical form; at most three callers' register sets are on the chip, each under a 64-byte-aligned
frame address; IP and the last IP are word aligned; the reserved bits of TC are zero; FAIL is asserted exactly
in the stopped state; the model's own lists keep their form; and no step changes the parameters. What the
invariant says of the model's own lists, and the parameters as a field of State, are the model's choice (log 8,
37); word-aligned targets and zero reserved bits of TC rest on D32 and R422. (R25, R28, R48, R383, R422, R572,
R108) -/
def Obligations.StepKeepsInv : Prop :=
  ∀ s t : State, Inv s → step s = .next t → Inv t ∧ t.params = s.params

/-- Every host action that the model gives a next state keeps Inv. That these act only between steps is the
spec's decision D20 (log 25). (R103, R517, R528, R530, R558, R570, R588) -/
def Obligations.HostActionsKeepInv : Prop :=
  ∀ (s t : State), Inv s →
    (∀ k, Inv (requestPin k s)) ∧ (∀ v, Inv (requestIntr v s)) ∧ (∀ a v, Inv (externalWrite a v s)) ∧
    (∀ x y, Inv (iacSetBreakpoint x y s)) ∧ Inv (hardReset s) ∧
    (∀ v, iacInterrupt v s = .ok t → Inv t) ∧ (iacTestPending s = .ok t → Inv t) ∧
    (∀ sat prcb ip, iacReinitialize sat prcb ip s = .ok t → Inv t)

/-- RESET sets the process controls to 0x001F2002, leaves no set of a caller on the chip and keeps memory. To a
running processor: the set-breakpoint message enables a breakpoint register with the address given for it and
disables one given none, and changes nothing else; the reinitialize message, with the tables on their boundaries
and readable, loads the system-address-table, PRCB, procedure-table, trace-table, interrupt-table,
interrupt-stack and fault-table pointers and IP, forgets which words have been executed, and keeps PC, TC, AC,
every register, the register cache and memory, and is refused with a table off its boundary; the interrupt
message is the receipt of its vector and the test-pending message a check of pending interrupts. To a processor
that is not running they do nothing. A write by an external agent changes the one byte, makes the word it lies
in stale if that has been executed, and changes nothing else. That the register cache starts with the current
set only is the spec's decision D19; that these act between steps is the spec's decision D20 (log 25), that a
written word is stale D5 (log 8); that only the new PRCB has scratch space is the model's choice (log 45). (R88,
R103, R108, R515, R530, R558, R570, R575, R578, R584, R588) -/
def Obligations.HostActionsEffects : Prop :=
  ∀ s : State,
    (hardReset s).pc = 0x001F2002#32 ∧ (hardReset s).older = [] ∧ (hardReset s).mem = s.mem ∧
    (isRunningState s →
      (∀ x y : Option Word, ∃ u, iacSetBreakpoint x y s = u ∧ u = { s with bp0 := u.bp0, bp1 := u.bp1 } ∧
        (∀ a, x = some a → u.bp0 = ⟨true, a⟩) ∧ (x = none → u.bp0.enabled = false) ∧
        (∀ a, y = some a → u.bp1 = ⟨true, a⟩) ∧ (y = none → u.bp1.enabled = false)) ∧
      (∀ v, iacInterrupt v s = receiveInterrupt v s) ∧ iacTestPending s = checkPending s ∧
      (∀ (sat prcb ip satBase : Word) (q : State), q = { s with prcbBase := prcb } →
        (sat.toNat % 4096 ≠ 0 ∨ prcb.toNat % max 64 s.params.salignBytes ≠ 0 →
          iacReinitialize sat prcb ip s = .error (.refused .misaligned)) ∧
        (sat.toNat % 4096 = 0 → prcb.toNat % max 64 s.params.salignBytes = 0 → satBase = wordAt s (sat + 136#32).toNat →
          satBase.toNat % 4096 = 0 → okEntry q sat 136#32 → okEntry q satBase 152#32 → okEntry q satBase 168#32 →
          okEntry q prcb 20#32 → okEntry q prcb 24#32 → okEntry q prcb 40#32 →
          iacReinitialize sat prcb ip s = .ok { s with
            satBase := satBase, prcbBase := prcb
            sysprocBase := wordAt s (satBase + 152#32).toNat, traceBase := wordAt s (satBase + 168#32).toNat
            intTable := wordAt s (prcb + 20#32).toNat, intStack := wordAt s (prcb + 24#32).toNat
            faultTable := wordAt s (prcb + 40#32).toNat, ip := ip &&& 0xFFFFFFFC#32
            executed := [], stale := [] }))) ∧
    (¬ isRunningState s → (∀ x y, iacSetBreakpoint x y s = s) ∧ (∀ v, iacInterrupt v s = .ok s) ∧
      iacTestPending s = .ok s ∧ ∀ sat prcb ip, iacReinitialize sat prcb ip s = .ok s) ∧
    (∀ (a : Word) (v : Byte), Memory.wf s.mem = true →
      ∃ u, externalWrite a v s = u ∧ u = { s with mem := u.mem, stale := u.stale } ∧
        memRead u.mem a.toNat = v ∧ (∀ b, b ≠ a.toNat → memRead u.mem b = memRead s.mem b) ∧
        (∀ b, b ∈ u.stale ↔ b ∈ s.stale ∨ (b = a.toNat - a.toNat % 4 ∧ b ∈ s.executed)))

/-- After the effect u of the instruction at a, the end of the step changes no register, no memory and no other
state: TC gains the instruction-event flag if the instruction-trace mode is on and the breakpoint-event flag if
the breakpoint-trace mode is on and an enabled breakpoint register holds a; PC gains the trace-fault-pending
flag if one of those events is detected while tracing is seen enabled. That the model signals every event
detected is one of the behaviours R549 allows. Which values of PC and TC judge the events is the spec's decision
D40 (log 22). (R540, R546, R547, R549, R552) -/
def Obligations.EventsAfterInstruction : Prop :=
  ∀ (a : Word) (u : State) (ins bpt : Bool),
    ins = getBit u.tc 1 →
    bpt = (getBit u.tc 7 && ((u.bp0.enabled && wordAligned u.bp0.ip == a) ||
      (u.bp1.enabled && wordAligned u.bp1.ip == a))) →
    (∀ i, getBit (ended a u).tc i = (getBit u.tc i || (ins && i == 17) || (bpt && i == 23))) ∧
    (∀ i, getBit (ended a u).pc i = (getBit u.pc i || ((ins || bpt) && seenTe u && i == 10))) ∧
    (ended a u).lastIp = a ∧ (ended a u).ip = u.ip ∧ (ended a u).ac = u.ac ∧
    Kept nothing nothing nothing u (ended a u)

/-- mov writes the value of its source, addo the sum modulo 2^32, alterbit the source with the chosen bit
(modulo 32) replaced by bit 1 of the condition code; chkbit sets the condition code to 010 if the chosen bit is
set and to 000 if not. Nothing else but IP changes, for register and literal sources and every destination. The
rules' example words decode to these instructions. With aligned register numbers movl copies two and movt three
registers, all read before any is written; of a literal source the low word is the literal and the words above
it have no defined value (log 31); nothing but the destination registers and IP changes. With an aligned
dividend and destination and a nonzero divisor, ediv writes the remainder of the unsigned 64-bit dividend to the
destination and the low 32 bits of the quotient to the next register; the high word of a literal dividend has no
defined value (log 31); nothing else but IP changes. A zero divisor takes Arithmetic.ZeroDivide before anything
is written. The opcodes, and what R455 to R457 and R460 to R463 mark so, are general knowledge in the spec (log
1). (R138, R455, R456, R457, R460, R461, R462, R463, R473) -/
def Obligations.IntegerResults : Prop :=
  (∀ (s : State) (a b : Src) (d : Reg),
      (∃ u, exec (.mov a d) s = .next (ended s.ip u) ∧ getReg u d = srcValue s a ∧
        u.ip = s.ip + 4#32 ∧ u.ac = s.ac ∧ SameControls s u ∧ Kept (only d) nothing nothing s u) ∧
      (∃ u, exec (.addo a b d) s = .next (ended s.ip u) ∧
        (getReg u d).toNat = ((srcValue s b).toNat + (srcValue s a).toNat) % 2 ^ 32 ∧
        u.ip = s.ip + 4#32 ∧ u.ac = s.ac ∧ SameControls s u ∧ Kept (only d) nothing nothing s u) ∧
      (∃ u, exec (.alterbit a b d) s = .next (ended s.ip u) ∧
        (∀ i, i < 32 → getBit (getReg u d) i =
          if i = (srcValue s a).toNat % 32 then getBit s.ac 1 else getBit (srcValue s b) i) ∧
        u.ip = s.ip + 4#32 ∧ u.ac = s.ac ∧ SameControls s u ∧ Kept (only d) nothing nothing s u) ∧
      (∃ u, exec (.chkbit a b) s = .next (ended s.ip u) ∧
        OnlyCc (if getBit (srcValue s b) ((srcValue s a).toNat % 32) = true then 0b010#3 else 0b000#3) s u ∧
        u.ip = s.ip + 4#32 ∧ SameControls s u ∧ Kept nothing nothing nothing s u) ∧
      decode 0x5C880610#32 0#32 = .instr (.mov (.reg 16#5) 17#5) ∧
      decode 0x5C880E05#32 0#32 = .instr (.mov (.lit 5#5) 17#5) ∧
      decode 0x59944010#32 0#32 = .instr (.addo (.reg 16#5) (.reg 17#5) 18#5) ∧
      decode 0x59084818#32 0#32 = .instr (.addo (.lit 24#5) (.reg 1#5) 1#5) ∧
      decode 0x588C0F83#32 0#32 = .instr (.alterbit (.lit 3#5) (.reg 16#5) 17#5) ∧
      decode 0x5A044F1F#32 0#32 = .instr (.chkbit (.lit 31#5) (.reg 17#5))) ∧
    (∀ (s : State) (a : Src) (d : Reg),
      (a.isEven = true → Reg.isEven d = true →
        ∃ u, exec (.movl a d) s = .next (ended s.ip u) ∧ getReg u d = srcValue s a ∧
          (∀ n, a = .reg n → getReg u (d + 1#5) = getReg s (n + 1#5)) ∧
          u.ip = s.ip + 4#32 ∧ u.ac = s.ac ∧ SameControls s u ∧ Kept (pairOf d) nothing nothing s u) ∧
      (a.isQuad = true → Reg.isQuad d = true →
        ∃ u, exec (.movt a d) s = .next (ended s.ip u) ∧ getReg u d = srcValue s a ∧
          (∀ n, a = .reg n → getReg u (d + 1#5) = getReg s (n + 1#5) ∧ getReg u (d + 2#5) = getReg s (n + 2#5)) ∧
          u.ip = s.ip + 4#32 ∧ u.ac = s.ac ∧ SameControls s u ∧ Kept (tripleOf d) nothing nothing s u)) ∧
    (∀ (s : State) (a b : Src) (d : Reg), b.isEven = true → Reg.isEven d = true →
      (srcValue s a ≠ 0#32 →
        ∃ (u : State) (high : Word), (∀ n, b = .reg n → high = getReg s (n + 1#5)) ∧
          exec (.ediv a b d) s = .next (ended s.ip u) ∧
          (getReg u d).toNat = (high.toNat * 2 ^ 32 + (srcValue s b).toNat) % (srcValue s a).toNat ∧
          (getReg u (d + 1#5)).toNat =
            (high.toNat * 2 ^ 32 + (srcValue s b).toNat) / (srcValue s a).toNat % 2 ^ 32 ∧
          u.ip = s.ip + 4#32 ∧ u.ac = s.ac ∧ SameControls s u ∧ Kept (pairOf d) nothing nothing s u) ∧
      (srcValue s a = 0#32 →
        exec (.ediv a b d) s = faultsWith
          { ftype := 0x03, subtype := 0x02, afi := some s.ip, sip := some (s.ip + 4#32) } s))

/-- movl, movt, ediv, ldl, stl, ldt and stt with a register number that breaks the alignment of its width take
Operation.InvalidOperand in the state before them (PRESUMED, log 30); a floating-point instruction with a
long-real or extended-real operand in a register not aligned for it is refused by name (R138). (R27, R138, R444,
R472) -/
def Obligations.MisalignedRegisters : Prop :=
  ∀ (s : State) (x y : Src) (n : Reg) (m : Addr) (a b : FpSrc) (d : FpDst),
    ((x.isEven && Reg.isEven n) = false → exec (.movl x n) s = faultsWith (invalidOperand s) s) ∧
    ((x.isQuad && Reg.isQuad n) = false → exec (.movt x n) s = faultsWith (invalidOperand s) s) ∧
    ((y.isEven && Reg.isEven n) = false → exec (.ediv x y n) s = faultsWith (invalidOperand s) s) ∧
    (Reg.isEven n = false → exec (.ldl m n) s = faultsWith (invalidOperand s) s ∧
      exec (.stl n m) s = faultsWith (invalidOperand s) s) ∧
    (Reg.isQuad n = false → exec (.ldt m n) s = faultsWith (invalidOperand s) s ∧
      exec (.stt n m) s = faultsWith (invalidOperand s) s) ∧
    (∀ p ∈ unary ++ [(.ext, .movre)], (a.fits p.1 && d.fits p.1) = false →
      exec (p.2 a d) s = .refused .misalignedFpRegister) ∧
    (∀ p ∈ binary ++ remainders ++ [(.ext, .cpysre), (.ext, .cpyrsre)],
      (a.fits p.1 && b.fits p.1 && d.fits p.1) = false → exec (p.2 a b d) s = .refused .misalignedFpRegister) ∧
    (∀ p ∈ scales, (b.fits p.1 && d.fits p.1) = false → exec (p.2 x b d) s = .refused .misalignedFpRegister) ∧
    ((x.isEven && d.fits .long) = false → exec (.cvtilr x d) s = .refused .misalignedFpRegister) ∧
    (Reg.isEven n = false → exec (.cvtril a n) s = .refused .misalignedFpRegister ∧
      exec (.cvtzril a n) s = .refused .misalignedFpRegister) ∧
    ((a.fits .long && b.fits .long) = false → exec (.cmprl a b) s = .refused .misalignedFpRegister ∧
      exec (.cmporl a b) s = .refused .misalignedFpRegister) ∧
    (a.fits .long = false → exec (.classrl a) s = .refused .misalignedFpRegister)

/-- At an address of its natural alignment outside the reserved space, or, where DATA_ALIGN_POLICY splits
unaligned accesses (log 43), at any address with its first and last byte outside it, each load fills its
registers with the words at the address and after it, lowest register from the lowest address, where those words
have a defined value (a save area of a frame whose registers are on the chip and the PRCB scratch space have
none, log 10); nothing but those registers and IP changes. The order of the words is general knowledge in R86;
the free reads are the spec's decision D33. (R86, R89, R100, R445, R446, R447) -/
def Obligations.Loads : Prop :=
  ∀ (s : State) (m : Addr) (d : Reg) (a : Word), a = effectiveAddr s m →
    (DataAllowed s 4 4 a →
      ∃ u, exec (.ld m d) s = .next (ended s.ip u) ∧
        (readIsFree s a = false → getReg u d = wordAt s a.toNat) ∧
        u.ip = s.ip + memLength m ∧ u.ac = s.ac ∧ SameControls s u ∧ Kept (only d) nothing nothing s u) ∧
    (DataAllowed s 8 8 a → Reg.isEven d = true →
      ∃ u, exec (.ldl m d) s = .next (ended s.ip u) ∧
        (readIsFree s a = false → getReg u d = wordAt s a.toNat) ∧
        (readIsFree s (a + 4#32) = false → getReg u (d + 1#5) = wordAt s (a.toNat + 4)) ∧
        u.ip = s.ip + memLength m ∧ u.ac = s.ac ∧ SameControls s u ∧ Kept (pairOf d) nothing nothing s u) ∧
    (DataAllowed s 16 12 a → Reg.isQuad d = true →
      ∃ u, exec (.ldt m d) s = .next (ended s.ip u) ∧
        (readIsFree s a = false → getReg u d = wordAt s a.toNat) ∧
        (readIsFree s (a + 4#32) = false → getReg u (d + 1#5) = wordAt s (a.toNat + 4)) ∧
        (readIsFree s (a + 8#32) = false → getReg u (d + 2#5) = wordAt s (a.toNat + 8)) ∧
        u.ip = s.ip + memLength m ∧ u.ac = s.ac ∧ SameControls s u ∧ Kept (tripleOf d) nothing nothing s u)

/-- To an address of its natural alignment outside the reserved space, each store writes its registers as words
at the effective address and after it, the lowest register at the lowest address; every other byte of memory,
every register, AC, PC and TC are unchanged. The rules' example words decode to these instructions. (R448, R449,
R450) -/
def Obligations.Stores : Prop :=
  ∀ (s : State) (m : Addr) (r : Reg) (a : Word), Memory.wf s.mem = true → a = effectiveAddr s m →
    isReserved a = false →
    (a.toNat % 4 = 0 →
      ∃ u, exec (.st r m) s = .next (ended s.ip u) ∧ wordAt u a.toNat = getReg s r ∧
        u.ip = s.ip + memLength m ∧ u.ac = s.ac ∧ SameControls s u ∧
        Kept nothing nothing (bytesFrom a.toNat 4) s u) ∧
    (a.toNat % 8 = 0 → Reg.isEven r = true →
      ∃ u, exec (.stl r m) s = .next (ended s.ip u) ∧ wordAt u a.toNat = getReg s r ∧
        wordAt u (a.toNat + 4) = getReg s (r + 1#5) ∧
        u.ip = s.ip + memLength m ∧ u.ac = s.ac ∧ SameControls s u ∧
        Kept nothing nothing (bytesFrom a.toNat 8) s u) ∧
    (a.toNat % 16 = 0 → Reg.isQuad r = true →
      ∃ u, exec (.stt r m) s = .next (ended s.ip u) ∧ wordAt u a.toNat = getReg s r ∧
        wordAt u (a.toNat + 4) = getReg s (r + 1#5) ∧
        wordAt u (a.toNat + 8) = getReg s (r + 2#5) ∧
        u.ip = s.ip + memLength m ∧ u.ac = s.ac ∧ SameControls s u ∧
        Kept nothing nothing (bytesFrom a.toNat 12) s u) ∧
    decode 0x92241000#32 0#32 = .instr (.st 4#5 (.base 16#5)) ∧
    decode 0x9A941000#32 0#32 = .instr (.stl 18#5 (.base 16#5)) ∧
    decode 0xA2A41000#32 0#32 = .instr (.stt 20#5 (.base 16#5)) ∧
    decode 0xA2A42010#32 0#32 = .instr (.stt 20#5 (.baseOffset 16#5 16#12))

/-- Where DATA_ALIGN_POLICY splits unaligned accesses, a store to any address with its first and last byte
outside the reserved space writes its registers as words there, and changes nothing else but IP. A load or store
at an address that is not a multiple of its natural alignment is refused as misaligned, where DATA_ALIGN_POLICY
is the default; one in the reserved upper 16M bytes is refused as reserved space, and so is a split one whose
first or last byte lies there. synld from and synmov to the reserved space other than the interrupt-control
register are refused as reserved space. Taking a fault and servicing a vector are refused where the address of
the fault-table or interrupt-table entry passes 2^32. The refusals are the spec's own decisions D3 and D31 and
Part 1 of 93_implementation_defined.md (log 7, log 26, log 38); that a synmov may read the interrupt-control
register is log 39, what a split access is log 43. (R82, R86, R89, R90, R448, R449, R450, R451, R452) -/
def Obligations.SplitAndRefusedAccesses : Prop :=
  ∀ (s : State) (m : Addr) (r : Reg) (x y : Src) (a : Word), a = effectiveAddr s m →
    (s.params.dataAlign = .split → Memory.wf s.mem = true →
      (DataAllowed s 4 4 a →
        ∃ u, exec (.st r m) s = .next (ended s.ip u) ∧ wordAt u a.toNat = getReg s r ∧
          u.ip = s.ip + memLength m ∧ u.ac = s.ac ∧ SameControls s u ∧
          Kept nothing nothing (bytesFrom a.toNat 4) s u) ∧
      (DataAllowed s 8 8 a → Reg.isEven r = true →
        ∃ u, exec (.stl r m) s = .next (ended s.ip u) ∧ wordAt u a.toNat = getReg s r ∧
          wordAt u (a.toNat + 4) = getReg s (r + 1#5) ∧
          u.ip = s.ip + memLength m ∧ u.ac = s.ac ∧ SameControls s u ∧
          Kept nothing nothing (bytesFrom a.toNat 8) s u) ∧
      (DataAllowed s 16 12 a → Reg.isQuad r = true →
        ∃ u, exec (.stt r m) s = .next (ended s.ip u) ∧ wordAt u a.toNat = getReg s r ∧
          wordAt u (a.toNat + 4) = getReg s (r + 1#5) ∧
          wordAt u (a.toNat + 8) = getReg s (r + 2#5) ∧
          u.ip = s.ip + memLength m ∧ u.ac = s.ac ∧ SameControls s u ∧
          Kept nothing nothing (bytesFrom a.toNat 12) s u)) ∧
    (s.params.dataAlign = .refuse →
      (a.toNat % 4 ≠ 0 → exec (.ld m r) s = .refused .misaligned ∧ exec (.st r m) s = .refused .misaligned) ∧
      (a.toNat % 8 ≠ 0 → Reg.isEven r = true →
        exec (.ldl m r) s = .refused .misaligned ∧ exec (.stl r m) s = .refused .misaligned) ∧
      (a.toNat % 16 ≠ 0 → Reg.isQuad r = true →
        exec (.ldt m r) s = .refused .misaligned ∧ exec (.stt r m) s = .refused .misaligned)) ∧
    (∀ n : Nat, (isReserved a = true ∧ (a.toNat % n = 0 ∨ s.params.dataAlign = .split)) ∨
        (s.params.dataAlign = .split ∧ isReserved (a + BitVec.ofNat 32 (min n 12 - 1)) = true) →
      (n = 4 → exec (.ld m r) s = .refused .reservedSpace ∧ exec (.st r m) s = .refused .reservedSpace) ∧
      (n = 8 → Reg.isEven r = true →
        exec (.ldl m r) s = .refused .reservedSpace ∧ exec (.stl r m) s = .refused .reservedSpace) ∧
      (n = 16 → Reg.isQuad r = true →
        exec (.ldt m r) s = .refused .reservedSpace ∧ exec (.stt r m) s = .refused .reservedSpace)) ∧
    (isReserved (srcValue s x) = true → wordAligned (srcValue s x) ≠ icrAddress →
      exec (.synld x r) s = .refused .reservedSpace ∧
      (isReserved (srcValue s y) = false ∨ wordAligned (srcValue s y) = icrAddress →
        exec (.synmov x y) s = .refused .reservedSpace)) ∧
    (isReserved (srcValue s y) = true → wordAligned (srcValue s y) ≠ icrAddress →
      exec (.synmov x y) s = .refused .reservedSpace) ∧
    (∀ f : FaultInfo, 2 ^ 32 ≤ s.faultTable.toNat + 8 * f.ftype.toNat →
      deliverFault f s = .error (.refused .addressWrap)) ∧
    (∀ (v : Byte) (nsp : Word), 8 ≤ v.toNat → (pcPriority s).toNat < v.toNat / 8 ∨ v.toNat / 8 = 31 →
      nsp = (if getBit s.pc 13 = true then getReg s spReg else s.intStack) →
      recordRoom nsp s.params.interruptRecord.size →
      2 ^ 32 ≤ s.intTable.toNat + 36 + 4 * (v.toNat - 8) →
      receiveInterrupt v s = .error (.refused .addressWrap))

/-- synld from 0xFF000004 (low two bits ignored) loads the interrupt-control register, from an address outside
the reserved space the word there where it has a defined value; the condition code becomes 010; nothing else but
the destination and IP changes. synmov reads the word at its source address, or the interrupt-control register,
and writes it to that register, if the destination is 0xFF000004, or to memory at a destination outside the
reserved space (low two bits of both addresses ignored); the condition code becomes 010; no register and no
other byte changes. Where the source word has no defined value the value written is free. What R451 and R452
mark so is general knowledge in the spec; that a synmov whose source is the interrupt-control register reads it
is the model's reading of R53 (log 39). (R53, R83, R451, R452) -/
def Obligations.SynchronousAccesses : Prop :=
  (∀ (s : State) (x : Src) (d : Reg),
      wordAligned (srcValue s x) = icrAddress ∨ isReserved (srcValue s x) = false →
      ∃ u, exec (.synld x d) s = .next (ended s.ip u) ∧
        (wordAligned (srcValue s x) = icrAddress → getReg u d = s.icr) ∧
        (isReserved (srcValue s x) = false → readIsFree s (wordAligned (srcValue s x)) = false →
          getReg u d = wordAt s (wordAligned (srcValue s x)).toNat) ∧
        OnlyCc 0b010#3 s u ∧ u.ip = s.ip + 4#32 ∧ SameControls s u ∧ Kept (only d) nothing nothing s u) ∧
    (∀ (s : State) (x y : Src) (a b v : Word), Memory.wf s.mem = true →
      a = wordAligned (srcValue s x) → b = wordAligned (srcValue s y) →
      ((b = icrAddress ∧ v = s.icr) ∨
        (isReserved b = false ∧ (readIsFree s b = false → v = wordAt s b.toNat))) →
      (a = icrAddress →
        ∃ u, exec (.synmov x y) s = .next (ended s.ip u) ∧
          (b = icrAddress ∨ readIsFree s b = false → u.icr = v) ∧ OnlyCc 0b010#3 s u ∧
          u.ip = s.ip + 4#32 ∧ SameControls s u ∧ Kept nothing nothing nothing s { u with icr := s.icr }) ∧
      (isReserved a = false →
        ∃ u, exec (.synmov x y) s = .next (ended s.ip u) ∧
          (b = icrAddress ∨ readIsFree s b = false → wordAt u a.toNat = v) ∧ OnlyCc 0b010#3 s u ∧
          u.ip = s.ip + 4#32 ∧ SameControls s u ∧ Kept nothing nothing (bytesFrom a.toNat 4) s u))

/-- modac replaces the bits of AC that the mask selects and modtc those bits of TC that the mask selects and
that are mode or event flags; the destination receives the old register; nothing else but IP changes. What R422
and R424 mark so is general knowledge in the spec; D40 decides which TC judges the events. (R422, R424) -/
def Obligations.ModifyControls : Prop :=
  ∀ (s : State) (m x : Src) (d : Reg),
    (∃ u, exec (.modac m x d) s = .next (ended s.ip u) ∧ getReg u d = s.ac ∧
      (∀ i, getBit u.ac i = if getBit (srcValue s m) i = true then getBit (srcValue s x) i else getBit s.ac i) ∧
      u.ip = s.ip + 4#32 ∧ SameControls s u ∧ Kept (only d) nothing nothing s u) ∧
    (∃ u, exec (.modtc m x d) s = .next (ended s.ip u) ∧ getReg u d = s.tc ∧
      (∀ i, getBit u.tc i =
        if (getBit (srcValue s m) i && (decide (1 ≤ i ∧ i ≤ 7) || decide (17 ≤ i ∧ i ≤ 23))) = true
        then getBit (srcValue s x) i else getBit s.tc i) ∧
      u.ip = s.ip + 4#32 ∧ u.ac = s.ac ∧ u.pc = s.pc ∧ Kept (only d) nothing nothing s u) ∧
    decode 0x64944290#32 0#32 = .instr (.modac (.reg 16#5) (.reg 17#5) 18#5)

/-- With a zero mask modpc only reads PC, in either mode. In supervisor mode, with a mask that selects no
reserved bit, it replaces the selected bits of PC and the register receives the old PC; where the priority is
not lowered or no interrupt is pending it goes on, and where it is lowered the pending interrupts are checked
after IP and the end-of-step events, so that an interrupt taken then returns to the next instruction; a
trace-enable change is seen at once or, if Config.modpcTraceDelay is not 0, later (log 21). In user mode a
nonzero mask takes Type.Mismatch; a mask that selects a reserved bit is refused. The refusal is the spec's own
decision D16 (log 29); that modpc itself goes by the flag seen before it when the delay is not 0, and that a
change during an earlier delay does so too, is the model's choice (log 21). (R420, R477, R518, R552, R553, R595)
-/
def Obligations.ModifyProcessControls : Prop :=
  ∀ (s : State) (x m : Src) (d : Reg),
    (srcValue s m = 0#32 →
      ∃ u, exec (.modpc x m d) s = .next (ended s.ip u) ∧ getReg u d = s.pc ∧
        u.ip = s.ip + 4#32 ∧ u.ac = s.ac ∧ SameControls s u ∧ Kept (only d) nothing nothing s u) ∧
    (srcValue s m ≠ 0#32 → pcEm s = true → srcValue s m &&& 0xFFE0D9FC#32 = 0#32 →
      ∀ pc : Word, (∀ i, i < 32 → getBit pc i =
          if getBit (srcValue s m) i = true then getBit (getReg s d) i else getBit s.pc i) →
        ∃ u, ((pcPriority s).toNat ≤ (pc.extractLsb' 16 5).toNat ∨
            (okWord s s.intTable ∧ wordAt s s.intTable.toNat = 0#32) →
            exec (.modpc x m d) s = .next (ended s.ip u)) ∧
          ((pc.extractLsb' 16 5).toNat < (pcPriority s).toNat →
            exec (.modpc x m d) s = toOutcome (checkPending (ended s.ip u))) ∧
          u.pc = pc ∧ getReg u d = s.pc ∧
          (getBit pc 0 ≠ getBit s.pc 0 →
            seenTe (ended s.ip u) =
              if Config.modpcTraceDelay.val = 0 then getBit pc 0 else seenTe s) ∧
          u.tc = s.tc ∧ u.ac = s.ac ∧ u.ip = s.ip + 4#32 ∧ Kept (only d) nothing nothing s u) ∧
    (srcValue s m ≠ 0#32 → pcEm s = false →
      exec (.modpc x m d) s = faultsWith { ftype := 0x0A, subtype := 0x01, afi := some s.ip, sip := none } s) ∧
    (pcEm s = true → srcValue s m &&& 0xFFE0D9FC#32 ≠ 0#32 →
      exec (.modpc x m d) s = .refused .reservedPcBits)

/-- mark signals a breakpoint event exactly if the trace-enable flag and the breakpoint-trace mode are set,
fmark if the trace-enable flag is set, whatever the mode; otherwise only IP changes. What R426 and R427 mark so
is the spec's own reading; which trace-enable value sets the pending flag is the model's choice (log 21). (R426,
R427, R547) -/
def Obligations.BreakpointInstructions : Prop :=
  ∀ s : State,
    (∃ u, exec .mark s = .next (ended s.ip u) ∧
      (∀ i, getBit u.tc i = (getBit s.tc i || (getBit s.pc 0 && getBit s.tc 7 && i == 23))) ∧
      (∀ i, getBit u.pc i = (getBit s.pc i || (getBit s.pc 0 && getBit s.tc 7 && seenTe s && i == 10))) ∧
      u.ip = s.ip + 4#32 ∧ u.ac = s.ac ∧ Kept nothing nothing nothing s u) ∧
    (∃ u, exec .fmark s = .next (ended s.ip u) ∧
      (∀ i, getBit u.tc i = (getBit s.tc i || (getBit s.pc 0 && i == 23))) ∧
      (∀ i, getBit u.pc i = (getBit s.pc i || (getBit s.pc 0 && seenTe s && i == 10))) ∧
      u.ip = s.ip + 4#32 ∧ u.ac = s.ac ∧ Kept nothing nothing nothing s u) ∧
    decode 0x66000580#32 0#32 = .instr .mark ∧ decode 0x66000600#32 0#32 = .instr .fmark

/-- Whatever the state, and whatever bit 15 of AC, syncf goes on to the next instruction and changes nothing
else; no exception is raised, and its only event is the instruction event that ends every instruction. The
rule's example word decodes to it. (R430) -/
def Obligations.SyncfIsNoOp : Prop :=
  ∀ s : State,
    exec .syncf s = .next (ended s.ip { s with ip := s.ip + 4#32 }) ∧
    decode 0x66000780#32 0#32 = .instr .syncf

/-- With cached sets under distinct 64-byte-aligned frame addresses outside the reserved space, flushreg writes
each set's sixteen registers to its frame's save area, drops every set but the current one from the chip, and
changes no other byte of memory, no register and no control register. That every set but the current one leaves
the chip is R404's [derived: doc03, doc01]; the order of the words in the save area is general knowledge in
R100. (R100, R404) -/
def Obligations.FlushRegisters : Prop :=
  ∀ s : State, Memory.wf s.mem = true →
    (∀ e ∈ s.older, frameAligned e.addr = e.addr ∧ isReserved e.addr = false) →
    s.older.Pairwise (fun e f => e.addr ≠ f.addr) →
    decode 0x66000680#32 0#32 = .instr .flushreg ∧
    ∃ u, exec .flushreg s = .next (ended s.ip u) ∧ u.older = [] ∧
      (∀ e ∈ s.older, ∀ i : Fin 16, wordAt u (e.addr.toNat + 4 * i.val) = e.regs[i]) ∧
      u.ip = s.ip + 4#32 ∧ u.ac = s.ac ∧ SameControls s u ∧
      Kept nothing nothing (fun a => ∃ e ∈ s.older, bytesFrom e.addr.toNat 64 a) { s with older := [] } u

/-- b goes to IP plus its signed displacement and bx to its effective address with the low two bits cleared;
each conditional branch does so exactly if its mask meets the condition code (or both are zero), else goes on to
the next instruction; a branch that branches signals the branch event under branch-trace mode, and nothing else
changes. The masks are general knowledge in R321 (log 1). That IP plus the displacement wraps modulo 2^32 is the
model's choice (log 38). (R321, R322, R323, R324, R393, R394, R541) -/
def Obligations.Branches : Prop :=
  ∀ (s : State),
    (∀ t, ∃ u, exec (.b t) s = .next (ended s.ip u) ∧ u.ip = s.ip + BitVec.ofInt 32 (4 * t.toInt) ∧
      EventOnly .branch s u ∧ u.ac = s.ac ∧ Kept nothing nothing nothing s u) ∧
    (∀ m, ∃ u, exec (.bx m) s = .next (ended s.ip u) ∧ u.ip = effectiveAddr s m &&& 0xFFFFFFFC#32 ∧
      EventOnly .branch s u ∧ u.ac = s.ac ∧ Kept nothing nothing nothing s u) ∧
    (∀ p ∈ condBranches, ∀ t,
      (Holds p.1 (acCc s) → ∃ u, exec (p.2 t) s = .next (ended s.ip u) ∧
        u.ip = s.ip + BitVec.ofInt 32 (4 * t.toInt) ∧
        EventOnly .branch s u ∧ u.ac = s.ac ∧ Kept nothing nothing nothing s u) ∧
      (¬ Holds p.1 (acCc s) → ∃ u, exec (p.2 t) s = .next (ended s.ip u) ∧ u.ip = s.ip + 4#32 ∧
        SameControls s u ∧ u.ac = s.ac ∧ Kept nothing nothing nothing s u)) ∧
    decode 0x08FFFFF0#32 0#32 = .instr (.b 0x3FFFFC#22) ∧ decode 0x14000010#32 0#32 = .instr (.bl 4#22) ∧
    decode 0x1200000C#32 0#32 = .instr (.be 3#22)

/-- bal writes the address of the next instruction to g14 and goes to IP plus its displacement; balx writes it
to its destination and goes to the effective address, computed first; under call-trace mode bit 3 of the current
r0 is set and the call event signaled; nothing else changes. The destination field of balx is general knowledge
in R391, and what R391 says of bit 3 is marked derived there. That IP plus the displacement wraps modulo 2^32 is
the model's choice (log 38). (R391, R392, R542) -/
def Obligations.BranchAndLink : Prop :=
  ∀ (s : State) (t : CtrlDisp) (m : Addr) (d : Reg),
    (∃ u, exec (.bal t) s = .next (ended s.ip u) ∧ u.ip = s.ip + BitVec.ofInt 32 (4 * t.toInt) ∧
      getReg u linkReg = s.ip + 4#32 ∧
      (getBit s.tc 3 = false → getReg u pfpReg = getReg s pfpReg) ∧
      (getBit s.tc 3 = true → getReg u pfpReg = getReg s pfpReg ||| 8#32) ∧
      EventOnly .call s u ∧ u.ac = s.ac ∧
      Kept (fun r => r = linkReg ∨ r = pfpReg) nothing nothing s u) ∧
    (∃ u, exec (.balx m d) s = .next (ended s.ip u) ∧ u.ip = effectiveAddr s m &&& 0xFFFFFFFC#32 ∧
      (d ≠ pfpReg ∨ getBit s.tc 3 = false → getReg u d = s.ip + memLength m) ∧
      (d = pfpReg → getBit s.tc 3 = true → getReg u d = (s.ip + memLength m) ||| 8#32) ∧
      (d ≠ pfpReg → getReg u pfpReg = if getBit s.tc 3 = true then getReg s pfpReg ||| 8#32 else getReg s pfpReg) ∧
      EventOnly .call s u ∧ u.ac = s.ac ∧
      Kept (fun r => r = d ∨ r = pfpReg) nothing nothing s u) ∧
    decode 0x0B000040#32 0#32 = .instr (.bal 16#22)

/-- With at most two callers' sets on the chip and room for the frame, call and callx store the address of the
next instruction in the caller's r2, keep the caller's registers on the chip under its frame address, and enter
the procedure in a new frame at the next 64-byte boundary above SP with return status 000; the target of callx
is computed first; memory does not change and only the call event changes PC and TC. With three callers' sets on
the chip, the oldest under a 64-byte-aligned frame address outside the reserved space, they also write that
set's sixteen registers to its frame's save area and drop it; no other byte of memory changes. A frame past 2^32
is refused. That a spilled set lies in memory as R383 lays it out is partly general knowledge there; the refusal
is the spec's decision D18 (log 7); that IP plus the displacement of call wraps modulo 2^32 is the model's
choice (log 38). (R25, R382, R383, R384, R385, R386) -/
def Obligations.LocalCalls : Prop :=
  (∀ (s : State) (t : CtrlDisp) (m : Addr), ¬ roomAt (getReg s spReg) →
      exec (.call t) s = .refused .frameOverflow ∧ exec (.callx m) s = .refused .frameOverflow) ∧
    (∀ s : State, s.older.length ≤ 2 → roomAt (getReg s spReg) →
      (∀ t, ∃ u, exec (.call t) s = .next (ended s.ip u) ∧
        Called (s.ip + BitVec.ofInt 32 (4 * t.toInt)) (getReg s spReg) 0b000#3 s u ∧
        Pushed (setReg s ripReg (s.ip + 4#32)) u ∧ EventOnly .call s u ∧ u.mem = s.mem ∧ SameSystem s u) ∧
      (∀ m, ∃ u, exec (.callx m) s = .next (ended s.ip u) ∧
        Called (effectiveAddr s m) (getReg s spReg) 0b000#3 s u ∧
        Pushed (setReg s ripReg (s.ip + memLength m)) u ∧ EventOnly .call s u ∧ u.mem = s.mem ∧ SameSystem s u)) ∧
    (∀ (s : State) (i : Instr) (target len : Word) (e f g : RegSet), s.older = [e, f, g] → Memory.wf s.mem = true →
      roomAt (getReg s spReg) → frameAligned g.addr = g.addr → isReserved g.addr = false →
      ((∃ t, i = .call t ∧ target = s.ip + BitVec.ofInt 32 (4 * t.toInt) ∧ len = 4#32) ∨
        (∃ m, i = .callx m ∧ target = effectiveAddr s m ∧ len = memLength m)) →
      ∃ u, exec i s = .next (ended s.ip u) ∧ Called target (getReg s spReg) 0b000#3 s u ∧
        Spilled (setReg s ripReg (s.ip + len)) e f g nothing s u ∧ EventOnly .call s u ∧ SameSystem s u)

/-- calls to a local entry, or to a supervisor entry in supervisor mode, enters the procedure in a new frame
above SP with status 000. From user mode a supervisor entry switches to supervisor mode and to the supervisor
stack, sets the trace-enable flag from the trace-control flag, and records status 01 with the old trace-enable
flag. The call event, and for a supervisor entry the supervisor event, are signaled under their modes; memory
and everything else of PC and TC are unchanged. A procedure number above 259 takes Protection.Length; a reserved
entry type, an entry whose address passes 2^32, and a frame past 2^32 are refused. (At most two callers' sets on
the chip, the tables readable.) That the events of a supervisor call from user mode are judged by the new
trace-enable flag is the spec's own decision D40 (R388, log 22). The refusals are its decisions D28 and D18 and
Part 1 of 93_implementation_defined.md (log 7, log 29, log 38). (R90, R382, R387, R388, R389, R476, R553) -/
def Obligations.SystemCalls : Prop :=
  ∀ (s : State) (x : Src) (n : Word), n = srcValue s x →
    (259 < n.toNat →
      exec (.calls x) s =
        faultsWith { ftype := 0x07, subtype := 0x02, afi := some s.ip, sip := some s.ip } s) ∧
    (n.toNat ≤ 259 → 2 ^ 32 ≤ s.sysprocBase.toNat + (48 + 4 * n.toNat) → exec (.calls x) s = .refused .addressWrap) ∧
    (∀ entry : Word, n.toNat ≤ 259 → okEntry s s.sysprocBase (48#32 + 4#32 * n) →
      entry = wordAt s (s.sysprocBase + (48#32 + 4#32 * n)).toNat →
      entry.setWidth 2 = 1#2 ∨ entry.setWidth 2 = 3#2 → exec (.calls x) s = .refused .reservedEntryType) ∧
    (∀ (entry w b : Word) (status : BitVec 3), SystemEntry n s entry w b status →
      (¬ roomAt b → exec (.calls x) s = .refused .frameOverflow) ∧
      (roomAt b → s.older.length ≤ 2 →
        ∃ u, exec (.calls x) s = .next (ended s.ip u) ∧ Called entry b status s u ∧
          Pushed (setReg s ripReg (s.ip + 4#32)) u ∧ CallControls entry w s u ∧ u.mem = s.mem ∧ SameSystem s u))

/-- With three callers' sets on the chip, the oldest under a 64-byte-aligned frame address outside the reserved
space: calls of a local entry, of a supervisor entry from supervisor and from user mode, taking a fault through
any entry of the fault table, local or supervisor, and taking an interrupt each do to registers, PC, TC, AC, the
fault or interrupt record, the priority and the processor state what SystemCalls, FaultDelivered and
InterruptTaken say (the definitions of their words are shared), and write the sixteen registers of the oldest
set to its frame's save area and drop it from the chip; no other byte of memory changes, but for the bytes of
the fault or interrupt record, which are written first and lie outside that area. That the events of a
supervisor call from user mode are judged by the new trace-enable flag is the spec's own decision D40 (R388, log
22). That a spilled set lies in memory as R383 lays it out is partly general knowledge there; the record layouts
are D22 (log 23). (R25, R82, R383, R384, R388, R480, R487, R490, R516, R523) -/
def Obligations.FullCacheSpills : Prop :=
  ∀ (s : State) (e f g : RegSet), s.older = [e, f, g] → Memory.wf s.mem = true →
    frameAligned g.addr = g.addr → isReserved g.addr = false →
    (∀ (x : Src) (entry w b : Word) (status : BitVec 3), SystemEntry (srcValue s x) s entry w b status → roomAt b →
      ∃ u, exec (.calls x) s = .next (ended s.ip u) ∧ Called entry b status s u ∧
        Spilled (setReg s ripReg (s.ip + 4#32)) e f g nothing s u ∧ CallControls entry w s u ∧ SameSystem s u) ∧
    (∀ (i : FaultInfo) (entry nsp nfp : Word) (sup : Option Word), s.params.faultRecord = defaultFaultLayout →
      HandledAt i s entry nsp sup → recordRoom nsp 48#32 → nfp = frameAbove (nsp + 48#32) →
      isReserved (nfp - 28#32) = false → isReserved (nfp - 4#32) = false →
      (∀ x, bytesFrom (nfp.toNat - 28) 28 x → ¬ bytesFrom g.addr.toNat 64 x) →
      ∃ (u : State) (r2 : Word), deliverFault i s = .ok u ∧
        Called entry (nsp + 48#32) 0b001#3 s u ∧ FaultRecorded i nfp s u ∧ (∀ a, i.sip = some a → r2 = a) ∧
        HandlerControls sup s u ∧
        Spilled (setReg s ripReg r2) e f g (bytesFrom (nfp.toNat - 28) 28) s u ∧ SameSystem s u) ∧
    (∀ (v : Byte) (nsp nfp entry : Word), (pcPriority s).toNat < v.toNat / 8 ∨ v.toNat / 8 = 31 →
      Vectored v s nsp nfp entry → recordRoom nsp 16#32 →
      (∀ x, bytesFrom (nfp.toNat - 16) 12 x → ¬ bytesFrom g.addr.toNat 64 x) →
      ∃ u, receiveInterrupt v s = .ok u ∧ InterruptEntered v nsp nfp entry s u ∧
        Spilled (setReg s ripReg s.ip) e f g (bytesFrom (nfp.toNat - 16) 12) s u)

/-- With return status 000, ret makes the PFP the FP, takes back the caller's registers, from the chip if a set
is cached there and from the frame's save area if none is, and goes to the address in the caller's r2, low two
bits cleared; only the return event changes PC and TC, memory and AC do not change. A PFP that does not name the
newest cached frame is refused. The refusal is R383's own (log 29). (R396, R397, R398, R383, R543) -/
def Obligations.LocalReturn : Prop :=
  ∀ (s : State) (t : Word), (getReg s pfpReg).setWidth 3 = 0#3 → t = getReg s pfpReg &&& 0xFFFFFFC0#32 →
    (∀ e rest, s.older = e :: rest → e.addr = t →
      ∃ u, exec .ret s = .next (ended s.ip u) ∧ u.cur = e.regs ∧ u.older = rest ∧
        getReg u fpReg = t ∧ u.ip = getReg u ripReg &&& 0xFFFFFFFC#32 ∧
        (∀ r, isGlobal r = true → r ≠ fpReg → getReg u r = getReg s r) ∧ u.fp = s.fp ∧ u.ac = s.ac ∧
        u.mem = s.mem ∧ EventOnly .ret s u ∧ SameSystem s u) ∧
    (∀ e rest, s.older = e :: rest → e.addr ≠ t → exec .ret s = .refused .pfpChanged) ∧
    (s.older = [] → isReserved t = false →
      ∃ u, exec .ret s = .next (ended s.ip u) ∧
        (∀ i : Fin 16, scratchWord s (t + BitVec.ofNat 32 (4 * i.val)) = false →
          u.cur[i] = wordAt s (t.toNat + 4 * i.val)) ∧ u.older = [] ∧
        getReg u fpReg = t ∧ u.ip = getReg u ripReg &&& 0xFFFFFFFC#32 ∧
        (∀ r, isGlobal r = true → r ≠ fpReg → getReg u r = getReg s r) ∧ u.fp = s.fp ∧ u.ac = s.ac ∧
        u.mem = s.mem ∧ EventOnly .ret s u ∧ SameSystem s u)

/-- From an aligned IP, with at most two callers' sets on the chip, a ret executed in the state that call or
callx leaves comes back to the instruction after the call with every local register but r2, every global
register but the low six bits of g15, every floating-point register, AC, memory and the register cache as they
were before the call; r2 holds the return address. From user mode, a ret executed in the state that calls of a
supervisor entry leaves does the same and goes back to user mode with the trace-enable flag it had, PC otherwise
unchanged but for the trace-fault-pending flag; in the state between the two the processor is in supervisor
mode. Which controls judge the events is the spec's decision D40. (R381, R384, R385, R386, R388, R389, R397,
R398, R399, R554) -/
def Obligations.CallThenReturn : Prop :=
  ∀ s t : State, isCodeAddress s.ip → s.older.length ≤ 2 →
    (∀ (i : Instr) (len : Word),
      ((∃ d, i = .call d ∧ len = 4#32) ∨ (∃ m, i = .callx m ∧ len = memLength m)) → exec i s = .next t →
      ∃ v, exec .ret t = .next v ∧ v.ip = s.ip + len ∧
        (∀ r, r ≠ ripReg → r ≠ fpReg → getReg v r = getReg s r) ∧ getReg v ripReg = s.ip + len ∧
        getReg v fpReg = getReg s fpReg &&& 0xFFFFFFC0#32 ∧
        v.fp = s.fp ∧ v.ac = s.ac ∧ v.mem = s.mem ∧ v.older = s.older ∧ SameSystem s v) ∧
    (∀ (x : Src) (entry w b : Word) (status : BitVec 3), pcEm s = false →
      SystemEntry (srcValue s x) s entry w b status → entry.setWidth 2 = 2#2 → exec (.calls x) s = .next t →
      pcEm t = true ∧
      ∃ v, exec .ret t = .next v ∧ v.ip = s.ip + 4#32 ∧ pcEm v = false ∧ pcTe v = pcTe s ∧
        (∀ r, r ≠ ripReg → r ≠ fpReg → getReg v r = getReg s r) ∧ getReg v ripReg = s.ip + 4#32 ∧
        getReg v fpReg = getReg s fpReg &&& 0xFFFFFFC0#32 ∧
        (∀ i, i ≠ 10 → getBit v.pc i = getBit s.pc i) ∧
        v.fp = s.fp ∧ v.ac = s.ac ∧ v.mem = s.mem ∧ v.older = s.older ∧ SameSystem s v)

/-- With return status 001, ret restores AC from the fault record below the handler's frame, and PC too if the
processor is in supervisor mode, then returns to the interrupted frame: registers from the chip, or from its
save area if no set is on the chip, IP from its r2; memory does not change. In user mode PC keeps all but what
the events of the ret set. ret is refused by name with a reserved return status, with a supervisor or interrupt
return status in user mode, and, for a return that restores PC, with a saved PC whose resume flag is set. The
refusals are the spec's own decisions D14, D28 and D41, when PC is restored D42, that the events come before the
restored PC D40 (log 28, log 29); the record layout is D22 (log 23). (R398, R527, R400, R491, R492, R397) -/
def Obligations.FaultReturn : Prop :=
  (∀ (s : State) (rec t : Word),
      (getReg s pfpReg).setWidth 3 = 1#3 → rec = getReg s fpReg &&& 0xFFFFFFC0#32 →
      t = getReg s pfpReg &&& 0xFFFFFFC0#32 → Returnable t s → s.params.faultRecord = defaultFaultLayout →
      okWord s (rec - 12#32) →
      (pcEm s = true → okWord s (rec - 16#32) → getBit (wordAt s (rec - 16#32).toNat) 9 = false →
        ∃ v, exec .ret s = .next v ∧ v.pc = wordAt s (rec - 16#32).toNat ∧
          v.ac = wordAt s (rec - 12#32).toNat ∧ Returned t s v ∧ v.lastIp = s.ip ∧ SameSystem s v) ∧
      (pcEm s = false →
        ∃ u, exec .ret s = .next (ended s.ip u) ∧ u.ac = wordAt s (rec - 12#32).toNat ∧
          Returned t s u ∧ EventOnly .ret s u ∧ SameSystem s u)) ∧
    (∀ s : State,
      ((getReg s pfpReg).setWidth 3 = 4#3 ∨ (getReg s pfpReg).setWidth 3 = 5#3 ∨
          (getReg s pfpReg).setWidth 3 = 6#3 → exec .ret s = .refused .reservedReturnStatus) ∧
      (pcEm s = false → ((getReg s pfpReg).setWidth 3 = 2#3 ∨ (getReg s pfpReg).setWidth 3 = 3#3 ∨
          (getReg s pfpReg).setWidth 3 = 7#3) → exec .ret s = .refused .returnInUserMode) ∧
      (∀ rec : Word, rec = getReg s fpReg &&& 0xFFFFFFC0#32 → pcEm s = true →
        s.params.faultRecord = defaultFaultLayout → s.params.interruptRecord = defaultInterruptLayout →
        ((getReg s pfpReg).setWidth 3 = 1#3 ∨ (getReg s pfpReg).setWidth 3 = 7#3) →
        okWord s (rec - 12#32) → okWord s (rec - 16#32) → getBit (wordAt s (rec - 16#32).toNat) 9 = true →
        exec .ret s = .refused .resumeFlag))

/-- In supervisor mode, ret with status 010 or 011 goes back to the caller's frame, its registers from the chip
or, if no set is on the chip, from the frame's save area, in user mode, with the trace-enable flag 0 for 010 and
1 for 011; the return and supervisor events are signaled under their modes, and AC, memory and everything else
of PC and TC are unchanged. With status 111 it restores AC and PC from the interrupt record below the handler's
frame, goes back to the frame in the same way, signals its events before PC is restored, is interrupted exactly
if the restored PC says so, and then checks pending interrupts in that state. That the events come before the
restored PC is the spec's own decision D40, that user mode is refused D41 (see FaultReturn); the record layout
is D22 (log 23). (R43, R56, R88, R397, R398, R399, R491, R527, R551, R554) -/
def Obligations.SupervisorAndInterruptReturns : Prop :=
  ∀ (s : State) (rec t : Word), pcEm s = true → rec = getReg s fpReg &&& 0xFFFFFFC0#32 →
    t = getReg s pfpReg &&& 0xFFFFFFC0#32 → Returnable t s →
    (∀ te : Bool, (getReg s pfpReg).setWidth 3 = (if te = true then 3#3 else 2#3) →
      ∃ u, exec .ret s = .next (ended s.ip u) ∧ Returned t s u ∧ u.ac = s.ac ∧
        getBit u.pc 1 = false ∧ getBit u.pc 0 = te ∧
        getBit u.pc 10 = (getBit s.pc 10 || (te && (getBit s.tc 4 || getBit s.tc 6))) ∧
        (∀ i, i ≠ 0 → i ≠ 1 → i ≠ 10 → getBit u.pc i = getBit s.pc i) ∧
        (∀ i, getBit u.tc i = (getBit s.tc i || (getBit s.tc 4 && i == 20) || (getBit s.tc 6 && i == 22))) ∧
        SameSystem s u) ∧
    ((getReg s pfpReg).setWidth 3 = 7#3 → s.params.interruptRecord = defaultInterruptLayout →
      okWord s (rec - 12#32) → okWord s (rec - 16#32) → getBit (wordAt s (rec - 16#32).toNat) 9 = false →
      ∃ v, v.pc = wordAt s (rec - 16#32).toNat ∧ v.ac = wordAt s (rec - 12#32).toNat ∧
        Returned t s v ∧ v.lastIp = s.ip ∧ SameSystem s v ∧ v.tc = (ended s.ip (signalIfEnabled .ret s)).tc ∧
        (s.status = .running → (procState v = .interrupted ↔ getBit v.pc 13 = true)) ∧
        exec .ret s = toOutcome (checkPending v) ∧
        (okWord s s.intTable → wordAt s s.intTable.toNat = 0#32 → exec .ret s = .next v))

/-- Each fault-if instruction takes Constraint.Range exactly if its mask meets the condition code (or both are
zero), after it has completed with no effect but IP; else it is a no-op that goes on to the next instruction.
The masks are general knowledge in R440 (log 1); that the fault finds the end-of-step events and the last IP
recorded is the spec's own decision D46 (R550) and the model's choice (log 22). (R431, R440, R475, R550) -/
def Obligations.FaultIfs : Prop :=
  ∀ (s : State), ∀ p ∈ faultIfs,
    (¬ Holds p.1 (acCc s) → ∃ u, exec p.2 s = .next (ended s.ip u) ∧ u.ip = s.ip + 4#32 ∧
      u.ac = s.ac ∧ SameControls s u ∧ Kept nothing nothing nothing s u) ∧
    (Holds p.1 (acCc s) → exec p.2 s =
      faultsWith { ftype := 0x05, subtype := 0x01, afi := some s.ip, sip := none }
        (ended s.ip { s with ip := s.ip + 4#32 }))

/-- With at most two callers' sets on the chip and room for record and frame, the fault record goes to the 28
bytes below the new frame: saved PC and AC, type and subtype, the address of the faulting instruction, the fault
flags and fault data where they have a value; r2 of the faulting frame receives the saved IP; the handler is
entered in a new frame with return status 001, on the current stack through a local entry; every other byte of
memory is unchanged. The handler is that of a local entry of the fault table, or of the entry of the
system-procedure table (0x27F) or of the trace-fault-handler table (0x2BF, 0x2FF) that it names. Through a local
entry of either kind mode and trace-enable flag are unchanged; through a supervisor entry the handler runs in
supervisor mode with the trace-enable flag of its table's trace-control flag, on the table's stack if the fault
came from user mode and else on the current one. Without room for record and frame below 2^32 the fault is
refused. The codes of the entries are general knowledge where R482 says so; the record layout is the spec's
default of D22 (log 23), the saved IP where Table 6-1 has none D44 (log 35), the refusal D18 (log 7). (R382,
R480, R481, R482, R483, R484, R485, R487, R488, R489, R490) -/
def Obligations.FaultDelivered : Prop :=
  ∀ (s : State) (f : FaultInfo) (entry nsp nfp : Word) (sup : Option Word),
    HandledAt f s entry nsp sup →
    (¬ recordRoom nsp 48#32 → deliverFault f s = .error (.refused .frameOverflow)) ∧
    (recordRoom nsp 48#32 → nfp = frameAbove (nsp + 48#32) → isReserved (nfp - 28#32) = false →
      isReserved (nfp - 4#32) = false → Memory.wf s.mem = true → s.older.length ≤ 2 →
      s.params.faultRecord = defaultFaultLayout →
      ∃ (u : State) (r2 : Word), deliverFault f s = .ok u ∧ Called entry (nsp + 48#32) 0b001#3 s u ∧
        FaultRecorded f nfp s u ∧ (∀ a, f.sip = some a → r2 = a) ∧ Pushed (setReg s ripReg r2) u ∧
        (∀ a, ¬ bytesFrom (nfp.toNat - 28) 28 a → memRead u.mem a = memRead s.mem a) ∧
        HandlerControls sup s u ∧ SameSystem s u)

/-- A fault-table entry of type 01 or 11, one of type 10 whose second word is none of 0x27F, 0x2BF and 0x2FF,
one with a procedure number above 259, or one that names a procedure-table entry of type 01 or 11, leaves the
processor stuck with everything else unchanged, and the next step makes no progress. That the processor is then
stuck is the spec's own decision D17 (log 24). (R480, R482, R483, R497) -/
def Obligations.UnusableFaultEntrySticks : Prop :=
  ∀ (s : State) (f : FaultInfo) (e0 e1 : Word), FaultTableEntry f s e0 e1 →
    (e0.setWidth 2 = 1#2 ∨ e0.setWidth 2 = 3#2 ∨
      (e0.setWidth 2 = 2#2 ∧ ((e1 ≠ 0x27F#32 ∧ e1 ≠ 0x2BF#32 ∧ e1 ≠ 0x2FF#32) ∨ 259 < (e0 >>> 2).toNat)) ∨
      (∃ base entry, ProcedureTableEntry s e0 e1 base entry ∧ (entry.setWidth 2 = 1#2 ∨ entry.setWidth 2 = 3#2))) →
    deliverFault f s = .ok { s with status := .stuck } ∧ step { s with status := .stuck } = .fault .stuck

/-- A vector of a higher priority than the processor's, or of priority 31, is serviced at once: PC, AC and the
vector go to the record below the new frame on the interrupt stack (or above SP if the processor is already
interrupted), r2 receives the next IP, PC becomes interrupted, supervisor, at the vector's priority with tracing
off and no trace fault pending and else unchanged, the processor is interrupted, the call event is recorded
under its mode, and the handler that the vector's entry names is entered with return status 111; without room
for record and frame below 2^32 it is refused. Any other vector is posted: its bit and its priority's bit are
set in the interrupt table and nothing else changes. The record layout is the spec's default of D22 (log 23),
the refusal D18 (log 7); the record does not overlap the table entry, whose order of access is left open (log
40). (R56, R382, R511, R512, R515, R516, R520, R523, R524, R606) -/
def Obligations.InterruptTaken : Prop :=
  ∀ (s : State) (v : Byte), Memory.wf s.mem = true →
    ((pcPriority s).toNat < v.toNat / 8 ∨ v.toNat / 8 = 31 →
      ∀ nsp nfp entry : Word, Vectored v s nsp nfp entry →
        (¬ recordRoom nsp 16#32 → receiveInterrupt v s = .error (.refused .frameOverflow)) ∧
        (recordRoom nsp 16#32 → s.older.length ≤ 2 →
          ∃ u, receiveInterrupt v s = .ok u ∧ InterruptEntered v nsp nfp entry s u ∧
            Pushed (setReg s ripReg s.ip) u ∧
            (∀ x, ¬ bytesFrom (nfp.toNat - 16) 12 x → memRead u.mem x = memRead s.mem x))) ∧
    (v.toNat / 8 ≤ (pcPriority s).toNat → v.toNat / 8 ≠ 31 →
      okWord s s.intTable → s.intTable.toNat + 36 ≤ 0xFF000000 →
      inScratch s (s.intTable + BitVec.ofNat 32 (4 + v.toNat / 8)) = false →
      ∃ u, receiveInterrupt v s = .ok u ∧
        memRead u.mem (s.intTable.toNat + 4 + v.toNat / 8) =
          memRead s.mem (s.intTable.toNat + 4 + v.toNat / 8) ||| (1#8 <<< (v.toNat % 8)) ∧
        wordAt u s.intTable.toNat = wordAt s s.intTable.toNat ||| (1#32 <<< (v.toNat / 8)) ∧
        (∀ x, ¬ bytesFrom s.intTable.toNat 4 x → x ≠ s.intTable.toNat + 4 + v.toNat / 8 →
          memRead u.mem x = memRead s.mem x) ∧
        u.ip = s.ip ∧ u.ac = s.ac ∧ SameControls s u ∧ (∀ r, getReg u r = getReg s r) ∧
        u.cur = s.cur ∧ u.older = s.older ∧ u.fp = s.fp ∧ SameSystem s u)

/-- With at most two callers' sets on the chip, an aligned IP and a PC without the resume flag, a ret executed
in the state that interrupt entry leaves, where no interrupt is pending and the record lies outside the scratch
space, restores PC, AC, IP, every local register but r2, every global register but the low six bits of g15,
every floating-point register and the register cache; the processor is in the state (executing or interrupted)
it was in. The record layout is the spec's default of D22 (log 23). (R523, R527, R551, R554, R397) -/
def Obligations.InterruptThenReturn : Prop :=
  ∀ (s t : State) (v : Byte), Memory.wf s.mem = true → isCodeAddress s.ip → s.older.length ≤ 2 →
    s.status = .running → s.params.interruptRecord = defaultInterruptLayout →
    getBit s.pc 9 = false → interruptEntry v s = .ok t →
    (∀ rec : Word, rec = getReg t fpReg &&& 0xFFFFFFC0#32 →
      scratchWord t (rec - 16#32) = false ∧ scratchWord t (rec - 12#32) = false) →
    okWord t t.intTable → wordAt t t.intTable.toNat = 0#32 →
    ∃ u, exec .ret t = .next u ∧ u.pc = s.pc ∧ u.ac = s.ac ∧ u.ip = s.ip ∧
      (∀ r, r ≠ ripReg → r ≠ fpReg → getReg u r = getReg s r) ∧
      getReg u fpReg = getReg s fpReg &&& 0xFFFFFFC0#32 ∧ u.fp = s.fp ∧ u.older = s.older ∧
      u.mem = t.mem ∧ procState u = procState s

/-- If the interrupt table is readable and a priority p, above the processor's or 31, is the highest serviceable
one whose bit is set over a byte of pending vectors that is not zero, a check of pending interrupts clears the
highest set bit k of that byte, clears the priority bit if the byte is then zero, and enters the interrupt 8p +
k. A priority bit over an all-zero byte is skipped, and its bit and byte stay. If no other serviceable priority
bit is set, the check changes nothing. The place of a vector's bit (R513) and the clearing of the pending bit
and the priority bit (R518) are general knowledge in the spec; that an all-zero byte is skipped is its own
decision D47. (R513, R518, R519) -/
def Obligations.PendingInterruptChosen : Prop :=
  ∀ (s : State) (pp : Word), okWord s s.intTable → s.intTable.toNat + 36 ≤ 0xFF000000 →
    pp = wordAt s s.intTable.toNat →
    ((∀ p : Fin 32, 0 < p.val → getBit pp p.val = true → isServiced s (BitVec.ofNat 5 p.val) = true →
        NothingAt s p) → checkPending s = .ok s) ∧
    (∀ (p : Fin 32) (b : Byte) (k : Fin 8), 0 < p.val → getBit pp p.val = true →
      isServiced s (BitVec.ofNat 5 p.val) = true →
      (∀ q : Fin 32, p < q → getBit pp q.val = true → isServiced s (BitVec.ofNat 5 q.val) = true → NothingAt s q) →
      inScratch s (s.intTable + BitVec.ofNat 32 (4 + p.val)) = false →
      b = memRead s.mem (s.intTable.toNat + 4 + p.val) → b.getLsbD k.val = true →
      (∀ j : Fin 8, k < j → b.getLsbD j.val = false) →
      ∃ s1, checkPending s = interruptEntry (BitVec.ofNat 8 (8 * p.val + k.val)) s1 ∧
        s1.mem = (if b &&& ~~~(1#8 <<< k.val) = 0#8
          then memWriteWord s.params.byteOrder
            (memWrite s.mem (s.intTable.toNat + 4 + p.val) (b &&& ~~~(1#8 <<< k.val)))
            s.intTable.toNat (setBit pp p.val false)
          else memWrite s.mem (s.intTable.toNat + 4 + p.val) (b &&& ~~~(1#8 <<< k.val))) ∧
        s1.pc = s.pc ∧ s1.ip = s.ip ∧ s1.ac = s.ac ∧ (∀ r, getReg s1 r = getReg s r) ∧ SameSystem s s1)

/-- A request on a pin latches it and changes nothing else. A step of a running processor with latched pins
takes the first of them in the order of PIN_TIE_ORDER (log 25), clears its latch and receives its vector: bits
8k+7 to 8k of the interrupt-control register, but in INTR/INTA mode (INT2 field 0) the interrupt controller's
byte for pin 2 and nothing for pin 3, which is an output; the rest of the step is the step of the state so
reached, which services the other latched pins, if any, and then runs its instruction. Where receiving the
vector is refused so is the step. That pins are looked at only at the start of a step is the spec's own decision
D20; their order is D21; the places of the INT1 to INT3 fields are general knowledge in R53. (R53, R54, R515,
R517, R528, R529, R552) -/
def Obligations.PinsServiced : Prop :=
  (∀ (s : State) (k : BitVec 2),
      (∀ j, (requestPin k s).pinLatch.getLsbD j = (s.pinLatch.getLsbD j || j == k.toNat)) ∧
      requestPin k s = { s with pinLatch := (requestPin k s).pinLatch } ∧
      (∀ v, requestIntr v s = requestPin 2#2 { s with intrVector := v })) ∧
    (∀ (s : State) (k : Fin 4), isRunningState s → s.pinLatch.getLsbD k.val = true →
      (∀ j : Fin 4, s.pinLatch.getLsbD j.val = true →
        if s.params.pinOrder = .int0First then k ≤ j else j ≤ k) →
      ∀ s1 : State, s1 = { s with pinLatch := s1.pinLatch } →
        (∀ j, s1.pinLatch.getLsbD j = (s.pinLatch.getLsbD j && j != k.val)) →
        (k = 3 → s.icr.extractLsb' 16 8 = 0#8 → step s = step s1) ∧
        (∀ v : Byte, (if k = 2 ∧ s.icr.extractLsb' 16 8 = 0#8 then v = s.intrVector
            else (k = 3 → s.icr.extractLsb' 16 8 ≠ 0#8) ∧ v = s.icr.extractLsb' (8 * k.val) 8) →
          (∀ t, receiveInterrupt v s1 = .ok t → step s = step t) ∧
          (∀ e, receiveInterrupt v s1 = .error e → step s = toOutcome (.error e))))

/-- With no pin latched and the trace-fault-pending flag set, a step with tracing seen enabled takes a trace
fault whose subtype byte holds the event flags, with the saved IP at the next instruction and the address of the
last one, the event flags and the pending flag cleared first; with tracing disabled the event flags are cleared
and the step goes on. A step at a ret whose prereturn-trace flag is set, under prereturn-trace mode with tracing
seen enabled, takes a trace fault with the prereturn bit in its subtype, at the ret itself, with the flag in r0
cleared and the ret not executed; with tracing disabled the flag in r0 is cleared, the prereturn-event flag set,
and the ret executes. What is cleared, and when, is the spec's own decisions D27, D43 and D45 (log 22). (R478,
R545, R548, R552) -/
def Obligations.TraceFaults : Prop :=
  ∀ s : State, isRunningState s → s.pinLatch = 0#4 →
    (pcTfp s = true → seenTe s = true →
      ∃ s1 : State,
        (∀ i, getBit s1.tc i = (getBit s.tc i && !(decide (17 ≤ i ∧ i ≤ 23)))) ∧
        (∀ i, getBit s1.pc i = (getBit s.pc i && i != 10)) ∧
        s1 = { s with tc := s1.tc, pc := s1.pc } ∧
        step s = faultsWith { ftype := 0x01, subtype := s.tc.extractLsb' 17 7 ++ 0#1, afi := some s.lastIp,
                              sip := some s.ip } s1) ∧
    (pcTfp s = true → seenTe s = false →
      ∃ s1 : State, (∀ i, getBit s1.tc i = (getBit s.tc i && !(decide (17 ≤ i ∧ i ≤ 23)))) ∧
        s1 = { s with tc := s1.tc } ∧
        ∀ w d s2 i, fetchInstr s1 = .ok (w, d, s2) → decode w d = .instr i → i ≠ .ret → step s = exec i s2) ∧
    (∀ (w d : Word) (s1 : State), pcTfp s = false →
      fetchInstr s = .ok (w, d, s1) → decode w d = .instr .ret →
      getBit (getReg s pfpReg) 3 = true → traceMode s .prereturn = true → seenTe s = true →
      ∃ (s2 : State) (sub : Byte), sub.getLsbD 5 = true ∧
        getReg s2 pfpReg = getReg s pfpReg &&& 0xFFFFFFF7#32 ∧ s2.ip = s.ip ∧
        getBit s2.tc 21 = false ∧ getBit s2.pc 10 = false ∧
        (∀ r, r ≠ pfpReg → getReg s2 r = getReg s r) ∧ s2.mem = s.mem ∧ s2.ac = s.ac ∧
        step s = faultsWith { ftype := 0x01, subtype := sub, afi := none, sip := some s.ip } s2) ∧
    (∀ (w d : Word) (q s1 : State), q = (if pcTfp s = true then { s with tc := q.tc } else s) →
      (∀ i, getBit q.tc i = (getBit s.tc i && !(pcTfp s && decide (17 ≤ i ∧ i ≤ 23)))) →
      fetchInstr q = .ok (w, d, s1) → decode w d = .instr .ret →
      getBit (getReg s pfpReg) 3 = true → traceMode s .prereturn = true → seenTe s = false →
      ∃ s2 : State, getReg s2 pfpReg = getReg s pfpReg &&& 0xFFFFFFF7#32 ∧
        (∀ i, getBit s2.tc i = (getBit q.tc i || i == 21)) ∧ s2.pc = s.pc ∧ s2.ip = s.ip ∧ s2.ac = s.ac ∧
        Kept (only pfpReg) nothing nothing s s2 ∧ step s = exec .ret s2)

/-- For a nonzero number v and p at least 1, the rounded number is v itself if v is a multiple of its unit in
the last place, and else lies less than one unit from v on the side the mode selects: not below v when rounding
up, not above when rounding down, not above in magnitude when rounding toward zero, and at most half a unit away
when rounding to nearest, at half a unit the neighbour that is an even multiple. (R178, R179) -/
def Obligations.RoundingRule : Prop :=
  ∀ (m : RoundMode) (v : Rat) (p : Nat), v ≠ 0 → 0 < p →
    ∃ n : Int, roundP m v p = pow2 (floorLog2 v - p + 1) * n ∧
      pow2 (floorLog2 v) ≤ |v| ∧ |v| < pow2 (floorLog2 v + 1) ∧
      |roundP m v p - v| < pow2 (floorLog2 v - p + 1) ∧
      (m = .up → v ≤ roundP m v p) ∧ (m = .down → roundP m v p ≤ v) ∧
      (m = .zero → |roundP m v p| ≤ |v|) ∧
      (m = .nearest → 2 * |roundP m v p - v| ≤ pow2 (floorLog2 v - p + 1) ∧
        (2 * |roundP m v p - v| = pow2 (floorLog2 v - p + 1) → n % 2 = 0)) ∧
      (∀ k : Int, v = pow2 (floorLog2 v - p + 1) * k → roundP m v p = v)

/-- With all five floating-point exceptions masked, aligned registers and operands that raise no
reserved-encoding fault, every arithmetic floating-point instruction (R170) completes: it goes on to the next
instruction, changes no register but its destination, no memory and no control register, and of AC sets
exception flags only (the remainder writes the arithmetic status too, the compares the condition code). The
conversions of reals to integers complete so with the integer overflow masked too, and may set its flag. The
order of the checks is the spec's decision D7. (R34, R170, R194, R199, R212, R249, R256, R272, R310) -/
def Obligations.FpInstructionsComplete : Prop :=
  ∀ (s : State) (a b : FpSrc) (d : FpDst) (x : Src), AllMasked s →
    (∀ p ∈ unary, Usable p.1 s a → (a.fits p.1 && d.fits p.1) = true →
      ∃ u, exec (p.2 a d) s = .next (ended s.ip u) ∧ FlagsOnly s u ∧ FpKept p.1 d s u) ∧
    (∀ p ∈ binary, Usable p.1 s a → Usable p.1 s b → (a.fits p.1 && b.fits p.1 && d.fits p.1) = true →
      ∃ u, exec (p.2 a b d) s = .next (ended s.ip u) ∧ FlagsOnly s u ∧ FpKept p.1 d s u) ∧
    (∀ p ∈ remainders, Usable p.1 s a → Usable p.1 s b → (a.fits p.1 && b.fits p.1 && d.fits p.1) = true →
      ∃ u, exec (p.2 a b d) s = .next (ended s.ip u) ∧
        (∀ i, i < 3 ∨ 7 ≤ i → getBit u.ac i = getBit s.ac i ∨
          ((i = fofBit ∨ i = fufBit ∨ i = fvfBit ∨ i = fzfBit ∨ i = fxfBit) ∧ getBit u.ac i = true)) ∧
        FpKept p.1 d s u) ∧
    (∀ p ∈ scales, Usable p.1 s b → (b.fits p.1 && d.fits p.1) = true →
      ∃ u, exec (p.2 x b d) s = .next (ended s.ip u) ∧ FlagsOnly s u ∧ FpKept p.1 d s u) ∧
    (∃ u, exec (.cvtir x d) s = .next (ended s.ip u) ∧ FlagsOnly s u ∧ FpKept .real d s u) ∧
    ((x.isEven && d.fits .long) = true →
      ∃ u, exec (.cvtilr x d) s = .next (ended s.ip u) ∧ FlagsOnly s u ∧ FpKept .long d s u) ∧
    (∀ n : Reg, ∀ p ∈ toIntegers, Usable .real s a → (p.1 = true → Reg.isEven n = true) → acBit s iomBit = true →
      ∃ u, exec (p.2 a n) s = .next (ended s.ip u) ∧
        (∀ k, getBit u.ac k = getBit s.ac k ∨ ((k = fvfBit ∨ k = fxfBit ∨ k = iofBit) ∧ getBit u.ac k = true)) ∧
        u.ip = s.ip + 4#32 ∧ SameControls s u ∧
        Kept (if p.1 = true then pairOf n else only n) nothing nothing s u) ∧
    (∀ p ∈ compares, Usable p.1 s a → Usable p.1 s b → (a.fits p.1 && b.fits p.1) = true →
      ∃ u, exec (p.2.2 a b) s = .next (ended s.ip u) ∧
        (∀ k, 3 ≤ k → getBit u.ac k = getBit s.ac k ∨ (k = fvfBit ∧ getBit u.ac k = true)) ∧
        u.ip = s.ip + 4#32 ∧ SameControls s u ∧ Kept nothing nothing nothing s u)

/-- If an operand of an arithmetic, compare or real-to-integer conversion instruction is a reserved encoding, or
denormalized while normalizing mode is off, and none is the pattern without a meaning, the instruction takes the
floating reserved-encoding fault in the state before it, whatever the masks. That this fault wins over an
invalid operation of the other operand is the spec's own decision D7 (R199), the exclusion of the unnamed
pattern D11 (R166). (R166, R194, R199) -/
def Obligations.ReservedEncodingFaults : Prop :=
  ∀ (s : State) (a b : FpSrc) (d : FpDst) (x : Src) (n : Reg),
    (∀ p ∈ unary, (a.fits p.1 && d.fits p.1) = true → isUnnamed (fetch p.1 s a) = false →
      isReservedOperand s (fetch p.1 s a) = true → exec (p.2 a d) s = faultsWith (floating 0x20 s) s) ∧
    (∀ p ∈ binary ++ remainders, (a.fits p.1 && b.fits p.1 && d.fits p.1) = true →
      isUnnamed (fetch p.1 s a) = false → isUnnamed (fetch p.1 s b) = false →
      (isReservedOperand s (fetch p.1 s a) = true ∨ isReservedOperand s (fetch p.1 s b) = true) →
      exec (p.2 a b d) s = faultsWith (floating 0x20 s) s) ∧
    (∀ p ∈ scales, (b.fits p.1 && d.fits p.1) = true → isUnnamed (fetch p.1 s b) = false →
      isReservedOperand s (fetch p.1 s b) = true → exec (p.2 x b d) s = faultsWith (floating 0x20 s) s) ∧
    (∀ p ∈ compares, (a.fits p.1 && b.fits p.1) = true →
      isUnnamed (fetch p.1 s a) = false → isUnnamed (fetch p.1 s b) = false →
      (isReservedOperand s (fetch p.1 s a) = true ∨ isReservedOperand s (fetch p.1 s b) = true) →
      exec (p.2.2 a b) s = faultsWith (floating 0x20 s) s) ∧
    (∀ i ∈ [Instr.cvtri a n, .cvtzri a n] ++ (if Reg.isEven n = true then [Instr.cvtril a n, .cvtzril a n] else []),
      isUnnamed (fetch .real s a) = false → isReservedOperand s (fetch .real s a) = true →
      exec i s = faultsWith (floating 0x20 s) s)

/-- For two nonzero numbers whose exact sum, difference (second minus first), product or quotient (second by
first) rounds into the destination's range, and where inexactness is masked or absent, each of the eight
instructions leaves in its destination exactly the result rounded once by the rounding mode (RC_DECODE, log 14)
to the destination's precision, sets the inexact flag exactly if rounding changed it, and changes nothing else.
The upper half of a third register is D13. (R167, R169, R180, R200, R205, R271, R272, R274, R276, R278, R280,
R300) -/
def Obligations.BasicOperations : Prop :=
  ∀ (s : State) (a b : FpSrc) (d : FpDst) (v w : Rat), ∀ p ∈ basic,
    Number p.1 s a v → Number p.1 s b w → (a.fits p.1 && b.fits p.1 && d.fits p.1) = true →
    InRange p.1 d s (p.2.2 v w) → InexactQuiet p.1 d s (p.2.2 v w) →
    ∃ u, exec (p.2.1 a b d) s = .next (ended s.ip u) ∧ Rounded p.1 d s u (p.2.2 v w) ∧ FpKept p.1 d s u

/-- Neither operand a NaN: an infinity and a finite number, or two infinities of the same sign after the sign
change of a subtraction, add to that infinity; two zeros of the same sign add to that zero; two zeros of unlike
sign, or two numbers whose exact sum is zero, add to +0, and to -0 when rounding down; a zero and a number add
to the number, rounded once. An infinity times or divided by a finite nonzero or infinite, or finite, operand is
an infinity, a zero times a finite operand and a finite operand divided by an infinity is a zero, a zero divided
by a nonzero number is a zero, each with the product of the signs. Where no rounding happens no flag is set and
nothing faults, whatever the masks; nothing but the destination and IP changes. (R210, R211, R271, R273, R274,
R276, R278, R280, R300) -/
def Obligations.ZerosAndInfinities : Prop :=
  ∀ (s : State) (a b : FpSrc) (d : FpDst) (x y : Bool),
    (∀ p ∈ [(Fmt.real, Instr.addr, false), (.long, .addrl, false), (.real, .subr, true), (.long, .subrl, true)],
      (a.fits p.1 && b.fits p.1 && d.fits p.1) = true →
      (fetch p.1 s a = .inf x → FiniteSign p.1 s b y → Leaves (p.2.1 a b d) p.1 d (.inf (x ^^ p.2.2)) s) ∧
      (FiniteSign p.1 s a x → fetch p.1 s b = .inf y → Leaves (p.2.1 a b d) p.1 d (.inf y) s) ∧
      (fetch p.1 s a = .inf x → fetch p.1 s b = .inf y → (x ^^ p.2.2) = y →
        Leaves (p.2.1 a b d) p.1 d (.inf y) s) ∧
      (fetch p.1 s a = .zero x → fetch p.1 s b = .zero y →
        Leaves (p.2.1 a b d) p.1 d (.zero (if (x ^^ p.2.2) = y then y else decide (roundMode s = .down))) s) ∧
      (∀ v w, Number p.1 s a v → Number p.1 s b w → w + (if p.2.2 = true then -v else v) = 0 →
        Leaves (p.2.1 a b d) p.1 d (.zero (decide (roundMode s = .down))) s) ∧
      (∀ v e, e = (if p.2.2 = true then -v else v) → Number p.1 s a v → fetch p.1 s b = .zero y →
        InRange p.1 d s e → InexactQuiet p.1 d s e →
        ∃ u, exec (p.2.1 a b d) s = .next (ended s.ip u) ∧ Rounded p.1 d s u e ∧ FpKept p.1 d s u) ∧
      (∀ w, fetch p.1 s a = .zero x → Number p.1 s b w → InRange p.1 d s w → InexactQuiet p.1 d s w →
        ∃ u, exec (p.2.1 a b d) s = .next (ended s.ip u) ∧ Rounded p.1 d s u w ∧ FpKept p.1 d s u)) ∧
    (∀ p ∈ [(Fmt.real, Instr.mulr), (.long, .mulrl)], (a.fits p.1 && b.fits p.1 && d.fits p.1) = true →
      ((fetch p.1 s a = .inf x ∧ NonzeroSign p.1 s b y) ∨ (NonzeroSign p.1 s a x ∧ fetch p.1 s b = .inf y) →
        Leaves (p.2 a b d) p.1 d (.inf (x ^^ y)) s) ∧
      ((fetch p.1 s a = .zero x ∧ FiniteSign p.1 s b y) ∨ (FiniteSign p.1 s a x ∧ fetch p.1 s b = .zero y) →
        Leaves (p.2 a b d) p.1 d (.zero (x ^^ y)) s)) ∧
    (∀ p ∈ [(Fmt.real, Instr.divr), (.long, .divrl)], (a.fits p.1 && b.fits p.1 && d.fits p.1) = true →
      (FiniteSign p.1 s a x → fetch p.1 s b = .inf y → Leaves (p.2 a b d) p.1 d (.inf (x ^^ y)) s) ∧
      (fetch p.1 s a = .inf x → FiniteSign p.1 s b y → Leaves (p.2 a b d) p.1 d (.zero (x ^^ y)) s) ∧
      ((∃ v, Number p.1 s a v ∧ x = decide (v < 0)) → fetch p.1 s b = .zero y →
        Leaves (p.2 a b d) p.1 d (.zero (x ^^ y)) s))

/-- movr and movrl leave a number, rounded to the destination's precision where it is narrower, a zero of the
same sign and an infinity of the same sign in the destination. movre copies the 80 bits of its source, cpysre
those of its first source with the sign bit of the second, cpyrsre with that sign bit inverted, whatever the
bits mean; an extended real in three registers is its low 80 bits, and the upper half of the third destination
register becomes zero in each of the three; no flag changes and nothing faults. The upper half of a third
register is the spec's decision D13; what R238 and R239 mark so is general knowledge. (R163, R170, R232, R233,
R234, R236, R238, R239) -/
def Obligations.RealMoves : Prop :=
  (∀ (s : State) (a : FpSrc) (d : FpDst), ∀ p ∈ [(Fmt.real, Instr.movr), (.long, .movrl)],
      (a.fits p.1 && d.fits p.1) = true →
      (∀ v, Number p.1 s a v → InRange p.1 d s v → InexactQuiet p.1 d s v →
        ∃ u, exec (p.2 a d) s = .next (ended s.ip u) ∧ Rounded p.1 d s u v ∧ FpKept p.1 d s u) ∧
      (∀ neg, fetch p.1 s a = .zero neg →
        ∃ u, exec (p.2 a d) s = .next (ended s.ip u) ∧ fetch p.1 u (FpDst.asSrc d) = .zero neg ∧
          u.ac = s.ac ∧ FpKept p.1 d s u) ∧
      (∀ neg, fetch p.1 s a = .inf neg →
        ∃ u, exec (p.2 a d) s = .next (ended s.ip u) ∧ fetch p.1 u (FpDst.asSrc d) = .inf neg ∧
          u.ac = s.ac ∧ FpKept p.1 d s u)) ∧
    (∀ (s : State) (a b : FpSrc) (d : FpDst),
      (a.fits .ext && d.fits .ext) = true →
      (∃ u, exec (.movre a d) s = .next (ended s.ip u) ∧ bits80 u (FpDst.asSrc d) = bits80 s a ∧
        UpperZero d u ∧ u.ac = s.ac ∧ FpKept .ext d s u) ∧
      (b.fits .ext = true →
        (∃ u, exec (.cpysre a b d) s = .next (ended s.ip u) ∧
          (∀ i, i < 79 → (bits80 u (FpDst.asSrc d)).getLsbD i = (bits80 s a).getLsbD i) ∧
          (bits80 u (FpDst.asSrc d)).getLsbD 79 = (bits80 s b).getLsbD 79 ∧ UpperZero d u ∧ u.ac = s.ac ∧
          FpKept .ext d s u) ∧
        (∃ u, exec (.cpyrsre a b d) s = .next (ended s.ip u) ∧
          (∀ i, i < 79 → (bits80 u (FpDst.asSrc d)).getLsbD i = (bits80 s a).getLsbD i) ∧
          (bits80 u (FpDst.asSrc d)).getLsbD 79 = !(bits80 s b).getLsbD 79 ∧ UpperZero d u ∧ u.ac = s.ac ∧
          FpKept .ext d s u)))

/-- Adding infinities of unlike sign, subtracting infinities of like sign, zero times infinity, zero by zero,
infinity by infinity, a remainder by zero or of an infinity, the square root of a negative number, the sine,
cosine or tangent of an infinity, y times the logarithm of x with x negative, x and y zero, x plus infinity and
y zero, or x 1 and y infinite, y times the logarithm of x + 1 with x below -1, x plus infinity or -1 and y zero,
or x zero and y infinite: with the invalid-operation mask set the destination becomes the standard QNaN (sign by
STD_QNAN_SIGN, log 15) and the flag is set; with it clear the invalid-operation fault is taken with nothing
changed. That a remainder leaves AC.as alone here is D36; the cases of the log epsilon instructions but the last
are D37. Signaling NaNs are in NanOperands. (R175, R196, R197, R274, R276, R278, R280, R286, R296, R333, R358,
R362) -/
def Obligations.InvalidOperations : Prop :=
  (∀ (s : State) (a b : FpSrc) (d : FpDst) (i : Instr) (f : Fmt),
      ((∃ p ∈ [(Fmt.real, Instr.addr), (.long, .addrl)], i = p.2 a b d ∧ f = p.1 ∧
          ∃ neg, fetch f s a = .inf neg ∧ fetch f s b = .inf (!neg)) ∨
        (∃ p ∈ [(Fmt.real, Instr.subr), (.long, .subrl)], i = p.2 a b d ∧ f = p.1 ∧
          ∃ neg, fetch f s a = .inf neg ∧ fetch f s b = .inf neg) ∨
        (∃ p ∈ [(Fmt.real, Instr.mulr), (.long, .mulrl)], i = p.2 a b d ∧ f = p.1 ∧
          ∃ x y, (fetch f s a = .zero x ∧ fetch f s b = .inf y) ∨ (fetch f s a = .inf x ∧ fetch f s b = .zero y)) ∨
        (∃ p ∈ [(Fmt.real, Instr.divr), (.long, .divrl)], i = p.2 a b d ∧ f = p.1 ∧
          ∃ x y, (fetch f s a = .zero x ∧ fetch f s b = .zero y) ∨ (fetch f s a = .inf x ∧ fetch f s b = .inf y)) ∨
        (∃ p ∈ remainders, i = p.2 a b d ∧ f = p.1 ∧ ∃ x,
          (fetch f s a = .zero x ∧ isNan (fetch f s b) = false ∧ Usable f s b) ∨
          (fetch f s b = .inf x ∧ isNan (fetch f s a) = false ∧ Usable f s a)) ∨
        (∃ p ∈ [(Fmt.real, Instr.logr), (.long, .logrl)], i = p.2 a b d ∧ f = p.1 ∧
          (((fetch f s a = .inf true ∨ ∃ v, v < 0 ∧ Number f s a v) ∧ isNan (fetch f s b) = false ∧ Usable f s b) ∨
            (∃ z, fetch f s b = .zero z ∧ (fetch f s a = .inf false ∨ ∃ y, fetch f s a = .zero y)) ∨
            (Number f s a 1 ∧ ∃ y, fetch f s b = .inf y))) ∨
        (∃ p ∈ [(Fmt.real, Instr.logepr), (.long, .logeprl)], i = p.2 a b d ∧ f = p.1 ∧
          (((fetch f s a = .inf true ∨ ∃ v, v < -1 ∧ Number f s a v) ∧ isNan (fetch f s b) = false ∧ Usable f s b) ∨
            (∃ z, fetch f s b = .zero z ∧ (fetch f s a = .inf false ∨ Number f s a (-1))) ∨
            (∃ y z, fetch f s a = .zero y ∧ fetch f s b = .inf z)))) →
      (a.fits f && b.fits f && d.fits f) = true →
      (acBit s fvmBit = true →
        ∃ u, exec i s = .next (ended s.ip u) ∧ fetch f u (FpDst.asSrc d) = .qnan s.params.stdQnanSign (1#63 <<< 62) ∧
          (∀ k, getBit u.ac k = (getBit s.ac k || k == fvfBit)) ∧ FpKept f d s u) ∧
      (acBit s fvmBit = false → exec i s = faultsWith (floating 0x04 s) s)) ∧
    (∀ (s : State) (a : FpSrc) (d : FpDst) (i : Instr) (f : Fmt),
      ((∃ p ∈ [(Fmt.real, Instr.sqrtr), (.long, .sqrtrl)], i = p.2 a d ∧ f = p.1 ∧
          (fetch f s a = .inf true ∨ ∃ v, v < 0 ∧ Number f s a v)) ∨
        (∃ p ∈ [(Fmt.real, Instr.sinr), (.long, .sinrl), (.real, .cosr), (.long, .cosrl), (.real, .tanr),
            (.long, .tanrl)], i = p.2 a d ∧ f = p.1 ∧ ∃ neg, fetch f s a = .inf neg)) →
      (a.fits f && d.fits f) = true →
      (acBit s fvmBit = true →
        ∃ u, exec i s = .next (ended s.ip u) ∧ fetch f u (FpDst.asSrc d) = .qnan s.params.stdQnanSign (1#63 <<< 62) ∧
          (∀ k, getBit u.ac k = (getBit s.ac k || k == fvfBit)) ∧ FpKept f d s u) ∧
      (acBit s fvmBit = false → exec i s = faultsWith (floating 0x04 s) s))

/-- A nonzero number divided by zero gives an infinity of the product of the signs, the binary exponent of zero
minus infinity, and y times the logarithm of zero, or of x + 1 with x = -1, an infinity of the sign opposite to
y, with the zero-divide flag if its mask is set; if it is clear the zero-divide fault is taken with nothing
changed. The signs that R198, R354 and R358 mark so are general knowledge in the spec. The zero divide of the
log epsilon instructions is D37. (R198, R280, R352, R354, R358, R362) -/
def Obligations.ZeroDivides : Prop :=
  ∀ (s : State) (a b : FpSrc) (d : FpDst) (i : Instr) (f : Fmt) (neg : Bool),
    ((∃ p ∈ [(Fmt.real, Instr.divr), (.long, .divrl)], i = p.2 a b d ∧ f = p.1 ∧ ∃ z w,
        fetch f s a = .zero z ∧ Number f s b w ∧ neg = (z ^^ decide (w < 0)) ∧ (b.fits f = true)) ∨
      (∃ p ∈ [(Fmt.real, Instr.logr), (.long, .logrl)], i = p.2 a b d ∧ f = p.1 ∧ ∃ z w,
        fetch f s a = .zero z ∧ Number f s b w ∧ neg = !decide (w < 0) ∧ (b.fits f = true)) ∨
      (∃ p ∈ [(Fmt.real, Instr.logepr), (.long, .logeprl)], i = p.2 a b d ∧ f = p.1 ∧ ∃ w,
        Number f s a (-1) ∧ Number f s b w ∧ neg = !decide (w < 0) ∧ (b.fits f = true)) ∨
      (∃ p ∈ [(Fmt.real, Instr.logbnr), (.long, .logbnrl)], i = p.2 a d ∧ f = p.1 ∧
        (∃ z, fetch f s a = .zero z) ∧ neg = true)) →
    (a.fits f && d.fits f) = true →
    (acBit s fzmBit = true →
      ∃ u, exec i s = .next (ended s.ip u) ∧ fetch f u (FpDst.asSrc d) = .inf neg ∧
        (∀ k, getBit u.ac k = (getBit s.ac k || k == fzfBit)) ∧ FpKept f d s u) ∧
    (acBit s fzmBit = false → exec i s = faultsWith (floating 0x08 s) s)

/-- With usable operands of which at least one is a NaN, the NaN chosen (of two the one with the greater
left-aligned fraction, on a tie by NAN_TIE_CHOICE, log 15) becomes a quiet NaN with its sign and its fraction
truncated to the destination's width. Where no operand signals and the instruction's invalid condition does not
hold, that NaN is stored with no flag and no fault, whether the other operand is a number, a zero, an infinity
or a NaN. Where an operand signals, or a remainder has a zero divisor or an infinite dividend beside a quiet
NaN, or a logarithm an argument below its domain, the operation is invalid: with the mask set the NaN is stored
and the invalid-operation flag set; with it clear the fault is taken with nothing changed. This holds for every
instruction with one or two floating-point sources and a floating-point destination. That the sign is the chosen
source's, and fractions are compared left-aligned before quieting, is the spec's own decision D8; that an
invalid condition comes before a quiet NaN is D7 (R199), and D37 for the log epsilon instructions. (R171, R172,
R173, R174, R196, R197, R199, R286, R358, R362) -/
def Obligations.NanOperands : Prop :=
  ∀ (s : State) (a b : FpSrc) (d : FpDst) (x : Src),
    (∀ i f neg fr, (∃ p ∈ unary, i = p.2 a d ∧ f = p.1) ∨ (∃ p ∈ scales, i = p.2 x a d ∧ f = p.1) →
      (a.fits f && d.fits f) = true → nanOf (fetch f s a) = some (neg, fr) →
      (isSnan (fetch f s a) = false → StoresNan i f d neg fr s) ∧
      (isSnan (fetch f s a) = true → InvalidNan i f d neg fr s)) ∧
    (∀ neg fr,
      (∀ p ∈ binary ++ remainders, NanAmong p.1 a b d neg fr s →
        isSnan (fetch p.1 s a) = true ∨ isSnan (fetch p.1 s b) = true → InvalidNan (p.2 a b d) p.1 d neg fr s) ∧
      (∀ p ∈ binary.take 10, NanAmong p.1 a b d neg fr s →
        isSnan (fetch p.1 s a) = false → isSnan (fetch p.1 s b) = false → StoresNan (p.2 a b d) p.1 d neg fr s) ∧
      (∀ p ∈ remainders, NanAmong p.1 a b d neg fr s →
        isSnan (fetch p.1 s a) = false → isSnan (fetch p.1 s b) = false →
        ((∃ z, fetch p.1 s a = .zero z) ∨ (∃ z, fetch p.1 s b = .inf z) → InvalidNan (p.2 a b d) p.1 d neg fr s) ∧
        ((∀ z, fetch p.1 s a ≠ .zero z) → (∀ z, fetch p.1 s b ≠ .inf z) →
          StoresNan (p.2 a b d) p.1 d neg fr s)) ∧
      (∀ q ∈ [(Fmt.real, Instr.logr, (0 : Rat)), (.long, .logrl, 0), (.real, .logepr, -1), (.long, .logeprl, -1)],
        NanAmong q.1 a b d neg fr s → isSnan (fetch q.1 s a) = false → isSnan (fetch q.1 s b) = false →
        (fetch q.1 s a = .inf true ∨ (∃ v, v < q.2.2 ∧ Number q.1 s a v) →
          InvalidNan (q.2.1 a b d) q.1 d neg fr s) ∧
        (fetch q.1 s a ≠ .inf true → (∀ v, Number q.1 s a v → q.2.2 ≤ v) →
          StoresNan (q.2.1 a b d) q.1 d neg fr s)))

/-- For the exact result `e` of every instruction that delivers one: in range, the destination holds it rounded
once, with the inexact flag or fault if rounding changed it. If it overflows and overflow is masked, the
destination becomes an infinity or the largest finite number, by sign and rounding mode, with the overflow flag
and the inexact flag or fault. If it is tiny and underflow is masked, the destination holds it rounded to a
multiple of the least denormalized number; an inexact one sets the underflow flag, with the inexact flag or
fault. The arithmetic status is that of the remainder instructions, and else unchanged. OVERFLOW_DETECT is D35;
that the fault finds the events recorded is D46 (log 22); that the free functions (log 18) are delivered is D12,
that movr, remr, roundr and sqrtr deliver where their lists of exceptions do not say so is log 41, 44; the
status before the fault is log 17; values that stand in for the exact one: log 32, 33. (R180, R181, R200, R201,
R203, R205, R232, R286, R292, R358, R366, R372) -/
def Obligations.MaskedOverflowAndUnderflow : Prop :=
  ∀ (f : Fmt) (d : FpDst) (s : State) (i : Instr) (ac : Word) (e : Rat), Delivers f d s i ac e → e ≠ 0 →
    (InRange f d s e → EndsRounded i f d s ac e) ∧
    (Overflow f d s e → acBit s fomBit = true →
      ∃ u, EndsWithFlag i s ac u fofBit ∧ FpKept f d s u ∧
        OverflowValue (destFmt f d) (roundMode s) (decide (e < 0)) (fetch f u (FpDst.asSrc d))) ∧
    (|rounded f d s e| < pow2 (eMin (destFmt f d)) → acBit s fumBit = true →
      ∃ (r : Rat) (u : State), DenormalizedTo (destFmt f d) (roundMode s) e r ∧ FpKept f d s u ∧
        IsValue (destFmt f d) (decide (e < 0)) r (fetch f u (FpDst.asSrc d)) ∧
        (r = e → exec i s = .next (ended s.ip u) ∧ u.ac = ac) ∧
        (r ≠ e → EndsWithFlag i s ac u fufBit))

/-- With its mask clear, an overflow or underflow of the exact result of any instruction that delivers one (the
instructions of MaskedOverflowAndUnderflow) takes its fault with the destination and AC unchanged and IP at the
next instruction. The fault data is the rounded result u in extended real with F1 clear while it lies in the
extended range; u divided (overflow, from 2^16384 up) or multiplied (underflow, below 2^-16382) by 2^24576 with
F1 set beyond it; and from 2^40960 up or below 2^-40958 (massive) the masked-overflow result, or the exact
result denormalized and rounded in the destination's format, with F1 free. The inexact bit is in the subtype if
rounding changed the result and that mask is clear; F0 tells the direction of the rounding. An inexact result in
range takes the inexact fault after it is stored, with the arithmetic status written by a remainder instruction.
That AC.fxf stays is the spec's decision D23; when an overflow is detected is OVERFLOW_DETECT, D35 (log 16);
that the fault finds the end-of-step events and the last IP recorded is D46 (R550) and the model's choice (log
22); massive results but of scaling are D38; that the free functions (log 18) are delivered is D12, that movr,
remr, roundr and sqrtr deliver where their lists of exceptions do not say so is log 41, 44; the status before
the fault is log 17; values that stand in for the exact one: log 32, 33. (R200, R202, R204, R205, R207, R232,
R250, R286, R358, R366, R374, R550) -/
def Obligations.UnmaskedFpFaults : Prop :=
  ∀ (f : Fmt) (d : FpDst) (s : State) (i : Instr) (ac : Word) (e u : Rat), Delivers f d s i ac e → e ≠ 0 →
    u = rounded f d s e →
    (Overflow f d s e → acBit s fomBit = false →
      ∃ (g : FaultInfo) (x : Ext), exec i s = faultsWith g (ended s.ip { s with ip := s.ip + 4#32 }) ∧
        RangeFault g s 0x01 (u ≠ e) (e < u) ∧ g.data = some x ∧
        (|u| < pow2 16384 → g.f1 = some false ∧ decodeExt x = .norm (decide (e < 0)) u) ∧
        (pow2 16384 ≤ |u| → |u| < pow2 40960 →
          g.f1 = some true ∧ decodeExt x = .norm (decide (e < 0)) (u / pow2 24576)) ∧
        (pow2 40960 ≤ |u| → g.f1 = none ∧
          OverflowValue (destFmt f d) (roundMode s) (decide (e < 0)) (decodeExt x))) ∧
    (|u| < pow2 (eMin (destFmt f d)) → acBit s fumBit = false →
      ∃ (g : FaultInfo) (x : Ext), exec i s = faultsWith g (ended s.ip { s with ip := s.ip + 4#32 }) ∧
        RangeFault g s 0x02 (u ≠ e) (e < u) ∧ g.data = some x ∧
        (pow2 (-16382) ≤ |u| → g.f1 = some false ∧ decodeExt x = .norm (decide (e < 0)) u) ∧
        (|u| < pow2 (-16382) → pow2 (-40958) ≤ |u| →
          g.f1 = some true ∧ decodeExt x = .norm (decide (e < 0)) (u * pow2 24576)) ∧
        (|u| < pow2 (-40958) → g.f1 = none ∧ ∃ r, DenormalizedTo (destFmt f d) (roundMode s) e r ∧
          IsValue .ext (decide (e < 0)) r (decodeExt x))) ∧
    (InRange f d s e → u ≠ e → acBit s fxmBit = false →
      ∃ t, exec i s = faultsWith (floating 0x10 s) (ended s.ip t) ∧ t.ac = ac ∧
        fetch f t (FpDst.asSrc d) = .norm (decide (e < 0)) u ∧ FpKept f d s t)

/-- For a nonzero number divided by a nonzero number, with the quotient rounded toward zero, or to nearest, by
REM_KIND (log 17), the destination holds the remainder rounded into its format, a zero with the dividend's sign
if the division is exact. A number divided by an infinity is left unchanged, rounded into the format; a zero
divided by a nonzero number or an infinity is that zero. In each case the arithmetic status becomes REM_STATUS
of the two operand values (a value left free), and AC changes no further but for the inexact flag, set if
rounding changed the result; with its mask clear the inexact fault follows the store. That the status is a
function of the two values, signs of zeros and infinities included, and is written before the inexact fault too,
is the model's choice (log 17); that an invalid operation leaves it is D36. (R205, R285, R286, R287, R288) -/
def Obligations.Remainders : Prop :=
  ∀ (s : State) (a b : FpSrc) (d : FpDst), ∀ p ∈ remainders,
    (a.fits p.1 && b.fits p.1 && d.fits p.1) = true →
    (∀ y x r : Rat, Number p.1 s a y → Number p.1 s b x → y ≠ 0 → x ≠ 0 → RemainderIs s x y r →
      (r = 0 →
        ∃ u, exec (p.2 a b d) s = .next (ended s.ip u) ∧ fetch p.1 u (FpDst.asSrc d) = .zero (decide (x < 0)) ∧
          u.ac = remAc s (.num x) (.num y) ∧ FpKept p.1 d s u) ∧
      (r ≠ 0 → InRange p.1 d s r → EndsRounded (p.2 a b d) p.1 d s (remAc s (.num x) (.num y)) r)) ∧
    (∀ (x : Rat) (neg : Bool), fetch p.1 s a = .inf neg → Number p.1 s b x → InRange p.1 d s x →
      EndsRounded (p.2 a b d) p.1 d s (remAc s (.num x) (.inf neg)) x) ∧
    (∀ (z : Bool) (y : Config.FpValue), HasValue p.1 s a y → (∀ neg, y ≠ .zero neg) →
      fetch p.1 s b = .zero z →
      ∃ u, exec (p.2 a b d) s = .next (ended s.ip u) ∧ fetch p.1 u (FpDst.asSrc d) = .zero z ∧
        u.ac = remAc s (.zero z) y ∧ FpKept p.1 d s u)

/-- For a number below 2^(p-1) in magnitude (p the destination's precision) the destination holds the integer
that the rounding mode selects, of two nearest the even one, a zero with the number's sign if it rounds to zero;
if the value changed, the inexact flag is set, or with its mask clear the inexact fault is taken after the
store. A number from 2^(p-1) up, which is an integer if the destination is not narrower, is delivered, rounded
once. A zero and an infinity are left as they are, with no flag. The sign of a zero result is general knowledge
in R292, the inexact signal derived there. (R179, R205, R292, R293) -/
def Obligations.RoundsToIntegral : Prop :=
  ∀ (s : State) (a : FpSrc) (d : FpDst), ∀ p ∈ [(Fmt.real, Instr.roundr), (.long, .roundrl)],
    (a.fits p.1 && d.fits p.1) = true →
    (∀ v, Number p.1 s a v → v ≠ 0 → |v| < pow2 (precision (destFmt p.1 d) - 1) →
      ∃ (u : State) (n : Int), RoundsTo (roundMode s) v n ∧ EndsInexact (p.2 a d) s s.ac u ((n : Rat) ≠ v) ∧
        (if n = 0 then fetch p.1 u (FpDst.asSrc d) = .zero (decide (v < 0))
          else fetch p.1 u (FpDst.asSrc d) = .norm (decide (v < 0)) n) ∧ FpKept p.1 d s u) ∧
    (∀ v, Number p.1 s a v → pow2 (precision (destFmt p.1 d) - 1) ≤ |v| →
      InRange p.1 d s v → InexactQuiet p.1 d s v →
      ∃ u, exec (p.2 a d) s = .next (ended s.ip u) ∧ Rounded p.1 d s u v ∧ FpKept p.1 d s u) ∧
    (∀ neg, (fetch p.1 s a = .zero neg → Leaves (p.2 a d) p.1 d (.zero neg) s) ∧
      (fetch p.1 s a = .inf neg → Leaves (p.2 a d) p.1 d (.inf neg) s))

/-- For a positive number whose root rounds into the destination's range the destination holds the root rounded
once: with q the unit in the last place of the root, the result r satisfies r^2 <= v < (r+q)^2 when rounding
down or toward zero, (r-q)^2 < v <= r^2 when rounding up, and lies within q/2 of the root when rounding to
nearest; if r^2 differs from v the inexact flag is set, or with its mask clear the inexact fault is taken after
the store. The number delivered (sqrtValue, log 33) is the root, or lies between the same two neighbouring
multiples of 2^-70 of its leading bit as the root. The root of a zero is that zero and the root of plus infinity
is plus infinity, with no flag. The roots of zeros and of plus infinity are general knowledge in R296. (R205,
R296, R297, R300) -/
def Obligations.SquareRoots : Prop :=
  ∀ (s : State) (a : FpSrc) (d : FpDst), ∀ p ∈ [(Fmt.real, Instr.sqrtr), (.long, .sqrtrl)],
    (a.fits p.1 && d.fits p.1) = true →
    (∀ v, Number p.1 s a v → 0 < v →
      eMin (destFmt p.1 d) ≤ floorLog2 v / 2 → floorLog2 v / 2 < eMax (destFmt p.1 d) →
      ∃ (u : State) (r q : Rat), EndsInexact (p.2 a d) s s.ac u (r * r ≠ v) ∧
        q = pow2 (floorLog2 v / 2 - fracBits (destFmt p.1 d)) ∧
        fetch p.1 u (FpDst.asSrc d) = .norm false r ∧ 0 < r ∧
        (roundMode s = .down ∨ roundMode s = .zero → r * r ≤ v ∧ v < (r + q) * (r + q)) ∧
        (roundMode s = .up → (r - q) * (r - q) < v ∧ v ≤ r * r) ∧
        (roundMode s = .nearest → (r - q / 2) * (r - q / 2) ≤ v ∧ v ≤ (r + q / 2) * (r + q / 2)) ∧
        FpKept p.1 d s u) ∧
    (∀ v q : Rat, Number p.1 s a v → 0 < v → q = pow2 (floorLog2 v / 2 - 70) →
      0 < sqrtValue v ∧ (sqrtValue v * sqrtValue v = v ∨
        ∃ n : Nat, n * q < sqrtValue v ∧ sqrtValue v < (n + 1) * q ∧ n * q * (n * q) < v ∧
          v < (n + 1) * q * ((n + 1) * q))) ∧
    (∀ neg, fetch p.1 s a = .zero neg → Leaves (p.2 a d) p.1 d (.zero neg) s) ∧
    (fetch p.1 s a = .inf false → Leaves (p.2 a d) p.1 d (.inf false) s)

/-- cvtir and cvtilr give +0 for zero and otherwise the signed integer, 32 bits or the 64 bits of an aligned
pair, or the literal, rounded to the destination's precision; if rounding changed it the inexact flag is set, or
with its mask clear the inexact fault is taken after the store, AC unchanged. The sign of a converted zero is
general knowledge in R250; that the fault finds the end-of-step events recorded is D46 (log 22). (R205, R249,
R250, R251) -/
def Obligations.IntegerToReal : Prop :=
  ∀ (s : State) (x : Src) (d : FpDst) (n : Int) (i : Instr) (f : Fmt),
    ((i = .cvtir x d ∧ f = .real ∧ n = (srcValue s x).toInt) ∨
      (i = .cvtilr x d ∧ f = .long ∧ (x.isEven && d.fits .long) = true ∧
        ((∃ r, x = .reg r ∧ n = (getReg s (r + 1#5) ++ getReg s r).toInt) ∨ (∃ l, x = .lit l ∧ n = l.toNat)))) →
    (n = 0 → ∃ u, exec i s = .next (ended s.ip u) ∧ fetch f u (FpDst.asSrc d) = .zero false ∧
      u.ac = s.ac ∧ FpKept f d s u) ∧
    (n ≠ 0 → EndsRounded i f d s s.ac n)

/-- A number becomes the integer that the rounding mode selects, of two nearest the even one (toward zero for
cvtzri and cvtzril), written in 32 or 64 bits of two's complement; if it differs the inexact flag is set, or
with its mask clear the inexact fault is taken after the store. If the integer does not fit, its low bits are
written, where INT_OVERFLOW_RESULT is the default, and the integer-overflow flag is set, or with its mask clear
Arithmetic.IntegerOverflow is taken after the store; an infinity does the same with no defined value written. A
NaN gives the most negative integer and the invalid-operation flag, or with its mask clear the invalid-operation
fault with nothing changed; a zero gives zero. Nothing but the destination, AC and IP changes. The integer
stored on overflow is the spec's default of D25 (log 20). (R179, R197, R205, R252, R253, R254, R255, R256, R473)
-/
def Obligations.RealToInteger : Prop :=
  ∀ (s : State) (a : FpSrc) (d : Reg) (i : Instr) (w : Nat) (m : RoundMode),
    ((i = .cvtri a d ∧ w = 32 ∧ m = roundMode s) ∨ (i = .cvtzri a d ∧ w = 32 ∧ m = .zero) ∨
      (i = .cvtril a d ∧ w = 64 ∧ m = roundMode s ∧ Reg.isEven d = true) ∨
      (i = .cvtzril a d ∧ w = 64 ∧ m = .zero ∧ Reg.isEven d = true)) → Usable .real s a →
    ∃ u : State, u.ip = s.ip + 4#32 ∧ SameControls s u ∧
      Kept (if w = 32 then only d else pairOf d) nothing nothing s u ∧
      (∀ v, Number .real s a v →
        ∃ n : Int, RoundsTo m v n ∧
          ((-(2 ^ (w - 1)) ≤ n ∧ n < 2 ^ (w - 1)) ∨ s.params.intOverflow = .lowBits →
            if w = 32 then getReg u d = BitVec.ofInt 32 n
            else getReg u (d + 1#5) ++ getReg u d = BitVec.ofInt 64 n) ∧
          (-(2 ^ (w - 1)) ≤ n ∧ n < 2 ^ (w - 1) → EndsInexact i s s.ac u ((n : Rat) ≠ v)) ∧
          (¬ (-(2 ^ (w - 1)) ≤ n ∧ n < 2 ^ (w - 1)) → IntegerOverflows i s u)) ∧
      (∀ neg, fetch .real s a = .inf neg → IntegerOverflows i s u) ∧
      (isNan (fetch .real s a) = true →
        (acBit s fvmBit = true → exec i s = .next (ended s.ip u) ∧
          (if w = 32 then getReg u d = 0x80000000#32
            else getReg u (d + 1#5) ++ getReg u d = 0x8000000000000000#64) ∧
          ∀ k, getBit u.ac k = (getBit s.ac k || k == fvfBit)) ∧
        (acBit s fvmBit = false → exec i s = faultsWith (floating 0x04 s) s)) ∧
      (∀ neg, fetch .real s a = .zero neg → exec i s = .next (ended s.ip u) ∧ u.ac = s.ac ∧ getReg u d = 0#32 ∧
        (w = 64 → getReg u (d + 1#5) = 0#32))

/-- Two operands that are not NaNs, compared on the extended real line with equal zeros, give the condition code
001 if the first is greater, 010 if equal, 100 if less. If one is a quiet NaN and none signals, cmpr and cmprl
give 000 and no flag; a signaling NaN there, or any NaN for cmpor and cmporl, gives 000 and the
invalid-operation flag if the mask is set and takes the fault if it is clear. Nothing but AC and IP changes. The
codes 001, 010 and 100 are general knowledge in R311; that cmpr and cmprl signal on a signaling NaN is derived
in R312 (from R170, R196); that the invalid-operation fault leaves AC unchanged is R314's own inference (derived
from R199; the rule notes another reading). (R310, R311, R312, R313, R314, R315) -/
def Obligations.Comparisons : Prop :=
  ∀ (s : State) (a b : FpSrc), ∀ p ∈ compares,
    (a.fits p.1 && b.fits p.1) = true → Usable p.1 s a → Usable p.1 s b →
    (∀ v w, onLine (fetch p.1 s a) = some v → onLine (fetch p.1 s b) = some w →
      ∃ u, exec (p.2.2 a b) s = .next (ended s.ip u) ∧
        (Above v w → OnlyCc 0b001#3 s u) ∧ (v = w → OnlyCc 0b010#3 s u) ∧ (Above w v → OnlyCc 0b100#3 s u) ∧
        u.ip = s.ip + 4#32 ∧ SameControls s u ∧ Kept nothing nothing nothing s u) ∧
    (isNan (fetch p.1 s a) = true ∨ isNan (fetch p.1 s b) = true →
      (p.2.1 || isSnan (fetch p.1 s a) || isSnan (fetch p.1 s b)) = false →
      ∃ u, exec (p.2.2 a b) s = .next (ended s.ip u) ∧ OnlyCc 0b000#3 s u ∧
        u.ip = s.ip + 4#32 ∧ SameControls s u ∧ Kept nothing nothing nothing s u) ∧
    (isNan (fetch p.1 s a) = true ∨ isNan (fetch p.1 s b) = true →
      (p.2.1 || isSnan (fetch p.1 s a) || isSnan (fetch p.1 s b)) = true →
      (acBit s fvmBit = true →
        ∃ u, exec (p.2.2 a b) s = .next (ended s.ip u) ∧ acCc u = 0b000#3 ∧ getBit u.ac fvfBit = true ∧
          (∀ k, 3 ≤ k → k ≠ fvfBit → getBit u.ac k = getBit s.ac k) ∧
          u.ip = s.ip + 4#32 ∧ SameControls s u ∧ Kept nothing nothing nothing s u) ∧
      (acBit s fvmBit = false → exec (p.2.2 a b) s = faultsWith (floating 0x04 s) s))

/-- classr and classrl write to the arithmetic status the operand's sign bit, the top bit of its pattern
whatever the pattern means, and the code of its class in CLASS_CODES (log 19), whose default is zero 000,
denormalized 001, normalized 010, infinity 011, quiet NaN 100, signaling NaN 101, reserved encoding 110; they
never fault, whatever the value and the masks, and change nothing else but IP. For the pattern the spec gives no
meaning the code, but not the sign bit, is free. (R170, R318, R319, R320) -/
def Obligations.Classification : Prop :=
  ∀ (s : State) (a : FpSrc) (f : Fmt) (i : Instr),
    ((i = .classr a ∧ f = .real) ∨ (i = .classrl a ∧ f = .long ∧ a.fits .long = true)) →
    defaultParams.classCodes = ⟨0b000#3, 0b001#3, 0b010#3, 0b011#3, 0b100#3, 0b101#3, 0b110#3⟩ ∧
    ∃ u, exec i s = .next (ended s.ip u) ∧ u.ip = s.ip + 4#32 ∧ SameControls s u ∧
      Kept nothing nothing nothing s u ∧ (∀ k, k < 3 ∨ 7 ≤ k → getBit u.ac k = getBit s.ac k) ∧
      (∀ n, fetch f s a = .zero n → acAs u = BitVec.ofBool n ++ s.params.classCodes.zero) ∧
      (∀ n v, fetch f s a = .denorm n v → acAs u = BitVec.ofBool n ++ s.params.classCodes.denorm) ∧
      (∀ n v, fetch f s a = .norm n v → acAs u = BitVec.ofBool n ++ s.params.classCodes.norm) ∧
      (∀ n, fetch f s a = .inf n → acAs u = BitVec.ofBool n ++ s.params.classCodes.inf) ∧
      (∀ n x, fetch f s a = .qnan n x → acAs u = BitVec.ofBool n ++ s.params.classCodes.qnan) ∧
      (∀ n x, fetch f s a = .snan n x → acAs u = BitVec.ofBool n ++ s.params.classCodes.snan) ∧
      (fetch f s a = .reserved → (acAs u).setWidth 3 = s.params.classCodes.reserved) ∧
      (∀ n, a = .reg n → getBit u.ac 6 = getBit (getReg s (if f = .real then n else n + 1#5)) 31) ∧
      (∀ k, a = .fpr k → getBit u.ac 6 = (getFp s k).getLsbD 79)

/-- The sine and tangent of a zero are that zero and the cosine of a zero is 1, with no flag. The arctangent of
a zero ordinate with a positive abscissa (a number, +0 or plus infinity) is that zero, and of a number with the
abscissa plus infinity a zero of its sign, with no flag. With every exception masked, for a nonzero number sine,
cosine and tangent set the inexact flag, in every destination, and so does the arctangent of every other pair:
two numbers, a zero ordinate with a negative number, -0 or minus infinity, a zero or minus infinity as the
abscissa of a number, an infinite ordinate. The values before rounding are odd for sine, tangent and (in the
ordinate) arctangent and even for cosine, within 1 for sine and cosine and within pi for arctangent, with the
sign of the function on the first half turn of the processor's pi and, for arctangent, of the ordinate;
otherwise they are left free (log 18). The symmetry and the constraints are the spec's own decision D12; that
the half turns are those of the processor's pi is R332's item 5 (log 18); which zero and infinite operands of
the arctangent have a rounded value is general knowledge in R342. (R332, R333, R334, R336, R338, R342, R345) -/
def Obligations.Trigonometry : Prop :=
  (∀ v : Rat, v ≠ 0 → sinFn (-v) = -sinFn v ∧ cosFn (-v) = cosFn v ∧ tanFn (-v) = -tanFn v ∧
      |sinFn v| ≤ 1 ∧ |cosFn v| ≤ 1 ∧
      (0 < v → v < pi66 → 0 < sinFn v ∧ (v < pi66 / 2 → 0 < cosFn v ∧ 0 < tanFn v)) ∧
      sinFn v ≠ 0 ∧ cosFn v ≠ 0 ∧ tanFn v ≠ 0) ∧
    (∀ (y x : Config.FpValue), y ≠ .num 0 → |atan2Fn y x| ≤ pi66 ∧ atan2Fn y x ≠ 0 ∧
      (∀ v, y = .num v → (0 < atan2Fn y x ↔ 0 < v) ∧ atan2Fn (.num (-v)) x = -atan2Fn y x) ∧
      (∀ n, y = .zero n ∨ y = .inf n → (0 < atan2Fn y x ↔ n = false))) ∧
    (∀ (s : State) (a b : FpSrc) (d : FpDst),
      (∀ p ∈ [(Fmt.real, Instr.sinr), (.long, .sinrl), (.real, .tanr), (.long, .tanrl)], ∀ neg,
        fetch p.1 s a = .zero neg → (a.fits p.1 && d.fits p.1) = true → Leaves (p.2 a d) p.1 d (.zero neg) s) ∧
      (∀ p ∈ [(Fmt.real, Instr.cosr), (.long, .cosrl)], ∀ neg,
        fetch p.1 s a = .zero neg → (a.fits p.1 && d.fits p.1) = true → Leaves (p.2 a d) p.1 d (.norm false 1) s) ∧
      (∀ p ∈ [(Fmt.real, Instr.sinr), (.long, .sinrl), (.real, .cosr), (.long, .cosrl), (.real, .tanr),
          (.long, .tanrl)], ∀ v, AllMasked s →
        Number p.1 s a v → (a.fits p.1 && d.fits p.1) = true →
        ∃ u, exec (p.2 a d) s = .next (ended s.ip u) ∧ getBit u.ac fxfBit = true ∧ FpKept p.1 d s u) ∧
      (∀ p ∈ [(Fmt.real, Instr.atanr), (.long, .atanrl)], (a.fits p.1 && b.fits p.1 && d.fits p.1) = true →
        (∀ y, fetch p.1 s b = .zero y →
          (fetch p.1 s a = .zero false ∨ fetch p.1 s a = .inf false ∨ ∃ v, 0 < v ∧ Number p.1 s a v) →
          Leaves (p.2 a b d) p.1 d (.zero y) s) ∧
        (∀ w, Number p.1 s b w → fetch p.1 s a = .inf false →
          Leaves (p.2 a b d) p.1 d (.zero (decide (w < 0))) s) ∧
        (AllMasked s →
          (∃ y, (fetch p.1 s b = .zero y ∧
              (fetch p.1 s a = .zero true ∨ fetch p.1 s a = .inf true ∨ ∃ v, v < 0 ∧ Number p.1 s a v)) ∨
            (fetch p.1 s b = .inf y ∧ ∃ x, fetch p.1 s a = .inf x ∨ FiniteSign p.1 s a x)) ∨
          (∃ w, Number p.1 s b w ∧ (fetch p.1 s a = .inf true ∨ ∃ x, FiniteSign p.1 s a x)) →
          ∃ u, exec (p.2 a b d) s = .next (ended s.ip u) ∧ getBit u.ac fxfBit = true ∧ FpKept p.1 d s u)))

/-- The binary exponent of a number, where it is not 0, is stored exactly (a 0 as +0: PRESUMED, log 32); of an
infinity it is plus infinity. Where the argument of the logarithm (X, or X + 1 for the log epsilon instructions)
is exactly 2^k with k not 0, the result is Y times k rounded once; for any other argument the inexact flag is
set (every exception masked). Y times the logarithm of plus infinity is an infinity with Y's sign (Y not a
zero); an infinite Y gives an infinity with its sign, reversed for an argument below 1, a zero argument
included; a zero Y, or an argument of 1 with a finite Y, gives a zero with Y's sign, reversed for an argument
below 1 (and, for X = -0, in the log epsilon instructions); in these cases no flag is set, whatever the masks.
The exponent stored for a denormalized number is the spec's own decision D26 (R354); the values for infinities
and zeros are general knowledge in R354 and R358. (R332, R350, R354, R355, R358, R359, R362, R363) -/
def Obligations.Logarithms : Prop :=
  ∀ (s : State) (a b : FpSrc) (d : FpDst),
    (∀ p ∈ [(Fmt.real, Instr.logbnr), (.long, .logbnrl)], (a.fits p.1 && d.fits p.1) = true →
      (∀ (v : Rat) (k : Int), Number p.1 s a v → pow2 k ≤ |v| → |v| < pow2 (k + 1) →
        Leaves (p.2 a d) p.1 d (if k = 0 then .zero false else .norm (decide (k < 0)) k) s) ∧
      (∀ neg, fetch p.1 s a = .inf neg → Leaves (p.2 a d) p.1 d (.inf false) s)) ∧
    (∀ p ∈ logs, (a.fits p.1 && b.fits p.1 && d.fits p.1) = true →
      (∀ (y : Rat) (k : Int), Number p.1 s a (pow2 k) → Number p.1 s b y →
        (k = 0 → Leaves (p.2 a b d) p.1 d (.zero (decide (y < 0))) s) ∧
        (k ≠ 0 → InRange p.1 d s (y * k) → InexactQuiet p.1 d s (y * k) →
          ∃ u, exec (p.2 a b d) s = .next (ended s.ip u) ∧ Rounded p.1 d s u (y * k) ∧ FpKept p.1 d s u)) ∧
      (∀ v y : Rat, Number p.1 s a v → Number p.1 s b y → 0 < v → (∀ k, v ≠ pow2 k) → AllMasked s →
        ∃ u, exec (p.2 a b d) s = .next (ended s.ip u) ∧ getBit u.ac fxfBit = true ∧ FpKept p.1 d s u) ∧
      (∀ y, (fetch p.1 s a = .inf false → NonzeroSign p.1 s b y → Leaves (p.2 a b d) p.1 d (.inf y) s) ∧
        (∀ z, fetch p.1 s a = .zero z → fetch p.1 s b = .inf y → Leaves (p.2 a b d) p.1 d (.inf (!y)) s) ∧
        (∀ v, Number p.1 s a v → 0 < v →
          (v ≠ 1 → fetch p.1 s b = .inf y → Leaves (p.2 a b d) p.1 d (.inf (y ^^ decide (v < 1))) s) ∧
          (fetch p.1 s b = .zero y → Leaves (p.2 a b d) p.1 d (.zero (y ^^ decide (v < 1))) s)))) ∧
    (∀ p ∈ logEpsilons, (a.fits p.1 && b.fits p.1 && d.fits p.1) = true →
      (∀ (y : Rat) (k : Int), Number p.1 s a (pow2 k - 1) → Number p.1 s b y →
        k ≠ 0 → InRange p.1 d s (y * k) → InexactQuiet p.1 d s (y * k) →
        ∃ u, exec (p.2 a b d) s = .next (ended s.ip u) ∧ Rounded p.1 d s u (y * k) ∧ FpKept p.1 d s u) ∧
      (∀ v y : Rat, Number p.1 s a v → Number p.1 s b y → -1 < v → (∀ k, v + 1 ≠ pow2 k) → AllMasked s →
        ∃ u, exec (p.2 a b d) s = .next (ended s.ip u) ∧ getBit u.ac fxfBit = true ∧ FpKept p.1 d s u) ∧
      (∀ y, (fetch p.1 s a = .inf false → NonzeroSign p.1 s b y → Leaves (p.2 a b d) p.1 d (.inf y) s) ∧
        (Number p.1 s a (-1) → fetch p.1 s b = .inf y → Leaves (p.2 a b d) p.1 d (.inf (!y)) s) ∧
        (∀ x, fetch p.1 s a = .zero x → FiniteSign p.1 s b y → Leaves (p.2 a b d) p.1 d (.zero (x ^^ y)) s) ∧
        (∀ v, Number p.1 s a v → -1 < v →
          (fetch p.1 s b = .inf y → Leaves (p.2 a b d) p.1 d (.inf (y ^^ decide (v < 0))) s) ∧
          (fetch p.1 s b = .zero y → Leaves (p.2 a b d) p.1 d (.zero (y ^^ decide (v < 0))) s))))

/-- For an integer k below 40962 expr and exprl give 2^k - 1 rounded once, for any other number a value marked
inexact (every exception masked); zeros and plus infinity are left as they are, minus infinity gives -1, with no
flag. From 40962 up the result overflows massively: masked, the masked-overflow result and flag, with the
inexact flag, or the inexact fault after the store, by its mask; unmasked, the overflow fault with that result
as fault data, F1 free, and the inexact bit by its mask. scaler and scalerl give the number times 2^n, n the
signed integer operand (clamped to 200000 in magnitude, as R372 does), rounded once; zeros and infinities are
left as they are, with no flag. The values at zeros and infinities are general knowledge in R366; that massive
overflow applies to expr too is the spec's own decision D38. (R181, R202, R332, R350, R366, R367, R372, R373,
R374) -/
def Obligations.ExponentAndScale : Prop :=
  ∀ (s : State) (a : FpSrc) (x : Src) (d : FpDst),
    (∀ p ∈ exponents, (a.fits p.1 && d.fits p.1) = true →
      (∀ (k : Int) (e : Rat), Number p.1 s a k → k < 40962 → e = pow2 k - 1 →
        InRange p.1 d s e → InexactQuiet p.1 d s e →
        ∃ u, exec (p.2 a d) s = .next (ended s.ip u) ∧ Rounded p.1 d s u e ∧ FpKept p.1 d s u) ∧
      (∀ v : Rat, Number p.1 s a v → (∀ k : Int, v ≠ k) → AllMasked s →
        ∃ u, exec (p.2 a d) s = .next (ended s.ip u) ∧ getBit u.ac fxfBit = true ∧ FpKept p.1 d s u) ∧
      (∀ neg, fetch p.1 s a = .zero neg → Leaves (p.2 a d) p.1 d (.zero neg) s) ∧
      (fetch p.1 s a = .inf false → Leaves (p.2 a d) p.1 d (.inf false) s) ∧
      (fetch p.1 s a = .inf true → Leaves (p.2 a d) p.1 d (.norm true (-1)) s) ∧
      (∀ v : Rat, Number p.1 s a v → 40962 ≤ v →
        (acBit s fomBit = true →
          ∃ u, EndsWithFlag (p.2 a d) s s.ac u fofBit ∧ FpKept p.1 d s u ∧
            OverflowValue (destFmt p.1 d) (roundMode s) false (fetch p.1 u (FpDst.asSrc d))) ∧
        (acBit s fomBit = false →
          ∃ (g : FaultInfo) (y : Ext),
            exec (p.2 a d) s = faultsWith g (ended s.ip { s with ip := s.ip + 4#32 }) ∧
            g.ftype = 0x04 ∧ g.subtype = (if acBit s fxmBit = true then 0x01 else 0x11) ∧ g.afi = some s.ip ∧
            g.sip = some (s.ip + 4#32) ∧ g.f1 = none ∧ g.data = some y ∧
            OverflowValue (destFmt p.1 d) (roundMode s) false (decodeExt y)))) ∧
    (∀ p ∈ scales, (a.fits p.1 && d.fits p.1) = true →
      (∀ v e : Rat, Number p.1 s a v → e = v * pow2 (max (-200000) (min (srcValue s x).toInt 200000)) →
        InRange p.1 d s e → InexactQuiet p.1 d s e →
        ∃ u, exec (p.2 x a d) s = .next (ended s.ip u) ∧ Rounded p.1 d s u e ∧ FpKept p.1 d s u) ∧
      (∀ neg, (fetch p.1 s a = .zero neg → Leaves (p.2 x a d) p.1 d (.zero neg) s) ∧
        (fetch p.1 s a = .inf neg → Leaves (p.2 x a d) p.1 d (.inf neg) s)))
end

