-- ==== Sys2Proof/Laws/Bits.lean ====
section
/-! SUPPORT. The bits of words that the bit-field helpers of Machine/Bits.lean build. -/
namespace Sys2Proof.Machine

theorem getBit_ge {v : Word} {i : Nat} (h : 32 ≤ i) : getBit v i = false := by
  simp [getBit, BitVec.getLsbD_of_ge, h]

theorem getBit_ext {v w : Word} (h : ∀ i, i < 32 → getBit v i = getBit w i) : v = w :=
  BitVec.eq_of_getLsbD_eq h

/-- Bit `j` of a word in which bit `i` is set to `b`. -/
theorem getBit_setBit (v : Word) (i j : Nat) (b : Bool) :
    getBit (setBit v i b) j = if j = i ∧ j < 32 then b else getBit v j := by
  by_cases hj : j < 32
  · have h1 : (1#32 <<< i).getLsbD j = decide (j = i) := by
      simp only [BitVec.getLsbD_shiftLeft, BitVec.getLsbD_one, hj]
      by_cases h : j = i
      · simp [h]
      · by_cases h2 : j < i
        · simp [h, h2]
        · simp [h, h2]; omega
    unfold getBit setBit
    cases b
    · simp only [Bool.false_eq_true, if_false, BitVec.getLsbD_and, BitVec.getLsbD_not, h1, hj]
      by_cases h : j = i <;> simp [h]
    · simp only [if_true, BitVec.getLsbD_or, h1, hj]
      by_cases h : j = i <;> simp [h]
  · rw [getBit_ge (by omega), getBit_ge (by omega)]; simp [hj]

/-- Bit `j` of a field mask. -/
theorem getBit_fieldMask (lo w j : Nat) :
    getBit (fieldMask lo w) j = (decide (j < 32) && decide (lo ≤ j ∧ j < lo + w)) := by
  unfold getBit fieldMask
  rw [BitVec.getLsbD_ofNat, Nat.testBit_mul_two_pow, Nat.testBit_two_pow_sub_one]
  by_cases h : lo ≤ j
  · by_cases h2 : j < lo + w
    · simp [h, h2, show j - lo < w by omega]
    · simp [h, h2, show ¬ j - lo < w by omega]
  · simp [h]

/-- Bit `j` of a word in which the `w` bits from `lo` on are `x`. -/
theorem getBit_setField (v : Word) (lo w : Nat) (x : BitVec w) (j : Nat) :
    getBit (setField v lo w x) j =
      if j < 32 ∧ lo ≤ j ∧ j < lo + w then x.getLsbD (j - lo) else getBit v j := by
  have hm := getBit_fieldMask lo w j
  by_cases hj : j < 32
  · unfold setField getBit at *
    rw [BitVec.getLsbD_or, BitVec.getLsbD_and, BitVec.getLsbD_not, hm, BitVec.getLsbD_shiftLeft,
      BitVec.getLsbD_setWidth]
    by_cases h1 : lo ≤ j
    · by_cases h2 : j < lo + w
      · simp [hj, h1, h2, show j - lo < 32 by omega]
      · simp [hj, h1, h2, BitVec.getLsbD_of_ge x (j - lo) (by omega)]
    · simp [hj, h1, show j < lo by omega]
  · rw [getBit_ge (by omega), getBit_ge (by omega)]; simp [hj]

theorem getBit_maskedUpdate (v m x : Word) (i : Nat) :
    getBit (maskedUpdate v m x) i = if getBit m i = true then getBit x i else getBit v i := by
  by_cases hi : i < 32
  · unfold maskedUpdate getBit
    simp only [BitVec.getLsbD_or, BitVec.getLsbD_and, BitVec.getLsbD_not, hi]
    cases m.getLsbD i <;> simp
  · rw [getBit_ge (by omega), getBit_ge (by omega), getBit_ge (by omega), if_neg (by simp), getBit_ge (by omega)]

theorem wordAligned_idem (a : Word) : wordAligned (wordAligned a) = wordAligned a := by
  unfold wordAligned; rw [BitVec.and_assoc]; rfl

theorem frameAligned_idem (a : Word) : frameAligned (frameAligned a) = frameAligned a := by
  unfold frameAligned; rw [BitVec.and_assoc]; rfl

/-- Clearing the low `k` bits subtracts the remainder modulo `2 ^ k`. -/
theorem and_high_toNat (a : Word) (k : Nat) :
    (a &&& (BitVec.allOnes 32 <<< k)).toNat = a.toNat - a.toNat % 2 ^ k := by
  have h1 : a &&& (BitVec.allOnes 32 <<< k) = (a >>> k) <<< k := by
    apply BitVec.eq_of_getLsbD_eq
    intro i hi
    simp only [BitVec.getLsbD_and, BitVec.getLsbD_shiftLeft, BitVec.getLsbD_allOnes, BitVec.getLsbD_ushiftRight, hi]
    by_cases h : i < k
    · simp [h]
    · simp [h, show k + (i - k) = i by omega, show i - k < 32 by omega]
  rw [h1, BitVec.toNat_shiftLeft, BitVec.toNat_ushiftRight, Nat.shiftRight_eq_div_pow, Nat.shiftLeft_eq]
  have h2 := Nat.div_add_mod a.toNat (2 ^ k)
  have h3 := a.isLt
  rw [Nat.mul_comm] at h2
  rw [Nat.mod_eq_of_lt (by omega)]
  omega

/-- The bits of a word whose low `k` bits are cleared. -/
theorem getLsbD_and_high (a : Word) (k i : Nat) :
    (a &&& (BitVec.allOnes 32 <<< k)).getLsbD i = (decide (k ≤ i) && a.getLsbD i) := by
  by_cases hi : i < 32
  · rw [BitVec.getLsbD_and, BitVec.getLsbD_shiftLeft, BitVec.getLsbD_allOnes]
    by_cases h : k ≤ i
    · simp only [h, hi, show ¬ i < k by omega, show i - k < 32 by omega]; simp
    · simp [h, show i < k by omega]
  · rw [BitVec.getLsbD_of_ge _ _ (by omega), BitVec.getLsbD_of_ge _ _ (by omega)]; simp

theorem getLsbD_wordAligned (a : Word) (i : Nat) :
    (wordAligned a).getLsbD i = (decide (2 ≤ i) && a.getLsbD i) := getLsbD_and_high a 2 i

theorem getLsbD_frameAligned (a : Word) (i : Nat) :
    (frameAligned a).getLsbD i = (decide (6 ≤ i) && a.getLsbD i) := getLsbD_and_high a 6 i

theorem wordAligned_toNat (a : Word) : (wordAligned a).toNat = a.toNat - a.toNat % 4 := and_high_toNat a 2

theorem frameAligned_toNat (a : Word) : (frameAligned a).toNat = a.toNat - a.toNat % 64 := and_high_toNat a 6

end Sys2Proof.Machine
end

