-- ==== Sys2Proof/Laws/State.lean ====
section
/-! SUPPORT. What each update of State leaves in each field, so that no proof unfolds a record update. -/
namespace Sys2Proof.Machine

/-! ### `setCc` -/

@[simp] theorem setCc_globals (s : State) (v : BitVec 3) : (setCc s v).globals = s.globals := rfl
@[simp] theorem setCc_cur (s : State) (v : BitVec 3) : (setCc s v).cur = s.cur := rfl
@[simp] theorem setCc_older (s : State) (v : BitVec 3) : (setCc s v).older = s.older := rfl
@[simp] theorem setCc_fp (s : State) (v : BitVec 3) : (setCc s v).fp = s.fp := rfl
@[simp] theorem setCc_ip (s : State) (v : BitVec 3) : (setCc s v).ip = s.ip := rfl
@[simp] theorem setCc_ac (s : State) (v : BitVec 3) : (setCc s v).ac = setField s.ac 0 3 v := rfl
@[simp] theorem setCc_pc (s : State) (v : BitVec 3) : (setCc s v).pc = s.pc := rfl
@[simp] theorem setCc_tc (s : State) (v : BitVec 3) : (setCc s v).tc = s.tc := rfl
@[simp] theorem setCc_bp0 (s : State) (v : BitVec 3) : (setCc s v).bp0 = s.bp0 := rfl
@[simp] theorem setCc_bp1 (s : State) (v : BitVec 3) : (setCc s v).bp1 = s.bp1 := rfl
@[simp] theorem setCc_icr (s : State) (v : BitVec 3) : (setCc s v).icr = s.icr := rfl
@[simp] theorem setCc_pinLatch (s : State) (v : BitVec 3) : (setCc s v).pinLatch = s.pinLatch := rfl
@[simp] theorem setCc_intrVector (s : State) (v : BitVec 3) : (setCc s v).intrVector = s.intrVector := rfl
@[simp] theorem setCc_satBase (s : State) (v : BitVec 3) : (setCc s v).satBase = s.satBase := rfl
@[simp] theorem setCc_prcbBase (s : State) (v : BitVec 3) : (setCc s v).prcbBase = s.prcbBase := rfl
@[simp] theorem setCc_sysprocBase (s : State) (v : BitVec 3) : (setCc s v).sysprocBase = s.sysprocBase := rfl
@[simp] theorem setCc_traceBase (s : State) (v : BitVec 3) : (setCc s v).traceBase = s.traceBase := rfl
@[simp] theorem setCc_intTable (s : State) (v : BitVec 3) : (setCc s v).intTable = s.intTable := rfl
@[simp] theorem setCc_intStack (s : State) (v : BitVec 3) : (setCc s v).intStack = s.intStack := rfl
@[simp] theorem setCc_faultTable (s : State) (v : BitVec 3) : (setCc s v).faultTable = s.faultTable := rfl
@[simp] theorem setCc_status (s : State) (v : BitVec 3) : (setCc s v).status = s.status := rfl
@[simp] theorem setCc_failPin (s : State) (v : BitVec 3) : (setCc s v).failPin = s.failPin := rfl
@[simp] theorem setCc_mem (s : State) (v : BitVec 3) : (setCc s v).mem = s.mem := rfl
@[simp] theorem setCc_lastIp (s : State) (v : BitVec 3) : (setCc s v).lastIp = s.lastIp := rfl
@[simp] theorem setCc_teHold (s : State) (v : BitVec 3) : (setCc s v).teHold = s.teHold := rfl
@[simp] theorem setCc_teOld (s : State) (v : BitVec 3) : (setCc s v).teOld = s.teOld := rfl
@[simp] theorem setCc_executed (s : State) (v : BitVec 3) : (setCc s v).executed = s.executed := rfl
@[simp] theorem setCc_stale (s : State) (v : BitVec 3) : (setCc s v).stale = s.stale := rfl
@[simp] theorem setCc_draws (s : State) (v : BitVec 3) : (setCc s v).draws = s.draws := rfl
@[simp] theorem setCc_params (s : State) (v : BitVec 3) : (setCc s v).params = s.params := rfl

/-! ### `setAs` -/

@[simp] theorem setAs_globals (s : State) (v : BitVec 4) : (setAs s v).globals = s.globals := rfl
@[simp] theorem setAs_cur (s : State) (v : BitVec 4) : (setAs s v).cur = s.cur := rfl
@[simp] theorem setAs_older (s : State) (v : BitVec 4) : (setAs s v).older = s.older := rfl
@[simp] theorem setAs_fp (s : State) (v : BitVec 4) : (setAs s v).fp = s.fp := rfl
@[simp] theorem setAs_ip (s : State) (v : BitVec 4) : (setAs s v).ip = s.ip := rfl
@[simp] theorem setAs_ac (s : State) (v : BitVec 4) : (setAs s v).ac = setField s.ac 3 4 v := rfl
@[simp] theorem setAs_pc (s : State) (v : BitVec 4) : (setAs s v).pc = s.pc := rfl
@[simp] theorem setAs_tc (s : State) (v : BitVec 4) : (setAs s v).tc = s.tc := rfl
@[simp] theorem setAs_bp0 (s : State) (v : BitVec 4) : (setAs s v).bp0 = s.bp0 := rfl
@[simp] theorem setAs_bp1 (s : State) (v : BitVec 4) : (setAs s v).bp1 = s.bp1 := rfl
@[simp] theorem setAs_icr (s : State) (v : BitVec 4) : (setAs s v).icr = s.icr := rfl
@[simp] theorem setAs_pinLatch (s : State) (v : BitVec 4) : (setAs s v).pinLatch = s.pinLatch := rfl
@[simp] theorem setAs_intrVector (s : State) (v : BitVec 4) : (setAs s v).intrVector = s.intrVector := rfl
@[simp] theorem setAs_satBase (s : State) (v : BitVec 4) : (setAs s v).satBase = s.satBase := rfl
@[simp] theorem setAs_prcbBase (s : State) (v : BitVec 4) : (setAs s v).prcbBase = s.prcbBase := rfl
@[simp] theorem setAs_sysprocBase (s : State) (v : BitVec 4) : (setAs s v).sysprocBase = s.sysprocBase := rfl
@[simp] theorem setAs_traceBase (s : State) (v : BitVec 4) : (setAs s v).traceBase = s.traceBase := rfl
@[simp] theorem setAs_intTable (s : State) (v : BitVec 4) : (setAs s v).intTable = s.intTable := rfl
@[simp] theorem setAs_intStack (s : State) (v : BitVec 4) : (setAs s v).intStack = s.intStack := rfl
@[simp] theorem setAs_faultTable (s : State) (v : BitVec 4) : (setAs s v).faultTable = s.faultTable := rfl
@[simp] theorem setAs_status (s : State) (v : BitVec 4) : (setAs s v).status = s.status := rfl
@[simp] theorem setAs_failPin (s : State) (v : BitVec 4) : (setAs s v).failPin = s.failPin := rfl
@[simp] theorem setAs_mem (s : State) (v : BitVec 4) : (setAs s v).mem = s.mem := rfl
@[simp] theorem setAs_lastIp (s : State) (v : BitVec 4) : (setAs s v).lastIp = s.lastIp := rfl
@[simp] theorem setAs_teHold (s : State) (v : BitVec 4) : (setAs s v).teHold = s.teHold := rfl
@[simp] theorem setAs_teOld (s : State) (v : BitVec 4) : (setAs s v).teOld = s.teOld := rfl
@[simp] theorem setAs_executed (s : State) (v : BitVec 4) : (setAs s v).executed = s.executed := rfl
@[simp] theorem setAs_stale (s : State) (v : BitVec 4) : (setAs s v).stale = s.stale := rfl
@[simp] theorem setAs_draws (s : State) (v : BitVec 4) : (setAs s v).draws = s.draws := rfl
@[simp] theorem setAs_params (s : State) (v : BitVec 4) : (setAs s v).params = s.params := rfl

/-! ### `setAcFlag` -/

@[simp] theorem setAcFlag_globals (s : State) (i : Nat) : (setAcFlag s i).globals = s.globals := rfl
@[simp] theorem setAcFlag_cur (s : State) (i : Nat) : (setAcFlag s i).cur = s.cur := rfl
@[simp] theorem setAcFlag_older (s : State) (i : Nat) : (setAcFlag s i).older = s.older := rfl
@[simp] theorem setAcFlag_fp (s : State) (i : Nat) : (setAcFlag s i).fp = s.fp := rfl
@[simp] theorem setAcFlag_ip (s : State) (i : Nat) : (setAcFlag s i).ip = s.ip := rfl
@[simp] theorem setAcFlag_ac (s : State) (i : Nat) : (setAcFlag s i).ac = setBit s.ac i true := rfl
@[simp] theorem setAcFlag_pc (s : State) (i : Nat) : (setAcFlag s i).pc = s.pc := rfl
@[simp] theorem setAcFlag_tc (s : State) (i : Nat) : (setAcFlag s i).tc = s.tc := rfl
@[simp] theorem setAcFlag_bp0 (s : State) (i : Nat) : (setAcFlag s i).bp0 = s.bp0 := rfl
@[simp] theorem setAcFlag_bp1 (s : State) (i : Nat) : (setAcFlag s i).bp1 = s.bp1 := rfl
@[simp] theorem setAcFlag_icr (s : State) (i : Nat) : (setAcFlag s i).icr = s.icr := rfl
@[simp] theorem setAcFlag_pinLatch (s : State) (i : Nat) : (setAcFlag s i).pinLatch = s.pinLatch := rfl
@[simp] theorem setAcFlag_intrVector (s : State) (i : Nat) : (setAcFlag s i).intrVector = s.intrVector := rfl
@[simp] theorem setAcFlag_satBase (s : State) (i : Nat) : (setAcFlag s i).satBase = s.satBase := rfl
@[simp] theorem setAcFlag_prcbBase (s : State) (i : Nat) : (setAcFlag s i).prcbBase = s.prcbBase := rfl
@[simp] theorem setAcFlag_sysprocBase (s : State) (i : Nat) : (setAcFlag s i).sysprocBase = s.sysprocBase := rfl
@[simp] theorem setAcFlag_traceBase (s : State) (i : Nat) : (setAcFlag s i).traceBase = s.traceBase := rfl
@[simp] theorem setAcFlag_intTable (s : State) (i : Nat) : (setAcFlag s i).intTable = s.intTable := rfl
@[simp] theorem setAcFlag_intStack (s : State) (i : Nat) : (setAcFlag s i).intStack = s.intStack := rfl
@[simp] theorem setAcFlag_faultTable (s : State) (i : Nat) : (setAcFlag s i).faultTable = s.faultTable := rfl
@[simp] theorem setAcFlag_status (s : State) (i : Nat) : (setAcFlag s i).status = s.status := rfl
@[simp] theorem setAcFlag_failPin (s : State) (i : Nat) : (setAcFlag s i).failPin = s.failPin := rfl
@[simp] theorem setAcFlag_mem (s : State) (i : Nat) : (setAcFlag s i).mem = s.mem := rfl
@[simp] theorem setAcFlag_lastIp (s : State) (i : Nat) : (setAcFlag s i).lastIp = s.lastIp := rfl
@[simp] theorem setAcFlag_teHold (s : State) (i : Nat) : (setAcFlag s i).teHold = s.teHold := rfl
@[simp] theorem setAcFlag_teOld (s : State) (i : Nat) : (setAcFlag s i).teOld = s.teOld := rfl
@[simp] theorem setAcFlag_executed (s : State) (i : Nat) : (setAcFlag s i).executed = s.executed := rfl
@[simp] theorem setAcFlag_stale (s : State) (i : Nat) : (setAcFlag s i).stale = s.stale := rfl
@[simp] theorem setAcFlag_draws (s : State) (i : Nat) : (setAcFlag s i).draws = s.draws := rfl
@[simp] theorem setAcFlag_params (s : State) (i : Nat) : (setAcFlag s i).params = s.params := rfl

/-! ### `setPc` -/

@[simp] theorem setPc_globals (s : State) (w : Word) : (setPc s w).globals = s.globals := rfl
@[simp] theorem setPc_cur (s : State) (w : Word) : (setPc s w).cur = s.cur := rfl
@[simp] theorem setPc_older (s : State) (w : Word) : (setPc s w).older = s.older := rfl
@[simp] theorem setPc_fp (s : State) (w : Word) : (setPc s w).fp = s.fp := rfl
@[simp] theorem setPc_ip (s : State) (w : Word) : (setPc s w).ip = s.ip := rfl
@[simp] theorem setPc_ac (s : State) (w : Word) : (setPc s w).ac = s.ac := rfl
@[simp] theorem setPc_pc (s : State) (w : Word) : (setPc s w).pc = w := rfl
@[simp] theorem setPc_tc (s : State) (w : Word) : (setPc s w).tc = s.tc := rfl
@[simp] theorem setPc_bp0 (s : State) (w : Word) : (setPc s w).bp0 = s.bp0 := rfl
@[simp] theorem setPc_bp1 (s : State) (w : Word) : (setPc s w).bp1 = s.bp1 := rfl
@[simp] theorem setPc_icr (s : State) (w : Word) : (setPc s w).icr = s.icr := rfl
@[simp] theorem setPc_pinLatch (s : State) (w : Word) : (setPc s w).pinLatch = s.pinLatch := rfl
@[simp] theorem setPc_intrVector (s : State) (w : Word) : (setPc s w).intrVector = s.intrVector := rfl
@[simp] theorem setPc_satBase (s : State) (w : Word) : (setPc s w).satBase = s.satBase := rfl
@[simp] theorem setPc_prcbBase (s : State) (w : Word) : (setPc s w).prcbBase = s.prcbBase := rfl
@[simp] theorem setPc_sysprocBase (s : State) (w : Word) : (setPc s w).sysprocBase = s.sysprocBase := rfl
@[simp] theorem setPc_traceBase (s : State) (w : Word) : (setPc s w).traceBase = s.traceBase := rfl
@[simp] theorem setPc_intTable (s : State) (w : Word) : (setPc s w).intTable = s.intTable := rfl
@[simp] theorem setPc_intStack (s : State) (w : Word) : (setPc s w).intStack = s.intStack := rfl
@[simp] theorem setPc_faultTable (s : State) (w : Word) : (setPc s w).faultTable = s.faultTable := rfl
@[simp] theorem setPc_status (s : State) (w : Word) : (setPc s w).status = s.status := rfl
@[simp] theorem setPc_failPin (s : State) (w : Word) : (setPc s w).failPin = s.failPin := rfl
@[simp] theorem setPc_mem (s : State) (w : Word) : (setPc s w).mem = s.mem := rfl
@[simp] theorem setPc_lastIp (s : State) (w : Word) : (setPc s w).lastIp = s.lastIp := rfl
@[simp] theorem setPc_teHold (s : State) (w : Word) : (setPc s w).teHold = 0 := rfl
@[simp] theorem setPc_teOld (s : State) (w : Word) : (setPc s w).teOld = s.teOld := rfl
@[simp] theorem setPc_executed (s : State) (w : Word) : (setPc s w).executed = s.executed := rfl
@[simp] theorem setPc_stale (s : State) (w : Word) : (setPc s w).stale = s.stale := rfl
@[simp] theorem setPc_draws (s : State) (w : Word) : (setPc s w).draws = s.draws := rfl
@[simp] theorem setPc_params (s : State) (w : Word) : (setPc s w).params = s.params := rfl

/-! ### `setTe` -/

@[simp] theorem setTe_globals (s : State) (b : Bool) : (setTe s b).globals = s.globals := rfl
@[simp] theorem setTe_cur (s : State) (b : Bool) : (setTe s b).cur = s.cur := rfl
@[simp] theorem setTe_older (s : State) (b : Bool) : (setTe s b).older = s.older := rfl
@[simp] theorem setTe_fp (s : State) (b : Bool) : (setTe s b).fp = s.fp := rfl
@[simp] theorem setTe_ip (s : State) (b : Bool) : (setTe s b).ip = s.ip := rfl
@[simp] theorem setTe_ac (s : State) (b : Bool) : (setTe s b).ac = s.ac := rfl
@[simp] theorem setTe_pc (s : State) (b : Bool) : (setTe s b).pc = setBit s.pc 0 b := rfl
@[simp] theorem setTe_tc (s : State) (b : Bool) : (setTe s b).tc = s.tc := rfl
@[simp] theorem setTe_bp0 (s : State) (b : Bool) : (setTe s b).bp0 = s.bp0 := rfl
@[simp] theorem setTe_bp1 (s : State) (b : Bool) : (setTe s b).bp1 = s.bp1 := rfl
@[simp] theorem setTe_icr (s : State) (b : Bool) : (setTe s b).icr = s.icr := rfl
@[simp] theorem setTe_pinLatch (s : State) (b : Bool) : (setTe s b).pinLatch = s.pinLatch := rfl
@[simp] theorem setTe_intrVector (s : State) (b : Bool) : (setTe s b).intrVector = s.intrVector := rfl
@[simp] theorem setTe_satBase (s : State) (b : Bool) : (setTe s b).satBase = s.satBase := rfl
@[simp] theorem setTe_prcbBase (s : State) (b : Bool) : (setTe s b).prcbBase = s.prcbBase := rfl
@[simp] theorem setTe_sysprocBase (s : State) (b : Bool) : (setTe s b).sysprocBase = s.sysprocBase := rfl
@[simp] theorem setTe_traceBase (s : State) (b : Bool) : (setTe s b).traceBase = s.traceBase := rfl
@[simp] theorem setTe_intTable (s : State) (b : Bool) : (setTe s b).intTable = s.intTable := rfl
@[simp] theorem setTe_intStack (s : State) (b : Bool) : (setTe s b).intStack = s.intStack := rfl
@[simp] theorem setTe_faultTable (s : State) (b : Bool) : (setTe s b).faultTable = s.faultTable := rfl
@[simp] theorem setTe_status (s : State) (b : Bool) : (setTe s b).status = s.status := rfl
@[simp] theorem setTe_failPin (s : State) (b : Bool) : (setTe s b).failPin = s.failPin := rfl
@[simp] theorem setTe_mem (s : State) (b : Bool) : (setTe s b).mem = s.mem := rfl
@[simp] theorem setTe_lastIp (s : State) (b : Bool) : (setTe s b).lastIp = s.lastIp := rfl
@[simp] theorem setTe_teHold (s : State) (b : Bool) : (setTe s b).teHold = 0 := rfl
@[simp] theorem setTe_teOld (s : State) (b : Bool) : (setTe s b).teOld = s.teOld := rfl
@[simp] theorem setTe_executed (s : State) (b : Bool) : (setTe s b).executed = s.executed := rfl
@[simp] theorem setTe_stale (s : State) (b : Bool) : (setTe s b).stale = s.stale := rfl
@[simp] theorem setTe_draws (s : State) (b : Bool) : (setTe s b).draws = s.draws := rfl
@[simp] theorem setTe_params (s : State) (b : Bool) : (setTe s b).params = s.params := rfl

/-! ### `setEm` -/

@[simp] theorem setEm_globals (s : State) (b : Bool) : (setEm s b).globals = s.globals := rfl
@[simp] theorem setEm_cur (s : State) (b : Bool) : (setEm s b).cur = s.cur := rfl
@[simp] theorem setEm_older (s : State) (b : Bool) : (setEm s b).older = s.older := rfl
@[simp] theorem setEm_fp (s : State) (b : Bool) : (setEm s b).fp = s.fp := rfl
@[simp] theorem setEm_ip (s : State) (b : Bool) : (setEm s b).ip = s.ip := rfl
@[simp] theorem setEm_ac (s : State) (b : Bool) : (setEm s b).ac = s.ac := rfl
@[simp] theorem setEm_pc (s : State) (b : Bool) : (setEm s b).pc = setBit s.pc 1 b := rfl
@[simp] theorem setEm_tc (s : State) (b : Bool) : (setEm s b).tc = s.tc := rfl
@[simp] theorem setEm_bp0 (s : State) (b : Bool) : (setEm s b).bp0 = s.bp0 := rfl
@[simp] theorem setEm_bp1 (s : State) (b : Bool) : (setEm s b).bp1 = s.bp1 := rfl
@[simp] theorem setEm_icr (s : State) (b : Bool) : (setEm s b).icr = s.icr := rfl
@[simp] theorem setEm_pinLatch (s : State) (b : Bool) : (setEm s b).pinLatch = s.pinLatch := rfl
@[simp] theorem setEm_intrVector (s : State) (b : Bool) : (setEm s b).intrVector = s.intrVector := rfl
@[simp] theorem setEm_satBase (s : State) (b : Bool) : (setEm s b).satBase = s.satBase := rfl
@[simp] theorem setEm_prcbBase (s : State) (b : Bool) : (setEm s b).prcbBase = s.prcbBase := rfl
@[simp] theorem setEm_sysprocBase (s : State) (b : Bool) : (setEm s b).sysprocBase = s.sysprocBase := rfl
@[simp] theorem setEm_traceBase (s : State) (b : Bool) : (setEm s b).traceBase = s.traceBase := rfl
@[simp] theorem setEm_intTable (s : State) (b : Bool) : (setEm s b).intTable = s.intTable := rfl
@[simp] theorem setEm_intStack (s : State) (b : Bool) : (setEm s b).intStack = s.intStack := rfl
@[simp] theorem setEm_faultTable (s : State) (b : Bool) : (setEm s b).faultTable = s.faultTable := rfl
@[simp] theorem setEm_status (s : State) (b : Bool) : (setEm s b).status = s.status := rfl
@[simp] theorem setEm_failPin (s : State) (b : Bool) : (setEm s b).failPin = s.failPin := rfl
@[simp] theorem setEm_mem (s : State) (b : Bool) : (setEm s b).mem = s.mem := rfl
@[simp] theorem setEm_lastIp (s : State) (b : Bool) : (setEm s b).lastIp = s.lastIp := rfl
@[simp] theorem setEm_teHold (s : State) (b : Bool) : (setEm s b).teHold = s.teHold := rfl
@[simp] theorem setEm_teOld (s : State) (b : Bool) : (setEm s b).teOld = s.teOld := rfl
@[simp] theorem setEm_executed (s : State) (b : Bool) : (setEm s b).executed = s.executed := rfl
@[simp] theorem setEm_stale (s : State) (b : Bool) : (setEm s b).stale = s.stale := rfl
@[simp] theorem setEm_draws (s : State) (b : Bool) : (setEm s b).draws = s.draws := rfl
@[simp] theorem setEm_params (s : State) (b : Bool) : (setEm s b).params = s.params := rfl

/-! ### `setTfp` -/

@[simp] theorem setTfp_globals (s : State) (b : Bool) : (setTfp s b).globals = s.globals := rfl
@[simp] theorem setTfp_cur (s : State) (b : Bool) : (setTfp s b).cur = s.cur := rfl
@[simp] theorem setTfp_older (s : State) (b : Bool) : (setTfp s b).older = s.older := rfl
@[simp] theorem setTfp_fp (s : State) (b : Bool) : (setTfp s b).fp = s.fp := rfl
@[simp] theorem setTfp_ip (s : State) (b : Bool) : (setTfp s b).ip = s.ip := rfl
@[simp] theorem setTfp_ac (s : State) (b : Bool) : (setTfp s b).ac = s.ac := rfl
@[simp] theorem setTfp_pc (s : State) (b : Bool) : (setTfp s b).pc = setBit s.pc 10 b := rfl
@[simp] theorem setTfp_tc (s : State) (b : Bool) : (setTfp s b).tc = s.tc := rfl
@[simp] theorem setTfp_bp0 (s : State) (b : Bool) : (setTfp s b).bp0 = s.bp0 := rfl
@[simp] theorem setTfp_bp1 (s : State) (b : Bool) : (setTfp s b).bp1 = s.bp1 := rfl
@[simp] theorem setTfp_icr (s : State) (b : Bool) : (setTfp s b).icr = s.icr := rfl
@[simp] theorem setTfp_pinLatch (s : State) (b : Bool) : (setTfp s b).pinLatch = s.pinLatch := rfl
@[simp] theorem setTfp_intrVector (s : State) (b : Bool) : (setTfp s b).intrVector = s.intrVector := rfl
@[simp] theorem setTfp_satBase (s : State) (b : Bool) : (setTfp s b).satBase = s.satBase := rfl
@[simp] theorem setTfp_prcbBase (s : State) (b : Bool) : (setTfp s b).prcbBase = s.prcbBase := rfl
@[simp] theorem setTfp_sysprocBase (s : State) (b : Bool) : (setTfp s b).sysprocBase = s.sysprocBase := rfl
@[simp] theorem setTfp_traceBase (s : State) (b : Bool) : (setTfp s b).traceBase = s.traceBase := rfl
@[simp] theorem setTfp_intTable (s : State) (b : Bool) : (setTfp s b).intTable = s.intTable := rfl
@[simp] theorem setTfp_intStack (s : State) (b : Bool) : (setTfp s b).intStack = s.intStack := rfl
@[simp] theorem setTfp_faultTable (s : State) (b : Bool) : (setTfp s b).faultTable = s.faultTable := rfl
@[simp] theorem setTfp_status (s : State) (b : Bool) : (setTfp s b).status = s.status := rfl
@[simp] theorem setTfp_failPin (s : State) (b : Bool) : (setTfp s b).failPin = s.failPin := rfl
@[simp] theorem setTfp_mem (s : State) (b : Bool) : (setTfp s b).mem = s.mem := rfl
@[simp] theorem setTfp_lastIp (s : State) (b : Bool) : (setTfp s b).lastIp = s.lastIp := rfl
@[simp] theorem setTfp_teHold (s : State) (b : Bool) : (setTfp s b).teHold = s.teHold := rfl
@[simp] theorem setTfp_teOld (s : State) (b : Bool) : (setTfp s b).teOld = s.teOld := rfl
@[simp] theorem setTfp_executed (s : State) (b : Bool) : (setTfp s b).executed = s.executed := rfl
@[simp] theorem setTfp_stale (s : State) (b : Bool) : (setTfp s b).stale = s.stale := rfl
@[simp] theorem setTfp_draws (s : State) (b : Bool) : (setTfp s b).draws = s.draws := rfl
@[simp] theorem setTfp_params (s : State) (b : Bool) : (setTfp s b).params = s.params := rfl

/-! ### `clearEvents` -/

@[simp] theorem clearEvents_globals (s : State) : (clearEvents s).globals = s.globals := rfl
@[simp] theorem clearEvents_cur (s : State) : (clearEvents s).cur = s.cur := rfl
@[simp] theorem clearEvents_older (s : State) : (clearEvents s).older = s.older := rfl
@[simp] theorem clearEvents_fp (s : State) : (clearEvents s).fp = s.fp := rfl
@[simp] theorem clearEvents_ip (s : State) : (clearEvents s).ip = s.ip := rfl
@[simp] theorem clearEvents_ac (s : State) : (clearEvents s).ac = s.ac := rfl
@[simp] theorem clearEvents_pc (s : State) : (clearEvents s).pc = s.pc := rfl
@[simp] theorem clearEvents_tc (s : State) : (clearEvents s).tc = setField s.tc 17 7 0#7 := rfl
@[simp] theorem clearEvents_bp0 (s : State) : (clearEvents s).bp0 = s.bp0 := rfl
@[simp] theorem clearEvents_bp1 (s : State) : (clearEvents s).bp1 = s.bp1 := rfl
@[simp] theorem clearEvents_icr (s : State) : (clearEvents s).icr = s.icr := rfl
@[simp] theorem clearEvents_pinLatch (s : State) : (clearEvents s).pinLatch = s.pinLatch := rfl
@[simp] theorem clearEvents_intrVector (s : State) : (clearEvents s).intrVector = s.intrVector := rfl
@[simp] theorem clearEvents_satBase (s : State) : (clearEvents s).satBase = s.satBase := rfl
@[simp] theorem clearEvents_prcbBase (s : State) : (clearEvents s).prcbBase = s.prcbBase := rfl
@[simp] theorem clearEvents_sysprocBase (s : State) : (clearEvents s).sysprocBase = s.sysprocBase := rfl
@[simp] theorem clearEvents_traceBase (s : State) : (clearEvents s).traceBase = s.traceBase := rfl
@[simp] theorem clearEvents_intTable (s : State) : (clearEvents s).intTable = s.intTable := rfl
@[simp] theorem clearEvents_intStack (s : State) : (clearEvents s).intStack = s.intStack := rfl
@[simp] theorem clearEvents_faultTable (s : State) : (clearEvents s).faultTable = s.faultTable := rfl
@[simp] theorem clearEvents_status (s : State) : (clearEvents s).status = s.status := rfl
@[simp] theorem clearEvents_failPin (s : State) : (clearEvents s).failPin = s.failPin := rfl
@[simp] theorem clearEvents_mem (s : State) : (clearEvents s).mem = s.mem := rfl
@[simp] theorem clearEvents_lastIp (s : State) : (clearEvents s).lastIp = s.lastIp := rfl
@[simp] theorem clearEvents_teHold (s : State) : (clearEvents s).teHold = s.teHold := rfl
@[simp] theorem clearEvents_teOld (s : State) : (clearEvents s).teOld = s.teOld := rfl
@[simp] theorem clearEvents_executed (s : State) : (clearEvents s).executed = s.executed := rfl
@[simp] theorem clearEvents_stale (s : State) : (clearEvents s).stale = s.stale := rfl
@[simp] theorem clearEvents_draws (s : State) : (clearEvents s).draws = s.draws := rfl
@[simp] theorem clearEvents_params (s : State) : (clearEvents s).params = s.params := rfl

/-! ### `setFp` -/

@[simp] theorem setFp_globals (s : State) (k : BitVec 2) (v : Ext) : (setFp s k v).globals = s.globals := rfl
@[simp] theorem setFp_cur (s : State) (k : BitVec 2) (v : Ext) : (setFp s k v).cur = s.cur := rfl
@[simp] theorem setFp_older (s : State) (k : BitVec 2) (v : Ext) : (setFp s k v).older = s.older := rfl
@[simp] theorem setFp_fp (s : State) (k : BitVec 2) (v : Ext) : (setFp s k v).fp = s.fp.set k.toNat v k.isLt := rfl
@[simp] theorem setFp_ip (s : State) (k : BitVec 2) (v : Ext) : (setFp s k v).ip = s.ip := rfl
@[simp] theorem setFp_ac (s : State) (k : BitVec 2) (v : Ext) : (setFp s k v).ac = s.ac := rfl
@[simp] theorem setFp_pc (s : State) (k : BitVec 2) (v : Ext) : (setFp s k v).pc = s.pc := rfl
@[simp] theorem setFp_tc (s : State) (k : BitVec 2) (v : Ext) : (setFp s k v).tc = s.tc := rfl
@[simp] theorem setFp_bp0 (s : State) (k : BitVec 2) (v : Ext) : (setFp s k v).bp0 = s.bp0 := rfl
@[simp] theorem setFp_bp1 (s : State) (k : BitVec 2) (v : Ext) : (setFp s k v).bp1 = s.bp1 := rfl
@[simp] theorem setFp_icr (s : State) (k : BitVec 2) (v : Ext) : (setFp s k v).icr = s.icr := rfl
@[simp] theorem setFp_pinLatch (s : State) (k : BitVec 2) (v : Ext) : (setFp s k v).pinLatch = s.pinLatch := rfl
@[simp] theorem setFp_intrVector (s : State) (k : BitVec 2) (v : Ext) : (setFp s k v).intrVector = s.intrVector := rfl
@[simp] theorem setFp_satBase (s : State) (k : BitVec 2) (v : Ext) : (setFp s k v).satBase = s.satBase := rfl
@[simp] theorem setFp_prcbBase (s : State) (k : BitVec 2) (v : Ext) : (setFp s k v).prcbBase = s.prcbBase := rfl
@[simp] theorem setFp_sysprocBase (s : State) (k : BitVec 2) (v : Ext) : (setFp s k v).sysprocBase = s.sysprocBase := rfl
@[simp] theorem setFp_traceBase (s : State) (k : BitVec 2) (v : Ext) : (setFp s k v).traceBase = s.traceBase := rfl
@[simp] theorem setFp_intTable (s : State) (k : BitVec 2) (v : Ext) : (setFp s k v).intTable = s.intTable := rfl
@[simp] theorem setFp_intStack (s : State) (k : BitVec 2) (v : Ext) : (setFp s k v).intStack = s.intStack := rfl
@[simp] theorem setFp_faultTable (s : State) (k : BitVec 2) (v : Ext) : (setFp s k v).faultTable = s.faultTable := rfl
@[simp] theorem setFp_status (s : State) (k : BitVec 2) (v : Ext) : (setFp s k v).status = s.status := rfl
@[simp] theorem setFp_failPin (s : State) (k : BitVec 2) (v : Ext) : (setFp s k v).failPin = s.failPin := rfl
@[simp] theorem setFp_mem (s : State) (k : BitVec 2) (v : Ext) : (setFp s k v).mem = s.mem := rfl
@[simp] theorem setFp_lastIp (s : State) (k : BitVec 2) (v : Ext) : (setFp s k v).lastIp = s.lastIp := rfl
@[simp] theorem setFp_teHold (s : State) (k : BitVec 2) (v : Ext) : (setFp s k v).teHold = s.teHold := rfl
@[simp] theorem setFp_teOld (s : State) (k : BitVec 2) (v : Ext) : (setFp s k v).teOld = s.teOld := rfl
@[simp] theorem setFp_executed (s : State) (k : BitVec 2) (v : Ext) : (setFp s k v).executed = s.executed := rfl
@[simp] theorem setFp_stale (s : State) (k : BitVec 2) (v : Ext) : (setFp s k v).stale = s.stale := rfl
@[simp] theorem setFp_draws (s : State) (k : BitVec 2) (v : Ext) : (setFp s k v).draws = s.draws := rfl
@[simp] theorem setFp_params (s : State) (k : BitVec 2) (v : Ext) : (setFp s k v).params = s.params := rfl

/-! ### `drawn` -/

@[simp] theorem drawn_globals (s : State) (k : Nat) : (drawn s k).globals = s.globals := rfl
@[simp] theorem drawn_cur (s : State) (k : Nat) : (drawn s k).cur = s.cur := rfl
@[simp] theorem drawn_older (s : State) (k : Nat) : (drawn s k).older = s.older := rfl
@[simp] theorem drawn_fp (s : State) (k : Nat) : (drawn s k).fp = s.fp := rfl
@[simp] theorem drawn_ip (s : State) (k : Nat) : (drawn s k).ip = s.ip := rfl
@[simp] theorem drawn_ac (s : State) (k : Nat) : (drawn s k).ac = s.ac := rfl
@[simp] theorem drawn_pc (s : State) (k : Nat) : (drawn s k).pc = s.pc := rfl
@[simp] theorem drawn_tc (s : State) (k : Nat) : (drawn s k).tc = s.tc := rfl
@[simp] theorem drawn_bp0 (s : State) (k : Nat) : (drawn s k).bp0 = s.bp0 := rfl
@[simp] theorem drawn_bp1 (s : State) (k : Nat) : (drawn s k).bp1 = s.bp1 := rfl
@[simp] theorem drawn_icr (s : State) (k : Nat) : (drawn s k).icr = s.icr := rfl
@[simp] theorem drawn_pinLatch (s : State) (k : Nat) : (drawn s k).pinLatch = s.pinLatch := rfl
@[simp] theorem drawn_intrVector (s : State) (k : Nat) : (drawn s k).intrVector = s.intrVector := rfl
@[simp] theorem drawn_satBase (s : State) (k : Nat) : (drawn s k).satBase = s.satBase := rfl
@[simp] theorem drawn_prcbBase (s : State) (k : Nat) : (drawn s k).prcbBase = s.prcbBase := rfl
@[simp] theorem drawn_sysprocBase (s : State) (k : Nat) : (drawn s k).sysprocBase = s.sysprocBase := rfl
@[simp] theorem drawn_traceBase (s : State) (k : Nat) : (drawn s k).traceBase = s.traceBase := rfl
@[simp] theorem drawn_intTable (s : State) (k : Nat) : (drawn s k).intTable = s.intTable := rfl
@[simp] theorem drawn_intStack (s : State) (k : Nat) : (drawn s k).intStack = s.intStack := rfl
@[simp] theorem drawn_faultTable (s : State) (k : Nat) : (drawn s k).faultTable = s.faultTable := rfl
@[simp] theorem drawn_status (s : State) (k : Nat) : (drawn s k).status = s.status := rfl
@[simp] theorem drawn_failPin (s : State) (k : Nat) : (drawn s k).failPin = s.failPin := rfl
@[simp] theorem drawn_mem (s : State) (k : Nat) : (drawn s k).mem = s.mem := rfl
@[simp] theorem drawn_lastIp (s : State) (k : Nat) : (drawn s k).lastIp = s.lastIp := rfl
@[simp] theorem drawn_teHold (s : State) (k : Nat) : (drawn s k).teHold = s.teHold := rfl
@[simp] theorem drawn_teOld (s : State) (k : Nat) : (drawn s k).teOld = s.teOld := rfl
@[simp] theorem drawn_executed (s : State) (k : Nat) : (drawn s k).executed = s.executed := rfl
@[simp] theorem drawn_stale (s : State) (k : Nat) : (drawn s k).stale = s.stale := rfl
@[simp] theorem drawn_draws (s : State) (k : Nat) : (drawn s k).draws = s.draws + k := rfl
@[simp] theorem drawn_params (s : State) (k : Nat) : (drawn s k).params = s.params := rfl

/-! ### `markExecuted` -/

@[simp] theorem markExecuted_globals (s : State) (a : Nat) : (markExecuted s a).globals = s.globals := rfl
@[simp] theorem markExecuted_cur (s : State) (a : Nat) : (markExecuted s a).cur = s.cur := rfl
@[simp] theorem markExecuted_older (s : State) (a : Nat) : (markExecuted s a).older = s.older := rfl
@[simp] theorem markExecuted_fp (s : State) (a : Nat) : (markExecuted s a).fp = s.fp := rfl
@[simp] theorem markExecuted_ip (s : State) (a : Nat) : (markExecuted s a).ip = s.ip := rfl
@[simp] theorem markExecuted_ac (s : State) (a : Nat) : (markExecuted s a).ac = s.ac := rfl
@[simp] theorem markExecuted_pc (s : State) (a : Nat) : (markExecuted s a).pc = s.pc := rfl
@[simp] theorem markExecuted_tc (s : State) (a : Nat) : (markExecuted s a).tc = s.tc := rfl
@[simp] theorem markExecuted_bp0 (s : State) (a : Nat) : (markExecuted s a).bp0 = s.bp0 := rfl
@[simp] theorem markExecuted_bp1 (s : State) (a : Nat) : (markExecuted s a).bp1 = s.bp1 := rfl
@[simp] theorem markExecuted_icr (s : State) (a : Nat) : (markExecuted s a).icr = s.icr := rfl
@[simp] theorem markExecuted_pinLatch (s : State) (a : Nat) : (markExecuted s a).pinLatch = s.pinLatch := rfl
@[simp] theorem markExecuted_intrVector (s : State) (a : Nat) : (markExecuted s a).intrVector = s.intrVector := rfl
@[simp] theorem markExecuted_satBase (s : State) (a : Nat) : (markExecuted s a).satBase = s.satBase := rfl
@[simp] theorem markExecuted_prcbBase (s : State) (a : Nat) : (markExecuted s a).prcbBase = s.prcbBase := rfl
@[simp] theorem markExecuted_sysprocBase (s : State) (a : Nat) : (markExecuted s a).sysprocBase = s.sysprocBase := rfl
@[simp] theorem markExecuted_traceBase (s : State) (a : Nat) : (markExecuted s a).traceBase = s.traceBase := rfl
@[simp] theorem markExecuted_intTable (s : State) (a : Nat) : (markExecuted s a).intTable = s.intTable := rfl
@[simp] theorem markExecuted_intStack (s : State) (a : Nat) : (markExecuted s a).intStack = s.intStack := rfl
@[simp] theorem markExecuted_faultTable (s : State) (a : Nat) : (markExecuted s a).faultTable = s.faultTable := rfl
@[simp] theorem markExecuted_status (s : State) (a : Nat) : (markExecuted s a).status = s.status := rfl
@[simp] theorem markExecuted_failPin (s : State) (a : Nat) : (markExecuted s a).failPin = s.failPin := rfl
@[simp] theorem markExecuted_mem (s : State) (a : Nat) : (markExecuted s a).mem = s.mem := rfl
@[simp] theorem markExecuted_lastIp (s : State) (a : Nat) : (markExecuted s a).lastIp = s.lastIp := rfl
@[simp] theorem markExecuted_teHold (s : State) (a : Nat) : (markExecuted s a).teHold = s.teHold := rfl
@[simp] theorem markExecuted_teOld (s : State) (a : Nat) : (markExecuted s a).teOld = s.teOld := rfl
@[simp] theorem markExecuted_executed (s : State) (a : Nat) : (markExecuted s a).executed = insertAddr s.executed a := rfl
@[simp] theorem markExecuted_stale (s : State) (a : Nat) : (markExecuted s a).stale = s.stale := rfl
@[simp] theorem markExecuted_draws (s : State) (a : Nat) : (markExecuted s a).draws = s.draws := rfl
@[simp] theorem markExecuted_params (s : State) (a : Nat) : (markExecuted s a).params = s.params := rfl

/-! ### `retire` -/

@[simp] theorem retire_globals (a : Word) (s : State) : (retire a s).globals = s.globals := rfl
@[simp] theorem retire_cur (a : Word) (s : State) : (retire a s).cur = s.cur := rfl
@[simp] theorem retire_older (a : Word) (s : State) : (retire a s).older = s.older := rfl
@[simp] theorem retire_fp (a : Word) (s : State) : (retire a s).fp = s.fp := rfl
@[simp] theorem retire_ip (a : Word) (s : State) : (retire a s).ip = s.ip := rfl
@[simp] theorem retire_ac (a : Word) (s : State) : (retire a s).ac = s.ac := rfl
@[simp] theorem retire_pc (a : Word) (s : State) : (retire a s).pc = s.pc := rfl
@[simp] theorem retire_tc (a : Word) (s : State) : (retire a s).tc = s.tc := rfl
@[simp] theorem retire_bp0 (a : Word) (s : State) : (retire a s).bp0 = s.bp0 := rfl
@[simp] theorem retire_bp1 (a : Word) (s : State) : (retire a s).bp1 = s.bp1 := rfl
@[simp] theorem retire_icr (a : Word) (s : State) : (retire a s).icr = s.icr := rfl
@[simp] theorem retire_pinLatch (a : Word) (s : State) : (retire a s).pinLatch = s.pinLatch := rfl
@[simp] theorem retire_intrVector (a : Word) (s : State) : (retire a s).intrVector = s.intrVector := rfl
@[simp] theorem retire_satBase (a : Word) (s : State) : (retire a s).satBase = s.satBase := rfl
@[simp] theorem retire_prcbBase (a : Word) (s : State) : (retire a s).prcbBase = s.prcbBase := rfl
@[simp] theorem retire_sysprocBase (a : Word) (s : State) : (retire a s).sysprocBase = s.sysprocBase := rfl
@[simp] theorem retire_traceBase (a : Word) (s : State) : (retire a s).traceBase = s.traceBase := rfl
@[simp] theorem retire_intTable (a : Word) (s : State) : (retire a s).intTable = s.intTable := rfl
@[simp] theorem retire_intStack (a : Word) (s : State) : (retire a s).intStack = s.intStack := rfl
@[simp] theorem retire_faultTable (a : Word) (s : State) : (retire a s).faultTable = s.faultTable := rfl
@[simp] theorem retire_status (a : Word) (s : State) : (retire a s).status = s.status := rfl
@[simp] theorem retire_failPin (a : Word) (s : State) : (retire a s).failPin = s.failPin := rfl
@[simp] theorem retire_mem (a : Word) (s : State) : (retire a s).mem = s.mem := rfl
@[simp] theorem retire_lastIp (a : Word) (s : State) : (retire a s).lastIp = a := rfl
@[simp] theorem retire_teHold (a : Word) (s : State) : (retire a s).teHold = s.teHold - 1 := rfl
@[simp] theorem retire_teOld (a : Word) (s : State) : (retire a s).teOld = s.teOld := rfl
@[simp] theorem retire_executed (a : Word) (s : State) : (retire a s).executed = s.executed := rfl
@[simp] theorem retire_stale (a : Word) (s : State) : (retire a s).stale = s.stale := rfl
@[simp] theorem retire_draws (a : Word) (s : State) : (retire a s).draws = s.draws := rfl
@[simp] theorem retire_params (a : Word) (s : State) : (retire a s).params = s.params := rfl

/-! ### `setReg` -/

@[simp] theorem setReg_older (s : State) (n : Reg) (v : Word) : (setReg s n v).older = s.older := by unfold setReg; split <;> rfl
@[simp] theorem setReg_fp (s : State) (n : Reg) (v : Word) : (setReg s n v).fp = s.fp := by unfold setReg; split <;> rfl
@[simp] theorem setReg_ip (s : State) (n : Reg) (v : Word) : (setReg s n v).ip = s.ip := by unfold setReg; split <;> rfl
@[simp] theorem setReg_ac (s : State) (n : Reg) (v : Word) : (setReg s n v).ac = s.ac := by unfold setReg; split <;> rfl
@[simp] theorem setReg_pc (s : State) (n : Reg) (v : Word) : (setReg s n v).pc = s.pc := by unfold setReg; split <;> rfl
@[simp] theorem setReg_tc (s : State) (n : Reg) (v : Word) : (setReg s n v).tc = s.tc := by unfold setReg; split <;> rfl
@[simp] theorem setReg_bp0 (s : State) (n : Reg) (v : Word) : (setReg s n v).bp0 = s.bp0 := by unfold setReg; split <;> rfl
@[simp] theorem setReg_bp1 (s : State) (n : Reg) (v : Word) : (setReg s n v).bp1 = s.bp1 := by unfold setReg; split <;> rfl
@[simp] theorem setReg_icr (s : State) (n : Reg) (v : Word) : (setReg s n v).icr = s.icr := by unfold setReg; split <;> rfl
@[simp] theorem setReg_pinLatch (s : State) (n : Reg) (v : Word) : (setReg s n v).pinLatch = s.pinLatch := by unfold setReg; split <;> rfl
@[simp] theorem setReg_intrVector (s : State) (n : Reg) (v : Word) : (setReg s n v).intrVector = s.intrVector := by unfold setReg; split <;> rfl
@[simp] theorem setReg_satBase (s : State) (n : Reg) (v : Word) : (setReg s n v).satBase = s.satBase := by unfold setReg; split <;> rfl
@[simp] theorem setReg_prcbBase (s : State) (n : Reg) (v : Word) : (setReg s n v).prcbBase = s.prcbBase := by unfold setReg; split <;> rfl
@[simp] theorem setReg_sysprocBase (s : State) (n : Reg) (v : Word) : (setReg s n v).sysprocBase = s.sysprocBase := by unfold setReg; split <;> rfl
@[simp] theorem setReg_traceBase (s : State) (n : Reg) (v : Word) : (setReg s n v).traceBase = s.traceBase := by unfold setReg; split <;> rfl
@[simp] theorem setReg_intTable (s : State) (n : Reg) (v : Word) : (setReg s n v).intTable = s.intTable := by unfold setReg; split <;> rfl
@[simp] theorem setReg_intStack (s : State) (n : Reg) (v : Word) : (setReg s n v).intStack = s.intStack := by unfold setReg; split <;> rfl
@[simp] theorem setReg_faultTable (s : State) (n : Reg) (v : Word) : (setReg s n v).faultTable = s.faultTable := by unfold setReg; split <;> rfl
@[simp] theorem setReg_status (s : State) (n : Reg) (v : Word) : (setReg s n v).status = s.status := by unfold setReg; split <;> rfl
@[simp] theorem setReg_failPin (s : State) (n : Reg) (v : Word) : (setReg s n v).failPin = s.failPin := by unfold setReg; split <;> rfl
@[simp] theorem setReg_mem (s : State) (n : Reg) (v : Word) : (setReg s n v).mem = s.mem := by unfold setReg; split <;> rfl
@[simp] theorem setReg_lastIp (s : State) (n : Reg) (v : Word) : (setReg s n v).lastIp = s.lastIp := by unfold setReg; split <;> rfl
@[simp] theorem setReg_teHold (s : State) (n : Reg) (v : Word) : (setReg s n v).teHold = s.teHold := by unfold setReg; split <;> rfl
@[simp] theorem setReg_teOld (s : State) (n : Reg) (v : Word) : (setReg s n v).teOld = s.teOld := by unfold setReg; split <;> rfl
@[simp] theorem setReg_executed (s : State) (n : Reg) (v : Word) : (setReg s n v).executed = s.executed := by unfold setReg; split <;> rfl
@[simp] theorem setReg_stale (s : State) (n : Reg) (v : Word) : (setReg s n v).stale = s.stale := by unfold setReg; split <;> rfl
@[simp] theorem setReg_draws (s : State) (n : Reg) (v : Word) : (setReg s n v).draws = s.draws := by unfold setReg; split <;> rfl
@[simp] theorem setReg_params (s : State) (n : Reg) (v : Word) : (setReg s n v).params = s.params := by unfold setReg; split <;> rfl

/-! ### `markStale` -/

@[simp] theorem markStale_globals (s : State) (a : Nat) : (markStale s a).globals = s.globals := by unfold markStale; dsimp only; split <;> rfl
@[simp] theorem markStale_cur (s : State) (a : Nat) : (markStale s a).cur = s.cur := by unfold markStale; dsimp only; split <;> rfl
@[simp] theorem markStale_older (s : State) (a : Nat) : (markStale s a).older = s.older := by unfold markStale; dsimp only; split <;> rfl
@[simp] theorem markStale_fp (s : State) (a : Nat) : (markStale s a).fp = s.fp := by unfold markStale; dsimp only; split <;> rfl
@[simp] theorem markStale_ip (s : State) (a : Nat) : (markStale s a).ip = s.ip := by unfold markStale; dsimp only; split <;> rfl
@[simp] theorem markStale_ac (s : State) (a : Nat) : (markStale s a).ac = s.ac := by unfold markStale; dsimp only; split <;> rfl
@[simp] theorem markStale_pc (s : State) (a : Nat) : (markStale s a).pc = s.pc := by unfold markStale; dsimp only; split <;> rfl
@[simp] theorem markStale_tc (s : State) (a : Nat) : (markStale s a).tc = s.tc := by unfold markStale; dsimp only; split <;> rfl
@[simp] theorem markStale_bp0 (s : State) (a : Nat) : (markStale s a).bp0 = s.bp0 := by unfold markStale; dsimp only; split <;> rfl
@[simp] theorem markStale_bp1 (s : State) (a : Nat) : (markStale s a).bp1 = s.bp1 := by unfold markStale; dsimp only; split <;> rfl
@[simp] theorem markStale_icr (s : State) (a : Nat) : (markStale s a).icr = s.icr := by unfold markStale; dsimp only; split <;> rfl
@[simp] theorem markStale_pinLatch (s : State) (a : Nat) : (markStale s a).pinLatch = s.pinLatch := by unfold markStale; dsimp only; split <;> rfl
@[simp] theorem markStale_intrVector (s : State) (a : Nat) : (markStale s a).intrVector = s.intrVector := by unfold markStale; dsimp only; split <;> rfl
@[simp] theorem markStale_satBase (s : State) (a : Nat) : (markStale s a).satBase = s.satBase := by unfold markStale; dsimp only; split <;> rfl
@[simp] theorem markStale_prcbBase (s : State) (a : Nat) : (markStale s a).prcbBase = s.prcbBase := by unfold markStale; dsimp only; split <;> rfl
@[simp] theorem markStale_sysprocBase (s : State) (a : Nat) : (markStale s a).sysprocBase = s.sysprocBase := by unfold markStale; dsimp only; split <;> rfl
@[simp] theorem markStale_traceBase (s : State) (a : Nat) : (markStale s a).traceBase = s.traceBase := by unfold markStale; dsimp only; split <;> rfl
@[simp] theorem markStale_intTable (s : State) (a : Nat) : (markStale s a).intTable = s.intTable := by unfold markStale; dsimp only; split <;> rfl
@[simp] theorem markStale_intStack (s : State) (a : Nat) : (markStale s a).intStack = s.intStack := by unfold markStale; dsimp only; split <;> rfl
@[simp] theorem markStale_faultTable (s : State) (a : Nat) : (markStale s a).faultTable = s.faultTable := by unfold markStale; dsimp only; split <;> rfl
@[simp] theorem markStale_status (s : State) (a : Nat) : (markStale s a).status = s.status := by unfold markStale; dsimp only; split <;> rfl
@[simp] theorem markStale_failPin (s : State) (a : Nat) : (markStale s a).failPin = s.failPin := by unfold markStale; dsimp only; split <;> rfl
@[simp] theorem markStale_mem (s : State) (a : Nat) : (markStale s a).mem = s.mem := by unfold markStale; dsimp only; split <;> rfl
@[simp] theorem markStale_lastIp (s : State) (a : Nat) : (markStale s a).lastIp = s.lastIp := by unfold markStale; dsimp only; split <;> rfl
@[simp] theorem markStale_teHold (s : State) (a : Nat) : (markStale s a).teHold = s.teHold := by unfold markStale; dsimp only; split <;> rfl
@[simp] theorem markStale_teOld (s : State) (a : Nat) : (markStale s a).teOld = s.teOld := by unfold markStale; dsimp only; split <;> rfl
@[simp] theorem markStale_executed (s : State) (a : Nat) : (markStale s a).executed = s.executed := by unfold markStale; dsimp only; split <;> rfl
@[simp] theorem markStale_draws (s : State) (a : Nat) : (markStale s a).draws = s.draws := by unfold markStale; dsimp only; split <;> rfl
@[simp] theorem markStale_params (s : State) (a : Nat) : (markStale s a).params = s.params := by unfold markStale; dsimp only; split <;> rfl

/-! ### `putWord` -/

@[simp] theorem putWord_globals (s : State) (a v : Word) : (putWord s a v).globals = s.globals := by simp [putWord]
@[simp] theorem putWord_cur (s : State) (a v : Word) : (putWord s a v).cur = s.cur := by simp [putWord]
@[simp] theorem putWord_older (s : State) (a v : Word) : (putWord s a v).older = s.older := by simp [putWord]
@[simp] theorem putWord_fp (s : State) (a v : Word) : (putWord s a v).fp = s.fp := by simp [putWord]
@[simp] theorem putWord_ip (s : State) (a v : Word) : (putWord s a v).ip = s.ip := by simp [putWord]
@[simp] theorem putWord_ac (s : State) (a v : Word) : (putWord s a v).ac = s.ac := by simp [putWord]
@[simp] theorem putWord_pc (s : State) (a v : Word) : (putWord s a v).pc = s.pc := by simp [putWord]
@[simp] theorem putWord_tc (s : State) (a v : Word) : (putWord s a v).tc = s.tc := by simp [putWord]
@[simp] theorem putWord_bp0 (s : State) (a v : Word) : (putWord s a v).bp0 = s.bp0 := by simp [putWord]
@[simp] theorem putWord_bp1 (s : State) (a v : Word) : (putWord s a v).bp1 = s.bp1 := by simp [putWord]
@[simp] theorem putWord_icr (s : State) (a v : Word) : (putWord s a v).icr = s.icr := by simp [putWord]
@[simp] theorem putWord_pinLatch (s : State) (a v : Word) : (putWord s a v).pinLatch = s.pinLatch := by simp [putWord]
@[simp] theorem putWord_intrVector (s : State) (a v : Word) : (putWord s a v).intrVector = s.intrVector := by simp [putWord]
@[simp] theorem putWord_satBase (s : State) (a v : Word) : (putWord s a v).satBase = s.satBase := by simp [putWord]
@[simp] theorem putWord_prcbBase (s : State) (a v : Word) : (putWord s a v).prcbBase = s.prcbBase := by simp [putWord]
@[simp] theorem putWord_sysprocBase (s : State) (a v : Word) : (putWord s a v).sysprocBase = s.sysprocBase := by simp [putWord]
@[simp] theorem putWord_traceBase (s : State) (a v : Word) : (putWord s a v).traceBase = s.traceBase := by simp [putWord]
@[simp] theorem putWord_intTable (s : State) (a v : Word) : (putWord s a v).intTable = s.intTable := by simp [putWord]
@[simp] theorem putWord_intStack (s : State) (a v : Word) : (putWord s a v).intStack = s.intStack := by simp [putWord]
@[simp] theorem putWord_faultTable (s : State) (a v : Word) : (putWord s a v).faultTable = s.faultTable := by simp [putWord]
@[simp] theorem putWord_status (s : State) (a v : Word) : (putWord s a v).status = s.status := by simp [putWord]
@[simp] theorem putWord_failPin (s : State) (a v : Word) : (putWord s a v).failPin = s.failPin := by simp [putWord]
@[simp] theorem putWord_mem (s : State) (a v : Word) : (putWord s a v).mem = memWriteWord s.params.byteOrder s.mem a.toNat v := by simp [putWord]
@[simp] theorem putWord_lastIp (s : State) (a v : Word) : (putWord s a v).lastIp = s.lastIp := by simp [putWord]
@[simp] theorem putWord_teHold (s : State) (a v : Word) : (putWord s a v).teHold = s.teHold := by simp [putWord]
@[simp] theorem putWord_teOld (s : State) (a v : Word) : (putWord s a v).teOld = s.teOld := by simp [putWord]
@[simp] theorem putWord_executed (s : State) (a v : Word) : (putWord s a v).executed = s.executed := by simp [putWord]
@[simp] theorem putWord_draws (s : State) (a v : Word) : (putWord s a v).draws = s.draws := by simp [putWord]
@[simp] theorem putWord_params (s : State) (a v : Word) : (putWord s a v).params = s.params := by simp [putWord]

/-! ### `signal` -/

@[simp] theorem signal_globals (e : TraceEvent) (s : State) : (signal e s).globals = s.globals := by unfold signal; dsimp only; split <;> rfl
@[simp] theorem signal_cur (e : TraceEvent) (s : State) : (signal e s).cur = s.cur := by unfold signal; dsimp only; split <;> rfl
@[simp] theorem signal_older (e : TraceEvent) (s : State) : (signal e s).older = s.older := by unfold signal; dsimp only; split <;> rfl
@[simp] theorem signal_fp (e : TraceEvent) (s : State) : (signal e s).fp = s.fp := by unfold signal; dsimp only; split <;> rfl
@[simp] theorem signal_ip (e : TraceEvent) (s : State) : (signal e s).ip = s.ip := by unfold signal; dsimp only; split <;> rfl
@[simp] theorem signal_ac (e : TraceEvent) (s : State) : (signal e s).ac = s.ac := by unfold signal; dsimp only; split <;> rfl
@[simp] theorem signal_bp0 (e : TraceEvent) (s : State) : (signal e s).bp0 = s.bp0 := by unfold signal; dsimp only; split <;> rfl
@[simp] theorem signal_bp1 (e : TraceEvent) (s : State) : (signal e s).bp1 = s.bp1 := by unfold signal; dsimp only; split <;> rfl
@[simp] theorem signal_icr (e : TraceEvent) (s : State) : (signal e s).icr = s.icr := by unfold signal; dsimp only; split <;> rfl
@[simp] theorem signal_pinLatch (e : TraceEvent) (s : State) : (signal e s).pinLatch = s.pinLatch := by unfold signal; dsimp only; split <;> rfl
@[simp] theorem signal_intrVector (e : TraceEvent) (s : State) : (signal e s).intrVector = s.intrVector := by unfold signal; dsimp only; split <;> rfl
@[simp] theorem signal_satBase (e : TraceEvent) (s : State) : (signal e s).satBase = s.satBase := by unfold signal; dsimp only; split <;> rfl
@[simp] theorem signal_prcbBase (e : TraceEvent) (s : State) : (signal e s).prcbBase = s.prcbBase := by unfold signal; dsimp only; split <;> rfl
@[simp] theorem signal_sysprocBase (e : TraceEvent) (s : State) : (signal e s).sysprocBase = s.sysprocBase := by unfold signal; dsimp only; split <;> rfl
@[simp] theorem signal_traceBase (e : TraceEvent) (s : State) : (signal e s).traceBase = s.traceBase := by unfold signal; dsimp only; split <;> rfl
@[simp] theorem signal_intTable (e : TraceEvent) (s : State) : (signal e s).intTable = s.intTable := by unfold signal; dsimp only; split <;> rfl
@[simp] theorem signal_intStack (e : TraceEvent) (s : State) : (signal e s).intStack = s.intStack := by unfold signal; dsimp only; split <;> rfl
@[simp] theorem signal_faultTable (e : TraceEvent) (s : State) : (signal e s).faultTable = s.faultTable := by unfold signal; dsimp only; split <;> rfl
@[simp] theorem signal_status (e : TraceEvent) (s : State) : (signal e s).status = s.status := by unfold signal; dsimp only; split <;> rfl
@[simp] theorem signal_failPin (e : TraceEvent) (s : State) : (signal e s).failPin = s.failPin := by unfold signal; dsimp only; split <;> rfl
@[simp] theorem signal_mem (e : TraceEvent) (s : State) : (signal e s).mem = s.mem := by unfold signal; dsimp only; split <;> rfl
@[simp] theorem signal_lastIp (e : TraceEvent) (s : State) : (signal e s).lastIp = s.lastIp := by unfold signal; dsimp only; split <;> rfl
@[simp] theorem signal_teHold (e : TraceEvent) (s : State) : (signal e s).teHold = s.teHold := by unfold signal; dsimp only; split <;> rfl
@[simp] theorem signal_teOld (e : TraceEvent) (s : State) : (signal e s).teOld = s.teOld := by unfold signal; dsimp only; split <;> rfl
@[simp] theorem signal_executed (e : TraceEvent) (s : State) : (signal e s).executed = s.executed := by unfold signal; dsimp only; split <;> rfl
@[simp] theorem signal_stale (e : TraceEvent) (s : State) : (signal e s).stale = s.stale := by unfold signal; dsimp only; split <;> rfl
@[simp] theorem signal_draws (e : TraceEvent) (s : State) : (signal e s).draws = s.draws := by unfold signal; dsimp only; split <;> rfl
@[simp] theorem signal_params (e : TraceEvent) (s : State) : (signal e s).params = s.params := by unfold signal; dsimp only; split <;> rfl

/-! ### `signalIfEnabled` -/

@[simp] theorem signalIfEnabled_globals (e : TraceEvent) (s : State) : (signalIfEnabled e s).globals = s.globals := by unfold signalIfEnabled; split <;> simp
@[simp] theorem signalIfEnabled_cur (e : TraceEvent) (s : State) : (signalIfEnabled e s).cur = s.cur := by unfold signalIfEnabled; split <;> simp
@[simp] theorem signalIfEnabled_older (e : TraceEvent) (s : State) : (signalIfEnabled e s).older = s.older := by unfold signalIfEnabled; split <;> simp
@[simp] theorem signalIfEnabled_fp (e : TraceEvent) (s : State) : (signalIfEnabled e s).fp = s.fp := by unfold signalIfEnabled; split <;> simp
@[simp] theorem signalIfEnabled_ip (e : TraceEvent) (s : State) : (signalIfEnabled e s).ip = s.ip := by unfold signalIfEnabled; split <;> simp
@[simp] theorem signalIfEnabled_ac (e : TraceEvent) (s : State) : (signalIfEnabled e s).ac = s.ac := by unfold signalIfEnabled; split <;> simp
@[simp] theorem signalIfEnabled_bp0 (e : TraceEvent) (s : State) : (signalIfEnabled e s).bp0 = s.bp0 := by unfold signalIfEnabled; split <;> simp
@[simp] theorem signalIfEnabled_bp1 (e : TraceEvent) (s : State) : (signalIfEnabled e s).bp1 = s.bp1 := by unfold signalIfEnabled; split <;> simp
@[simp] theorem signalIfEnabled_icr (e : TraceEvent) (s : State) : (signalIfEnabled e s).icr = s.icr := by unfold signalIfEnabled; split <;> simp
@[simp] theorem signalIfEnabled_pinLatch (e : TraceEvent) (s : State) : (signalIfEnabled e s).pinLatch = s.pinLatch := by unfold signalIfEnabled; split <;> simp
@[simp] theorem signalIfEnabled_intrVector (e : TraceEvent) (s : State) : (signalIfEnabled e s).intrVector = s.intrVector := by unfold signalIfEnabled; split <;> simp
@[simp] theorem signalIfEnabled_satBase (e : TraceEvent) (s : State) : (signalIfEnabled e s).satBase = s.satBase := by unfold signalIfEnabled; split <;> simp
@[simp] theorem signalIfEnabled_prcbBase (e : TraceEvent) (s : State) : (signalIfEnabled e s).prcbBase = s.prcbBase := by unfold signalIfEnabled; split <;> simp
@[simp] theorem signalIfEnabled_sysprocBase (e : TraceEvent) (s : State) : (signalIfEnabled e s).sysprocBase = s.sysprocBase := by unfold signalIfEnabled; split <;> simp
@[simp] theorem signalIfEnabled_traceBase (e : TraceEvent) (s : State) : (signalIfEnabled e s).traceBase = s.traceBase := by unfold signalIfEnabled; split <;> simp
@[simp] theorem signalIfEnabled_intTable (e : TraceEvent) (s : State) : (signalIfEnabled e s).intTable = s.intTable := by unfold signalIfEnabled; split <;> simp
@[simp] theorem signalIfEnabled_intStack (e : TraceEvent) (s : State) : (signalIfEnabled e s).intStack = s.intStack := by unfold signalIfEnabled; split <;> simp
@[simp] theorem signalIfEnabled_faultTable (e : TraceEvent) (s : State) : (signalIfEnabled e s).faultTable = s.faultTable := by unfold signalIfEnabled; split <;> simp
@[simp] theorem signalIfEnabled_status (e : TraceEvent) (s : State) : (signalIfEnabled e s).status = s.status := by unfold signalIfEnabled; split <;> simp
@[simp] theorem signalIfEnabled_failPin (e : TraceEvent) (s : State) : (signalIfEnabled e s).failPin = s.failPin := by unfold signalIfEnabled; split <;> simp
@[simp] theorem signalIfEnabled_mem (e : TraceEvent) (s : State) : (signalIfEnabled e s).mem = s.mem := by unfold signalIfEnabled; split <;> simp
@[simp] theorem signalIfEnabled_lastIp (e : TraceEvent) (s : State) : (signalIfEnabled e s).lastIp = s.lastIp := by unfold signalIfEnabled; split <;> simp
@[simp] theorem signalIfEnabled_teHold (e : TraceEvent) (s : State) : (signalIfEnabled e s).teHold = s.teHold := by unfold signalIfEnabled; split <;> simp
@[simp] theorem signalIfEnabled_teOld (e : TraceEvent) (s : State) : (signalIfEnabled e s).teOld = s.teOld := by unfold signalIfEnabled; split <;> simp
@[simp] theorem signalIfEnabled_executed (e : TraceEvent) (s : State) : (signalIfEnabled e s).executed = s.executed := by unfold signalIfEnabled; split <;> simp
@[simp] theorem signalIfEnabled_stale (e : TraceEvent) (s : State) : (signalIfEnabled e s).stale = s.stale := by unfold signalIfEnabled; split <;> simp
@[simp] theorem signalIfEnabled_draws (e : TraceEvent) (s : State) : (signalIfEnabled e s).draws = s.draws := by unfold signalIfEnabled; split <;> simp
@[simp] theorem signalIfEnabled_params (e : TraceEvent) (s : State) : (signalIfEnabled e s).params = s.params := by unfold signalIfEnabled; split <;> simp

/-! ### `commonEvents` -/

@[simp] theorem commonEvents_globals (a : Word) (s : State) : (commonEvents a s).globals = s.globals := by unfold commonEvents signalBreakpoint; split <;> simp
@[simp] theorem commonEvents_cur (a : Word) (s : State) : (commonEvents a s).cur = s.cur := by unfold commonEvents signalBreakpoint; split <;> simp
@[simp] theorem commonEvents_older (a : Word) (s : State) : (commonEvents a s).older = s.older := by unfold commonEvents signalBreakpoint; split <;> simp
@[simp] theorem commonEvents_fp (a : Word) (s : State) : (commonEvents a s).fp = s.fp := by unfold commonEvents signalBreakpoint; split <;> simp
@[simp] theorem commonEvents_ip (a : Word) (s : State) : (commonEvents a s).ip = s.ip := by unfold commonEvents signalBreakpoint; split <;> simp
@[simp] theorem commonEvents_ac (a : Word) (s : State) : (commonEvents a s).ac = s.ac := by unfold commonEvents signalBreakpoint; split <;> simp
@[simp] theorem commonEvents_bp0 (a : Word) (s : State) : (commonEvents a s).bp0 = s.bp0 := by unfold commonEvents signalBreakpoint; split <;> simp
@[simp] theorem commonEvents_bp1 (a : Word) (s : State) : (commonEvents a s).bp1 = s.bp1 := by unfold commonEvents signalBreakpoint; split <;> simp
@[simp] theorem commonEvents_icr (a : Word) (s : State) : (commonEvents a s).icr = s.icr := by unfold commonEvents signalBreakpoint; split <;> simp
@[simp] theorem commonEvents_pinLatch (a : Word) (s : State) : (commonEvents a s).pinLatch = s.pinLatch := by unfold commonEvents signalBreakpoint; split <;> simp
@[simp] theorem commonEvents_intrVector (a : Word) (s : State) : (commonEvents a s).intrVector = s.intrVector := by unfold commonEvents signalBreakpoint; split <;> simp
@[simp] theorem commonEvents_satBase (a : Word) (s : State) : (commonEvents a s).satBase = s.satBase := by unfold commonEvents signalBreakpoint; split <;> simp
@[simp] theorem commonEvents_prcbBase (a : Word) (s : State) : (commonEvents a s).prcbBase = s.prcbBase := by unfold commonEvents signalBreakpoint; split <;> simp
@[simp] theorem commonEvents_sysprocBase (a : Word) (s : State) : (commonEvents a s).sysprocBase = s.sysprocBase := by unfold commonEvents signalBreakpoint; split <;> simp
@[simp] theorem commonEvents_traceBase (a : Word) (s : State) : (commonEvents a s).traceBase = s.traceBase := by unfold commonEvents signalBreakpoint; split <;> simp
@[simp] theorem commonEvents_intTable (a : Word) (s : State) : (commonEvents a s).intTable = s.intTable := by unfold commonEvents signalBreakpoint; split <;> simp
@[simp] theorem commonEvents_intStack (a : Word) (s : State) : (commonEvents a s).intStack = s.intStack := by unfold commonEvents signalBreakpoint; split <;> simp
@[simp] theorem commonEvents_faultTable (a : Word) (s : State) : (commonEvents a s).faultTable = s.faultTable := by unfold commonEvents signalBreakpoint; split <;> simp
@[simp] theorem commonEvents_status (a : Word) (s : State) : (commonEvents a s).status = s.status := by unfold commonEvents signalBreakpoint; split <;> simp
@[simp] theorem commonEvents_failPin (a : Word) (s : State) : (commonEvents a s).failPin = s.failPin := by unfold commonEvents signalBreakpoint; split <;> simp
@[simp] theorem commonEvents_mem (a : Word) (s : State) : (commonEvents a s).mem = s.mem := by unfold commonEvents signalBreakpoint; split <;> simp
@[simp] theorem commonEvents_lastIp (a : Word) (s : State) : (commonEvents a s).lastIp = s.lastIp := by unfold commonEvents signalBreakpoint; split <;> simp
@[simp] theorem commonEvents_teHold (a : Word) (s : State) : (commonEvents a s).teHold = s.teHold := by unfold commonEvents signalBreakpoint; split <;> simp
@[simp] theorem commonEvents_teOld (a : Word) (s : State) : (commonEvents a s).teOld = s.teOld := by unfold commonEvents signalBreakpoint; split <;> simp
@[simp] theorem commonEvents_executed (a : Word) (s : State) : (commonEvents a s).executed = s.executed := by unfold commonEvents signalBreakpoint; split <;> simp
@[simp] theorem commonEvents_stale (a : Word) (s : State) : (commonEvents a s).stale = s.stale := by unfold commonEvents signalBreakpoint; split <;> simp
@[simp] theorem commonEvents_draws (a : Word) (s : State) : (commonEvents a s).draws = s.draws := by unfold commonEvents signalBreakpoint; split <;> simp
@[simp] theorem commonEvents_params (a : Word) (s : State) : (commonEvents a s).params = s.params := by unfold commonEvents signalBreakpoint; split <;> simp

end Sys2Proof.Machine
end

