-- ==== Sys2Proof/Laws/Registers.lean ====
section
/-! SUPPORT. Registers: a read after a write, and which updates leave every register alone. -/
namespace Sys2Proof.Machine

/-- A register number is its set and its index. -/
theorem reg_eq_iff (n m : Reg) : n = m ↔ isGlobal n = isGlobal m ∧ (regIndex n).toNat = (regIndex m).toNat := by
  revert n m
  decide +kernel

/-- A register after a register is written (R12, R124). -/
theorem getReg_setReg (s : State) (n m : Reg) (v : Word) :
    getReg (setReg s n v) m = if m = n then v else getReg s m := by
  by_cases h : m = n
  · subst h
    unfold getReg setReg
    cases isGlobal m <;> simp
  · rw [if_neg h]
    have h' := mt (reg_eq_iff m n).mpr h
    unfold getReg setReg
    cases hm : isGlobal m <;> cases hn : isGlobal n <;> simp_all
    all_goals exact Vector.getElem_set_ne _ _ (fun e => h' e.symm)

@[simp] theorem getReg_setReg_same (s : State) (n : Reg) (v : Word) : getReg (setReg s n v) n = v := by
  simp [getReg_setReg]

/-- A floating-point register after one is written (R26). -/
theorem getFp_setFp (s : State) (k j : BitVec 2) (v : Ext) :
    getFp (setFp s k v) j = if j = k then v else getFp s j := by
  by_cases h : j = k
  · subst h; simp [getFp]
  · rw [if_neg h]
    have h' : k.toNat ≠ j.toNat := fun e => h (BitVec.eq_of_toNat_eq e.symm)
    exact Vector.getElem_set_ne k.isLt j.isLt h'

/-- States with the same two register sets have the same registers. -/
theorem getReg_congr {s t : State} (hg : t.globals = s.globals) (hc : t.cur = s.cur) (n : Reg) :
    getReg t n = getReg s n := by
  unfold getReg
  split <;> simp [hg, hc]

theorem getFp_congr {s t : State} (h : t.fp = s.fp) (k : BitVec 2) : getFp t k = getFp s k := by
  unfold getFp
  simp [h]

@[simp] theorem getReg_setCc (s : State) (v : BitVec 3) (n : Reg) : getReg (setCc s v) n = getReg s n := rfl
@[simp] theorem getReg_setAs (s : State) (v : BitVec 4) (n : Reg) : getReg (setAs s v) n = getReg s n := rfl
@[simp] theorem getReg_setAcFlag (s : State) (i : Nat) (n : Reg) : getReg (setAcFlag s i) n = getReg s n := rfl
@[simp] theorem getReg_setPc (s : State) (w : Word) (n : Reg) : getReg (setPc s w) n = getReg s n := rfl
@[simp] theorem getReg_setTe (s : State) (b : Bool) (n : Reg) : getReg (setTe s b) n = getReg s n := rfl
@[simp] theorem getReg_setEm (s : State) (b : Bool) (n : Reg) : getReg (setEm s b) n = getReg s n := rfl
@[simp] theorem getReg_setTfp (s : State) (b : Bool) (n : Reg) : getReg (setTfp s b) n = getReg s n := rfl
@[simp] theorem getReg_clearEvents (s : State) (n : Reg) : getReg (clearEvents s) n = getReg s n := rfl
@[simp] theorem getReg_setFp (s : State) (k : BitVec 2) (v : Ext) (n : Reg) :
    getReg (setFp s k v) n = getReg s n := rfl
@[simp] theorem getReg_drawn (s : State) (k : Nat) (n : Reg) : getReg (drawn s k) n = getReg s n := rfl
@[simp] theorem getReg_markExecuted (s : State) (a : Nat) (n : Reg) : getReg (markExecuted s a) n = getReg s n := rfl
@[simp] theorem getReg_retire (a : Word) (s : State) (n : Reg) : getReg (retire a s) n = getReg s n := rfl
@[simp] theorem getReg_markStale (s : State) (a : Nat) (n : Reg) : getReg (markStale s a) n = getReg s n :=
  getReg_congr (by simp) (by simp) n
@[simp] theorem getReg_putWord (s : State) (a v : Word) (n : Reg) : getReg (putWord s a v) n = getReg s n :=
  getReg_congr (by simp) (by simp) n
@[simp] theorem getReg_signal (e : TraceEvent) (s : State) (n : Reg) : getReg (signal e s) n = getReg s n :=
  getReg_congr (by simp) (by simp) n
@[simp] theorem getReg_signalIfEnabled (e : TraceEvent) (s : State) (n : Reg) :
    getReg (signalIfEnabled e s) n = getReg s n :=
  getReg_congr (by simp) (by simp) n
@[simp] theorem getReg_commonEvents (a : Word) (s : State) (n : Reg) : getReg (commonEvents a s) n = getReg s n :=
  getReg_congr (by simp) (by simp) n
@[simp] theorem getReg_withIp (s : State) (a : Word) (n : Reg) : getReg { s with ip := a } n = getReg s n := rfl
@[simp] theorem getReg_withAc (s : State) (a : Word) (n : Reg) : getReg { s with ac := a } n = getReg s n := rfl
@[simp] theorem getReg_withTc (s : State) (a : Word) (n : Reg) : getReg { s with tc := a } n = getReg s n := rfl
@[simp] theorem getReg_withPc (s : State) (a : Word) (n : Reg) : getReg { s with pc := a } n = getReg s n := rfl
@[simp] theorem getReg_withMem (s : State) (m : Memory) (n : Reg) : getReg { s with mem := m } n = getReg s n := rfl

@[simp] theorem getFp_setReg (s : State) (n : Reg) (v : Word) (k : BitVec 2) : getFp (setReg s n v) k = getFp s k :=
  getFp_congr (by simp) k
@[simp] theorem getFp_setAcFlag (s : State) (i : Nat) (k : BitVec 2) : getFp (setAcFlag s i) k = getFp s k := rfl
@[simp] theorem getFp_setAs (s : State) (v : BitVec 4) (k : BitVec 2) : getFp (setAs s v) k = getFp s k := rfl
@[simp] theorem getFp_drawn (s : State) (n : Nat) (k : BitVec 2) : getFp (drawn s n) k = getFp s k := rfl
@[simp] theorem getFp_retire (a : Word) (s : State) (k : BitVec 2) : getFp (retire a s) k = getFp s k := rfl
@[simp] theorem getFp_commonEvents (a : Word) (s : State) (k : BitVec 2) : getFp (commonEvents a s) k = getFp s k :=
  getFp_congr (by simp) k
@[simp] theorem getFp_withIp (s : State) (a : Word) (k : BitVec 2) : getFp { s with ip := a } k = getFp s k := rfl

/-- `n + 1` names another register than `n`. -/
theorem reg_succ_ne (n : Reg) : n + 1#5 ≠ n := by
  revert n
  decide

/-- A register after a long value is written (R12). -/
theorem getReg_setRegLong (s : State) (n m : Reg) (v : BitVec 64) :
    getReg (setRegLong s n v) m =
      if m = n + 1#5 then v.extractLsb' 32 32 else if m = n then v.extractLsb' 0 32 else getReg s m := by
  unfold setRegLong
  rw [getReg_setReg, getReg_setReg]

end Sys2Proof.Machine
end

