-- ==== Sys2Proof/Laws/Finish.lean ====
section
/-! SUPPORT. What the end of an instruction comes to, and what an event changes. -/
namespace Sys2Proof.Machine

theorem finish_done (s u : State) :
    finish s (.ok (.done u)) = .next (retire s.ip (commonEvents s.ip u)) := rfl

theorem finish_next4 (s u : State) :
    finish s (.ok (next4 u)) = .next (retire s.ip (commonEvents s.ip { u with ip := u.ip + 4#32 })) := rfl

theorem finish_early (s : State) (f : FaultInfo) : finish s (.ok (.early f)) = toOutcome (deliverFault f s) := rfl

theorem finish_late (s u : State) (f : FaultInfo) :
    finish s (.ok (.late u f)) = toOutcome (deliverFault f (retire s.ip (commonEvents s.ip u))) := rfl

theorem finish_refused (s : State) (r : Refusal) : finish s (.error (.refused r)) = .refused r := rfl

/-- An event changes only its flag in TC and the trace-fault-pending flag in PC (R547). -/
theorem signal_eq (e : TraceEvent) (s : State) :
    signal e s = { s with
      tc := setBit s.tc (16 + modeBit e) true, pc := if seenTe s then setBit s.pc 10 true else s.pc } := by
  unfold signal
  show (if seenTe s = true then _ else _) = _
  split <;> simp [setTfp]

/-- An event of an enabled mode (R540 to R547). -/
theorem signalIfEnabled_eq (e : TraceEvent) (s : State) :
    signalIfEnabled e s = { s with
      tc := if traceMode s e then setBit s.tc (16 + modeBit e) true else s.tc
      pc := if traceMode s e && seenTe s then setBit s.pc 10 true else s.pc } := by
  unfold signalIfEnabled
  cases h : traceMode s e
  · simp
  · rw [signal_eq]; simp

/-- The bits of TC and PC after an event of an enabled mode. -/
theorem signalIfEnabled_bits (e : TraceEvent) (s : State) :
    (∀ i, getBit (signalIfEnabled e s).tc i = (getBit s.tc i || (traceMode s e && i == 16 + modeBit e))) ∧
    (∀ i, getBit (signalIfEnabled e s).pc i = (getBit s.pc i || (traceMode s e && seenTe s && i == 10))) := by
  rw [signalIfEnabled_eq]
  constructor
  · intro i
    have : 16 + modeBit e < 32 := by cases e <;> decide
    cases h : traceMode s e
    · simp
    · simp only [if_true, getBit_setBit, Bool.true_and]
      by_cases h2 : i = 16 + modeBit e
      · subst h2; simp [this]
      · simp [h2]
  · intro i
    cases h : traceMode s e && seenTe s
    · simp
    · simp only [if_true, getBit_setBit, Bool.true_and]
      by_cases h2 : i = 10
      · subst h2; simp
      · simp [h2]

/-- The events of a completed instruction change only TC and PC. -/
theorem commonEvents_eq (a : Word) (s : State) :
    ∃ tc pc, commonEvents a s = { s with tc := tc, pc := pc } := by
  unfold commonEvents signalBreakpoint
  split
  · exact ⟨_, _, by rw [signalIfEnabled_eq, signalIfEnabled_eq]⟩
  · exact ⟨_, _, by rw [signalIfEnabled_eq]⟩

end Sys2Proof.Machine
end

