-- ==== Sys2Proof/Laws/Encoding.lean ====
section
/-! SUPPORT. The fields of encoded words, format by format, and the decoder on each operand of an encoded word
(30_encoding.md). -/
namespace Sys2Proof

/-! ### REG (R123) -/

section
variable (op : BitVec 12) (d s2 s1 : Bool × BitVec 5)

/-- The bits of a REG word, from the right. -/
theorem getLsbD_regWord {i : Nat} (hi : i < 32) : (regWord op d s2 s1).getLsbD i =
    if i < 5 then s1.2.getLsbD i
    else if i < 7 then false
    else if i < 11 then op.getLsbD (i - 7)
    else if i = 11 then s1.1
    else if i = 12 then s2.1
    else if i = 13 then d.1
    else if i < 19 then s2.2.getLsbD (i - 14)
    else if i < 24 then d.2.getLsbD (i - 19)
    else op.getLsbD (i - 20) := by
  have h : (regWord op d s2 s1).getLsbD i = (op.extractLsb' 4 8 ++ d.2 ++ s2.2 ++ BitVec.ofBool d.1 ++
    BitVec.ofBool s2.1 ++ BitVec.ofBool s1.1 ++ op.extractLsb' 0 4 ++ 0#2 ++ s1.2).getLsbD i := rfl
  rw [h]
  simp only [BitVec.getLsbD_append, BitVec.getLsbD_extractLsb', BitVec.getLsbD_zero, BitVec.getLsbD_ofBool]
  interval_cases i <;> simp

@[simp] theorem op8Field_regWord : op8Field (regWord op d s2 s1) = op.extractLsb' 4 8 := by
  apply BitVec.eq_of_getLsbD_eq; intro i hi
  simp only [op8Field, BitVec.getLsbD_extractLsb']
  interval_cases i <;> (rw [getLsbD_regWord (hi := by decide)]; simp)

@[simp] theorem op4Field_regWord : op4Field (regWord op d s2 s1) = op.extractLsb' 0 4 := by
  apply BitVec.eq_of_getLsbD_eq; intro i hi
  simp only [op4Field, BitVec.getLsbD_extractLsb']
  interval_cases i <;> (rw [getLsbD_regWord (hi := by decide)]; simp)

@[simp] theorem srcdstField_regWord : srcdstField (regWord op d s2 s1) = d.2 := by
  apply BitVec.eq_of_getLsbD_eq; intro i hi
  simp only [srcdstField, BitVec.getLsbD_extractLsb']
  interval_cases i <;> (rw [getLsbD_regWord (hi := by decide)]; simp)

@[simp] theorem src2Field_regWord : src2Field (regWord op d s2 s1) = s2.2 := by
  apply BitVec.eq_of_getLsbD_eq; intro i hi
  simp only [src2Field, BitVec.getLsbD_extractLsb']
  interval_cases i <;> (rw [getLsbD_regWord (hi := by decide)]; simp)

@[simp] theorem src1Field_regWord : src1Field (regWord op d s2 s1) = s1.2 := by
  apply BitVec.eq_of_getLsbD_eq; intro i hi
  simp only [src1Field, BitVec.getLsbD_extractLsb']
  interval_cases i <;> (rw [getLsbD_regWord (hi := by decide)]; simp)

@[simp] theorem rsvField_regWord : rsvField (regWord op d s2 s1) = 0#2 := by
  apply BitVec.eq_of_getLsbD_eq; intro i hi
  simp only [rsvField, BitVec.getLsbD_extractLsb']
  interval_cases i <;> (rw [getLsbD_regWord (hi := by decide)]; simp)

@[simp] theorem m3Field_regWord : m3Field (regWord op d s2 s1) = d.1 := by
  unfold m3Field; rw [getLsbD_regWord (hi := by decide)]; simp

@[simp] theorem m2Field_regWord : m2Field (regWord op d s2 s1) = s2.1 := by
  unfold m2Field; rw [getLsbD_regWord (hi := by decide)]; simp

@[simp] theorem m1Field_regWord : m1Field (regWord op d s2 s1) = s1.1 := by
  unfold m1Field; rw [getLsbD_regWord (hi := by decide)]; simp

@[simp] theorem op12Field_regWord : op12Field (regWord op d s2 s1) = op := by
  unfold op12Field
  rw [op8Field_regWord, op4Field_regWord]
  apply BitVec.eq_of_getLsbD_eq; intro i hi
  simp only [BitVec.getLsbD_append, BitVec.getLsbD_extractLsb']
  interval_cases i <;> simp

end

/-! ### CTRL (R127) -/

section
variable (op : BitVec 8) (t : CtrlDisp)

theorem getLsbD_encodeCtrl {i : Nat} (hi : i < 32) : (encodeCtrl op t).getLsbD i =
    if i < 2 then false else if i < 24 then t.getLsbD (i - 2) else op.getLsbD (i - 24) := by
  have h : (encodeCtrl op t).getLsbD i = (op ++ t ++ 0#2).getLsbD i := rfl
  rw [h]
  simp only [BitVec.getLsbD_append, BitVec.getLsbD_zero]
  interval_cases i <;> simp

@[simp] theorem op8Field_encodeCtrl : op8Field (encodeCtrl op t) = op := by
  apply BitVec.eq_of_getLsbD_eq; intro i hi
  simp only [op8Field, BitVec.getLsbD_extractLsb']
  interval_cases i <;> (rw [getLsbD_encodeCtrl (hi := by decide)]; simp)

@[simp] theorem ctrlField_encodeCtrl : ctrlField (encodeCtrl op t) = t := by
  apply BitVec.eq_of_getLsbD_eq; intro i hi
  simp only [ctrlField, BitVec.getLsbD_extractLsb']
  interval_cases i <;> (rw [getLsbD_encodeCtrl (hi := by decide)]; simp)

end

/-! ### MEMB (R129) -/

section
variable (op : BitVec 8) (r base : BitVec 5) (mode : BitVec 4) (scale : BitVec 3) (index : BitVec 5)

theorem getLsbD_membWord {i : Nat} (hi : i < 32) : (membWord op r base mode scale index).getLsbD i =
    if i < 5 then index.getLsbD i
    else if i < 7 then false
    else if i < 10 then scale.getLsbD (i - 7)
    else if i < 14 then mode.getLsbD (i - 10)
    else if i < 19 then base.getLsbD (i - 14)
    else if i < 24 then r.getLsbD (i - 19)
    else op.getLsbD (i - 24) := by
  have h : (membWord op r base mode scale index).getLsbD i =
    (op ++ r ++ base ++ mode ++ scale ++ 0#2 ++ index).getLsbD i := rfl
  rw [h]
  simp only [BitVec.getLsbD_append, BitVec.getLsbD_zero]
  interval_cases i <;> simp

@[simp] theorem op8Field_membWord : op8Field (membWord op r base mode scale index) = op := by
  apply BitVec.eq_of_getLsbD_eq; intro i hi
  simp only [op8Field, BitVec.getLsbD_extractLsb']
  interval_cases i <;> (rw [getLsbD_membWord (hi := by decide)]; simp)

@[simp] theorem srcdstField_membWord : srcdstField (membWord op r base mode scale index) = r := by
  apply BitVec.eq_of_getLsbD_eq; intro i hi
  simp only [srcdstField, BitVec.getLsbD_extractLsb']
  interval_cases i <;> (rw [getLsbD_membWord (hi := by decide)]; simp)

@[simp] theorem src2Field_membWord : src2Field (membWord op r base mode scale index) = base := by
  apply BitVec.eq_of_getLsbD_eq; intro i hi
  simp only [src2Field, BitVec.getLsbD_extractLsb']
  interval_cases i <;> (rw [getLsbD_membWord (hi := by decide)]; simp)

@[simp] theorem modeField_membWord : modeField (membWord op r base mode scale index) = mode := by
  apply BitVec.eq_of_getLsbD_eq; intro i hi
  simp only [modeField, BitVec.getLsbD_extractLsb']
  interval_cases i <;> (rw [getLsbD_membWord (hi := by decide)]; simp)

@[simp] theorem scaleField_membWord : scaleField (membWord op r base mode scale index) = scale := by
  apply BitVec.eq_of_getLsbD_eq; intro i hi
  simp only [scaleField, BitVec.getLsbD_extractLsb']
  interval_cases i <;> (rw [getLsbD_membWord (hi := by decide)]; simp)

@[simp] theorem rsvField_membWord : rsvField (membWord op r base mode scale index) = 0#2 := by
  apply BitVec.eq_of_getLsbD_eq; intro i hi
  simp only [rsvField, BitVec.getLsbD_extractLsb']
  interval_cases i <;> (rw [getLsbD_membWord (hi := by decide)]; simp)

@[simp] theorem src1Field_membWord : src1Field (membWord op r base mode scale index) = index := by
  apply BitVec.eq_of_getLsbD_eq; intro i hi
  simp only [src1Field, BitVec.getLsbD_extractLsb']
  interval_cases i <;> (rw [getLsbD_membWord (hi := by decide)]; simp)

@[simp] theorem m2Field_membWord : m2Field (membWord op r base mode scale index) = mode.getLsbD 2 := by
  unfold m2Field; rw [getLsbD_membWord (hi := by decide)]; simp

@[simp] theorem m3Field_membWord : m3Field (membWord op r base mode scale index) = mode.getLsbD 3 := by
  unfold m3Field; rw [getLsbD_membWord (hi := by decide)]; simp

end

/-! ### MEMA (R128) -/

/-- A MEMA word: `op8 srcdst abase md 0 offset`. -/
def memaWord (op : BitVec 8) (r base : BitVec 5) (md : BitVec 2) (off : BitVec 12) : Word :=
  op ++ r ++ base ++ md ++ off

section
variable (op : BitVec 8) (r base : BitVec 5) (md : BitVec 2) (off : BitVec 12)

theorem getLsbD_memaWord {i : Nat} (hi : i < 32) : (memaWord op r base md off).getLsbD i =
    if i < 12 then off.getLsbD i
    else if i < 14 then md.getLsbD (i - 12)
    else if i < 19 then base.getLsbD (i - 14)
    else if i < 24 then r.getLsbD (i - 19)
    else op.getLsbD (i - 24) := by
  have h : (memaWord op r base md off).getLsbD i = (op ++ r ++ base ++ md ++ off).getLsbD i := rfl
  rw [h]
  simp only [BitVec.getLsbD_append]
  interval_cases i <;> simp

@[simp] theorem op8Field_memaWord : op8Field (memaWord op r base md off) = op := by
  apply BitVec.eq_of_getLsbD_eq; intro i hi
  simp only [op8Field, BitVec.getLsbD_extractLsb']
  interval_cases i <;> (rw [getLsbD_memaWord (hi := by decide)]; simp)

@[simp] theorem srcdstField_memaWord : srcdstField (memaWord op r base md off) = r := by
  apply BitVec.eq_of_getLsbD_eq; intro i hi
  simp only [srcdstField, BitVec.getLsbD_extractLsb']
  interval_cases i <;> (rw [getLsbD_memaWord (hi := by decide)]; simp)

@[simp] theorem src2Field_memaWord : src2Field (memaWord op r base md off) = base := by
  apply BitVec.eq_of_getLsbD_eq; intro i hi
  simp only [src2Field, BitVec.getLsbD_extractLsb']
  interval_cases i <;> (rw [getLsbD_memaWord (hi := by decide)]; simp)

@[simp] theorem offsetField_memaWord : offsetField (memaWord op r base md off) = off := by
  apply BitVec.eq_of_getLsbD_eq; intro i hi
  simp only [offsetField, BitVec.getLsbD_extractLsb']
  interval_cases i <;> (rw [getLsbD_memaWord (hi := by decide)]; simp)

@[simp] theorem m2Field_memaWord : m2Field (memaWord op r base md off) = md.getLsbD 0 := by
  unfold m2Field; rw [getLsbD_memaWord (hi := by decide)]; simp

@[simp] theorem m3Field_memaWord : m3Field (memaWord op r base md off) = md.getLsbD 1 := by
  unfold m3Field; rw [getLsbD_memaWord (hi := by decide)]; simp

end

/-! ### Operands -/

@[simp] theorem decodeSrc_encodeSrc (a : Src) : decodeSrc (encodeSrc a).1 (encodeSrc a).2 = a := by
  cases a <;> rfl

@[simp] theorem decodeFpSrc_encodeFpSrc (a : FpSrc) : decodeFpSrc (encodeFpSrc a).1 (encodeFpSrc a).2 = some a := by
  cases a with
  | reg n => rfl
  | fpr k => revert k; decide
  | zero => rfl
  | one => rfl

@[simp] theorem decodeFpDst_encodeFpDst (a : FpDst) : decodeFpDst (encodeFpDst a).1 (encodeFpDst a).2 = some a := by
  cases a with
  | reg n => rfl
  | fpr k => revert k; decide

/-- A word laid out in memory in either byte order and read back (R84). -/
theorem wordOfBytes_byteOfWord (o : ByteOrder) (v : Word) :
    wordOfBytes o (byteOfWord o v 0) (byteOfWord o v 1) (byteOfWord o v 2) (byteOfWord o v 3) = v := by
  have h : ∀ b0 b1 b2 b3 : Byte, wordOfBytes .little b0 b1 b2 b3 = b3 ++ b2 ++ b1 ++ b0 ∧
      wordOfBytes .big b0 b1 b2 b3 = b0 ++ b1 ++ b2 ++ b3 := fun _ _ _ _ => ⟨rfl, rfl⟩
  have e : v = v.extractLsb' 24 8 ++ v.extractLsb' 16 8 ++ v.extractLsb' 8 8 ++ v.extractLsb' 0 8 := by
    apply BitVec.eq_of_getLsbD_eq; intro i hi
    simp only [BitVec.getLsbD_append, BitVec.getLsbD_extractLsb']
    interval_cases i <;> simp
  cases o
  · rw [(h _ _ _ _).1]
    exact e.symm
  · rw [(h _ _ _ _).2]
    exact e.symm

/-! ### The decoder on each shape of encoded REG word -/

@[simp] theorem noRsv_regWord (op : BitVec 12) (d s2 s1 : Bool × BitVec 5) : noRsv (regWord op d s2 s1) = true := by
  simp [noRsv]

/-- The decoder takes a REG word to its opcode table (R122, R123). -/
theorem decode_regWord (op : BitVec 12) (d s2 s1 : Bool × BitVec 5) (w1 : Word) (h1 : 0x58 ≤ (op.extractLsb' 4 8).toNat)
    (h2 : (op.extractLsb' 4 8).toNat < 0x80) : decode (regWord op d s2 s1) w1 = decodeReg (regWord op d s2 s1) := by
  unfold decode
  dsimp only
  rw [op8Field_regWord, if_neg (by omega), if_neg (by omega), if_neg (by omega), if_pos h2]

theorem decodeFpFpFp_encode (op : BitVec 12) (a b : FpSrc) (d : FpDst) (mk : FpSrc → FpSrc → FpDst → Instr) :
    decodeFpFpFp (encodeFpFpFp op a b d) mk = .instr (mk a b d) := by
  simp [decodeFpFpFp, encodeFpFpFp, decoded, fpSrc1, fpSrc2, fpDst]

theorem decodeFpFp_encode (op : BitVec 12) (a : FpSrc) (d : FpDst) (mk : FpSrc → FpDst → Instr) :
    decodeFpFp (encodeFpFp op a d) mk = .instr (mk a d) := by
  simp [decodeFpFp, encodeFpFp, decoded, unused, fpSrc1, fpDst, noSrc2]

theorem decodeFpCmp_encode (op : BitVec 12) (a b : FpSrc) (mk : FpSrc → FpSrc → Instr) :
    decodeFpCmp (encodeFpCmp op a b) mk = .instr (mk a b) := by
  simp [decodeFpCmp, encodeFpCmp, decoded, unused, fpSrc1, fpSrc2, noSrcdst]

theorem decodeFpClass_encode (op : BitVec 12) (a : FpSrc) (mk : FpSrc → Instr) :
    decodeFpClass (encodeFpClass op a) mk = .instr (mk a) := by
  simp [decodeFpClass, encodeFpClass, decoded, unused, fpSrc1, noSrc2, noSrcdst]

theorem decodeIntToFp_encode (op : BitVec 12) (a : Src) (d : FpDst) (mk : Src → FpDst → Instr) :
    decodeIntToFp (encodeIntToFp op a d) mk = .instr (mk a d) := by
  simp [decodeIntToFp, encodeIntToFp, decoded, unused, intSrc1, fpDst, noSrc2]

theorem decodeFpToInt_encode (op : BitVec 12) (a : FpSrc) (d : Reg) (mk : FpSrc → Reg → Instr) :
    decodeFpToInt (encodeFpToInt op a d) mk = .instr (mk a d) := by
  simp [decodeFpToInt, encodeFpToInt, decoded, unused, fpSrc1, intDst, decodeDst, noSrc2]

theorem decodeScale_encode (op : BitVec 12) (a : Src) (b : FpSrc) (d : FpDst) (mk : Src → FpSrc → FpDst → Instr) :
    decodeScale (encodeScale op a b d) mk = .instr (mk a b d) := by
  simp [decodeScale, encodeScale, decoded, intSrc1, fpSrc2, fpDst]

theorem decodeInt3_encode (op : BitVec 12) (a b : Src) (d : Reg) (mk : Src → Src → Reg → Instr) :
    decodeInt3 (encodeInt3 op a b d) mk = .instr (mk a b d) := by
  simp [decodeInt3, encodeInt3, decoded, intSrc1, intSrc2, intDst, decodeDst]

theorem decodeIntSrcs_encode (op : BitVec 12) (a b : Src) (mk : Src → Src → Instr) :
    decodeIntSrcs (encodeIntSrcs op a b) mk = .instr (mk a b) := by
  simp [decodeIntSrcs, encodeIntSrcs, decoded, unused, intSrc1, intSrc2, noSrcdst]

theorem decodeInt2_encode (op : BitVec 12) (a : Src) (d : Reg) (mk : Src → Reg → Instr) :
    decodeInt2 (encodeInt2 op a d) mk = .instr (mk a d) := by
  simp [decodeInt2, encodeInt2, decoded, unused, intSrc1, intDst, decodeDst, noSrc2]

theorem decodeInt1_encode (op : BitVec 12) (a : Src) (mk : Src → Instr) :
    decodeInt1 (encodeInt1 op a) mk = .instr (mk a) := by
  simp [decodeInt1, encodeInt1, decoded, unused, intSrc1, noSrc2, noSrcdst]

theorem decodeNullary_encode (op : BitVec 12) (i : Instr) : decodeNullary (encodeNullary op) i = .instr i := by
  simp [decodeNullary, encodeNullary, decoded, unused, noSrc1, noSrc2, noSrcdst]

/-! ### The decoder on an encoded effective address -/

/-- The effective address of an encoded MEM instruction (R128, R129). -/
theorem decodeAddr_encodeMem (op : BitVec 8) (r : Reg) (a : Addr) (w1 : Word) (h : a.encodable = true) :
    decodeAddr (encodeMem op r a).first ((encodeMem op r a).second.getD w1) = .addr a := by
  have z : scaleOk 0#3 = true := rfl
  cases a
  case offset o =>
    change decodeAddr (memaWord op r 0#5 0#2 o) _ = _
    simp [decodeAddr]
  case baseOffset n o =>
    change decodeAddr (memaWord op r n 2#2 o) _ = _
    simp [decodeAddr]
  all_goals
    simp only [Addr.encodable] at h
    simp [encodeMem, decodeAddr, decodedAddr, noRsv, noIndex, h, z]

@[simp] theorem op8Field_encodeMem (op : BitVec 8) (r : Reg) (a : Addr) :
    op8Field (encodeMem op r a).first = op := by
  cases a
  case offset o => exact op8Field_memaWord op r 0#5 0#2 o
  case baseOffset n o => exact op8Field_memaWord op r n 2#2 o
  all_goals simp [encodeMem]

@[simp] theorem srcdstField_encodeMem (op : BitVec 8) (r : Reg) (a : Addr) :
    srcdstField (encodeMem op r a).first = r := by
  cases a
  case offset o => exact srcdstField_memaWord op r 0#5 0#2 o
  case baseOffset n o => exact srcdstField_memaWord op r n 2#2 o
  all_goals simp [encodeMem]

/-- The decoder takes a MEM word to its opcode table (R122, R128). -/
theorem decode_encodeMem (op : BitVec 8) (r : Reg) (a : Addr) (w1 : Word) (h1 : 0x80 ≤ op.toNat) (h2 : op.toNat < 0xD0) :
    decode (encodeMem op r a).first w1 = decodeMemFormat (encodeMem op r a).first w1 := by
  unfold decode
  dsimp only
  rw [op8Field_encodeMem, if_neg (by omega), if_neg (by omega), if_neg (by omega), if_neg (by omega), if_pos h2]

theorem decodeMem_encode (op : BitVec 8) (r : Reg) (a : Addr) (w1 : Word) (mk : Addr → Instr) (h : a.encodable = true) :
    decodeMem (encodeMem op r a).first ((encodeMem op r a).second.getD w1) mk = .instr (mk a) := by
  unfold decodeMem
  rw [decodeAddr_encodeMem op r a w1 h]

theorem decodeMemBare_encode (op : BitVec 8) (a : Addr) (w1 : Word) (mk : Addr → Instr) (h : a.encodable = true) :
    decodeMemBare (encodeMem op 0#5 a).first ((encodeMem op 0#5 a).second.getD w1) mk = .instr (mk a) := by
  unfold decodeMemBare
  rw [srcdstField_encodeMem, if_pos rfl, decodeMem_encode op 0#5 a w1 mk h]

end Sys2Proof
end

