-- ==== Sys2Proof/Laws/Memory.lean ====
section
/-! SUPPORT. Memory: every operation keeps the canonical form, a read after a write, and what each access of the
processor can do. -/
namespace Sys2Proof.Machine

/-! ### Bytes -/

theorem memSorted_mono {lo hi : Nat} (h : lo ≤ hi) : ∀ {m : Memory}, memSorted hi m = true → memSorted lo m = true
  | [], _ => rfl
  | (b, v) :: rest, hm => by
    simp only [memSorted, Bool.and_eq_true, decide_eq_true_eq] at hm ⊢
    exact ⟨⟨⟨by omega, hm.1.1.2⟩, hm.1.2⟩, hm.2⟩

theorem memRead_below : ∀ {m : Memory} {lo a : Nat}, memSorted lo m = true → a < lo → memRead m a = unlistedByte
  | [], _, _, _, _ => rfl
  | (b, v) :: rest, lo, a, hm, ha => by
    simp only [memSorted, Bool.and_eq_true, decide_eq_true_eq] at hm
    have hne : a ≠ b := by omega
    simp only [memRead, if_neg hne]
    exact memRead_below hm.2 (by omega)

theorem memSorted_memWrite : ∀ {m : Memory} {lo a : Nat} (v : Byte), memSorted lo m = true → lo ≤ a → a < 2 ^ 32 →
    memSorted lo (memWrite m a v) = true
  | [], lo, a, v, _, hlo, ha => by
    unfold memWrite
    split <;> simp_all [memSorted]
  | (b, x) :: rest, lo, a, v, hm, hlo, ha => by
    simp only [memSorted, Bool.and_eq_true, decide_eq_true_eq] at hm
    obtain ⟨⟨⟨h1, h2⟩, h3⟩, h4⟩ := hm
    unfold memWrite
    split
    · split
      · simp only [memSorted, Bool.and_eq_true, decide_eq_true_eq]
        exact ⟨⟨⟨h1, h2⟩, h3⟩, h4⟩
      · simp only [memSorted, Bool.and_eq_true, decide_eq_true_eq]
        exact ⟨⟨⟨hlo, ha⟩, ‹_›⟩, ⟨⟨by omega, h2⟩, h3⟩, h4⟩
    · split
      · subst_vars
        split
        · exact memSorted_mono (by omega) h4
        · simp only [memSorted, Bool.and_eq_true, decide_eq_true_eq]
          exact ⟨⟨⟨h1, h2⟩, ‹_›⟩, h4⟩
      · simp only [memSorted, Bool.and_eq_true, decide_eq_true_eq]
        exact ⟨⟨⟨h1, h2⟩, h3⟩, memSorted_memWrite v h4 (by omega) ha⟩

/-- A read after a write. -/
theorem memRead_memWrite : ∀ {m : Memory} {lo : Nat} (a b : Nat) (v : Byte), memSorted lo m = true →
    memRead (memWrite m a v) b = if b = a then v else memRead m b
  | [], lo, a, b, v, _ => by
    unfold memWrite
    split <;> simp_all [memRead]
  | (c, x) :: rest, lo, a, b, v, hm => by
    simp only [memSorted, Bool.and_eq_true, decide_eq_true_eq] at hm
    obtain ⟨⟨⟨h1, h2⟩, h3⟩, h4⟩ := hm
    unfold memWrite
    split
    · rename_i hac
      have below : memRead ((c, x) :: rest) a = unlistedByte := by
        have hne : a ≠ c := by omega
        simp only [memRead, if_neg hne]
        exact memRead_below h4 (by omega)
      split
      · subst_vars
        by_cases hb : b = a
        · subst hb; simpa using below
        · simp [hb]
      · simp [memRead]
    · split
      · subst_vars
        split
        · by_cases hb : b = a
          · subst hb; simp [memRead_below h4, *]
          · simp [hb, memRead]
        · simp only [memRead]; split <;> simp_all
      · simp only [memRead, memRead_memWrite a b v h4]
        split <;> split <;> simp_all

/-- Two memories in canonical form that read alike are equal. -/
theorem memory_ext : ∀ {m n : Memory} {lo : Nat}, memSorted lo m = true → memSorted lo n = true →
    (∀ a, memRead m a = memRead n a) → m = n
  | [], [], _, _, _, _ => rfl
  | [], (c, y) :: rn, lo, _, hn, h => by
    simp only [memSorted, Bool.and_eq_true, decide_eq_true_eq] at hn
    have := h c
    simp [memRead] at this
    exact absurd this.symm hn.1.2
  | (b, x) :: rm, [], lo, hm, _, h => by
    simp only [memSorted, Bool.and_eq_true, decide_eq_true_eq] at hm
    have := h b
    simp [memRead] at this
    exact absurd this hm.1.2
  | (b, x) :: rm, (c, y) :: rn, lo, hm, hn, h => by
    have hm' := hm; have hn' := hn
    simp only [memSorted, Bool.and_eq_true, decide_eq_true_eq] at hm hn
    have hbc : b = c := by
      rcases Nat.lt_trichotomy b c with hlt | heq | hgt
      · have h1 := h b
        have hne : b ≠ c := by omega
        have h2 : memRead rn b = unlistedByte := memRead_below hn.2 (by omega)
        simp only [memRead, if_true, if_neg hne, h2] at h1
        exact absurd h1 hm.1.2
      · exact heq
      · have h1 := h c
        have hne : c ≠ b := by omega
        have h2 : memRead rm c = unlistedByte := memRead_below hm.2 (by omega)
        simp only [memRead, if_true, if_neg hne, h2] at h1
        exact absurd h1.symm hn.1.2
    subst hbc
    have hxy : x = y := by simpa [memRead] using h b
    subst hxy
    have : rm = rn := memory_ext hm.2 hn.2 (fun a => by
      by_cases hab : a = b
      · subst hab; rw [memRead_below hm.2 (by omega), memRead_below hn.2 (by omega)]
      · simpa [memRead, hab] using h a)
    rw [this]

/-! ### Words -/

theorem memWriteWord_wf {o : ByteOrder} {m : Memory} {a : Nat} (v : Word) (hm : Memory.wf m = true)
    (ha : a + 3 < 2 ^ 32) : Memory.wf (memWriteWord o m a v) = true := by
  unfold Memory.wf memWriteWord at *
  exact memSorted_memWrite _ (memSorted_memWrite _ (memSorted_memWrite _ (memSorted_memWrite _ hm (by omega)
    (by omega)) (by omega) (by omega)) (by omega) (by omega)) (by omega) (by omega)

/-- A byte after a word is written (R84). -/
theorem memRead_memWriteWord {o : ByteOrder} {m : Memory} {a : Nat} (b : Nat) (v : Word) (hm : Memory.wf m = true)
    (ha : a + 3 < 2 ^ 32) :
    memRead (memWriteWord o m a v) b =
      if b = a + 3 then byteOfWord o v 3 else if b = a + 2 then byteOfWord o v 2
      else if b = a + 1 then byteOfWord o v 1 else if b = a then byteOfWord o v 0 else memRead m b := by
  unfold Memory.wf memWriteWord at *
  have h1 := memSorted_memWrite (byteOfWord o v 0) hm (Nat.zero_le a) (by omega)
  have h2 := memSorted_memWrite (byteOfWord o v 1) h1 (Nat.zero_le (a + 1)) (by omega)
  have h3 := memSorted_memWrite (byteOfWord o v 2) h2 (Nat.zero_le (a + 2)) (by omega)
  rw [memRead_memWrite _ _ _ h3, memRead_memWrite _ _ _ h2, memRead_memWrite _ _ _ h1, memRead_memWrite _ _ _ hm]

/-- A word read where it was written. -/
theorem memReadWord_memWriteWord_same {o : ByteOrder} {m : Memory} {a : Nat} (v : Word) (hm : Memory.wf m = true)
    (ha : a + 3 < 2 ^ 32) : memReadWord o (memWriteWord o m a v) a = v := by
  unfold memReadWord
  simp only [memRead_memWriteWord _ v hm ha]
  simp [wordOfBytes_byteOfWord]

/-- A word read away from where one was written. -/
theorem memReadWord_memWriteWord_other {o : ByteOrder} {m : Memory} {a b : Nat} (v : Word)
    (hm : Memory.wf m = true) (ha : a + 3 < 2 ^ 32) (h : b + 3 < a ∨ a + 3 < b) :
    memReadWord o (memWriteWord o m a v) b = memReadWord o m b := by
  unfold memReadWord
  simp only [memRead_memWriteWord _ v hm ha]
  repeat rw [if_neg (by omega), if_neg (by omega), if_neg (by omega), if_neg (by omega)]

/-! ### The accesses of the processor -/

/-- An access that is allowed (R82, R89). -/
theorem checkAccess_ok {n : Nat} {a : Word} {u : Unit} (h : checkAccess n a = .ok u) :
    a.toNat % n = 0 ∧ isReserved a = false := by
  unfold checkAccess at h
  split at h
  · cases h
  · split at h
    · cases h
    · exact ⟨by omega, Bool.eq_false_iff.mpr ‹_›⟩

theorem checkAccess_of {n : Nat} {a : Word} (h1 : a.toNat % n = 0) (h2 : isReserved a = false) :
    checkAccess n a = .ok () := by
  simp [checkAccess, h1, h2]

/-- A word access that is allowed does not wrap (R90). -/
theorem aligned_no_wrap {a : Word} (h : a.toNat % 4 = 0) : a.toNat + 3 < 2 ^ 32 := by
  have := a.isLt
  omega

/-- What a word store comes to. -/
theorem storeWord_ok {s t : State} {a v : Word} (h : storeWord s a v = .ok t) :
    a.toNat % 4 = 0 ∧ isReserved a = false ∧ t = putWord s a v := by
  unfold storeWord at h
  split at h
  · cases h
  · cases h
    exact ⟨(checkAccess_ok ‹_›).1, (checkAccess_ok ‹_›).2, rfl⟩

theorem storeWord_of {s : State} {a : Word} (v : Word) (h1 : a.toNat % 4 = 0) (h2 : isReserved a = false) :
    storeWord s a v = .ok (putWord s a v) := by
  simp [storeWord, checkAccess_of h1 h2]

/-- What a read of a word comes to: free values are drawn, or the word is that of memory and no state changes. -/
theorem readWord_eq (free : Bool) (s : State) (a : Word) :
    (∃ k, (readWord free s a).2 = drawn s k) ∧ (free = false → readWord free s a = (wordAt s a.toNat, s)) := by
  cases free
  · exact ⟨⟨0, rfl⟩, fun _ => rfl⟩
  · exact ⟨⟨1, rfl⟩, fun h => by cases h⟩

/-- What a word load comes to. -/
theorem loadWord_ok {s : State} {a : Word} {p : Word × State} (h : loadWord s a = .ok p) :
    a.toNat % 4 = 0 ∧ isReserved a = false ∧ (∃ k, p.2 = drawn s k) ∧
      (scratchWord s a = false → p = (wordAt s a.toNat, s)) := by
  unfold loadWord at h
  split at h
  · cases h
  · cases h
    exact ⟨(checkAccess_ok ‹_›).1, (checkAccess_ok ‹_›).2, readWord_eq _ _ _⟩

/-- A word outside the scratch space is loaded from memory (R587). -/
theorem loadWord_of {s : State} {a : Word} (h1 : a.toNat % 4 = 0) (h2 : isReserved a = false)
    (h3 : scratchWord s a = false) : loadWord s a = .ok (wordAt s a.toNat, s) := by
  simp [loadWord, checkAccess_of h1 h2, h3, readWord]

/-- What loading an entry of a table comes to (R90). -/
theorem loadEntry_ok {s : State} {base o : Word} {p : Word × State} (h : loadEntry s base o = .ok p) :
    base.toNat + o.toNat < 2 ^ 32 ∧ (base + o).toNat % 4 = 0 ∧ isReserved (base + o) = false ∧
      (∃ k, p.2 = drawn s k) ∧ (scratchWord s (base + o) = false → p = (wordAt s (base + o).toNat, s)) := by
  unfold loadEntry entryAddr at h
  split at h
  · cases h
  · rename_i a e
    split at e
    · cases e
      exact ⟨‹_›, loadWord_ok h⟩
    · cases e

theorem loadEntry_of {s : State} {base o : Word} (h0 : base.toNat + o.toNat < 2 ^ 32)
    (h1 : (base + o).toNat % 4 = 0) (h2 : isReserved (base + o) = false) (h3 : scratchWord s (base + o) = false) :
    loadEntry s base o = .ok (wordAt s (base + o).toNat, s) := by
  unfold loadEntry entryAddr
  rw [if_pos h0]
  exact loadWord_of h1 h2 h3

/-- What a byte load comes to. -/
theorem loadByte_ok {s : State} {a : Word} {p : Byte × State} (h : loadByte s a = .ok p) :
    isReserved a = false ∧ (∃ k, p.2 = drawn s k) ∧ (inScratch s a = false → p = (memRead s.mem a.toNat, s)) := by
  unfold loadByte at h
  split at h
  · cases h
  · cases h
    refine ⟨(checkAccess_ok ‹_›).2, ?_, fun h => by simp [h]⟩
    split
    · exact ⟨1, rfl⟩
    · exact ⟨0, rfl⟩

theorem putWord_wf {s : State} {a : Word} (v : Word) (hm : Memory.wf s.mem = true) (h : a.toNat % 4 = 0) :
    Memory.wf (putWord s a v).mem = true := by
  rw [putWord_mem]
  exact memWriteWord_wf v hm (aligned_no_wrap h)

theorem storeWord_wf {s t : State} {a v : Word} (h : storeWord s a v = .ok t) (hm : Memory.wf s.mem = true) :
    Memory.wf t.mem = true := by
  obtain ⟨h1, _, rfl⟩ := storeWord_ok h
  exact putWord_wf v hm h1

theorem storeWords_wf : ∀ {vs : List Word} {s t : State} {a : Word}, storeWords s a vs = .ok t →
    Memory.wf s.mem = true → Memory.wf t.mem = true
  | [], s, t, a, h, hm => by cases h; exact hm
  | v :: vs, s, t, a, h, hm => by
    unfold storeWords at h
    split at h
    · cases h
    · exact storeWords_wf h (storeWord_wf ‹_› hm)

/-- What a byte store comes to. -/
theorem storeByte_ok {s t : State} {a : Word} {v : Byte} (h : storeByte s a v = .ok t) :
    isReserved a = false ∧ t = markStale { s with mem := memWrite s.mem a.toNat v } a.toNat := by
  unfold storeByte at h
  split at h
  · cases h
  · cases h
    exact ⟨(checkAccess_ok ‹_›).2, rfl⟩

theorem storeByte_wf {s t : State} {a : Word} {v : Byte} (h : storeByte s a v = .ok t)
    (hm : Memory.wf s.mem = true) : Memory.wf t.mem = true := by
  obtain ⟨_, rfl⟩ := storeByte_ok h
  rw [markStale_mem]
  exact memSorted_memWrite _ hm (Nat.zero_le _) a.isLt

theorem externalPut_wf (s : State) (a : Word) (v : Byte) (hm : Memory.wf s.mem = true) :
    Memory.wf (externalPut s a v).mem = true := by
  unfold externalPut
  rw [markStale_mem]
  exact memSorted_memWrite _ hm (Nat.zero_le _) a.isLt

/-- The memory of the machine at reset is in canonical form. -/
theorem reset_memory_wf : Memory.wf State.reset.mem = true := rfl

/-! ### Rising address lists (log 8) -/

theorem addrsRising_mono {lo hi : Nat} (h : lo ≤ hi) : ∀ {l : List Nat}, addrsRising hi l = true →
    addrsRising lo l = true
  | [], _ => rfl
  | b :: rest, hl => by
    simp only [addrsRising, Bool.and_eq_true, decide_eq_true_eq] at hl ⊢
    exact ⟨by omega, hl.2⟩

theorem addrsRising_insert : ∀ {l : List Nat} {lo a : Nat}, addrsRising lo l = true → lo ≤ a →
    addrsRising lo (insertAddr l a) = true
  | [], lo, a, _, h => by simp [insertAddr, addrsRising, h]
  | b :: rest, lo, a, hl, h => by
    simp only [addrsRising, Bool.and_eq_true, decide_eq_true_eq] at hl
    unfold insertAddr
    split
    · simp only [addrsRising, Bool.and_eq_true, decide_eq_true_eq]
      exact ⟨h, by omega, hl.2⟩
    · split
      · simp [addrsRising, hl]
      · simp only [addrsRising, Bool.and_eq_true, decide_eq_true_eq]
        exact ⟨hl.1, addrsRising_insert hl.2 (by omega)⟩

theorem mem_insertAddr : ∀ {l : List Nat} {a b : Nat}, b ∈ insertAddr l a ↔ b = a ∨ b ∈ l
  | [], a, b => by simp [insertAddr]
  | c :: rest, a, b => by
    unfold insertAddr
    split
    · simp
    · split
      · simp_all
      · simp only [List.mem_cons, mem_insertAddr]
        tauto

end Sys2Proof.Machine
end

