-- ==== Sys2Proof/Laws/Stores.lean ====
section
/-! SUPPORT. What a run of word stores leaves (`storeWords`), and when it is allowed. -/
namespace Sys2Proof.Machine

/-- The reserved space is the upper 16M bytes (R82). -/
theorem isReserved_eq (a : Word) : isReserved a = decide (0xFF000000 ≤ a.toNat) := by
  unfold isReserved
  have := a.isLt
  by_cases h : 0xFF000000 ≤ a.toNat
  · simp only [h, decide_true, beq_iff_eq]
    apply BitVec.eq_of_toNat_eq
    simp [BitVec.extractLsb'_toNat, Nat.shiftRight_eq_div_pow]
    omega
  · simp only [h, decide_false, beq_eq_false_iff_ne]
    intro hh
    have := congrArg BitVec.toNat hh
    simp [BitVec.extractLsb'_toNat, Nat.shiftRight_eq_div_pow] at this
    omega

/-- Marking a word stale changes the stale words only. -/
theorem markStale_eq (s : State) (a : Nat) : ∃ stale, markStale s a = { s with stale := stale } := by
  unfold markStale
  dsimp only
  split
  · exact ⟨_, rfl⟩
  · exact ⟨s.stale, rfl⟩

/-- A store of a word changes memory and the stale words only. -/
theorem putWord_eq (s : State) (a v : Word) :
    ∃ stale, putWord s a v =
      { s with mem := memWriteWord s.params.byteOrder s.mem a.toNat v, stale := stale } := by
  obtain ⟨t1, h1⟩ := markStale_eq { s with mem := memWriteWord s.params.byteOrder s.mem a.toNat v } a.toNat
  unfold putWord
  rw [h1]
  obtain ⟨t2, h2⟩ := markStale_eq { s with
    mem := memWriteWord s.params.byteOrder s.mem a.toNat v, stale := t1 } (a.toNat + 3)
  exact ⟨t2, h2⟩

/-- A run of word stores that is allowed is the run without checks. -/
theorem storeWords_eq_putWords : ∀ {vs : List Word} {s t : State} {a : Word}, storeWords s a vs = .ok t →
    t = putWords s a vs
  | [], s, t, _, h => by
    simp only [storeWords, Except.ok.injEq] at h
    exact h.symm
  | v :: vs, s, t, a, h => by
    simp only [storeWords] at h
    split at h
    · cases h
    · rename_i s' hs
      obtain ⟨-, -, rfl⟩ := storeWord_ok hs
      rw [putWords]
      exact storeWords_eq_putWords h

/-- A run of word stores changes memory and the stale words only. -/
theorem putWords_eq : ∀ (vs : List Word) (s : State) (a : Word),
    ∃ mem stale, putWords s a vs = { s with mem := mem, stale := stale }
  | [], s, _ => ⟨s.mem, s.stale, rfl⟩
  | v :: vs, s, a => by
    obtain ⟨st, hst⟩ := putWord_eq s a v
    obtain ⟨m, st2, ht⟩ := putWords_eq vs (putWord s a v) (a + 4#32)
    exact ⟨m, st2, by rw [putWords, ht, hst]⟩

theorem storeWords_eq {vs : List Word} {s t : State} {a : Word} (h : storeWords s a vs = .ok t) :
    ∃ mem stale, t = { s with mem := mem, stale := stale } := by
  rw [storeWords_eq_putWords h]
  exact putWords_eq vs s a

/-- All that a run of word stores can do: memory holds the words, every other byte is as before, and nothing but
memory and the stale words is changed. -/
theorem putWords_ok : ∀ (vs : List Word) {s : State} {a : Word},
    Memory.wf s.mem = true → a.toNat + 4 * vs.length ≤ 2 ^ 32 →
    Memory.wf (putWords s a vs).mem = true ∧
    (∀ (i : Nat) (h : i < vs.length), wordAt (putWords s a vs) (a.toNat + 4 * i) = vs[i]) ∧
    (∀ b, b < a.toNat ∨ a.toNat + 4 * vs.length ≤ b → memRead (putWords s a vs).mem b = memRead s.mem b)
  | [], s, a, hm, _ => ⟨hm, fun i h => absurd h (Nat.not_lt_zero i), fun _ _ => rfl⟩
  | v :: vs, s, a, hm, hl => by
    simp only [List.length_cons] at hl
    have hmem : (putWord s a v).mem = memWriteWord s.params.byteOrder s.mem a.toNat v := putWord_mem s a v
    have ha : a.toNat + 3 < 2 ^ 32 := by omega
    have hwf : Memory.wf (putWord s a v).mem = true := by
      rw [hmem]
      exact memWriteWord_wf v hm ha
    have hat : wordAt (putWord s a v) a.toNat = v := by
      unfold wordAt
      rw [hmem, putWord_params]
      exact memReadWord_memWriteWord_same v hm ha
    have hfar : ∀ b, b < a.toNat ∨ a.toNat + 4 ≤ b → memRead (putWord s a v).mem b = memRead s.mem b := by
      intro b hb
      rw [hmem, memRead_memWriteWord b v hm ha, if_neg (by omega), if_neg (by omega), if_neg (by omega),
        if_neg (by omega)]
    have step : putWords s a (v :: vs) = putWords (putWord s a v) (a + 4#32) vs := rfl
    by_cases hv : vs = []
    · subst hv
      refine ⟨hwf, ?_, hfar⟩
      intro i hi
      simp only [List.length_cons, List.length_nil] at hi
      obtain rfl : i = 0 := by omega
      exact hat
    · have hpos : 0 < vs.length := List.length_pos_of_ne_nil hv
      have h4 : (a + 4#32).toNat = a.toNat + 4 := by
        rw [BitVec.toNat_add, BitVec.toNat_ofNat]; omega
      obtain ⟨htw, hin, hout⟩ := putWords_ok vs (s := putWord s a v) (a := a + 4#32) hwf (by omega)
      rw [h4] at hin hout
      rw [step]
      refine ⟨htw, ?_, ?_⟩
      · intro i hi
        rcases i with _ | i
        · obtain ⟨m, st, he⟩ := putWords_eq vs (putWord s a v) (a + 4#32)
          have hp : (putWords (putWord s a v) (a + 4#32) vs).params = (putWord s a v).params := by rw [he]
          simp only [wordAt, memReadWord, Nat.mul_zero, Nat.add_zero, List.getElem_cons_zero] at hat ⊢
          rw [hp, hout _ (by omega), hout _ (by omega), hout _ (by omega), hout _ (by omega)]
          exact hat
        · have := hin i (by simpa using hi)
          rw [show a.toNat + 4 * (i + 1) = a.toNat + 4 + 4 * i by omega, this]
          rfl
      · intro b hb
        simp only [List.length_cons] at hb
        rw [hout b (by omega), hfar b (by omega)]

/-- All that a run of word stores with checks can do. -/
theorem storeWords_ok {vs : List Word} {s t : State} {a : Word} (h : storeWords s a vs = .ok t)
    (hm : Memory.wf s.mem = true) (hl : a.toNat + 4 * vs.length ≤ 2 ^ 32) :
    (∃ mem stale, t = { s with mem := mem, stale := stale }) ∧ Memory.wf t.mem = true ∧
    (∀ (i : Nat) (h : i < vs.length), wordAt t (a.toNat + 4 * i) = vs[i]) ∧
    (∀ b, b < a.toNat ∨ a.toNat + 4 * vs.length ≤ b → memRead t.mem b = memRead s.mem b) := by
  have e := storeWords_eq_putWords h
  subst e
  exact ⟨putWords_eq vs s a, putWords_ok vs hm hl⟩

/-- A run of word stores is allowed from a word-aligned address on if its last word ends below the reserved space. -/
theorem storeWords_of : ∀ (vs : List Word) (s : State) {a : Word}, a.toNat % 4 = 0 →
    a.toNat + 4 * vs.length ≤ 0xFF000000 → ∃ t, storeWords s a vs = .ok t
  | [], s, _, _, _ => ⟨s, rfl⟩
  | v :: vs, s, a, h1, h2 => by
    simp only [List.length_cons] at h2
    have hr : isReserved a = false := by rw [isReserved_eq]; simp; omega
    have h4 : (a + 4#32).toNat = a.toNat + 4 := by
      rw [BitVec.toNat_add, BitVec.toNat_ofNat]; omega
    obtain ⟨t, ht⟩ := storeWords_of vs (putWord s a v) (a := a + 4#32) (by omega) (by omega)
    refine ⟨t, ?_⟩
    simp only [storeWords, storeWord_of v h1 hr]
    exact ht

/-- All that storing the fields of a record can do: every byte outside them is as before, and nothing but memory
and the stale words is changed. -/
theorem storeFields_ok : ∀ {vs : List (Word × Word)} {s t : State} {a : Word}, storeFields s a vs = .ok t →
    (∃ mem stale, t = { s with mem := mem, stale := stale }) ∧
    (Memory.wf s.mem = true → Memory.wf t.mem = true ∧
      ∀ b, (∀ p ∈ vs, b < (a + p.1).toNat ∨ (a + p.1).toNat + 4 ≤ b) → memRead t.mem b = memRead s.mem b)
  | [], s, t, a, h => by
    simp only [storeFields, Except.ok.injEq] at h
    subst h
    exact ⟨⟨s.mem, s.stale, rfl⟩, fun hm => ⟨hm, fun _ _ => rfl⟩⟩
  | (o, v) :: vs, s, t, a, h => by
    simp only [storeFields] at h
    split at h
    · cases h
    · rename_i s' hs
      obtain ⟨h1, h2, rfl⟩ := storeWord_ok hs
      obtain ⟨st, hst⟩ := putWord_eq s (a + o) v
      obtain ⟨⟨mem, stale, ht⟩, hf⟩ := storeFields_ok h
      refine ⟨⟨mem, stale, by rw [ht, hst]⟩, fun hm => ?_⟩
      obtain ⟨hw, hout⟩ := hf (putWord_wf v hm h1)
      refine ⟨hw, fun b hb => ?_⟩
      rw [hout b fun p hp => hb p (List.mem_cons_of_mem _ hp), hst]
      have hb0 := hb (o, v) List.mem_cons_self
      change memRead (memWriteWord s.params.byteOrder s.mem (a + o).toNat v) b = _
      rw [memRead_memWriteWord b v hm (aligned_no_wrap h1)]
      simp only at hb0
      rw [if_neg (by omega), if_neg (by omega), if_neg (by omega), if_neg (by omega)]

end Sys2Proof.Machine
end

