-- ==== Sys2Proof/Laws/Calls.lean ====
section
/-! SUPPORT. What the call and the return operation can do (R383, R384, R397). -/
namespace Sys2Proof.Machine

/-- All that allocating a register set can do (R383): with room the current set joins the cached ones; without,
the oldest set is stored and dropped. The new set is free. -/
theorem allocSet_ok {s a : State} (h : allocSet s = .ok a) :
    ∃ cur older mem stale,
      a = { s with cur := cur, older := older, mem := mem, stale := stale, draws := s.draws + 16 } ∧
      ((s.older.length ≤ 2 ∧ older = ⟨curFrame s, s.cur⟩ :: s.older ∧ mem = s.mem ∧ stale = s.stale) ∨
        (2 < s.older.length ∧ older = (⟨curFrame s, s.cur⟩ :: s.older).dropLast ∧
          ∃ e, (⟨curFrame s, s.cur⟩ :: s.older).getLast? = some e ∧
            spillSet { s with cur := cur, older := older, draws := s.draws + 16 } e = .ok a)) := by
  unfold allocSet at h
  dsimp only [drawn] at h
  by_cases hl : s.older.length ≤ 2
  · rw [if_pos (show List.length (_ :: s.older) ≤ numSets - 1 from Nat.succ_le_succ hl)] at h
    simp only [Except.ok.injEq] at h
    exact ⟨Vector.ofFn fun i : Fin 16 => freeAt s i.val, _, s.mem, s.stale, h.symm, Or.inl ⟨hl, rfl, rfl, rfl⟩⟩
  · rw [if_neg (show ¬ List.length (_ :: s.older) ≤ numSets - 1 from fun hh => hl (Nat.le_of_succ_le_succ hh))] at h
    split at h
    · rename_i hn
      simp at hn
    · rename_i e he
      have hsp := h
      unfold spillSet at h
      obtain ⟨mem, stale, hm⟩ := storeWords_eq h
      exact ⟨Vector.ofFn fun i : Fin 16 => freeAt s i.val, (⟨curFrame s, s.cur⟩ :: s.older).dropLast, mem, stale, hm,
        Or.inr ⟨by omega, rfl, e, he, hsp⟩⟩

/-- With at most two callers' sets on the chip, allocating a set needs no memory (R383). -/
theorem allocSet_room {s : State} (h : s.older.length ≤ 2) :
    ∃ cur, allocSet s =
      .ok { s with cur := cur, older := ⟨curFrame s, s.cur⟩ :: s.older, draws := s.draws + 16 } := by
  refine ⟨Vector.ofFn fun i : Fin 16 => freeAt s i.val, ?_⟩
  unfold allocSet
  dsimp only
  rw [if_pos (show List.length (_ :: s.older) ≤ numSets - 1 from Nat.succ_le_succ h)]
  rfl

/-- With three callers' sets on the chip, allocating a set writes the oldest to its frame's save area and drops it,
where that area is writable (R383). -/
theorem allocSet_full {s : State} {e f g : RegSet} (ho : s.older = [e, f, g]) (hm : Memory.wf s.mem = true)
    (hg : frameAligned g.addr = g.addr) (hr : isReserved g.addr = false) :
    ∃ cur mem stale, allocSet s = .ok { s with
        cur := cur, older := [⟨curFrame s, s.cur⟩, e, f], mem := mem, stale := stale, draws := s.draws + 16 } ∧
      Memory.wf mem = true ∧
      (∀ i : Fin 16, memReadWord s.params.byteOrder mem (g.addr.toNat + 4 * i.val) = g.regs[i]) ∧
      ∀ a, a < g.addr.toNat ∨ g.addr.toNat + 64 ≤ a → memRead mem a = memRead s.mem a := by
  have hlt : g.addr.toNat < 0xFF000000 := by
    rw [isReserved_eq] at hr
    simpa using hr
  have h64 := frameAligned_toNat g.addr
  rw [hg] at h64
  have hl : g.regs.toList.length = 16 := by simp
  obtain ⟨t, ht⟩ := storeWords_of g.regs.toList { s with
    cur := Vector.ofFn fun i : Fin 16 => freeAt s i.val, older := [⟨curFrame s, s.cur⟩, e, f]
    draws := s.draws + 16 }
    (a := g.addr) (by omega) (by rw [hl]; omega)
  obtain ⟨⟨mem, stale, he⟩, hw, hin, hout⟩ := storeWords_ok ht hm (by rw [hl]; omega)
  have hmem : t.mem = mem := by rw [he]
  have hpar : t.params = s.params := by rw [he]
  rw [hmem] at hw hout
  rw [hl, Nat.mul_comm] at hout
  refine ⟨Vector.ofFn fun i : Fin 16 => freeAt s i.val, mem, stale, ?_, hw, ?_, ?_⟩
  · unfold allocSet
    dsimp only
    rw [ho, if_neg (by simp [numSets])]
    exact ht.trans (congrArg Except.ok he)
  · intro i
    have := hin i.val (by rw [hl]; exact i.isLt)
    rw [wordAt, hmem, hpar] at this
    rw [this]
    simp
  · intro a ha
    exact hout a ha

/-- The state the call operation leaves, after the register set `a` has been allocated (R384). -/
def calledFrom (target b : Word) (status : BitVec 3) (s a : State) : State :=
  signalIfEnabled .call
    { setReg (setReg (setReg a pfpReg (newPfp (curFrame s) (traceMode s .call) status)) spReg
        (nextFrame b + 64#32)) fpReg (nextFrame b) with ip := wordAligned target }

/-- All that the call operation can do (R384). -/
theorem callOp_ok {target b : Word} {status : BitVec 3} {s u : State} (h : callOp target b status s = .ok u) :
    frameFits b = true ∧ ∃ a, allocSet s = .ok a ∧ u = calledFrom target b status s a := by
  unfold callOp at h
  split at h
  · rename_i hf
    split at h
    · cases h
    · rename_i a ha
      simp only [Except.ok.injEq] at h
      exact ⟨hf, a, ha, h.symm⟩
  · cases h

theorem callOp_of {target b : Word} {status : BitVec 3} {s a : State} (hf : frameFits b = true)
    (ha : allocSet s = .ok a) : callOp target b status s = .ok (calledFrom target b status s a) := by
  unfold callOp
  rw [if_pos hf, ha]
  rfl

/-- The registers after the call operation. -/
theorem calledFrom_regs (target b : Word) (status : BitVec 3) (s a : State) :
    getReg (calledFrom target b status s a) fpReg = nextFrame b ∧
    getReg (calledFrom target b status s a) spReg = nextFrame b + 64#32 ∧
    getReg (calledFrom target b status s a) pfpReg = newPfp (curFrame s) (traceMode s .call) status ∧
    (∀ r, r ≠ fpReg → r ≠ spReg → r ≠ pfpReg → getReg (calledFrom target b status s a) r = getReg a r) := by
  unfold calledFrom
  refine ⟨?_, ?_, ?_, ?_⟩
  · rw [getReg_signalIfEnabled, getReg_withIp, getReg_setReg_same]
  · rw [getReg_signalIfEnabled, getReg_withIp, getReg_setReg, if_neg (by decide), getReg_setReg_same]
  · rw [getReg_signalIfEnabled, getReg_withIp, getReg_setReg, if_neg (by decide), getReg_setReg,
      if_neg (by decide), getReg_setReg_same]
  · intro r h1 h2 h3
    rw [getReg_signalIfEnabled, getReg_withIp, getReg_setReg, if_neg h1, getReg_setReg, if_neg h2, getReg_setReg,
      if_neg h3]

/-- The global registers are not touched by a change of local register sets. -/
theorem getReg_global {s t : State} (h : t.globals = s.globals) {r : Reg} (hr : isGlobal r = true) :
    getReg t r = getReg s r := by
  unfold getReg
  rw [if_pos hr, if_pos hr]
  simp [h]

/-- What the call operation leaves besides registers. -/
theorem calledFrom_rest (target b : Word) (status : BitVec 3) (s a : State) :
    ∃ globals cur tc pc, calledFrom target b status s a =
      { a with globals := globals, cur := cur, tc := tc, pc := pc, ip := wordAligned target } := by
  unfold calledFrom
  rw [signalIfEnabled_eq]
  exact ⟨(a.globals.set 15 (nextFrame b)),
    ((a.cur.set 0 (newPfp (curFrame s) (traceMode s .call) status)).set 1 (nextFrame b + 64#32)), _, _, rfl⟩

/-- The PFP of a new frame (R24, R384): frame address, prereturn-trace flag, return status. -/
theorem newPfp_fields (old : Word) (p : Bool) (status : BitVec 3) :
    frameAligned (newPfp old p status) = frameAligned old ∧ (newPfp old p status).setWidth 3 = status ∧
    getBit (newPfp old p status) 3 = p ∧ (newPfp old p status).extractLsb' 4 2 = 0#2 := by
  have key : ∀ i, i < 32 → (newPfp old p status).getLsbD i =
      if i < 3 then status.getLsbD i else if i = 3 then p else if i < 6 then false else old.getLsbD i := by
    intro i hi
    have hs : (setBit 0#32 3 p).getLsbD i = (decide (i = 3) && p) := by
      have := getBit_setBit 0#32 3 i p
      simp only [getBit] at this
      rw [this]
      by_cases h : i = 3 <;> simp [h]
    have hf := getLsbD_frameAligned old i
    unfold newPfp
    simp only [BitVec.getLsbD_or, hs, hf, BitVec.getLsbD_setWidth, hi, decide_true, Bool.true_and]
    by_cases h1 : i < 3
    · simp [h1, show ¬ 6 ≤ i by omega, show i ≠ 3 by omega]
    · rw [BitVec.getLsbD_of_ge status i (by omega)]
      by_cases h2 : i = 3
      · simp [h2]
      · by_cases h3 : i < 6
        · simp [h1, h2, h3, show ¬ 6 ≤ i by omega]
        · simp [h1, h2, h3, show 6 ≤ i by omega]
  refine ⟨?_, ?_, ?_, ?_⟩
  · apply BitVec.eq_of_getLsbD_eq
    intro i hi
    rw [getLsbD_frameAligned, getLsbD_frameAligned, key i hi]
    by_cases h : 6 ≤ i
    · simp [show ¬ i < 3 by omega, show i ≠ 3 by omega, show ¬ i < 6 by omega]
    · simp [h]
  · apply BitVec.eq_of_getLsbD_eq
    intro i hi
    rw [BitVec.getLsbD_setWidth, key i (by omega)]
    simp [hi]
  · exact (key 3 (by omega)).trans (by simp)
  · apply BitVec.eq_of_getLsbD_eq
    intro i hi
    rw [BitVec.getLsbD_extractLsb', key (4 + i) (by omega)]
    simp [hi, show ¬ 4 + i < 3 by omega, show ¬ 4 + i = 3 by omega, show 4 + i < 6 by omega]

/-- All that taking back a register set can do (R383). -/
theorem releaseSet_ok {s u : State} {t : Word} (h : releaseSet s t = .ok u) :
    (∃ e rest, s.older = e :: rest ∧ e.addr = t ∧ u = { s with cur := e.regs, older := rest }) ∨
    (s.older = [] ∧ t.toNat % 4 = 0 ∧ isReserved t = false ∧
      u = { s with cur := savedRegs s t, draws := s.draws + 16 }) := by
  unfold releaseSet at h
  split at h
  · rename_i ho
    unfold reloadSet at h
    split at h
    · cases h
    · rename_i regs hr
      split at hr
      · cases hr
      · rename_i hc
        obtain ⟨h1, h2⟩ := checkAccess_ok hc
        simp only [Except.ok.injEq] at h hr
        exact Or.inr ⟨ho, h1, h2, by rw [← h, ← hr, drawn]⟩
  · rename_i e rest ho
    split at h
    · rename_i he
      simp only [Except.ok.injEq] at h
      exact Or.inl ⟨e, rest, ho, he, h.symm⟩
    · cases h

/-- The frame a return goes back to, and the state before its registers are taken back (R397). -/
def returning (s : State) : State := setReg s fpReg (frameAligned (getReg s pfpReg))

/-- All that the return operation can do (R397). -/
theorem returnOp_ok {s u : State} (h : returnOp s = .ok u) :
    ∃ v, releaseSet (returning s) (frameAligned (getReg s pfpReg)) = .ok v ∧
      u = { v with ip := wordAligned (getReg v ripReg) } := by
  unfold returnOp at h
  dsimp only at h
  split at h
  · cases h
  · rename_i v hv
    simp only [Except.ok.injEq] at h
    exact ⟨v, hv, h.symm⟩

theorem returnOp_of {s v : State} (h : releaseSet (returning s) (frameAligned (getReg s pfpReg)) = .ok v) :
    returnOp s = .ok { v with ip := wordAligned (getReg v ripReg) } := by
  unfold returnOp
  dsimp only
  have : releaseSet (setReg s fpReg (frameAligned (getReg s pfpReg))) (frameAligned (getReg s pfpReg)) = .ok v := h
  rw [this]

/-- The return to a frame whose registers are on the chip (R383, R397). -/
theorem returnOp_cached {s : State} {e : RegSet} {rest : List RegSet} (ho : s.older = e :: rest)
    (he : e.addr = frameAligned (getReg s pfpReg)) :
    ∃ u, returnOp s = .ok u ∧ u = { s with
      globals := s.globals.set 15 (frameAligned (getReg s pfpReg)), cur := e.regs, older := rest
      ip := wordAligned (e.regs[2]) } := by
  refine ⟨_, returnOp_of (v := { returning s with cur := e.regs, older := rest }) ?_, rfl⟩
  unfold releaseSet
  have : (returning s).older = e :: rest := by simp [returning, ho]
  rw [this]
  simp only [he, if_true]

end Sys2Proof.Machine
end

