-- ==== Sys2Proof/Laws/Exceptions.lean ====
section
/-! SUPPORT. What taking a fault and taking an interrupt can do (R480, R515, R516, R518, R523). -/
namespace Sys2Proof.Machine

/-- A step of a rule that may stop: if the whole answers, the first part has answered. -/
theorem result_bind_ok {α β : Type} {x : Result α} {f : α → Result β} {b : β} (h : (x >>= f) = .ok b) :
    ∃ a, x = .ok a ∧ f a = .ok b := by
  cases x with
  | error e => cases h
  | ok a => exact ⟨a, rfl, h⟩

/-- The state a handler starts from: free values may have been drawn (R587), and the processor may be in supervisor
mode with the trace-enable flag of the table (R480). -/
def HandlerState (s t : State) : Prop := ∃ k, t = drawn s k ∨ ∃ te, t = setTe (setEm (drawn s k) true) te

/-- Free values drawn in turn. -/
theorem drawn_drawn (s : State) (j k : Nat) : drawn (drawn s j) k = drawn s (j + k) := by
  simp [drawn, Nat.add_assoc]

/-- The handler behind a procedure-table entry (R480, R490). -/
theorem procedureHandler_ok {s : State} {table n : Word} {h : Handler}
    (e : procedureHandler s table n = .ok (some h)) :
    wordAligned h.target = h.target ∧ HandlerState s h.state := by
  unfold procedureHandler at e
  split at e
  · cases e
  · obtain ⟨⟨entry, s1⟩, h1, e⟩ := result_bind_ok e
    obtain ⟨j, rfl⟩ := (loadEntry_ok h1).2.2.2.1
    dsimp only at e
    split at e
    · cases e
      exact ⟨wordAligned_idem _, j, Or.inl rfl⟩
    · obtain ⟨⟨w, s2⟩, h2, e⟩ := result_bind_ok e
      obtain ⟨k, rfl⟩ := (loadEntry_ok h2).2.2.2.1
      cases e
      exact ⟨wordAligned_idem _, j + k, Or.inr ⟨_, by rw [← drawn_drawn]⟩⟩
    · cases e

/-- The handler the fault table gives (R480 to R482). -/
theorem faultHandler_ok {s : State} {t : Byte} {h : Handler} (e : faultHandler s t = .ok (some h)) :
    wordAligned h.target = h.target ∧ HandlerState s h.state := by
  unfold faultHandler at e
  obtain ⟨⟨e0, s1⟩, h1, e⟩ := result_bind_ok e
  obtain ⟨⟨e1, s2⟩, h2, e⟩ := result_bind_ok e
  obtain ⟨j, rfl⟩ := (loadEntry_ok h1).2.2.2.1
  obtain ⟨k, rfl⟩ := (loadEntry_ok h2).2.2.2.1
  have lift : ∀ {t : State}, HandlerState (drawn (drawn s j) k) t → HandlerState s t := by
    rintro t ⟨i, hi⟩
    simp only [drawn_drawn] at hi
    exact ⟨_, hi⟩
  dsimp only at e
  split at e
  · cases e
    exact ⟨wordAligned_idem _, j + k, Or.inl (drawn_drawn s j k)⟩
  · split at e
    · exact ⟨(procedureHandler_ok e).1, lift (procedureHandler_ok e).2⟩
    · split at e
      · exact ⟨(procedureHandler_ok e).1, lift (procedureHandler_ok e).2⟩
      · cases e
  · cases e

/-- All that taking a fault can do (R480): with no usable handler the processor is stuck; else the record is
stored below the new frame, r2 receives the saved IP, and the handler is called with return status 001. -/
theorem deliverFault_ok {f : FaultInfo} {s u : State} (e : deliverFault f s = .ok u) :
    (faultHandler s f.ftype = .ok none ∧ u = { s with status := .stuck }) ∨
    ∃ h s1, faultHandler s f.ftype = .ok (some h) ∧ h.nsp.toNat + 48 < 2 ^ 32 ∧
      frameFits (h.nsp + faultRecordSize) = true ∧
      storeFields h.state (nextFrame (h.nsp + faultRecordSize) - faultRecordSize) (faultRecord f s.pc s.ac h.state) =
        .ok s1 ∧
      callOp h.target (h.nsp + faultRecordSize) 0b001#3
        (drawn (setReg s1 ripReg (f.sip.getD (freeAt s1 5))) 6) = .ok u := by
  unfold deliverFault at e
  obtain ⟨x, hx, e⟩ := result_bind_ok e
  cases x with
  | none =>
    simp only [pure, Except.pure, Except.ok.injEq] at e
    exact Or.inl ⟨hx, e.symm⟩
  | some h =>
    simp only at e
    split at e
    · rename_i hc
      simp only [Bool.and_eq_true, decide_eq_true_eq] at hc
      obtain ⟨s1, h1, e⟩ := result_bind_ok e
      exact Or.inr ⟨h, s1, hx, hc.1, hc.2, h1, e⟩
    · cases e

/-- All that interrupt entry can do (R523, R606): the entry of the interrupt table is read before and after the record
is stored below the new frame, r2 receives IP, PC changes, and the handler that one of the two words names is called
with return status 111. -/
theorem interruptEntry_ok {v : Byte} {s u : State} (e : interruptEntry v s = .ok u) :
    ∃ (before after : Word × State) (s2 : State),
      (interruptStackPointer s).toNat + s.params.interruptRecord.size.toNat < 2 ^ 32 ∧
      frameFits (interruptStackPointer s + s.params.interruptRecord.size) = true ∧
      loadEntry s s.intTable (vectorOffset v) = .ok before ∧
      storeFields before.2 (nextFrame (interruptStackPointer s + s.params.interruptRecord.size) -
        s.params.interruptRecord.size) (interruptRecord v before.2) = .ok s2 ∧
      loadEntry (drawn (setPc (setReg s2 ripReg s.ip) (interruptPc v s)) 1) s.intTable (vectorOffset v) = .ok after ∧
      callOp (handlerWord after.2 before.1 after.1) (interruptStackPointer s + s.params.interruptRecord.size) 0b111#3
        (drawn after.2 1) = .ok u := by
  unfold interruptEntry at e
  by_cases hc : (decide ((interruptStackPointer s).toNat + s.params.interruptRecord.size.toNat < 2 ^ 32) &&
      frameFits (interruptStackPointer s + s.params.interruptRecord.size)) = true
  · replace e := (if_pos hc).symm.trans e
    simp only [Bool.and_eq_true, decide_eq_true_eq] at hc
    obtain ⟨before, h1, e⟩ := result_bind_ok e
    obtain ⟨s2, h2, e⟩ := result_bind_ok e
    obtain ⟨after, h3, e⟩ := result_bind_ok e
    exact ⟨before, after, s2, hc.1, hc.2, h1, h2, h3, e⟩
  · replace e := (if_neg hc).symm.trans e
    cases e

/-- The fields of a fault record as R487 lays them out are seven successive words. -/
theorem storeFields_faultRecord (f : FaultInfo) (pc ac nfp : Word) (s t : State)
    (h : s.params.faultRecord = defaultFaultLayout) :
    storeFields t (nfp - faultRecordSize) (faultRecord f pc ac s) =
      storeWords t (nfp - 28#32) [(faultData f s).1, (faultData f s).2.1, (faultData f s).2.2, pc, ac,
        faultTypeWord f (freeAt s 3), f.afi.getD (freeAt s 4)] := by
  have e : ∀ x : Word, nfp - 48#32 + (20#32 + x) = nfp - 28#32 + x := fun x => by bv_omega
  have k : ∀ x y : Word, nfp - 28#32 + x + y = nfp - 28#32 + (x + y) := fun x y => by bv_omega
  simp only [faultRecord, faultRecordSize, h, defaultFaultLayout, storeFields, storeWords, k]
  rw [show nfp - 48#32 + 20#32 = nfp - 28#32 by bv_omega, e 4#32, e 8#32,
    show nfp - 48#32 + 32#32 = nfp - 28#32 + 12#32 by bv_omega,
    show nfp - 48#32 + 36#32 = nfp - 28#32 + 16#32 by bv_omega,
    show nfp - 48#32 + 40#32 = nfp - 28#32 + 20#32 by bv_omega,
    show nfp - 48#32 + 44#32 = nfp - 28#32 + 24#32 by bv_omega]
  rfl

/-- The fields of an interrupt record as R520 lays them out are three successive words. -/
theorem storeFields_interruptRecord (v : Byte) (nfp : Word) (s t : State)
    (h : s.params.interruptRecord = defaultInterruptLayout) :
    storeFields t (nfp - s.params.interruptRecord.size) (interruptRecord v s) =
      storeWords t (nfp - 16#32) [s.pc, s.ac, setField (freeAt s 0) 0 8 v] := by
  have k : ∀ x y : Word, nfp - 16#32 + x + y = nfp - 16#32 + (x + y) := fun x y => by bv_omega
  simp only [interruptRecord, h, defaultInterruptLayout, storeFields, storeWords, k]
  rw [show nfp - 16#32 + 0#32 = nfp - 16#32 by bv_omega]
  rfl

/-- What the address of a table entry comes to (R90). -/
theorem entryAddr_ok {base o a : Word} (h : entryAddr base o = .ok a) :
    base.toNat + o.toNat < 2 ^ 32 ∧ a = base + o := by
  unfold entryAddr at h
  split at h
  · cases h
    exact ⟨‹_›, rfl⟩
  · cases h

/-- All that posting an interrupt can do (R516): its bit and its priority's bit are set in the table. -/
theorem postInterrupt_ok {v : Byte} {s u : State} (e : postInterrupt v s = .ok u) :
    ∃ (b : Byte × State) (s2 : State) (w : Word × State),
      loadByte s (s.intTable + pendingOffset (vectorPriority v)) = .ok b ∧
      storeByte b.2 (s.intTable + pendingOffset (vectorPriority v)) (b.1 ||| (1#8 <<< (v.toNat % 8))) = .ok s2 ∧
      loadWord s2 s.intTable = .ok w ∧
      storeWord w.2 s.intTable (setBit w.1 (vectorPriority v).toNat true) = .ok u := by
  unfold postInterrupt at e
  obtain ⟨a, h0, e⟩ := result_bind_ok e
  obtain ⟨-, rfl⟩ := entryAddr_ok h0
  obtain ⟨b, h1, e⟩ := result_bind_ok e
  obtain ⟨s2, h2, e⟩ := result_bind_ok e
  obtain ⟨w, h3, e⟩ := result_bind_ok e
  exact ⟨b, s2, w, h1, h2, h3, e⟩

/-- All that the search for a pending interrupt can do (R518, R519): nothing but to draw free values, or clear a
vector's bit, and its priority's bit if the byte is then zero, and enter the interrupt. -/
theorem checkPendingFrom_ok {pp : Word} {u : State} : ∀ {n : Nat} {s : State}, checkPendingFrom pp s n = .ok u →
    (∃ j, u = drawn s j) ∨ ∃ (j prio k : Nat) (rest : Byte) (s1 s2 : State),
      storeByte (drawn s j) (s.intTable + pendingOffset (BitVec.ofNat 5 prio)) rest = .ok s1 ∧
      (s2 = s1 ∨ storeWord s1 s.intTable (setBit pp prio false) = .ok s2) ∧
      interruptEntry (BitVec.ofNat 8 (8 * prio + k)) s2 = .ok u
  | 0, s, e => by
    simp only [checkPendingFrom, Except.ok.injEq] at e
    exact Or.inl ⟨0, e.symm⟩
  | p + 1, s, e => by
    simp only [checkPendingFrom] at e
    split at e
    · obtain ⟨a, h0, e⟩ := result_bind_ok e
      obtain ⟨-, rfl⟩ := entryAddr_ok h0
      obtain ⟨⟨byte, s'⟩, h1, e⟩ := result_bind_ok e
      obtain ⟨j, rfl⟩ := (loadByte_ok h1).2.1
      split at e
      · rcases checkPendingFrom_ok e with ⟨i, hi⟩ | ⟨i, prio, k, rest, s1, s2, h2, h3, h4⟩
        · exact Or.inl ⟨j + i, by rw [hi, drawn_drawn]⟩
        · exact Or.inr ⟨j + i, prio, k, rest, s1, s2, by rw [← drawn_drawn]; exact h2, h3, h4⟩
      · rename_i k hk
        obtain ⟨s1, h2, e⟩ := result_bind_ok e
        split at e
        · obtain ⟨s2, h3, e⟩ := result_bind_ok e
          exact Or.inr ⟨j, p + 1, k, _, s1, s2, h2, Or.inr h3, e⟩
        · exact Or.inr ⟨j, p + 1, k, _, s1, s1, h2, Or.inl rfl, e⟩
    · exact checkPendingFrom_ok e

/-- All that a check of pending interrupts can do (R518). -/
theorem checkPending_ok {s u : State} (e : checkPending s = .ok u) :
    ∃ pp : Word × State, loadWord s s.intTable = .ok pp ∧ checkPendingFrom pp.1 pp.2 31 = .ok u := by
  unfold checkPending at e
  exact result_bind_ok e

end Sys2Proof.Machine
end

