-- ==== Sys2Proof/Laws/Numerics.lean ====
section
/-! SUPPORT. Numerics (40_fp_numerics.md): powers of two, the exponent of a number, rounding to a grid, and reading
back what is encoded. -/
namespace Sys2Proof.Machine

/-! ### Powers of two and exponents -/

theorem pow2_eq (k : Int) : pow2 k = (2 : Rat) ^ k := by
  cases k with
  | ofNat n => simp [pow2]
  | negSucc n =>
    simp only [pow2, zpow_negSucc]
    rw [Rat.mkRat_eq_div]
    push_cast
    rw [one_div]

theorem pow2_pos (k : Int) : 0 < pow2 k := by
  rw [pow2_eq]
  positivity

theorem pow2_add (a b : Int) : pow2 (a + b) = pow2 a * pow2 b := by
  simp only [pow2_eq]
  exact zpow_add₀ (by norm_num) a b

theorem pow2_le {a b : Int} : pow2 a ≤ pow2 b ↔ a ≤ b := by
  simp only [pow2_eq]
  exact zpow_le_zpow_iff_right₀ (by norm_num)

theorem pow2_lt {a b : Int} : pow2 a < pow2 b ↔ a < b := by
  simp only [pow2_eq]
  exact zpow_lt_zpow_iff_right₀ (by norm_num)

/-- A power of two with a natural exponent is a whole number. -/
theorem pow2_nat (n : Nat) : pow2 (n : Int) = ((2 ^ n : Nat) : Rat) := rfl

theorem ratAbs_eq (v : Rat) : ratAbs v = |v| := by
  unfold ratAbs
  split
  · rw [abs_of_neg ‹_›]
  · rw [abs_of_nonneg (not_lt.mp ‹_›)]

/-- `floorLog2` is the exponent: `2 ^ e ≤ abs v < 2 ^ (e + 1)`. -/
theorem floorLog2_spec {v : Rat} (hv : v ≠ 0) : pow2 (floorLog2 v) ≤ |v| ∧ |v| < pow2 (floorLog2 v + 1) := by
  have hn : v.num.natAbs ≠ 0 := by simpa using hv
  have hd : v.den ≠ 0 := v.den_nz
  have habs : |v| = (v.num.natAbs : Rat) / (v.den : Rat) := by
    conv_lhs => rw [← Rat.num_div_den v]
    rw [abs_div, Nat.abs_cast, Nat.cast_natAbs]
    simp
  have n1 : ((2 ^ v.num.natAbs.log2 : Nat) : Rat) ≤ (v.num.natAbs : Rat) := by exact_mod_cast Nat.log2_self_le hn
  have n2 : (v.num.natAbs : Rat) < ((2 ^ (v.num.natAbs.log2 + 1) : Nat) : Rat) := by
    exact_mod_cast Nat.lt_log2_self
  have d1 : ((2 ^ v.den.log2 : Nat) : Rat) ≤ (v.den : Rat) := by exact_mod_cast Nat.log2_self_le hd
  have d2 : (v.den : Rat) < ((2 ^ (v.den.log2 + 1) : Nat) : Rat) := by exact_mod_cast Nat.lt_log2_self
  have dpos : (0 : Rat) < v.den := by exact_mod_cast v.den_pos
  rw [← pow2_nat] at n1 n2 d1 d2
  push_cast at n2 d2
  set a : Int := (v.num.natAbs.log2 : Int)
  set b : Int := (v.den.log2 : Int)
  have lo : pow2 (a - b - 1) ≤ |v| := by
    rw [habs, le_div_iff₀ dpos]
    have h : pow2 a = pow2 (a - b - 1) * pow2 (b + 1) := by rw [← pow2_add]; congr 1; ring
    nlinarith [pow2_pos (a - b - 1)]
  have hi : |v| < pow2 (a - b + 1) := by
    rw [habs, div_lt_iff₀ dpos]
    have h : pow2 (a + 1) = pow2 (a - b + 1) * pow2 b := by rw [← pow2_add]; congr 1; ring
    nlinarith [pow2_pos (a - b + 1)]
  have hdef : floorLog2 v = if pow2 (a - b) ≤ ratAbs v then a - b else a - b - 1 := rfl
  rw [ratAbs_eq] at hdef
  rw [hdef]
  split
  · exact ⟨‹_›, hi⟩
  · refine ⟨lo, ?_⟩
    rw [sub_add_cancel]
    exact not_le.mp ‹_›

/-- The exponent is determined by its bounds. -/
theorem floorLog2_unique {v : Rat} {e : Int} (h1 : pow2 e ≤ |v|) (h2 : |v| < pow2 (e + 1)) : floorLog2 v = e := by
  have hv : v ≠ 0 := by
    rintro rfl
    have := pow2_pos e
    simp at h1
    linarith
  obtain ⟨h3, h4⟩ := floorLog2_spec hv
  have a := pow2_lt.mp (lt_of_le_of_lt h1 h4)
  have b := pow2_lt.mp (lt_of_le_of_lt h3 h2)
  omega

/-! ### Rounding (R179) -/

theorem roundGrid_down {v q : Rat} (hq : 0 < q) :
    q * (v / q).floor ≤ v ∧ v < q * (v / q).floor + q := by
  have h1 : ((v / q).floor : Rat) ≤ v / q := Int.floor_le (v / q)
  have h2 : v / q < ((v / q).floor : Rat) + 1 := Int.lt_floor_add_one (v / q)
  rw [le_div_iff₀ hq] at h1
  rw [div_lt_iff₀ hq] at h2
  constructor <;> nlinarith

/-- What rounding to the grid of `q` gives: a multiple of `q`, the number itself if it is one, and otherwise one of
its two neighbours on the grid (R179). -/
theorem roundGrid_cases (m : RoundMode) (v : Rat) {q : Rat} (hq : 0 < q) :
    ∃ n : Int, roundGrid m v q = q * n ∧
      ((v = q * n) ∨ (n = (v / q).floor ∧ q * n < v) ∨ (n = (v / q).floor + 1 ∧ v < q * n)) := by
  obtain ⟨h1, h2⟩ := roundGrid_down (v := v) hq
  by_cases he : v = q * (v / q).floor
  · refine ⟨(v / q).floor, ?_, .inl he⟩
    unfold roundGrid
    rw [if_pos he]
    exact he
  · have hlt : q * (v / q).floor < v := lt_of_le_of_ne h1 (Ne.symm he)
    have lo : ∃ n : Int, q * (v / q).floor = q * n ∧
        ((v = q * n) ∨ (n = (v / q).floor ∧ q * n < v) ∨ (n = (v / q).floor + 1 ∧ v < q * n)) :=
      ⟨_, rfl, .inr (.inl ⟨rfl, hlt⟩)⟩
    have hi : ∃ n : Int, q * (v / q).floor + q = q * n ∧
        ((v = q * n) ∨ (n = (v / q).floor ∧ q * n < v) ∨ (n = (v / q).floor + 1 ∧ v < q * n)) :=
      ⟨(v / q).floor + 1, by push_cast; ring, .inr (.inr ⟨rfl, by push_cast; linarith⟩)⟩
    unfold roundGrid
    rw [if_neg he]
    cases m <;> dsimp only
    · exact hi
    · exact lo
    · split <;> assumption
    · split
      · assumption
      · split
        · assumption
        · split <;> assumption

/-- A multiple of `q` is rounded to itself. -/
theorem roundGrid_self (m : RoundMode) {q : Rat} (hq : 0 < q) (n : Int) : roundGrid m (q * n) q = q * n := by
  unfold roundGrid
  have : (q * n / q).floor = n := by
    rw [mul_div_cancel_left₀ _ (ne_of_gt hq)]
    exact Rat.floor_intCast n
  rw [if_pos]
  rw [this]

/-- Rounding to the grid of `q` does not pass a multiple of `q` (R179). -/
theorem roundGrid_between (m : RoundMode) {v q : Rat} (hq : 0 < q) {a b : Int} (ha : q * a ≤ v) (hb : v ≤ q * b) :
    q * a ≤ roundGrid m v q ∧ roundGrid m v q ≤ q * b := by
  obtain ⟨n, hn, hc⟩ := roundGrid_cases m v hq
  obtain ⟨f1, f2⟩ := roundGrid_down (v := v) hq
  have le : ∀ {x y : Int}, x ≤ y → q * (x : Rat) ≤ q * y := fun h =>
    mul_le_mul_of_nonneg_left (by exact_mod_cast h) hq.le
  have lt : ∀ {x y : Int}, q * (x : Rat) < q * y → x < y := fun h => by
    exact_mod_cast lt_of_mul_lt_mul_left h hq.le
  rw [hn]
  rcases hc with h | ⟨h, h'⟩ | ⟨h, h'⟩
  · exact ⟨h ▸ ha, h ▸ hb⟩
  · refine ⟨le ?_, h'.le.trans hb⟩
    have := lt (x := a) (y := (v / q).floor + 1) (by push_cast; linarith)
    omega
  · refine ⟨ha.trans h'.le, le ?_⟩
    have h1 := lt (x := (v / q).floor) (y := n) (by rw [h]; push_cast; linarith)
    rcases lt_or_eq_of_le hb with h2 | h2
    · have := lt (x := (v / q).floor) (y := b) (by linarith)
      omega
    · have := roundGrid_self m hq b
      rw [← h2, hn] at this
      linarith

/-- What the rounding rule says of a multiple of `q` determines it (R179). -/
theorem roundGrid_unique (m : RoundMode) {v q : Rat} (hq : 0 < q) {n : Int} (h : |q * n - v| < q)
    (hu : m = .up → v ≤ q * n) (hd : m = .down → q * n ≤ v) (hz : m = .zero → |q * n| ≤ |v|)
    (hn : m = .nearest → 2 * |q * n - v| ≤ q ∧ (2 * |q * n - v| = q → n % 2 = 0)) : roundGrid m v q = q * n := by
  obtain ⟨f1, f2⟩ := roundGrid_down (v := v) hq
  set k := (v / q).floor with hk
  rw [abs_lt] at h
  have lt : ∀ {x y : Int}, q * (x : Rat) < q * y → x < y := fun h => by
    exact_mod_cast lt_of_mul_lt_mul_left h hq.le
  have n1 : k ≤ n := by
    have := lt (x := k) (y := n + 1) (by push_cast; linarith)
    omega
  have n2 : n ≤ k + 1 := by
    have := lt (x := n) (y := k + 2) (by push_cast; linarith)
    omega
  by_cases he : v = q * k
  · have h2 := roundGrid_self m hq k
    rw [← he] at h2
    have h3 := lt (x := n) (y := k + 1) (by push_cast; linarith)
    rw [h2, he, show n = k by omega]
  have hlt : q * (k : Rat) < v := lt_of_le_of_ne f1 (Ne.symm he)
  unfold roundGrid
  rw [if_neg he, ← hk]
  have c : n = k ∨ n = k + 1 := by omega
  cases m
  · rcases c with rfl | rfl
    · linarith [hu rfl]
    · push_cast; ring
  · rcases c with rfl | c
    · rfl
    · have := hd rfl
      rw [c] at this
      push_cast at this
      linarith
  · have := hz rfl
    dsimp only
    split
    · rename_i hv
      have k0 : 0 ≤ k := by
        have := lt (x := -1) (y := k) (by push_cast; linarith)
        omega
      rcases c with rfl | c
      · rfl
      · rw [c, abs_of_pos hv, abs_of_nonneg (by positivity)] at this
        push_cast at this
        linarith
    · rename_i hv
      have k1 : k + 1 ≤ 0 := by
        have := lt (x := k) (y := 0) (by push_cast; linarith)
        omega
      rcases c with rfl | c
      · have hkr : ((k : Rat) + 1) ≤ 0 := by exact_mod_cast k1
        rw [abs_of_nonpos (not_lt.mp hv), abs_of_nonpos (by nlinarith)] at this
        linarith
      · rw [c]
        push_cast
        ring
  · obtain ⟨h1, h2⟩ := hn rfl
    dsimp only
    rcases c with rfl | c
    · rw [abs_of_nonpos (by linarith)] at h1 h2
      split
      · rfl
      · rw [if_neg (by linarith), if_pos (h2 (by linarith))]
    · rw [c, abs_of_nonneg (by push_cast; linarith)] at h1 h2
      push_cast at h1 h2
      rw [if_neg (by linarith)]
      split
      · rw [c]; push_cast; ring
      · have := h2 (by linarith)
        rw [if_neg (by omega), c]
        push_cast
        ring

/-- The unit in the last place of a number of `p` bits. -/
theorem roundP_eq (m : RoundMode) (v : Rat) (p : Nat) :
    roundP m v p = roundGrid m v (pow2 (floorLog2 v - p + 1)) := rfl

/-- Rounding to `p` bits keeps the sign and stays between the powers of two around the number (R179). -/
theorem roundP_bounds (m : RoundMode) {v : Rat} (hv : v ≠ 0) {p : Nat} (hp : 0 < p) :
    pow2 (floorLog2 v) ≤ |roundP m v p| ∧ |roundP m v p| ≤ pow2 (floorLog2 v + 1) ∧
      (roundP m v p < 0 ↔ v < 0) ∧ ∃ n : Int, roundP m v p = pow2 (floorLog2 v - p + 1) * n := by
  obtain ⟨e1, e2⟩ := floorLog2_spec hv
  set e := floorLog2 v
  set q := pow2 (e - p + 1) with hqdef
  have hq : 0 < q := pow2_pos _
  obtain ⟨k, hk⟩ : ∃ k : Nat, p = k + 1 := ⟨p - 1, by omega⟩
  have lowP : pow2 e = q * ((2 ^ k : Nat) : Int) := by
    rw [hqdef, Int.cast_natCast, ← pow2_nat, ← pow2_add]; congr 1; rw [hk]; push_cast; ring
  have highP : pow2 (e + 1) = q * ((2 ^ (k + 1) : Nat) : Int) := by
    rw [hqdef, Int.cast_natCast, ← pow2_nat, ← pow2_add]; congr 1; rw [hk]; push_cast; ring
  have key : roundP m v p = roundGrid m v q := rfl
  obtain ⟨n, hn, hcase⟩ := roundGrid_cases m v hq
  obtain ⟨f1, f2⟩ := roundGrid_down (v := v) hq
  have step : ∀ a b : Int, q * a < q * b + q → a ≤ b := by
    intro a b h
    have : (a : Rat) < b + 1 := by nlinarith
    have : a < b + 1 := by exact_mod_cast this
    omega
  have mul_le : ∀ a b : Int, a ≤ b → q * (a : Rat) ≤ q * b := fun a b h =>
    mul_le_mul_of_nonneg_left (show (a : Rat) ≤ b by exact_mod_cast h) hq.le
  rw [key, hn]
  set A : Int := ((2 ^ k : Nat) : Int)
  set B : Int := ((2 ^ (k + 1) : Nat) : Int)
  have hA : 0 < A := by positivity
  rcases lt_or_gt_of_ne hv with hneg | hpos
  · rw [abs_of_neg hneg] at e1 e2
    -- `-q * B < v ≤ -q * A`
    have nl : -B ≤ n := by
      rcases hcase with h | ⟨h, h'⟩ | ⟨h, h'⟩
      · apply step; push_cast; linarith
      · rw [h]; apply step; push_cast; linarith
      · rw [h]; have := step (-B) (v / q).floor (by push_cast; linarith); omega
    have nu : n ≤ -A := by
      rcases hcase with h | ⟨h, h'⟩ | ⟨h, h'⟩
      · apply step; push_cast; linarith
      · apply step; push_cast; linarith
      · rw [h]
        have hx : (v / q).floor < -A := by
          have : q * ((v / q).floor : Rat) < q * ((-A : Int) : Rat) := by
            push_cast
            rcases lt_or_eq_of_le (show v ≤ -(q * A) by linarith) with h3 | h3
            · linarith
            · exfalso
              have h4 : roundGrid m v q = v := by
                have := roundGrid_self m hq (-A)
                push_cast at this
                rw [show v = q * -(A : Rat) by linarith]
                exact this
              rw [hn] at h4
              linarith
          have := lt_of_mul_lt_mul_left this hq.le
          exact_mod_cast this
        omega
    have neg : q * (n : Rat) < 0 := by
      have : (n : Rat) < 0 := by exact_mod_cast (by omega : n < 0)
      nlinarith
    refine ⟨?_, ?_, ⟨fun _ => hneg, fun _ => neg⟩, n, rfl⟩
    · rw [abs_of_neg neg, lowP]
      have := mul_le _ _ nu
      push_cast at this; linarith
    · rw [abs_of_neg neg, highP]
      have := mul_le _ _ nl
      push_cast at this; linarith
  · rw [abs_of_pos hpos] at e1 e2
    have nl : A ≤ n := by
      rcases hcase with h | ⟨h, h'⟩ | ⟨h, h'⟩
      · apply step; linarith
      · rw [h]; apply step; linarith
      · apply step; linarith
    have nu : n ≤ B := by
      rcases hcase with h | ⟨h, h'⟩ | ⟨h, h'⟩
      · apply step; linarith
      · apply step; linarith
      · rw [h]
        have : q * ((v / q).floor : Rat) < q * (B : Rat) := by linarith
        have := lt_of_mul_lt_mul_left this hq.le
        have : (v / q).floor < B := by exact_mod_cast this
        omega
    have pos : 0 < q * (n : Rat) := by
      have : (0 : Rat) < n := by exact_mod_cast (by omega : 0 < n)
      positivity
    refine ⟨?_, ?_, ⟨fun h => absurd h (not_lt.mpr pos.le), fun h => absurd h (not_lt.mpr hpos.le)⟩, n, rfl⟩
    · rw [abs_of_pos pos, lowP]; exact mul_le _ _ nl
    · rw [abs_of_pos pos, highP]; exact mul_le _ _ nu

/-- The largest finite number of a format, on the grid of the largest exponent (R181). -/
theorem maxFinite_eq (f : Fmt) : maxFinite f = pow2 (eMax f - fracBits f) * ((2 ^ precision f - 1 : Int) : Rat) := by
  have hp : ((2 ^ precision f : Int) : Rat) = pow2 (precision f) := by rw [pow2_nat]; push_cast; rfl
  unfold maxFinite precision at *
  push_cast at hp ⊢
  rw [hp, mul_sub, ← pow2_add, mul_one, sub_mul, show (2 : Rat) = pow2 1 from rfl, ← pow2_add, ← pow2_add]
  congr 2 <;> ring

theorem maxFinite_bounds (f : Fmt) : pow2 (eMax f) ≤ maxFinite f ∧ maxFinite f < pow2 (eMax f + 1) := by
  have h1 := pow2_pos (1 - precision f)
  have h2 := pow2_pos (eMax f)
  have h : pow2 (1 - precision f) ≤ 1 := by
    rw [show (1 : Rat) = pow2 0 from rfl, pow2_le]
    unfold precision
    omega
  unfold maxFinite
  rw [pow2_add, show pow2 1 = 2 from rfl]
  constructor <;> nlinarith

/-- A number that is not beyond the largest finite number of a format does not round beyond it (R179, R181). -/
theorem roundP_finite (f : Fmt) (m : RoundMode) {v : Rat} (hv : v ≠ 0) (h : |v| ≤ maxFinite f) :
    |roundP m v (precision f)| < pow2 (eMax f + 1) := by
  obtain ⟨e1, -⟩ := floorLog2_spec hv
  obtain ⟨-, h2, -⟩ := roundP_bounds m hv (p := precision f) (Nat.succ_pos _)
  have hlt := (maxFinite_bounds f).2
  have hle := pow2_lt.mp (lt_of_le_of_lt (e1.trans h) hlt)
  rcases lt_or_eq_of_le (Int.lt_add_one_iff.mp hle) with hf | hf
  · exact lt_of_le_of_lt h2 (pow2_lt.mpr (by omega))
  · refine lt_of_le_of_lt ?_ hlt
    rw [abs_le, maxFinite_eq] at h
    rw [abs_le, maxFinite_eq, roundP_eq, hf,
      show eMax f - precision f + 1 = eMax f - fracBits f by unfold precision; push_cast; ring]
    have := roundGrid_between m (pow2_pos (eMax f - fracBits f)) (a := -(2 ^ precision f - 1))
      (b := 2 ^ precision f - 1) (by push_cast at h ⊢; linarith [h.1]) h.2
    push_cast at this ⊢
    exact ⟨by linarith [this.1], this.2⟩

/-! ### Reading back what is encoded (R161 to R166) -/

/-- The value of the low bits of a pattern, in its format. -/
def decodeBits (f : Fmt) (b : Ext) : FVal :=
  match f with
  | .real => decodeReal (b.extractLsb' 0 32)
  | .long => decodeLong (b.extractLsb' 0 64)
  | .ext => decodeExt b

/-- The fields of a packed pattern are read back. -/
theorem decodeBits_packFields (f : Fmt) (neg : Bool) {e : Nat} (j : Bool) {frac : Nat} (he : e < 2 ^ expBits f)
    (hf : frac < 2 ^ fracBits f) :
    decodeBits f (packFields f neg e j frac) = classify f neg e (if f = .ext then j else e != 0) frac := by
  have hE : ∀ w, e < 2 ^ w → (BitVec.ofNat w e).toNat = e := fun w h => by simp [Nat.mod_eq_of_lt h]
  have hF : ∀ w, frac < 2 ^ w → (BitVec.ofNat w frac).toNat = frac := fun w h => by simp [Nat.mod_eq_of_lt h]
  cases f
  · have w32 : (packFields .real neg e j frac).extractLsb' 0 32 =
        BitVec.ofBool neg ++ BitVec.ofNat 8 e ++ BitVec.ofNat 23 frac := by
      apply BitVec.eq_of_getLsbD_eq; intro i hi
      simp only [packFields, BitVec.getLsbD_extractLsb', BitVec.getLsbD_setWidth]
      simp [hi, show i < 80 by omega]
    have x1 : (BitVec.ofBool neg ++ BitVec.ofNat 8 e ++ BitVec.ofNat 23 frac).extractLsb' 23 8 =
        BitVec.ofNat 8 e := by
      apply BitVec.eq_of_getLsbD_eq; intro i hi
      simp only [BitVec.getLsbD_extractLsb', BitVec.getLsbD_append]
      simp [hi]
    have x2 : (BitVec.ofBool neg ++ BitVec.ofNat 8 e ++ BitVec.ofNat 23 frac).extractLsb' 0 23 =
        BitVec.ofNat 23 frac := by
      apply BitVec.eq_of_getLsbD_eq; intro i hi
      simp only [BitVec.getLsbD_extractLsb', BitVec.getLsbD_append]
      simp [hi]
    have x3 : (BitVec.ofBool neg ++ BitVec.ofNat 8 e ++ BitVec.ofNat 23 frac).getLsbD 31 = neg := by
      simp only [BitVec.getLsbD_append]; simp
    change decodeReal ((packFields .real neg e j frac).extractLsb' 0 32) = _
    rw [w32]
    unfold decodeReal
    dsimp only
    rw [x1, x2, x3, hE 8 he, hF 23 hf]
    rfl
  · have w64 : (packFields .long neg e j frac).extractLsb' 0 64 =
        BitVec.ofBool neg ++ BitVec.ofNat 11 e ++ BitVec.ofNat 52 frac := by
      apply BitVec.eq_of_getLsbD_eq; intro i hi
      simp only [packFields, BitVec.getLsbD_extractLsb', BitVec.getLsbD_setWidth]
      simp [hi, show i < 80 by omega]
    have x1 : (BitVec.ofBool neg ++ BitVec.ofNat 11 e ++ BitVec.ofNat 52 frac).extractLsb' 52 11 =
        BitVec.ofNat 11 e := by
      apply BitVec.eq_of_getLsbD_eq; intro i hi
      simp only [BitVec.getLsbD_extractLsb', BitVec.getLsbD_append]
      simp [hi]
    have x2 : (BitVec.ofBool neg ++ BitVec.ofNat 11 e ++ BitVec.ofNat 52 frac).extractLsb' 0 52 =
        BitVec.ofNat 52 frac := by
      apply BitVec.eq_of_getLsbD_eq; intro i hi
      simp only [BitVec.getLsbD_extractLsb', BitVec.getLsbD_append]
      simp [hi]
    have x3 : (BitVec.ofBool neg ++ BitVec.ofNat 11 e ++ BitVec.ofNat 52 frac).getLsbD 63 = neg := by
      simp only [BitVec.getLsbD_append]; simp
    change decodeLong ((packFields .long neg e j frac).extractLsb' 0 64) = _
    rw [w64]
    unfold decodeLong
    dsimp only
    rw [x1, x2, x3, hE 11 he, hF 52 hf]
    rfl
  · have x1 : (BitVec.ofBool neg ++ BitVec.ofNat 15 e ++ BitVec.ofBool j ++ BitVec.ofNat 63 frac).extractLsb' 64 15 =
        BitVec.ofNat 15 e := by
      apply BitVec.eq_of_getLsbD_eq; intro i hi
      simp only [BitVec.getLsbD_extractLsb', BitVec.getLsbD_append]
      simp [hi, show ¬ 64 + i < 63 by omega, show 64 + i - 63 = i + 1 by omega]
    have x2 : (BitVec.ofBool neg ++ BitVec.ofNat 15 e ++ BitVec.ofBool j ++ BitVec.ofNat 63 frac).extractLsb' 0 63 =
        BitVec.ofNat 63 frac := by
      apply BitVec.eq_of_getLsbD_eq; intro i hi
      simp only [BitVec.getLsbD_extractLsb', BitVec.getLsbD_append]
      simp [hi]
    have x3 : (BitVec.ofBool neg ++ BitVec.ofNat 15 e ++ BitVec.ofBool j ++ BitVec.ofNat 63 frac).getLsbD 79 =
        neg := by
      simp only [BitVec.getLsbD_append]; simp
    have x4 : (BitVec.ofBool neg ++ BitVec.ofNat 15 e ++ BitVec.ofBool j ++ BitVec.ofNat 63 frac).getLsbD 63 =
        j := by
      simp only [BitVec.getLsbD_append]; simp
    change decodeExt (BitVec.ofBool neg ++ BitVec.ofNat 15 e ++ BitVec.ofBool j ++ BitVec.ofNat 63 frac) = _
    unfold decodeExt
    rw [x1, x2, x3, x4, hE 15 he, hF 63 hf]
    rfl

theorem expBits_pos (f : Fmt) : 1 < expBits f := by cases f <;> decide

/-- A zero reads back as the zero of its sign (R164). -/
theorem decodeBits_encodeZero (f : Fmt) (neg : Bool) : decodeBits f (encodeZero f neg) = .zero neg := by
  unfold encodeZero
  rw [decodeBits_packFields f neg false (by positivity) (by positivity)]
  cases f <;> rfl

/-- An infinity reads back as the infinity of its sign (R164). -/
theorem decodeBits_encodeInf (f : Fmt) (neg : Bool) : decodeBits f (encodeInf f neg) = .inf neg := by
  unfold encodeInf
  rw [decodeBits_packFields f neg true (by cases f <;> decide) (by positivity)]
  cases f <;> rfl

theorem signed_abs (v : Rat) : signed (decide (v < 0)) |v| = v := by
  unfold signed
  by_cases h : v < 0
  · simp [h, abs_of_neg h]
  · simp [h, abs_of_nonneg (not_lt.mp h)]

/-- A number of the format's precision and range reads back as itself (R165, R166). -/
theorem decodeBits_encodeNum (f : Fmt) {v : Rat} (hv : v ≠ 0) {n : Int}
    (hn : v = pow2 (floorLog2 v - fracBits f) * n) (hlo : eMin f ≤ floorLog2 v) (hhi : floorLog2 v ≤ eMax f) :
    decodeBits f (encodeNum f v) = .norm (decide (v < 0)) v := by
  obtain ⟨e1, e2⟩ := floorLog2_spec hv
  generalize he : floorLog2 v = e at *
  set F := fracBits f with hF
  have q0 := pow2_pos (e - F)
  have habs : |v| = pow2 (e - F) * (n.natAbs : Rat) := by
    rw [hn, abs_mul, abs_of_pos q0, Nat.cast_natAbs]; push_cast; ring
  have hshift : |v| * pow2 (F - e) = (n.natAbs : Rat) := by
    rw [habs, mul_right_comm, ← pow2_add]
    rw [show e - F + (F - e) = ((0 : Nat) : Int) by simp, pow2_nat]; simp
  have hfloor : (|v| * pow2 (F - e)).floor.toNat = n.natAbs := by
    rw [hshift]
    have h : ((n.natAbs : Rat)).floor = (n.natAbs : Int) := by
      rw [← Int.cast_natCast (R := Rat)]
      exact Rat.floor_intCast _
    rw [h, Int.toNat_natCast]
  have lo : 2 ^ F ≤ n.natAbs := by
    have h : pow2 e = pow2 (e - F) * pow2 (F : Int) := by rw [← pow2_add]; congr 1; ring
    rw [habs, h, pow2_nat] at e1
    have := le_of_mul_le_mul_left e1 q0
    exact_mod_cast this
  have hi : n.natAbs < 2 ^ (F + 1) := by
    have h : pow2 (e + 1) = pow2 (e - F) * pow2 ((F + 1 : Nat) : Int) := by
      rw [← pow2_add]; congr 1; push_cast; ring
    rw [habs, h, pow2_nat] at e2
    have := lt_of_mul_lt_mul_left e2 q0.le
    exact_mod_cast this
  have hbias : (expBias f : Int) = eMax f := rfl
  have hmin : eMin f = 1 - eMax f := rfl
  have hE0 : 0 < (e + expBias f).toNat := by omega
  have hmax : expBias f + expBias f + 2 = 2 ^ expBits f := by cases f <;> rfl
  have hE1 : (e + expBias f).toNat < expMax f := by unfold expMax; omega
  have hfr : n.natAbs - 2 ^ F < 2 ^ F := by rw [pow_succ] at hi; omega
  have hval : ((2 ^ F + (n.natAbs - 2 ^ F) : Nat) : Rat) * pow2 (((e + expBias f).toNat : Int) - expBias f - F) = |v| := by
    rw [Nat.add_sub_cancel' lo, habs, mul_comm]
    congr 2
    omega
  unfold encodeNum
  dsimp only
  rw [ratAbs_eq, he, if_neg (by omega), hfloor,
    decodeBits_packFields f _ true (by unfold expMax at hE1; omega) (by rw [← hF]; exact hfr)]
  unfold classify
  dsimp only
  rw [if_neg (by omega)]
  have hj : (!(if f = .ext then true else (e + (expBias f : Int)).toNat != 0)) = false := by
    split
    · rfl
    · simp; omega
  rw [hj]
  rw [if_neg (by simp), if_neg (by omega), ← hF, hval, signed_abs]

/-- A number below `2 ^ emin` on the grid of the least denormalized number reads back as itself (R165, R166). -/
theorem decodeBits_encodeDenorm (f : Fmt) {v : Rat} (hv : v ≠ 0) {n : Int}
    (hn : v = pow2 (eMin f - fracBits f) * n) (hlt : |v| < pow2 (eMin f)) :
    decodeBits f (encodeNum f v) = .denorm (decide (v < 0)) v := by
  have q0 := pow2_pos (eMin f - fracBits f)
  have habs : |v| = (n.natAbs : Rat) * pow2 (eMin f - fracBits f) := by
    rw [hn, abs_mul, abs_of_pos q0, Nat.cast_natAbs]; push_cast; ring
  have hfloor : (|v| * pow2 (fracBits f - eMin f)).floor.toNat = n.natAbs := by
    rw [habs, mul_assoc, ← pow2_add, show eMin f - fracBits f + (fracBits f - eMin f) = ((0 : Nat) : Int) by simp,
      pow2_nat]
    have h : ((n.natAbs : Rat)).floor = (n.natAbs : Int) := by
      rw [← Int.cast_natCast (R := Rat)]
      exact Rat.floor_intCast _
    rw [Nat.cast_pow, Nat.cast_ofNat, pow_zero, mul_one, h, Int.toNat_natCast]
  have hi : n.natAbs < 2 ^ fracBits f := by
    rw [habs, show eMin f = (fracBits f : Int) + (eMin f - fracBits f) by ring, pow2_add, pow2_nat] at hlt
    rw [show (fracBits f : Int) + (eMin f - fracBits f) - fracBits f = eMin f - fracBits f by ring] at hlt
    exact_mod_cast lt_of_mul_lt_mul_right hlt q0.le
  have h0 : n.natAbs ≠ 0 := by
    rintro h
    rw [Int.natAbs_eq_zero.mp h] at hn
    exact hv (by simpa using hn)
  have he : floorLog2 v < eMin f := pow2_lt.mp (lt_of_le_of_lt (floorLog2_spec hv).1 hlt)
  unfold encodeNum
  dsimp only
  rw [ratAbs_eq, if_pos he, hfloor, decodeBits_packFields f _ false (by positivity) hi]
  unfold classify
  dsimp only
  rw [if_pos rfl, if_neg, if_neg h0, ← habs, signed_abs]
  cases f <;> decide

/-- The largest finite number of a format reads back as itself (R181). -/
theorem decodeBits_encodeMax (f : Fmt) (neg : Bool) :
    decodeBits f (encodeNum f (signed neg (maxFinite f))) = .norm neg (signed neg (maxFinite f)) := by
  obtain ⟨h1, h2⟩ := maxFinite_bounds f
  have h0 := lt_of_lt_of_le (pow2_pos (eMax f)) h1
  have key : ∀ v : Rat, |v| = maxFinite f → (∃ n : Int, v = pow2 (eMax f - fracBits f) * n) →
      decodeBits f (encodeNum f v) = .norm (decide (v < 0)) v := by
    rintro v hv ⟨n, hn⟩
    have hf : floorLog2 v = eMax f := floorLog2_unique (hv ▸ h1) (hv ▸ h2)
    refine decodeBits_encodeNum f ?_ (hf.symm ▸ hn) ?_ hf.le
    · rintro rfl
      rw [abs_zero] at hv
      exact absurd hv h0.ne
    · rw [hf]; cases f <;> decide
  cases neg
  · have := key (maxFinite f) (abs_of_pos h0) ⟨_, maxFinite_eq f⟩
    rw [decide_eq_false (not_lt.mpr h0.le)] at this
    exact this
  · have := key (-maxFinite f) (by rw [abs_neg, abs_of_pos h0])
      ⟨-(2 ^ precision f - 1), by rw [maxFinite_eq]; push_cast; ring⟩
    rw [decide_eq_true (neg_lt_zero.mpr h0)] at this
    exact this

/-- A rounded number is on the grid of its own exponent, so that it fits the format it was rounded to. -/
theorem roundP_fits (m : RoundMode) {v : Rat} (hv : v ≠ 0) {p : Nat} (hp : 0 < p) :
    roundP m v p ≠ 0 ∧ ∃ n : Int, roundP m v p = pow2 (floorLog2 (roundP m v p) - p + 1) * n := by
  obtain ⟨h1, h2, h3, n, hn⟩ := roundP_bounds m hv hp
  have e0 := pow2_pos (floorLog2 v)
  have hne : roundP m v p ≠ 0 := by
    intro h
    rw [h] at h1
    simp at h1
    linarith
  refine ⟨hne, ?_⟩
  rcases lt_or_eq_of_le h2 with hlt | heq
  · rw [floorLog2_unique h1 hlt]
    exact ⟨n, hn⟩
  · have : floorLog2 (roundP m v p) = floorLog2 v + 1 :=
      floorLog2_unique (by rw [heq]) (by rw [heq]; exact pow2_lt.mpr (by omega))
    rw [this]
    obtain ⟨k, hk⟩ : ∃ k : Nat, p = k + 1 := ⟨p - 1, by omega⟩
    have hp2 : pow2 (floorLog2 v + 1) = pow2 (floorLog2 v + 1 - p + 1) * ((2 ^ k : Nat) : Int) := by
      rw [Int.cast_natCast, ← pow2_nat, ← pow2_add]; congr 1; rw [hk]; push_cast; ring
    rcases abs_cases (roundP m v p) with ⟨ha, _⟩ | ⟨ha, _⟩
    · exact ⟨((2 ^ k : Nat) : Int), by rw [← hp2, ← heq, ha]⟩
    · exact ⟨-((2 ^ k : Nat) : Int), by push_cast at hp2 ⊢; rw [mul_neg, ← hp2, ← heq, ha, neg_neg]⟩

/-- A number rounded to a format's precision reads back as itself, where its exponent is in range (R179, R180). -/
theorem decodeBits_encodeNum_roundP (f : Fmt) (m : RoundMode) {v : Rat} (hv : v ≠ 0)
    (hlo : pow2 (eMin f) ≤ |roundP m v (precision f)|) (hhi : |roundP m v (precision f)| < pow2 (eMax f + 1)) :
    decodeBits f (encodeNum f (roundP m v (precision f))) =
      .norm (decide (v < 0)) (roundP m v (precision f)) := by
  have hp : 0 < precision f := Nat.succ_pos _
  obtain ⟨hne, n, hn⟩ := roundP_fits m hv hp
  obtain ⟨e1, e2⟩ := floorLog2_spec hne
  have a := pow2_lt.mp (lt_of_le_of_lt hlo e2)
  have b := pow2_lt.mp (lt_of_le_of_lt e1 hhi)
  have hg : roundP m v (precision f) =
      pow2 (floorLog2 (roundP m v (precision f)) - fracBits f) * n := by
    conv_lhs => rw [hn]
    congr 2
    unfold precision
    push_cast
    ring
  rw [decodeBits_encodeNum f hne hg (by omega) (by omega)]
  have := (roundP_bounds m hv hp).2.2.1
  simp [this]

/-! ### Reading a destination back (R169) -/

/-- A stored pattern is what a fetch from the same operand decodes. -/
theorem fetch_storeFp (f : Fmt) (dst : FpDst) (bits : Ext) (s : State) (h : f ≠ .ext) :
    fetch f (storeFp (destFmt f dst) dst bits s) (match dst with | .reg n => .reg n | .fpr k => .fpr k) =
      decodeBits (destFmt f dst) bits := by
  cases dst with
  | fpr k =>
    change decodeExt (getFp (setFp s k bits) k) = decodeExt bits
    rw [getFp_setFp, if_pos rfl]
  | reg n =>
    cases f with
    | real =>
      change decodeReal (getReg (setReg s n _) n) = _
      rw [getReg_setReg_same]
      rfl
    | long =>
      change decodeLong (getReg (setRegLong s n _) (n + 1#5) ++ getReg (setRegLong s n _) n) = _
      rw [getReg_setRegLong, getReg_setRegLong, if_pos rfl, if_neg (Ne.symm (reg_succ_ne n)), if_pos rfl]
      change decodeLong _ = decodeLong _
      congr 1
      apply BitVec.eq_of_getLsbD_eq; intro i hi
      simp only [BitVec.getLsbD_append, BitVec.getLsbD_extractLsb']
      by_cases h32 : i < 32
      · simp [h32, hi]
      · simp [h32, show i - 32 < 32 by omega, show 32 + (i - 32) = i by omega, hi]
    | ext => exact absurd rfl h

end Sys2Proof.Machine
end

