-- ==== Sys2Proof/Laws/FpResults.lean ====
section
/-! SUPPORT. What the stages of an arithmetic floating-point instruction come to (R169, R199 to R207). -/
namespace Sys2Proof.Machine

/-! ### Stores to a destination (R169) -/

/-- A store to a destination changes registers only. -/
theorem storeFp_eq (f : Fmt) (dst : FpDst) (bits : Ext) (s : State) :
    ∃ globals cur fp, storeFp f dst bits s = { s with globals := globals, cur := cur, fp := fp } := by
  have h : ∀ (t : State) (n : Reg) (v : Word), ∃ g c, setReg t n v = { t with globals := g, cur := c } := by
    intro t n v
    unfold setReg
    split
    · exact ⟨_, t.cur, rfl⟩
    · exact ⟨t.globals, _, rfl⟩
  cases dst with
  | fpr k => exact ⟨s.globals, s.cur, _, rfl⟩
  | reg n =>
    cases f with
    | real =>
      obtain ⟨g, c, e⟩ := h s n (bits.extractLsb' 0 32)
      exact ⟨g, c, s.fp, e⟩
    | long =>
      obtain ⟨g, c, e⟩ := h s n ((bits.extractLsb' 0 64).extractLsb' 0 32)
      obtain ⟨g2, c2, e2⟩ := h (setReg s n ((bits.extractLsb' 0 64).extractLsb' 0 32)) (n + 1#5)
        ((bits.extractLsb' 0 64).extractLsb' 32 32)
      exact ⟨g2, c2, s.fp, by change setReg (setReg _ _ _) _ _ = _; rw [e2, e]⟩
    | ext =>
      obtain ⟨g, c, e⟩ := h s n ((bits.extractLsb' 0 64).extractLsb' 0 32)
      obtain ⟨g2, c2, e2⟩ := h (setReg s n ((bits.extractLsb' 0 64).extractLsb' 0 32)) (n + 1#5)
        ((bits.extractLsb' 0 64).extractLsb' 32 32)
      obtain ⟨g3, c3, e3⟩ := h (setReg (setReg s n ((bits.extractLsb' 0 64).extractLsb' 0 32)) (n + 1#5)
        ((bits.extractLsb' 0 64).extractLsb' 32 32)) (n + 2#5) ((bits.extractLsb' 64 16).setWidth 32)
      exact ⟨g3, c3, s.fp, by change setReg (setReg (setReg _ _ _) _ _) _ _ = _; rw [e3, e2, e]⟩

/-- The registers a store to a destination leaves as they are. -/
theorem getReg_storeFp (f : Fmt) (dst : FpDst) (bits : Ext) (s : State) (r : Reg)
    (h : ∀ n, dst = .reg n → r ≠ n ∧ (f ≠ .real → r ≠ n + 1#5) ∧ (f = .ext → r ≠ n + 2#5)) :
    getReg (storeFp f dst bits s) r = getReg s r := by
  cases dst with
  | fpr k => rfl
  | reg n =>
    obtain ⟨h0, h1, h2⟩ := h n rfl
    cases f with
    | real =>
      change getReg (setReg s n _) r = _
      rw [getReg_setReg, if_neg h0]
    | long =>
      change getReg (setRegLong s n _) r = _
      rw [getReg_setRegLong, if_neg (h1 (by decide)), if_neg h0]
    | ext =>
      change getReg (setReg (setRegLong s n _) _ _) r = _
      rw [getReg_setReg, if_neg (h2 rfl), getReg_setRegLong, if_neg (h1 (by decide)), if_neg h0]

/-- The floating-point registers a store to a destination leaves as they are. -/
theorem getFp_storeFp (f : Fmt) (dst : FpDst) (bits : Ext) (s : State) (k : BitVec 2) (h : dst ≠ .fpr k) :
    getFp (storeFp f dst bits s) k = getFp s k := by
  cases dst with
  | fpr j =>
    change getFp (setFp s j bits) k = _
    rw [getFp_setFp, if_neg]
    rintro rfl
    exact h rfl
  | reg n =>
    have hs : ∀ (t : State) (m : Reg) (v : Word), getFp (setReg t m v) k = getFp t k := fun t m v => getFp_setReg t m v k
    cases f <;> simp [storeFp, setRegLong, hs]

/-! ### The operand checks (R194, R199) -/

/-- An operand that passes the checks and does not signal. -/
def isQuiet (s : State) (a : FVal) : Prop :=
  isUnnamed a = false ∧ isReservedOperand s a = false ∧ isSnan a = false

/-- Operands that pass the checks and do not signal go to the outcome of the instruction's own rule. -/
theorem arith_quiet {f : Fmt} {dst : FpDst} {ops : List FVal} {o : FpOutcome} {s : State}
    (h : ∀ a ∈ ops, isQuiet s a) : arith f dst ops o s = .ok (storeOutcome f dst ops o s) := by
  have h1 : ops.any isUnnamed = false := List.any_eq_false.mpr fun a ha => by simp [(h a ha).1]
  have h2 : ops.any (isReservedOperand s) = false := List.any_eq_false.mpr fun a ha => by simp [(h a ha).2.1]
  have h3 : ops.any isSnan = false := List.any_eq_false.mpr fun a ha => by simp [(h a ha).2.2]
  unfold arith checkOperands
  simp [h1, h2, h3]

/-- Operands that pass the checks, one of which signals: the invalid operation (R196, R199). -/
theorem arith_signaling {f : Fmt} {dst : FpDst} {ops : List FVal} {o : FpOutcome} {s : State}
    (h1 : ∀ a ∈ ops, isUnnamed a = false) (h2 : ∀ a ∈ ops, isReservedOperand s a = false)
    (h3 : ∃ a ∈ ops, isSnan a = true) : arith f dst ops o s = .ok (invalidResult f dst ops s) := by
  have h1 : ops.any isUnnamed = false := List.any_eq_false.mpr fun a ha => by simp [h1 a ha]
  have h2 : ops.any (isReservedOperand s) = false := List.any_eq_false.mpr fun a ha => by simp [h2 a ha]
  have h3 : ops.any isSnan = true := List.any_eq_true.mpr h3
  unfold arith checkOperands
  simp [h1, h2, h3]

/-- An operand with a reserved encoding, or a denormalized one outside normalizing mode, faults (R194). -/
theorem arith_reserved {f : Fmt} {dst : FpDst} {ops : List FVal} {o : FpOutcome} {s : State}
    (h1 : ∀ a ∈ ops, isUnnamed a = false) (h2 : ∃ a ∈ ops, isReservedOperand s a = true) :
    arith f dst ops o s = .ok (reservedFault s) := by
  have h1 : ops.any isUnnamed = false := List.any_eq_false.mpr fun a ha => by simp [h1 a ha]
  have h2 : ops.any (isReservedOperand s) = true := List.any_eq_true.mpr h2
  unfold arith checkOperands
  simp [h1, h2]

/-! ### The result stage (R200 to R205) -/

/-- A result in range that rounding does not change, or that is inexact with the mask set (R200, R205). -/
theorem deliver_inRange {f : Fmt} {dst : FpDst} {v : Rat} {s : State}
    (hlo : pow2 (eMin f) ≤ |roundP (roundMode s) v (precision f)|)
    (hhi : |roundP (roundMode s) v (precision f)| < pow2 (eMax f + 1))
    (hbe : s.params.overflowAfterRounding = false → |v| ≤ maxFinite f)
    (hx : acBit s fxmBit = true ∨ roundP (roundMode s) v (precision f) = v) :
    deliver f dst v s = storeDone f dst (encodeNum f (roundP (roundMode s) v (precision f)))
      (if roundP (roundMode s) v (precision f) = v then s else setAcFlag s fxfBit) := by
  have ho : overflows s.params f v (roundP (roundMode s) v (precision f)) = false := by
    unfold overflows
    split
    · rw [ratAbs_eq]
      simpa using hhi
    · rename_i h
      rw [ratAbs_eq]
      simpa using hbe (Bool.eq_false_iff.mpr h)
  have ht : isTiny f (roundP (roundMode s) v (precision f)) = false := by
    unfold isTiny
    rw [ratAbs_eq]
    simpa using hlo
  unfold deliver
  simp only [ho, ht, Bool.false_eq_true, if_false]
  split
  · rfl
  · rename_i h
    have hm := hx.resolve_right h
    unfold storeInexact
    simp [hm]

/-- With overflow, underflow and inexactness masked every exact result is stored (R200 to R205). -/
theorem deliver_masked {f : Fmt} {dst : FpDst} {v : Rat} {s : State} (h1 : acBit s fomBit = true)
    (h2 : acBit s fumBit = true) (h3 : acBit s fxmBit = true) :
    ∃ bits t, deliver f dst v s = storeDone f dst bits t ∧
      (t = s ∨ t = setAcFlag s fxfBit ∨ t = setAcFlag (setAcFlag s fofBit) fxfBit ∨
        t = setAcFlag (setAcFlag s fufBit) fxfBit) := by
  have h4 : ∀ i, i ≠ fxmBit → acBit (setAcFlag s i) fxmBit = true := by
    intro i hi
    change getBit (setBit s.ac i true) fxmBit = true
    rw [getBit_setBit, if_neg (by omega)]
    exact h3
  unfold deliver
  simp only [h1, h2, if_true]
  split
  · unfold storeInexact
    rw [if_pos (h4 _ (by decide))]
    exact ⟨_, _, rfl, Or.inr (Or.inr (Or.inl rfl))⟩
  · split
    · split
      · exact ⟨_, _, rfl, Or.inl rfl⟩
      · unfold storeInexact
        rw [if_pos (h4 _ (by decide))]
        exact ⟨_, _, rfl, Or.inr (Or.inr (Or.inr rfl))⟩
    · split
      · exact ⟨_, _, rfl, Or.inl rfl⟩
      · unfold storeInexact
        rw [if_pos h3]
        exact ⟨_, _, rfl, Or.inr (Or.inl rfl)⟩

/-- With every floating-point exception masked every outcome is stored, with exception flags set at most. -/
theorem storeOutcome_masked {f : Fmt} {dst : FpDst} {ops : List FVal} {s : State} (o : FpOutcome)
    (h1 : acBit s fomBit = true) (h2 : acBit s fumBit = true) (h3 : acBit s fxmBit = true)
    (h4 : acBit s fvmBit = true) (h5 : acBit s fzmBit = true) :
    ∃ bits t, storeOutcome f dst ops o s = storeDone f dst bits t ∧
      (t = s ∨ t = setAcFlag s fxfBit ∨ t = setAcFlag (setAcFlag s fofBit) fxfBit ∨
        t = setAcFlag (setAcFlag s fufBit) fxfBit ∨ t = setAcFlag s fvfBit ∨ t = setAcFlag s fzfBit) := by
  cases o with
  | invalid =>
    refine ⟨nanResult s.params f ops, setAcFlag s fvfBit, ?_, by tauto⟩
    change invalidResult f dst ops s = _
    unfold invalidResult
    rw [if_pos h4]
  | nan => exact ⟨_, s, rfl, Or.inl rfl⟩
  | zeroDivide neg =>
    refine ⟨encodeInf f neg, setAcFlag s fzfBit, ?_, by tauto⟩
    change zeroDivideResult f dst neg s = _
    unfold zeroDivideResult
    rw [if_pos h5]
  | zero neg => exact ⟨_, s, rfl, Or.inl rfl⟩
  | inf neg => exact ⟨_, s, rfl, Or.inl rfl⟩
  | exact v => exact ⟨_, s, rfl, Or.inl rfl⟩
  | value v =>
    obtain ⟨bits, t, h, ht⟩ := deliver_masked (f := f) (dst := dst) (v := v) h1 h2 h3
    exact ⟨bits, t, h, by tauto⟩
  | rounded neg v =>
    refine ⟨encodeValue f neg v, setAcFlag s fxfBit, ?_, by tauto⟩
    change storeInexact f dst _ s = _
    unfold storeInexact
    rw [if_pos h3]

end Sys2Proof.Machine
end

