-- ==== Sys2Proof/Laws/PerInstr.lean ====
section
/-! SUPPORT. The per-instruction family EncodedLength (R131, 30_encoding.md): an instruction is encoded in two words
exactly where its first word says so, so that the fetch, which sees the first word only, reads as many words as the
encoder wrote. -/
namespace Sys2Proof.Laws.EncodedLength

/-- The first word tells whether there is a second (R131). -/
def Statement (i : Instr) : Prop := hasSecondWord (encode i).first = (encode i).second.isSome

/-- A REG instruction is one word (R121). -/
theorem regWord_one (op : BitVec 12) (d s2 s1 : Bool × BitVec 5) (h : (op.extractLsb' 4 8).toNat < 0x80) :
    hasSecondWord (regWord op d s2 s1) = false := by
  unfold hasSecondWord
  dsimp only
  rw [op8Field_regWord]
  rw [decide_eq_false (show ¬ 0x80 ≤ (op.extractLsb' 4 8).toNat by omega)]
  simp only [Bool.false_and]

/-- A CTRL instruction is one word (R121). -/
theorem encodeCtrl_one (op : BitVec 8) (t : CtrlDisp) (h : op.toNat < 0x80) :
    hasSecondWord (encodeCtrl op t) = false := by
  unfold hasSecondWord
  dsimp only
  rw [op8Field_encodeCtrl]
  simp [show ¬ 0x80 ≤ op.toNat by omega]

/-- A MEM instruction is two words exactly where its address has a displacement word (R131). -/
theorem encodeMem_length (op : BitVec 8) (r : Reg) (a : Addr) (h1 : 0x80 ≤ op.toNat) (h2 : op.toNat < 0xD0) :
    hasSecondWord (encodeMem op r a).first = (encodeMem op r a).second.isSome := by
  have mema : ∀ (base : BitVec 5) (md : BitVec 2) (off : BitVec 12), md.getLsbD 0 = false →
      hasSecondWord (op ++ r ++ base ++ md ++ off) = false := by
    intro base md off h
    change hasSecondWord (memaWord op r base md off) = false
    unfold hasSecondWord
    rw [m2Field_memaWord, h]
    simp only [Bool.and_false, Bool.false_and]
  cases a <;> simp only [encodeMem, Option.isSome_none, Option.isSome_some]
  case offset o => exact mema _ _ _ rfl
  case baseOffset n o => exact mema _ _ _ rfl
  all_goals
    unfold hasSecondWord
    simp [h1, h2]

theorem cvtir : ∀ x0 x1, Statement (.cvtir x0 x1) := fun _ _ => regWord_one _ _ _ _ (by decide)
theorem cvtilr : ∀ x0 x1, Statement (.cvtilr x0 x1) := fun _ _ => regWord_one _ _ _ _ (by decide)
theorem cvtri : ∀ x0 x1, Statement (.cvtri x0 x1) := fun _ _ => regWord_one _ _ _ _ (by decide)
theorem cvtril : ∀ x0 x1, Statement (.cvtril x0 x1) := fun _ _ => regWord_one _ _ _ _ (by decide)
theorem cvtzri : ∀ x0 x1, Statement (.cvtzri x0 x1) := fun _ _ => regWord_one _ _ _ _ (by decide)
theorem cvtzril : ∀ x0 x1, Statement (.cvtzril x0 x1) := fun _ _ => regWord_one _ _ _ _ (by decide)
theorem scaler : ∀ x0 x1 x2, Statement (.scaler x0 x1 x2) := fun _ _ _ => regWord_one _ _ _ _ (by decide)
theorem scalerl : ∀ x0 x1 x2, Statement (.scalerl x0 x1 x2) := fun _ _ _ => regWord_one _ _ _ _ (by decide)
theorem atanr : ∀ x0 x1 x2, Statement (.atanr x0 x1 x2) := fun _ _ _ => regWord_one _ _ _ _ (by decide)
theorem logepr : ∀ x0 x1 x2, Statement (.logepr x0 x1 x2) := fun _ _ _ => regWord_one _ _ _ _ (by decide)
theorem logr : ∀ x0 x1 x2, Statement (.logr x0 x1 x2) := fun _ _ _ => regWord_one _ _ _ _ (by decide)
theorem remr : ∀ x0 x1 x2, Statement (.remr x0 x1 x2) := fun _ _ _ => regWord_one _ _ _ _ (by decide)
theorem cmpor : ∀ x0 x1, Statement (.cmpor x0 x1) := fun _ _ => regWord_one _ _ _ _ (by decide)
theorem cmpr : ∀ x0 x1, Statement (.cmpr x0 x1) := fun _ _ => regWord_one _ _ _ _ (by decide)
theorem sqrtr : ∀ x0 x1, Statement (.sqrtr x0 x1) := fun _ _ => regWord_one _ _ _ _ (by decide)
theorem expr : ∀ x0 x1, Statement (.expr x0 x1) := fun _ _ => regWord_one _ _ _ _ (by decide)
theorem logbnr : ∀ x0 x1, Statement (.logbnr x0 x1) := fun _ _ => regWord_one _ _ _ _ (by decide)
theorem roundr : ∀ x0 x1, Statement (.roundr x0 x1) := fun _ _ => regWord_one _ _ _ _ (by decide)
theorem sinr : ∀ x0 x1, Statement (.sinr x0 x1) := fun _ _ => regWord_one _ _ _ _ (by decide)
theorem cosr : ∀ x0 x1, Statement (.cosr x0 x1) := fun _ _ => regWord_one _ _ _ _ (by decide)
theorem tanr : ∀ x0 x1, Statement (.tanr x0 x1) := fun _ _ => regWord_one _ _ _ _ (by decide)
theorem classr : ∀ x0, Statement (.classr x0) := fun _ => regWord_one _ _ _ _ (by decide)
theorem atanrl : ∀ x0 x1 x2, Statement (.atanrl x0 x1 x2) := fun _ _ _ => regWord_one _ _ _ _ (by decide)
theorem logeprl : ∀ x0 x1 x2, Statement (.logeprl x0 x1 x2) := fun _ _ _ => regWord_one _ _ _ _ (by decide)
theorem logrl : ∀ x0 x1 x2, Statement (.logrl x0 x1 x2) := fun _ _ _ => regWord_one _ _ _ _ (by decide)
theorem remrl : ∀ x0 x1 x2, Statement (.remrl x0 x1 x2) := fun _ _ _ => regWord_one _ _ _ _ (by decide)
theorem cmporl : ∀ x0 x1, Statement (.cmporl x0 x1) := fun _ _ => regWord_one _ _ _ _ (by decide)
theorem cmprl : ∀ x0 x1, Statement (.cmprl x0 x1) := fun _ _ => regWord_one _ _ _ _ (by decide)
theorem sqrtrl : ∀ x0 x1, Statement (.sqrtrl x0 x1) := fun _ _ => regWord_one _ _ _ _ (by decide)
theorem exprl : ∀ x0 x1, Statement (.exprl x0 x1) := fun _ _ => regWord_one _ _ _ _ (by decide)
theorem logbnrl : ∀ x0 x1, Statement (.logbnrl x0 x1) := fun _ _ => regWord_one _ _ _ _ (by decide)
theorem roundrl : ∀ x0 x1, Statement (.roundrl x0 x1) := fun _ _ => regWord_one _ _ _ _ (by decide)
theorem sinrl : ∀ x0 x1, Statement (.sinrl x0 x1) := fun _ _ => regWord_one _ _ _ _ (by decide)
theorem cosrl : ∀ x0 x1, Statement (.cosrl x0 x1) := fun _ _ => regWord_one _ _ _ _ (by decide)
theorem tanrl : ∀ x0 x1, Statement (.tanrl x0 x1) := fun _ _ => regWord_one _ _ _ _ (by decide)
theorem classrl : ∀ x0, Statement (.classrl x0) := fun _ => regWord_one _ _ _ _ (by decide)
theorem movr : ∀ x0 x1, Statement (.movr x0 x1) := fun _ _ => regWord_one _ _ _ _ (by decide)
theorem movrl : ∀ x0 x1, Statement (.movrl x0 x1) := fun _ _ => regWord_one _ _ _ _ (by decide)
theorem movre : ∀ x0 x1, Statement (.movre x0 x1) := fun _ _ => regWord_one _ _ _ _ (by decide)
theorem cpysre : ∀ x0 x1 x2, Statement (.cpysre x0 x1 x2) := fun _ _ _ => regWord_one _ _ _ _ (by decide)
theorem cpyrsre : ∀ x0 x1 x2, Statement (.cpyrsre x0 x1 x2) := fun _ _ _ => regWord_one _ _ _ _ (by decide)
theorem divr : ∀ x0 x1 x2, Statement (.divr x0 x1 x2) := fun _ _ _ => regWord_one _ _ _ _ (by decide)
theorem mulr : ∀ x0 x1 x2, Statement (.mulr x0 x1 x2) := fun _ _ _ => regWord_one _ _ _ _ (by decide)
theorem subr : ∀ x0 x1 x2, Statement (.subr x0 x1 x2) := fun _ _ _ => regWord_one _ _ _ _ (by decide)
theorem addr : ∀ x0 x1 x2, Statement (.addr x0 x1 x2) := fun _ _ _ => regWord_one _ _ _ _ (by decide)
theorem divrl : ∀ x0 x1 x2, Statement (.divrl x0 x1 x2) := fun _ _ _ => regWord_one _ _ _ _ (by decide)
theorem mulrl : ∀ x0 x1 x2, Statement (.mulrl x0 x1 x2) := fun _ _ _ => regWord_one _ _ _ _ (by decide)
theorem subrl : ∀ x0 x1 x2, Statement (.subrl x0 x1 x2) := fun _ _ _ => regWord_one _ _ _ _ (by decide)
theorem addrl : ∀ x0 x1 x2, Statement (.addrl x0 x1 x2) := fun _ _ _ => regWord_one _ _ _ _ (by decide)
theorem alterbit : ∀ x0 x1 x2, Statement (.alterbit x0 x1 x2) := fun _ _ _ => regWord_one _ _ _ _ (by decide)
theorem addo : ∀ x0 x1 x2, Statement (.addo x0 x1 x2) := fun _ _ _ => regWord_one _ _ _ _ (by decide)
theorem chkbit : ∀ x0 x1, Statement (.chkbit x0 x1) := fun _ _ => regWord_one _ _ _ _ (by decide)
theorem mov : ∀ x0 x1, Statement (.mov x0 x1) := fun _ _ => regWord_one _ _ _ _ (by decide)
theorem movl : ∀ x0 x1, Statement (.movl x0 x1) := fun _ _ => regWord_one _ _ _ _ (by decide)
theorem movt : ∀ x0 x1, Statement (.movt x0 x1) := fun _ _ => regWord_one _ _ _ _ (by decide)
theorem synmov : ∀ x0 x1, Statement (.synmov x0 x1) := fun _ _ => regWord_one _ _ _ _ (by decide)
theorem synld : ∀ x0 x1, Statement (.synld x0 x1) := fun _ _ => regWord_one _ _ _ _ (by decide)
theorem modac : ∀ x0 x1 x2, Statement (.modac x0 x1 x2) := fun _ _ _ => regWord_one _ _ _ _ (by decide)
theorem modtc : ∀ x0 x1 x2, Statement (.modtc x0 x1 x2) := fun _ _ _ => regWord_one _ _ _ _ (by decide)
theorem modpc : ∀ x0 x1 x2, Statement (.modpc x0 x1 x2) := fun _ _ _ => regWord_one _ _ _ _ (by decide)
theorem calls : ∀ x0, Statement (.calls x0) := fun _ => regWord_one _ _ _ _ (by decide)
theorem mark : Statement .mark := regWord_one _ _ _ _ (by decide)
theorem fmark : Statement .fmark := regWord_one _ _ _ _ (by decide)
theorem flushreg : Statement .flushreg := regWord_one _ _ _ _ (by decide)
theorem syncf : Statement .syncf := regWord_one _ _ _ _ (by decide)
theorem ediv : ∀ x0 x1 x2, Statement (.ediv x0 x1 x2) := fun _ _ _ => regWord_one _ _ _ _ (by decide)
theorem b : ∀ x0, Statement (.b x0) := fun _ => encodeCtrl_one _ _ (by decide)
theorem call : ∀ x0, Statement (.call x0) := fun _ => encodeCtrl_one _ _ (by decide)
theorem ret : Statement .ret := encodeCtrl_one _ _ (by decide)
theorem bal : ∀ x0, Statement (.bal x0) := fun _ => encodeCtrl_one _ _ (by decide)
theorem bno : ∀ x0, Statement (.bno x0) := fun _ => encodeCtrl_one _ _ (by decide)
theorem bg : ∀ x0, Statement (.bg x0) := fun _ => encodeCtrl_one _ _ (by decide)
theorem be : ∀ x0, Statement (.be x0) := fun _ => encodeCtrl_one _ _ (by decide)
theorem bge : ∀ x0, Statement (.bge x0) := fun _ => encodeCtrl_one _ _ (by decide)
theorem bl : ∀ x0, Statement (.bl x0) := fun _ => encodeCtrl_one _ _ (by decide)
theorem bne : ∀ x0, Statement (.bne x0) := fun _ => encodeCtrl_one _ _ (by decide)
theorem ble : ∀ x0, Statement (.ble x0) := fun _ => encodeCtrl_one _ _ (by decide)
theorem bo : ∀ x0, Statement (.bo x0) := fun _ => encodeCtrl_one _ _ (by decide)
theorem faultno : Statement .faultno := encodeCtrl_one _ _ (by decide)
theorem faultg : Statement .faultg := encodeCtrl_one _ _ (by decide)
theorem faulte : Statement .faulte := encodeCtrl_one _ _ (by decide)
theorem faultge : Statement .faultge := encodeCtrl_one _ _ (by decide)
theorem faultl : Statement .faultl := encodeCtrl_one _ _ (by decide)
theorem faultne : Statement .faultne := encodeCtrl_one _ _ (by decide)
theorem faultle : Statement .faultle := encodeCtrl_one _ _ (by decide)
theorem faulto : Statement .faulto := encodeCtrl_one _ _ (by decide)
theorem bx : ∀ x0, Statement (.bx x0) := fun _ => encodeMem_length _ _ _ (by decide) (by decide)
theorem balx : ∀ x0 x1, Statement (.balx x0 x1) := fun _ _ => encodeMem_length _ _ _ (by decide) (by decide)
theorem callx : ∀ x0, Statement (.callx x0) := fun _ => encodeMem_length _ _ _ (by decide) (by decide)
theorem ld : ∀ x0 x1, Statement (.ld x0 x1) := fun _ _ => encodeMem_length _ _ _ (by decide) (by decide)
theorem st : ∀ x0 x1, Statement (.st x0 x1) := fun _ _ => encodeMem_length _ _ _ (by decide) (by decide)
theorem ldl : ∀ x0 x1, Statement (.ldl x0 x1) := fun _ _ => encodeMem_length _ _ _ (by decide) (by decide)
theorem stl : ∀ x0 x1, Statement (.stl x0 x1) := fun _ _ => encodeMem_length _ _ _ (by decide) (by decide)
theorem ldt : ∀ x0 x1, Statement (.ldt x0 x1) := fun _ _ => encodeMem_length _ _ _ (by decide) (by decide)
theorem stt : ∀ x0 x1, Statement (.stt x0 x1) := fun _ _ => encodeMem_length _ _ _ (by decide) (by decide)

end Sys2Proof.Laws.EncodedLength
end

