-- ==== Sys2Proof/Tests/Slice0.lean ====
section
/-! SUPPORT. Tests: ill-formed terms, decoded words, single steps, and a witness for the hypotheses of every
statement. Expected values come from 95_test_vectors.md (Parts 1 and 2) and the rules it cites; register numbers are
those of R124. -/
set_option Elab.async false
namespace Sys2Proof.Tests
open Sys2Proof.Machine Sys2Proof.Claims

/-! ### WellFormed: one ill-formed term for each check -/

theorem test_wf_scale : Instr.wellFormed (.ld (.baseIndex 1 2 5) 3) = false ∧
    Instr.wellFormed (.st 3 (.indexDisp 2 6 0)) = false ∧
    Instr.wellFormed (.callx (.baseIndexDisp 1 2 7 0)) = false ∧
    Instr.wellFormed (.balx (.baseIndex 1 2 5) 3) = false ∧
    Instr.wellFormed (.ld (.baseIndex 1 2 4) 3) = true := by decide
theorem test_wf_pairs : Instr.regsAligned (.movl (.reg 17) 18) = false ∧ Instr.regsAligned (.movl (.reg 16) 19) = false ∧
    Instr.regsAligned (.ediv (.reg 17) (.reg 17) 18) = false ∧ Instr.regsAligned (.ldl (.base 1) 5) = false ∧
    Instr.regsAligned (.stl 5 (.base 1)) = false ∧ Instr.regsAligned (.cvtilr (.reg 5) (.fpr 0)) = false ∧
    Instr.regsAligned (.cvtril (.fpr 0) 5) = false := by decide
theorem test_wf_triples : Instr.regsAligned (.movt (.reg 18) 20) = false ∧ Instr.regsAligned (.ldt (.base 1) 6) = false ∧
    Instr.regsAligned (.stt 6 (.base 1)) = false ∧ Instr.regsAligned (.movre (.reg 18) (.fpr 0)) = false ∧
    Instr.regsAligned (.cpysre (.fpr 0) (.reg 6) (.fpr 0)) = false := by decide
theorem test_wf_long_reals : Instr.regsAligned (.addrl (.reg 17) (.fpr 0) (.fpr 0)) = false ∧
    Instr.regsAligned (.scalerl (.reg 17) (.fpr 0) (.reg 19)) = false ∧
    Instr.regsAligned (.cmprl (.fpr 0) (.reg 17)) = false ∧ Instr.regsAligned (.classrl (.reg 17)) = false ∧
    Instr.regsAligned (.sqrtrl (.reg 17) (.fpr 0)) = false ∧
    Instr.regsAligned (.addrl (.reg 16) .one (.reg 18)) = true := by decide
theorem test_encode_words : (encode (.addr (.reg 4) (.reg 5) (.fpr 2))).first = 0x78116784#32 ∧
    (encode (.addo (.reg 1) (.lit 24) 1)).first = 0x590E1001#32 ∧ (encode .ret).first = 0x0A000000#32 ∧
    encode (.ld (.ipDisp 8) 4) = ⟨0x90201400#32, some 8#32⟩ := by decide

/-! ### Decoding: for every constructor a word written out from R123, R127 to R129 and R132 to R135 -/

theorem test_decode_conversion_1 :
    decode 0x67C00A0D 0 = .instr (.cvtir (.lit 13) (.reg 24)) ∧
    decode 0x67082294 0 = .instr (.cvtilr (.reg 20) (.fpr 1)) ∧
    decode 0x67C0D314 0 = .instr (.scalerl (.reg 20) (.fpr 3) (.reg 24)) ∧
    decode 0x6708F394 0 = .instr (.scaler (.reg 20) (.fpr 3) (.fpr 1)) ∧
    decode 0x6C500014 0 = .instr (.cvtri (.reg 20) 10) ∧
    decode 0x6C500882 0 = .instr (.cvtril (.fpr 2) 10) ∧
    decode 0x6C500916 0 = .instr (.cvtzri .one 10) ∧
    decode 0x6C500990 0 = .instr (.cvtzril .zero 10) ∧
    decode 0x6CC00494 0 = .instr (.movr (.reg 20) (.reg 24)) := by decide

theorem test_decode_conversion_2 :
    decode 0x6751888D 0 = .instr (.ediv (.lit 13) (.reg 6) 10) := by decide

theorem test_decode_real_1 :
    decode 0x68C59014 0 = .instr (.atanr (.reg 20) .one (.reg 24)) ∧
    decode 0x680DB882 0 = .instr (.logepr (.fpr 2) .one (.fpr 1)) ∧
    decode 0x68C30916 0 = .instr (.logr .one (.reg 12) (.reg 24)) ∧
    decode 0x680B2990 0 = .instr (.remr .zero (.reg 12) (.fpr 1)) ∧
    decode 0x68020214 0 = .instr (.cmpor (.reg 20) (.reg 8)) ∧
    decode 0x68020A82 0 = .instr (.cmpr (.fpr 2) (.reg 8)) ∧
    decode 0x68C00C16 0 = .instr (.sqrtr .one (.reg 24)) ∧
    decode 0x68082C90 0 = .instr (.expr .zero (.fpr 1)) ∧
    decode 0x68C00514 0 = .instr (.logbnr (.reg 20) (.reg 24)) := by decide

theorem test_decode_real_2 :
    decode 0x68082D82 0 = .instr (.roundr (.fpr 2) (.fpr 1)) ∧
    decode 0x68C00E16 0 = .instr (.sinr .one (.reg 24)) ∧
    decode 0x68082E90 0 = .instr (.cosr .zero (.fpr 1)) ∧
    decode 0x68C00714 0 = .instr (.tanr (.reg 20) (.reg 24)) ∧
    decode 0x68000F82 0 = .instr (.classr (.fpr 2)) := by decide

theorem test_decode_long_1 :
    decode 0x69C0D816 0 = .instr (.atanrl .one (.fpr 3) (.reg 24)) ∧
    decode 0x6908F890 0 = .instr (.logeprl .zero (.fpr 3) (.fpr 1)) ∧
    decode 0x69C59114 0 = .instr (.logrl (.reg 20) .one (.reg 24)) ∧
    decode 0x690DB982 0 = .instr (.remrl (.fpr 2) .one (.fpr 1)) ∧
    decode 0x69030A16 0 = .instr (.cmporl .one (.reg 12)) ∧
    decode 0x69030A90 0 = .instr (.cmprl .zero (.reg 12)) ∧
    decode 0x69C00414 0 = .instr (.sqrtrl (.reg 20) (.reg 24)) ∧
    decode 0x69082C82 0 = .instr (.exprl (.fpr 2) (.fpr 1)) ∧
    decode 0x69C00D16 0 = .instr (.logbnrl .one (.reg 24)) := by decide

theorem test_decode_long_2 :
    decode 0x69082D90 0 = .instr (.roundrl .zero (.fpr 1)) ∧
    decode 0x69C00614 0 = .instr (.sinrl (.reg 20) (.reg 24)) ∧
    decode 0x69082E82 0 = .instr (.cosrl (.fpr 2) (.fpr 1)) ∧
    decode 0x69C00F16 0 = .instr (.tanrl .one (.reg 24)) ∧
    decode 0x69000F90 0 = .instr (.classrl .zero) := by decide

theorem test_decode_move :
    decode 0x6D082C82 0 = .instr (.movrl (.fpr 2) (.fpr 1)) ∧
    decode 0x6EC00896 0 = .instr (.movre .one (.reg 24)) ∧
    decode 0x6E0B2910 0 = .instr (.cpysre .zero (.reg 12) (.fpr 1)) ∧
    decode 0x6EC20194 0 = .instr (.cpyrsre (.reg 20) (.reg 8) (.reg 24)) := by decide

theorem test_decode_basic :
    decode 0x780A2D82 0 = .instr (.divr (.fpr 2) (.reg 8) (.fpr 1)) ∧
    decode 0x78C0DE16 0 = .instr (.mulr .one (.fpr 3) (.reg 24)) ∧
    decode 0x7808FE90 0 = .instr (.subr .zero (.fpr 3) (.fpr 1)) ∧
    decode 0x78C59794 0 = .instr (.addr (.reg 20) .one (.reg 24)) ∧
    decode 0x790DBD82 0 = .instr (.divrl (.fpr 2) .one (.fpr 1)) ∧
    decode 0x79C30E16 0 = .instr (.mulrl .one (.reg 12) (.reg 24)) ∧
    decode 0x790B2E90 0 = .instr (.subrl .zero (.reg 12) (.fpr 1)) ∧
    decode 0x79C20794 0 = .instr (.addrl (.reg 20) (.reg 8) (.reg 24)) := by decide

theorem test_decode_bit :
    decode 0x58518794 0 = .instr (.alterbit (.reg 20) (.reg 6) 10) ∧
    decode 0x5951880D 0 = .instr (.addo (.lit 13) (.reg 6) 10) ∧
    decode 0x5A035714 0 = .instr (.chkbit (.reg 20) (.lit 13)) ∧
    decode 0x5C500614 0 = .instr (.mov (.reg 20) 10) ∧
    decode 0x5D500614 0 = .instr (.movl (.reg 20) 10) ∧
    decode 0x5E500614 0 = .instr (.movt (.reg 20) 10) := by decide

theorem test_decode_system_1 :
    decode 0x6001880D 0 = .instr (.synmov (.lit 13) (.reg 6)) ∧
    decode 0x61500294 0 = .instr (.synld (.reg 20) 10) ∧
    decode 0x64535294 0 = .instr (.modac (.reg 20) (.lit 13) 10) ∧
    decode 0x65518214 0 = .instr (.modtc (.reg 20) (.reg 6) 10) ∧
    decode 0x65518294 0 = .instr (.modpc (.reg 20) (.reg 6) 10) ∧
    decode 0x6600080D 0 = .instr (.calls (.lit 13)) ∧
    decode 0x66000580 0 = .instr .mark ∧
    decode 0x66000600 0 = .instr .fmark ∧
    decode 0x66000680 0 = .instr .flushreg := by decide

theorem test_decode_system_2 :
    decode 0x66000780 0 = .instr .syncf := by decide

theorem test_decode_ctrl_1 :
    decode 0x08FFFFF8 0 = .instr (.b 0x3FFFFE) ∧
    decode 0x09001234 0 = .instr (.call 0x48D) ∧
    decode 0x0A000000 0 = .instr .ret ∧
    decode 0x0B7FFFFC 0 = .instr (.bal 0x1FFFFF) ∧
    decode 0x10000040 0 = .instr (.bno 0x10) ∧
    decode 0x11FFFFF8 0 = .instr (.bg 0x3FFFFE) ∧
    decode 0x12001234 0 = .instr (.be 0x48D) ∧
    decode 0x13800000 0 = .instr (.bge 0x200000) ∧
    decode 0x147FFFFC 0 = .instr (.bl 0x1FFFFF) := by decide

theorem test_decode_ctrl_2 :
    decode 0x15000040 0 = .instr (.bne 0x10) ∧
    decode 0x16FFFFF8 0 = .instr (.ble 0x3FFFFE) ∧
    decode 0x17001234 0 = .instr (.bo 0x48D) ∧
    decode 0x18000000 0 = .instr .faultno ∧
    decode 0x19000000 0 = .instr .faultg ∧
    decode 0x1A000000 0 = .instr .faulte ∧
    decode 0x1B000000 0 = .instr .faultge ∧
    decode 0x1C000000 0 = .instr .faultl ∧
    decode 0x1D000000 0 = .instr .faultne := by decide

theorem test_decode_ctrl_3 :
    decode 0x1E000000 0 = .instr .faultle ∧
    decode 0x1F000000 0 = .instr .faulto := by decide

theorem test_decode_mem :
    decode 0x840007FC 0x89ABCDEF = .instr (.bx (.offset 0x7FC)) ∧
    decode 0x85426FFC 0x89ABCDEF = .instr (.balx (.baseOffset 9 0xFFC) 8) ∧
    decode 0x86045000 0x89ABCDEF = .instr (.callx (.base 17)) ∧
    decode 0x90401400 0x89ABCDEF = .instr (.ld (.ipDisp 0x89ABCDEF) 8) ∧
    decode 0x92445D05 0x89ABCDEF = .instr (.st 8 (.baseIndex 17 5 2)) ∧
    decode 0x98403000 0x89ABCDEF = .instr (.ldl (.disp 0x89ABCDEF) 8) ∧
    decode 0x9A447400 0x89ABCDEF = .instr (.stl 8 (.baseDisp 17 0x89ABCDEF)) ∧
    decode 0xA0403905 0x89ABCDEF = .instr (.ldt (.indexDisp 5 2 0x89ABCDEF) 8) ∧
    decode 0xA2447E05 0x89ABCDEF = .instr (.stt 8 (.baseIndexDisp 17 5 4 0x89ABCDEF)) := by decide

/-! ### Single steps -/

/-- A processor executing at 0x8000 with the given registers and AC (numbers as in R124), its stack at 0, the fault
table, interrupt table and PRCB at places where memory lists nothing. -/
def machine (regs : List (Nat × Nat)) (ac : Nat) : State :=
  regs.foldl (fun s p => setReg s (BitVec.ofNat 5 p.1) (BitVec.ofNat 32 p.2))
    { State.reset with
      status := .running, ip := 0x8000, lastIp := 0x7FFC, ac := BitVec.ofNat 32 ac, pc := 0
      faultTable := 0x5000, intTable := 0x6000, sysprocBase := 0x7000, prcbBase := 0x2000, intStack := 0x4000 }

/-- `s` with the given floating-point registers. -/
def withFp (fps : List (Nat × Nat)) (s : State) : State :=
  fps.foldl (fun s p => setFp s (BitVec.ofNat 2 p.1) (BitVec.ofNat 80 p.2)) s

/-- `s` with the given words in memory. -/
def withWords (ws : List (Nat × Nat)) (s : State) : State :=
  { s with mem := ws.foldl (fun m p => memWriteWord s.params.byteOrder m p.1 (BitVec.ofNat 32 p.2)) s.mem }

/-- The state after one step that runs the instruction word `w`. -/
def after (w : Nat) (s : State) : Option State :=
  match step (s.withFetchWord 32 w) with
  | .next t => some t
  | .fault _ => none
  | .refused _ => none

/-- Registers and AC after one step. -/
def result (w : Nat) (s : State) (rs : List Nat) : Option (List Nat × Nat) :=
  (after w s).map fun t => (rs.map fun r => (getReg t (BitVec.ofNat 5 r)).toNat, t.ac.toNat)

/-- A floating-point register and AC after one step. -/
def fpResult (w : Nat) (s : State) (k : Nat) : Option (Nat × Nat) :=
  (after w s).map fun t => ((getFp t (BitVec.ofNat 2 k)).toNat, t.ac.toNat)

/-- IP, PC and TC after one step. -/
def controls (w : Nat) (s : State) : Option (Nat × Nat × Nat) :=
  (after w s).map fun t => (t.ip.toNat, t.pc.toNat, t.tc.toNat)

/-- IP after one step. -/
def ipAfter (w : Nat) (s : State) : Option Nat := (after w s).map fun t => t.ip.toNat

/-- The given words of memory after one step. -/
def wordsAfter (w : Nat) (s : State) (addrs : List Nat) : Option (List Nat) :=
  (after w s).map fun t => addrs.map fun a => (wordAt t a).toNat

/-- The type of the fault taken by one step: the handler of type `k` stands at 0x9000 + 256 * k in the fault table
that this adds. -/
def faultTypeTaken (w : Nat) (s : State) : Option Nat :=
  let table := (List.range 11).map fun k => (0x5000 + 8 * k, 0x9000 + 0x100 * k)
  (ipAfter w (withWords table s)).map fun a => (a - 0x9000) / 0x100

/-! Floating point, moves, integers (95_test_vectors.md, families 40 to 48) -/

theorem test_addr_rounds_up :
    result 0x789C4790 (machine [(16, 0x3DCCCCCD), (17, 0x3E4CCCCD)] 0xDF000000) [19] = some ([0x3E99999A], 0xDF100000) := by
  decide +kernel
theorem test_addr_larger_nan :
    result 0x78944790 (machine [(16, 0x7FC00005), (17, 0xFFE00001)] 0xDF000000) [18] = some ([0xFFE00001], 0xDF000000) := by
  decide +kernel
theorem test_addrl :
    result 0x79A48790 (machine [(16, 0x9999999A), (17, 0x3FB99999), (18, 0x9999999A), (19, 0x3FC99999)] 0xDF000000) [21, 20] = some ([0x3FD33333, 0x33333334], 0xDF100000) := by
  decide +kernel
theorem test_subr_order :
    result 0x78944690 (machine [(16, 0x40400000), (17, 0x40A00000)] 0xDF000000) [18] = some ([0x40000000], 0xDF000000) := by
  decide +kernel
theorem test_subr_zero_sign :
    result 0x78944690 (machine [(16, 0x40A00000), (17, 0x40A00000)] 0x5F000000) [18] = some ([0x80000000], 0x5F000000) := by
  decide +kernel
theorem test_subrl_infinities :
    result 0x79A48690 (machine [(16, 0x0), (17, 0x7FF00000), (18, 0x0), (19, 0x7FF00000)] 0xDF000000) [21, 20] = some ([0x7FF80000, 0x0], 0xDF040000) := by
  decide +kernel
theorem test_mulr_overflow_down :
    result 0x78944610 (machine [(16, 0xC0000000), (17, 0x7F000000)] 0x5F000000) [18] = some ([0xFF800000], 0x5F110000) := by
  decide +kernel
theorem test_mulr_denormal :
    result 0x78944610 (machine [(16, 0x1FAE0000), (17, 0x1F000000)] 0xDF000000) [18] = some ([0x15C000], 0xDF000000) := by
  decide +kernel
theorem test_mulrl_denormal :
    result 0x79A48610 (machine [(16, 0x0), (17, 0x100000), (18, 0x0), (19, 0x3FE00000)] 0xDF000000) [21, 20] = some ([0x80000, 0x0], 0xDF000000) := by
  decide +kernel
theorem test_divr_extended :
    fpResult 0x78112583 (machine [(4, 0x3F800000), (3, 0x40400000)] 0x9F000000) 2 = some (0x3FFDAAAAAAAAAAAAAAAA, 0x9F100000) := by
  decide +kernel
theorem test_divr_zero_divide :
    faultTypeTaken 0x78112583 (machine [(4, 0x3F800000), (3, 0x80000000)] 0xD7000000) = some 4 := by
  decide +kernel
theorem test_divrl :
    result 0x79A48590 (machine [(16, 0x0), (17, 0x40080000), (18, 0x0), (19, 0x3FF00000)] 0xDF000000) [21, 20] = some ([0x3FD55555, 0x55555555], 0xDF100000) := by
  decide +kernel
theorem test_remr_truncates :
    (result 0x68944190 (machine [(16, 0x40400000), (17, 0x40A00000)] 0xDF000000) [18]).map Prod.fst = some [0x40000000] := by
  decide +kernel
theorem test_remrl :
    (result 0x69A48190 (machine [(16, 0x0), (17, 0x40000000), (18, 0x0), (19, 0x401C0000)] 0xDF000000) [21, 20]).map Prod.fst = some [0x3FF00000, 0x0] := by
  decide +kernel
theorem test_roundr_tie :
    result 0x68880590 (machine [(16, 0x40200000)] 0xDF000000) [17] = some ([0x40000000], 0xDF100000) := by
  decide +kernel
theorem test_roundr_negative_to_zero :
    result 0x68880590 (machine [(16, 0xBE99999A)] 0x1F000000) [17] = some ([0x80000000], 0x1F100000) := by
  decide +kernel
theorem test_roundrl_large :
    result 0x69900590 (machine [(16, 0x1), (17, 0x43400000)] 0xDF000000) [19, 18] = some ([0x43400000, 0x1], 0xDF000000) := by
  decide +kernel
theorem test_sqrtr_up :
    result 0x68880410 (machine [(16, 0x40000000)] 0x1F000000) [17] = some ([0x3FB504F4], 0x1F100000) := by
  decide +kernel
theorem test_sqrtr_minus_zero :
    result 0x68880410 (machine [(16, 0x80000000)] 0xDF000000) [17] = some ([0x80000000], 0xDF000000) := by
  decide +kernel
theorem test_sqrtrl_extended :
    fpResult 0x69002410 (machine [(16, 0x0), (17, 0x40000000)] 0xDF000000) 0 = some (0x3FFFB504F333F9DE6484, 0xDF100000) := by
  decide +kernel
theorem test_movr_to_extended :
    fpResult 0x6C082493 (machine [(19, 0x43492FDF)] 0xDF000000) 1 = some (0x4006C92FDF0000000000, 0xDF000000) := by
  decide +kernel
theorem test_movr_truncated_nan :
    result 0x6CA00C80 (withFp [(0, 0x7FFF8000000000000800)] (machine [] 0xDF000000)) [20] = some ([0x7FC00000], 0xDF040000) := by
  decide +kernel
theorem test_movrl :
    result 0x6D200C80 (withFp [(0, 0x4006C92FDF0000000000)] (machine [] 0xDF000000)) [5, 4] = some ([0x406925FB, 0xE0000000], 0xDF000000) := by
  decide +kernel
theorem test_movre_from_registers :
    fpResult 0x6E102094 (machine [(20, 0x2168C235), (21, 0xC90FDAA2), (22, 0xABCD4000)] 0xDF000000) 2 = some (0x4000C90FDAA22168C235, 0xDF000000) := by
  decide +kernel
theorem test_movre_to_registers :
    result 0x6E400882 (withFp [(2, 0x4000C90FDAA22168C235)] (machine [(10, 0xFFFFFFFF), (11, 0x9)] 0xDF000000)) [8, 9, 10, 11] = some ([0x2168C235, 0xC90FDAA2, 0x4000, 0x9], 0xDF000000) := by
  decide +kernel
theorem test_cpysre :
    fpResult 0x6E0D2900 (withFp [(0, 0x3FFF8000000000000000)] (machine [(22, 0xC000)] 0xDF000000)) 1 = some (0xBFFF8000000000000000, 0xDF000000) := by
  decide +kernel
theorem test_cpyrsre :
    fpResult 0x6E007980 (withFp [(0, 0x4000C90FDAA22168C235), (1, 0x3FFF8000000000000000)] (machine [] 0xDF000000)) 0 = some (0xC000C90FDAA22168C235, 0xDF000000) := by
  decide +kernel
theorem test_cvtir :
    result 0x67880210 (machine [(16, 0x1000001)] 0x1F000000) [17] = some ([0x4B800001], 0x1F100000) := by
  decide +kernel
theorem test_cvtilr :
    result 0x67A00292 (machine [(18, 0xFFFFFFFF), (19, 0x7FFFFFFF)] 0x9F000000) [21, 20] = some ([0x43DFFFFF, 0xFFFFFFFF], 0x9F100000) := by
  decide +kernel
theorem test_cvtri_down :
    result 0x6C880010 (machine [(16, 0xC0200000)] 0x5F000000) [17] = some ([0xFFFFFFFD], 0x5F100000) := by
  decide +kernel
theorem test_cvtri_overflow :
    result 0x6C880010 (machine [(16, 0x4F32D05E)] 0xDF001000) [17] = some ([0xB2D05E00], 0xDF001100) := by
  decide +kernel
theorem test_cvtril :
    result 0x6C900090 (machine [(16, 0x4F32D05E)] 0xDF000000) [18, 19] = some ([0xB2D05E00, 0x0], 0xDF000000) := by
  decide +kernel
theorem test_cvtzri :
    result 0x6CB00903 (withFp [(3, 0x401396B43E0000000000)] (machine [] 0x1F000000)) [22] = some ([0x12D687], 0x1F100000) := by
  decide +kernel
theorem test_cvtzril :
    result 0x6C900980 (withFp [(0, 0xC000C90FDAA22168C235)] (machine [] 0xDF000000)) [18, 19] = some ([0xFFFFFFFD, 0xFFFFFFFF], 0xDF100000) := by
  decide +kernel
theorem test_cmpr_less :
    result 0x68044290 (machine [(16, 0x3F800000), (17, 0x40000000)] 0xDF000000) [] = some ([], 0xDF000004) := by
  decide +kernel
theorem test_cmpr_unordered :
    result 0x68044290 (machine [(16, 0x7FC00000), (17, 0x0)] 0xDF000007) [] = some ([], 0xDF000000) := by
  decide +kernel
theorem test_cmpor_quiet_nan :
    result 0x68044210 (machine [(16, 0x7FC00000), (17, 0x3F800000)] 0xDF000007) [] = some ([], 0xDF040000) := by
  decide +kernel
theorem test_cmprl :
    result 0x69048290 (machine [(16, 0x0), (17, 0xFFF00000), (18, 0xFFFFFFFF), (19, 0xFFEFFFFF)] 0xDF000000) [] = some ([], 0xDF000004) := by
  decide +kernel
theorem test_cmporl :
    result 0x69048210 (machine [(16, 0x0), (17, 0x40080000), (18, 0x0), (19, 0x40000000)] 0xDF000000) [] = some ([], 0xDF000001) := by
  decide +kernel
theorem test_classr_signaling_nan :
    result 0x68000790 (machine [(16, 0x7F800001)] 0xDF000000) [] = some ([], 0xDF000028) := by
  decide +kernel
theorem test_classr_denormal :
    result 0x68000790 (machine [(16, 0x1)] 0xDF000000) [] = some ([], 0xDF000008) := by
  decide +kernel
theorem test_classrl :
    result 0x69000790 (machine [(16, 0xFFFFFFFF), (17, 0x800FFFFF)] 0xDF000000) [] = some ([], 0xDF000048) := by
  decide +kernel
theorem test_sinr_minus_zero :
    result 0x68880610 (machine [(16, 0x80000000)] 0xDF000000) [17] = some ([0x80000000], 0xDF000000) := by
  decide +kernel
theorem test_sinr_infinity :
    result 0x68880610 (machine [(16, 0x7F800000)] 0xDF000000) [17] = some ([0x7FC00000], 0xDF040000) := by
  decide +kernel
theorem test_cosr_zero :
    result 0x68880690 (machine [(16, 0x0)] 0xDF000000) [17] = some ([0x3F800000], 0xDF000000) := by
  decide +kernel
theorem test_cosrl_infinity :
    faultTypeTaken 0x69900690 (machine [(16, 0x0), (17, 0xFFF00000)] 0xDB000000) = some 4 := by
  decide +kernel
theorem test_tanrl_quiet_nan :
    result 0x69900710 (machine [(16, 0x1), (17, 0x7FF80000)] 0xDF000000) [18, 19] = some ([0x1, 0x7FF80000], 0xDF000000) := by
  decide +kernel
theorem test_logbnr_denormal :
    result 0x68880510 (machine [(16, 0x1)] 0xFF000000) [17] = some ([0xC3150000], 0xFF000000) := by
  decide +kernel
theorem test_logbnr_zero :
    result 0x68880510 (machine [(16, 0x0)] 0xDF000000) [17] = some ([0xFF800000], 0xDF080000) := by
  decide +kernel
theorem test_logbnrl :
    result 0x69900510 (machine [(16, 0x0), (17, 0x40240000)] 0xDF000000) [18, 19] = some ([0x0, 0x40080000], 0xDF000000) := by
  decide +kernel
theorem test_logr :
    result 0x68944110 (machine [(16, 0x41000000), (17, 0x40A00000)] 0xDF000000) [18] = some ([0x41700000], 0xDF000000) := by
  decide +kernel
theorem test_logepr :
    result 0x68944090 (machine [(16, 0x40400000), (17, 0x40A00000)] 0xDF000000) [18] = some ([0x41200000], 0xDF000000) := by
  decide +kernel
theorem test_logeprl_minus_one :
    result 0x69A48090 (machine [(16, 0x0), (17, 0xBFF00000), (18, 0x0), (19, 0x40000000)] 0xDF000000) [20, 21] = some ([0x0, 0xFFF00000], 0xDF080000) := by
  decide +kernel
theorem test_expr_integer :
    result 0x68880490 (machine [(16, 0x40400000)] 0xDF000000) [17] = some ([0x40E00000], 0xDF000000) := by
  decide +kernel
theorem test_expr_large_negative :
    result 0x68880490 (machine [(16, 0xC1F00000)] 0x1F000000) [17] = some ([0xBF7FFFFF], 0x1F100000) := by
  decide +kernel
theorem test_scaler_literal :
    result 0x67944B83 (machine [(17, 0x3FC00000)] 0xDF000000) [18] = some ([0x41400000], 0xDF000000) := by
  decide +kernel
theorem test_scaler_underflow :
    result 0x67944390 (machine [(16, 0xFFFFFF6B), (17, 0x3FC00000)] 0x9F000000) [18] = some ([0x1], 0x9F120000) := by
  decide +kernel
theorem test_scalerl :
    result 0x67A48310 (machine [(16, 0xA), (18, 0x0), (19, 0x3FF80000)] 0xDF000000) [20, 21] = some ([0x0, 0x40980000], 0xDF000000) := by
  decide +kernel
theorem test_mov :
    result 0x5C880610 (machine [(16, 0x7F800001)] 0xDF000000) [17] = some ([0x7F800001], 0xDF000000) := by
  decide +kernel
theorem test_movl :
    result 0x5D900610 (machine [(16, 0x5), (17, 0x6)] 0x0) [18, 19] = some ([0x5, 0x6], 0x0) := by
  decide +kernel
theorem test_movt :
    result 0x5EA00610 (machine [(16, 0x5), (17, 0x6), (18, 0x7)] 0x0) [20, 21, 22] = some ([0x5, 0x6, 0x7], 0x0) := by
  decide +kernel
theorem test_chkbit : result 0x5A040F03 (machine [(16, 0x8)] 0x0) [] = some ([], 0x2) := by decide +kernel
theorem test_alterbit : result 0x588C0F83 (machine [(16, 0x0)] 0x2) [17] = some ([0x8], 0x2) := by decide +kernel
theorem test_addo_wraps :
    result 0x59944010 (machine [(16, 0xFFFFFFFF), (17, 0x2)] 0x2) [18] = some ([0x1], 0x2) := by
  decide +kernel
theorem test_ediv :
    result 0x67A48090 (machine [(16, 0xA), (18, 0x67)] 0x2) [20, 21] = some ([0x3, 0xA], 0x2) := by
  decide +kernel
theorem test_ediv_zero : faultTypeTaken 0x67A48090 (machine [(16, 0x0), (18, 0x67)] 0x2) = some 3 := by decide +kernel
theorem test_modac :
    result 0x64944290 (machine [(16, 0xC01F0000), (17, 0x40000000)] 0xDF100002) [18] = some ([0xDF100002], 0x5F000002) := by
  decide +kernel
theorem test_synld_interrupt_control :
    result 0x61880290 (machine [(16, 0xFF000004)] 0x0) [17] = some ([0xFF000000], 0x2) := by
  decide +kernel
theorem test_faultno_taken : faultTypeTaken 0x18000000 (machine [] 0x0) = some 5 := by decide +kernel
theorem test_faulte_taken : faultTypeTaken 0x1A000000 (machine [] 0x2) = some 5 := by decide +kernel
theorem test_modpc_user_mode :
    faultTypeTaken 0x658C0290 (machine [(16, 0x1F0000), (17, 0x50000)] 0x0) = some 10 := by
  decide +kernel
theorem test_ldl_odd_register : faultTypeTaken 0x988C1000 (machine [(16, 0x2100)] 0x0) = some 2 := by decide +kernel
theorem test_calls_260 : faultTypeTaken 0x66000010 (machine [(16, 0x104)] 0x0) = some 7 := by decide +kernel
theorem test_reserved_encoding :
    faultTypeTaken 0x78944790 (machine [(16, 0x1), (17, 0x3F800000), (18, 0x7)] 0xDF000000) = some 4 := by
  decide +kernel

/-! ### Branches and calls (values of 95_test_vectors.md, families 44 and 47) -/

/-- The caller of the call examples: FP 0x1000, SP 0x1058, g0 to g1 and g14 code addresses. -/
def caller : State := machine [(31, 0x1000), (1, 0x1058), (16, 0x9002), (17, 0x9000), (30, 0x8004)] 0

theorem test_b : ipAfter 0x08FFFFF0 caller = some 0x7FF0 := by decide +kernel
theorem test_bx : ipAfter 0x84079000 caller = some 0x8004 := by decide +kernel
theorem test_bno_taken : ipAfter 0x10FFFFF8 (machine [] 0) = some 0x7FF8 := by decide +kernel
theorem test_bno_not_taken : ipAfter 0x10FFFFF8 (machine [] 2) = some 0x8004 := by decide +kernel
theorem test_bg : (ipAfter 0x11000010 (machine [] 1), ipAfter 0x11000010 (machine [] 4)) =
    (some 0x8010, some 0x8004) := by decide +kernel
theorem test_be : (ipAfter 0x1200000C (machine [] 2), ipAfter 0x1200000C (machine [] 4)) =
    (some 0x800C, some 0x8004) := by decide +kernel
theorem test_bge : (ipAfter 0x13000010 (machine [] 1), ipAfter 0x13000010 (machine [] 4)) =
    (some 0x8010, some 0x8004) := by decide +kernel
theorem test_bl : (ipAfter 0x14000010 (machine [] 4), ipAfter 0x14000010 (machine [] 2)) =
    (some 0x8010, some 0x8004) := by decide +kernel
theorem test_bne : (ipAfter 0x15000010 (machine [] 1), ipAfter 0x15000010 (machine [] 2)) =
    (some 0x8010, some 0x8004) := by decide +kernel
theorem test_ble : (ipAfter 0x16000010 (machine [] 2), ipAfter 0x16000010 (machine [] 1)) =
    (some 0x8010, some 0x8004) := by decide +kernel
theorem test_bo : (ipAfter 0x17000020 (machine [] 4), ipAfter 0x17000020 (machine [] 0)) =
    (some 0x8020, some 0x8004) := by decide +kernel
theorem test_bal : result 0x0B000040 caller [30] = some ([0x8004], 0) := by decide +kernel
theorem test_balx : result 0x85945000 caller [18] = some ([0x8004], 0) := by decide +kernel
theorem test_call_frame : result 0x09000100 caller [31, 0, 1] = some ([0x1080, 0x1000, 0x10C0], 0) := by
  decide +kernel
theorem test_call_traced : controls 0x09000100 { caller with tc := 8, pc := 1 } = some (0x8100, 0x401, 0x80008) := by
  decide +kernel
theorem test_callx : ipAfter 0x86041000 caller = some 0x9000 := by decide +kernel
theorem test_calls_supervisor :
    controls 0x66000804 (withWords [(0x7040, 0xA002), (0x700C, 0x3001)] caller) = some (0xA000, 3, 0) := by
  decide +kernel
theorem test_ret_from_memory : result 0x0A000000
    (withWords [(0x1008, 0x8124), (0x103C, 77)] (machine [(0, 0x1000), (31, 0x1080)] 0)) [31, 2, 15] =
    some ([0x1000, 0x8124, 77], 0) := by decide +kernel
theorem test_flushreg : wordsAfter 0x66000680
    { caller with older := [⟨0x0FC0, Vector.replicate 16 7#32⟩] } [0xFC0, 0xFFC, 0x1000, 0xFBC] =
    some [7, 7, 0, 0] := by decide +kernel

/-! ### The control registers and the breakpoint instructions (family 48) -/

theorem test_modpc_supervisor :
    controls 0x658C0290 { machine [(16, 0x1F0000), (17, 0x50000)] 0 with pc := 0x1F2002 } =
    some (0x8004, 0x52002, 0) := by decide +kernel
theorem test_modpc_state : (after 0x658C0290 { machine [(16, 0x2000), (17, 0)] 0 with pc := 0x1F2002 }).map procState =
    some .executing := by decide +kernel
theorem test_modtc : controls 0x65944210 (machine [(16, 0xFFFFFFFF), (17, 0xFFFFFFFF)] 0) =
    some (0x8004, 0, 0xFE00FE) := by decide +kernel
theorem test_mark : controls 0x66000580 { machine [] 0 with pc := 1, tc := 0x80 } =
    some (0x8004, 0x401, 0x800080) := by decide +kernel
theorem test_mark_tracing_off : controls 0x66000580 { machine [] 0 with tc := 0x80 } = some (0x8004, 0, 0x80) := by
  decide +kernel
theorem test_fmark : controls 0x66000600 { machine [] 0 with pc := 1 } = some (0x8004, 0x401, 0x800000) := by
  decide +kernel
theorem test_syncf : controls 0x66000780 (machine [] 0) = some (0x8004, 0, 0) := by decide +kernel
theorem test_faultno_not_taken : ipAfter 0x18000000 (machine [] 2) = some 0x8004 := by decide +kernel
theorem test_faultg : (ipAfter 0x19000000 (machine [] 2), faultTypeTaken 0x19000000 (machine [] 1)) =
    (some 0x8004, some 5) := by decide +kernel
theorem test_faulte_not_taken : ipAfter 0x1A000000 (machine [] 1) = some 0x8004 := by decide +kernel
theorem test_faultge : (ipAfter 0x1B000000 (machine [] 4), faultTypeTaken 0x1B000000 (machine [] 1)) =
    (some 0x8004, some 5) := by decide +kernel
theorem test_faultl : (ipAfter 0x1C000000 (machine [] 1), faultTypeTaken 0x1C000000 (machine [] 4)) =
    (some 0x8004, some 5) := by decide +kernel
theorem test_faultne : (ipAfter 0x1D000000 (machine [] 2), faultTypeTaken 0x1D000000 (machine [] 1)) =
    (some 0x8004, some 5) := by decide +kernel
theorem test_faultle : (ipAfter 0x1E000000 (machine [] 1), faultTypeTaken 0x1E000000 (machine [] 2)) =
    (some 0x8004, some 5) := by decide +kernel
theorem test_faulto : (ipAfter 0x1F000000 (machine [] 0), faultTypeTaken 0x1F000000 (machine [] 1)) =
    (some 0x8004, some 5) := by decide +kernel

/-! ### Loads and stores (family 48) -/

/-- The memory and registers of the load and store examples. -/
def data : State :=
  withWords [(0x2110, 0x3F800000), (0x2100, 0x11223344), (0x2104, 0x3FF00000)]
    { machine [(16, 0x2100), (17, 0x2110), (20, 1), (21, 2), (22, 0xABCD3FFF)] 0 with prcbBase := 0x3000 }

theorem test_ld : result 0x90242010 data [4] = some ([0x3F800000], 0) := by decide +kernel
theorem test_ldl : result 0x98941000 data [18, 19] = some ([0x11223344, 0x3FF00000], 0) := by decide +kernel
theorem test_ldt : result 0xA0A41000 data [20, 21, 22] = some ([0x11223344, 0x3FF00000, 0], 0) := by decide +kernel
theorem test_st_little_endian : (after 0x92A42013 { data with globals := data.globals.set 0 0x20FD }).map
    (fun t => [0x2110, 0x2113, 0x2114].map fun a => (memRead t.mem a).toNat) = some [1, 0, 0] := by decide +kernel
theorem test_stl : wordsAfter 0x9AA41000 data [0x2100, 0x2104, 0x2108] = some [1, 2, 0] := by decide +kernel
theorem test_stt : wordsAfter 0xA2A41000 data [0x2100, 0x2104, 0x2108, 0x210C] = some [1, 2, 0xABCD3FFF, 0] := by
  decide +kernel
theorem test_ld_big_endian : result 0x90242010 { data with params := { defaultParams with byteOrder := .big } } [4] =
    some ([0x803F], 0) := by decide +kernel
theorem test_ld_split : result 0x90242001 { data with params := { defaultParams with dataAlign := .split } } [4] =
    some ([0x112233], 0) := by decide +kernel
theorem test_synmov : wordsAfter 0x60044011 (machine [(17, 0x3000)] 0) [0x3000] = some [0] := by decide +kernel
theorem test_synmov_moves : wordsAfter 0x60044010
    (withWords [(0x2110, 0x3F800000)] { machine [(16, 0x3002), (17, 0x2111)] 0 with prcbBase := 0x4000 }) [0x3000] =
    some [0x3F800000] := by decide +kernel
theorem test_synmov_interrupt_control :
    wordsAfter 0x60044010 (machine [(16, 0x3000), (17, 0xFF000007)] 0) [0x3000] = some [0xFF000000] := by decide +kernel

/-! ### Steps that run no instruction -/

/-- The refusal of one step. -/
def refusalOf (o : Host.Outcome State Fault Refusal) : Option Refusal :=
  match o with
  | .refused r => some r
  | .next _ => none
  | .fault _ => none

/-- The fault that stops one step. -/
def stopOf (o : Host.Outcome State Fault Refusal) : Option Fault :=
  match o with
  | .fault f => some f
  | .next _ => none
  | .refused _ => none

theorem test_misaligned_load : refusalOf (step (data.withFetchWord 32 0x90242001)) = some .misaligned := by
  decide +kernel
theorem test_reserved_bits : refusalOf (step (data.withFetchWord 32 0x90041000)) = none ∧
    refusalOf (step (data.withFetchWord 32 0x5C880630)) = some .reservedBits := by decide +kernel
theorem test_unknown_opcode : refusalOf (step (data.withFetchWord 32 0x58000000)) = some .unknownOpcode := by
  decide +kernel
theorem test_undefined_opcode : faultTypeTaken 0x40000000 data = some 2 := by decide +kernel
theorem test_stopped : stopOf (step { machine [] 0 with status := .stopped }) = some .stopped := by decide +kernel
theorem test_stuck : stopOf (step { machine [] 0 with status := .stuck }) = some .stuck := by decide +kernel
theorem test_self_test_fails : (match step State.reset with
    | .next t => some (t.status, t.failPin)
    | .fault _ => none
    | .refused _ => none) = some (.stopped, true) := by decide +kernel

/-! ### Witnesses: for every statement with hypotheses, and every clause of it, a state and operands that meet them -/

theorem okWord_of {s : State} {a : Word}
    (h : (decide (a.toNat % 4 = 0) && !isReserved a && !scratchWord s a) = true) : okWord s a := by
  simp only [Bool.and_eq_true, decide_eq_true_eq, Bool.not_eq_true'] at h
  exact ⟨h.1.1, h.1.2, h.2⟩

/-- The step goes on. -/
def goesOn (o : Host.Outcome State Fault Refusal) : Bool :=
  match o with
  | .next _ => true
  | .fault _ => false
  | .refused _ => false

theorem next_of {o : Host.Outcome State Fault Refusal} (h : goesOn o = true) : ∃ t, o = .next t := by
  cases o with
  | next t => exact ⟨t, rfl⟩
  | fault f => cases h
  | refused r => cases h

theorem ok_of {α : Type} {r : Result α} (h : r.toBool = true) : ∃ t, r = .ok t := by
  cases r with
  | ok t => exact ⟨t, rfl⟩
  | error e => cases h

/-- An initial memory image at which the check sum is zero. -/
def image : State :=
  withWords [(0, 0x1000), (4, 0x200), (12, 0x8003), (28, 0xFFFF6DFD), (0x1088, 0x1000), (0x1098, 0x7000), (0x10A8, 0x7800),
    (0x214, 0x6000), (0x218, 0x4000), (0x228, 0x5000)] State.reset

theorem witness_ResetValues : ∃ t, step (hardReset State.reset) = .next t := ⟨_, rfl⟩
theorem witness_FirstStageOfInitialization_passes : image.status = .reset ∧ checksum image = 0#32 ∧
    wordAt image 0 = 0x1000#32 ∧ wordAt image 4 = 0x200#32 ∧ wordAt image 12 = 0x8003#32 ∧
    (0x1000#32).toNat % 4096 = 0 ∧ (0x200#32).toNat % max 64 image.params.salignBytes = 0 ∧
    wordAt image (0x1000#32 + 136#32).toNat = 0x1000#32 := by decide +kernel
theorem witness_FirstStageOfInitialization_tables :
    okEntry { image with prcbBase := 0x200#32 } 0x1000#32 136#32 ∧
    okEntry { image with prcbBase := 0x200#32 } 0x1000#32 152#32 ∧
    okEntry { image with prcbBase := 0x200#32 } 0x1000#32 168#32 ∧
    okEntry { image with prcbBase := 0x200#32 } 0x200#32 20#32 ∧
    okEntry { image with prcbBase := 0x200#32 } 0x200#32 24#32 ∧
    okEntry { image with prcbBase := 0x200#32 } 0x200#32 40#32 := by
  delta okEntry okWord; decide +kernel
/-- The running sums and carries of R573's second example. -/
theorem witness_FirstStageOfInitialization_sum :
    let s := withWords [(0, 0x1000), (4, 0x2000), (12, 0x3000), (16, 0xFFFFA000), (28, 0xFFFFFFFF)] State.reset
    let t : Nat → Nat := fun i => [0xFFFFFFFF, 0xFFF, 0x3000, 0x3000, 0x6000, 0, 1, 1, 0].getD i 0
    let c : Nat → Nat := fun i => [0, 1, 0, 0, 0, 1, 0, 0, 1].getD i 0
    t 0 = 0xFFFFFFFF ∧ c 0 = 0 ∧ ∀ i, i < 8 →
      t (i + 1) < 2 ^ 32 ∧ t (i + 1) + 2 ^ 32 * c (i + 1) = t i + (wordAt s (4 * i)).toNat + c i := by decide +kernel
/-- The same image with the PRCB 16 bytes off its boundary, and the start address 16 bytes lower. -/
def imageOff : State := withWords [(4, 0x210), (12, 0x7FF3)] image
theorem witness_FirstStageOfInitialization_refused : imageOff.status = .reset ∧ checksum imageOff = 0#32 ∧
    (wordAt imageOff 4).toNat % max 64 imageOff.params.salignBytes ≠ 0 := by decide +kernel
theorem test_control_block_boundary : refusalOf (step imageOff) = some .misaligned := by decide +kernel
theorem witness_FirstStageOfInitialization_fails : State.reset.status = .reset ∧ checksum State.reset ≠ 0#32 := by decide +kernel

theorem witness_DecodeEncode : (Instr.ld (.baseIndexDisp 1 2 4 0xFFFFFFFC) 3).wellFormed = true := by decide

theorem witness_UndefinedAndRefusedWords_byte : 0x40 ≤ (0x40000000#32 >>> 24).toNat ∧ (0x57FFFFFF#32 >>> 24).toNat < 0x58 ∧
    0xD0 ≤ (0xD0000000#32 >>> 24).toNat := by decide
theorem witness_UndefinedAndRefusedWords_mode : op8Field 0xA2201280#32 = 0xA2#8 ∧ m2Field 0xA2201280#32 = true ∧
    5 ≤ (scaleField 0xA2201280#32).toNat ∧ op8Field 0x86001800#32 = 0x86#8 ∧ m2Field 0x86001800#32 = true ∧
    srcdstField 0x86001800#32 = 0#5 ∧ modeField 0x86001800#32 = 6#4 := by decide
theorem test_undefined_mode : decode 0x84001800#32 0#32 = .invalidOpcode ∧ decode 0x85201280#32 0#32 = .invalidOpcode ∧
    decode 0x86001F80#32 0#32 = .invalidOpcode ∧ decode 0x92201800#32 0#32 = .invalidOpcode := by decide

theorem op8Field_masked (w : Word) : op8Field (w &&& 0xFF000000#32) = op8Field w := by
  unfold op8Field; rw [BitVec.extractLsb'_and]; exact BitVec.and_allOnes
theorem op8Field_masked_reg (w : Word) : op8Field (w &&& 0xFF000780#32) = op8Field w := by
  unfold op8Field; rw [BitVec.extractLsb'_and]; exact BitVec.and_allOnes
theorem op4Field_masked_reg (w : Word) : op4Field (w &&& 0xFF000780#32) = op4Field w := by
  unfold op4Field; rw [BitVec.extractLsb'_and]; exact BitVec.and_allOnes
/-- No instruction has the opcode byte 0x3F or the opcode 0x580. -/
theorem encode_opcode (i : Instr) : op8Field (encode i).first ≠ 0x3F#8 ∧
    (op8Field (encode i).first = 0x58#8 → op4Field (encode i).first ≠ 0#4) := by
  cases i <;> simp [encode, encodeFpFpFp, encodeFpFp, encodeFpCmp, encodeFpClass, encodeIntToFp, encodeFpToInt,
    encodeScale, encodeInt3, encodeIntSrcs, encodeInt2, encodeInt1, encodeNullary]
theorem witness_UndefinedAndRefusedWords_unknown : (0x3FFFFFFF#32 >>> 24).toNat < 0x40 ∧
    (∀ i : Instr, (encode i).first &&& 0xFF000000#32 ≠ 0x3FFFFFFF#32 &&& 0xFF000000#32) ∧
    (0x58000000#32 >>> 24).toNat = 0x58 ∧
    ∀ i : Instr, (encode i).first &&& 0xFF000780#32 ≠ 0x58000000#32 &&& 0xFF000780#32 := by
  refine ⟨by decide, fun i h => (encode_opcode i).1 ?_, by decide, fun i h => (encode_opcode i).2 ?_ ?_⟩
  · rw [← op8Field_masked, h]; decide
  · rw [← op8Field_masked_reg, h]; decide
  · rw [← op4Field_masked_reg, h]; decide
theorem witness_UndefinedAndRefusedWords_reserved :
    (encode (.mov (.reg 16) 17)).first &&& 0xFF000780#32 = 0x5C880630#32 &&& 0xFF000780#32 ∧ rsvField 0x5C880630#32 ≠ 0#2 ∧
    ((.real, .movr) : Fmt × (FpSrc → FpDst → Instr)) ∈ unary ∧
    (encode (.movr (.reg 19) (.fpr 1))).first &&& 0xFF000780#32 = 0x6C086493#32 &&& 0xFF000780#32 ∧
    src2Field 0x6C086493#32 ≠ 0#5 ∧ m2Field 0x6C083493#32 = true :=
  ⟨by decide, by decide, List.mem_cons_self, by decide, by decide, by decide⟩

/-- A processor about to run the two words. -/
def loaded (w d : Nat) : State := withWords [(0x8000, w), (0x8004, d)] (machine [(0, 8)] 0)

theorem witness_UndefinedAndRefusedWords_step (w : Nat) (hw : w ∈ [0x40000000, 0x58000000, 0x5C880630]) :
    ∃ s1, isRunningState (loaded w 0) ∧ (loaded w 0).pinLatch = 0#4 ∧ pcTfp (loaded w 0) = false ∧
      fetchInstr (loaded w 0) = .ok (BitVec.ofNat 32 w, 0#32, s1) ∧
      decode (BitVec.ofNat 32 w) 0#32 = if w = 0x40000000 then .invalidOpcode
        else if w = 0x58000000 then .refused .unknownOpcode else .refused .reservedBits := by
  simp only [List.mem_cons, List.not_mem_nil, or_false] at hw
  rcases hw with rfl | rfl | rfl <;> exact ⟨_, rfl, by decide +kernel, by decide +kernel, rfl, by decide⟩
theorem witness_UndefinedAndRefusedWords_stale (l : List Nat) (hl : l ∈ [[0x8000], [0x8004]]) :
    isRunningState { loaded 0x90201400 8 with stale := l } ∧ (loaded 0x90201400 8).pinLatch = 0#4 ∧
    pcTfp (loaded 0x90201400 8) = false ∧ okWord { loaded 0x90201400 8 with stale := l } (loaded 0x90201400 8).ip ∧
    ((loaded 0x90201400 8).ip.toNat ∈ l ∨ ((loaded 0x90201400 8).ip.toNat ∉ l ∧
      wordAt (loaded 0x90201400 8) (loaded 0x90201400 8).ip.toNat = 0x90201400#32 ∧
      hasSecondWord 0x90201400#32 = true ∧ isReserved ((loaded 0x90201400 8).ip + 4#32) = false ∧
      ((loaded 0x90201400 8).ip + 4#32).toNat ∈ l)) := by
  delta isRunningState okWord; revert l; decide +kernel
theorem witness_UndefinedAndRefusedWords_store : effectiveAddr { data with executed := [0x2100] } (.base 16) = 0x2100#32 ∧
    (0x2100#32).toNat % 4 = 0 ∧ isReserved 0x2100#32 = false ∧ (0x2100#32).toNat ∈ [0x2100] := by decide +kernel

theorem witness_StepRunsInstruction_one : isRunningState (loaded 0x5C880610 0) ∧ (loaded 0x5C880610 0).pinLatch = 0#4 ∧
    pcTfp (loaded 0x5C880610 0) = false ∧ okWord (loaded 0x5C880610 0) (loaded 0x5C880610 0).ip ∧
    (loaded 0x5C880610 0).ip.toNat ∉ (loaded 0x5C880610 0).stale ∧
    wordAt (loaded 0x5C880610 0) (loaded 0x5C880610 0).ip.toNat = 0x5C880610#32 ∧
    hasSecondWord 0x5C880610#32 = false ∧ decode 0x5C880610#32 0#32 = .instr (.mov (.reg 16) 17) := by
  delta isRunningState okWord; decide +kernel
theorem witness_StepRunsInstruction_two :
    wordAt (loaded 0x90201400 0xFFFFFFFC) 0x8000 = 0x90201400#32 ∧ hasSecondWord 0x90201400#32 = true ∧
    okWord (loaded 0x90201400 0xFFFFFFFC) ((loaded 0x90201400 0xFFFFFFFC).ip + 4#32) ∧
    (0x8004 : Nat) ∉ (loaded 0x90201400 0xFFFFFFFC).stale ∧
    wordAt (loaded 0x90201400 0xFFFFFFFC) 0x8004 = 0xFFFFFFFC#32 ∧
    decode 0x90201400#32 0xFFFFFFFC#32 = .instr (.ld (.ipDisp 0xFFFFFFFC) 4) := by
  delta okWord; decide +kernel
theorem witness_StepRunsInstruction_ret : wordAt (loaded 0x0A000000 0) 0x8000 = 0x0A000000#32 ∧
    decode 0x0A000000#32 0#32 = .instr .ret ∧ traceMode (loaded 0x0A000000 0) .prereturn = false := by
  decide +kernel

theorem machine_inv : Inv (loaded 0x5C880610 0) where
  memory := by decide +kernel
  cached := by decide +kernel
  frames := by intro e h; cases h
  code := by delta isCodeAddress; decide +kernel
  lastCode := by delta isCodeAddress; decide +kernel
  trace := by decide +kernel
  fail := by decide +kernel
  delay := by decide +kernel
  executedRising := by decide +kernel
  staleRising := by decide +kernel
  staleExecuted := by intro a h; cases h

theorem witness_StepKeepsInv : ∃ t, Inv (loaded 0x5C880610 0) ∧ step (loaded 0x5C880610 0) = .next t :=
  (next_of (by decide +kernel)).imp fun _ h => ⟨machine_inv, h⟩
theorem witness_HostActionsKeepInv_interrupt : ∃ t, iacInterrupt 200 (loaded 0x5C880610 0) = .ok t := ok_of (by decide +kernel)
theorem witness_HostActionsKeepInv_test : ∃ t, iacTestPending (loaded 0x5C880610 0) = .ok t := ok_of (by decide +kernel)
theorem witness_HostActionsKeepInv_reinitialize : ∃ t, iacReinitialize 0x1000 0x200 0x8000 { image with status := .running } = .ok t :=
  ok_of (by decide +kernel)

/-- The image running, with another PRCB at 0x240. -/
def imageRunning : State := withWords [(0x254, 0x6000), (0x258, 0x4000), (0x268, 0x5000)] { image with status := .running }
theorem witness_HostActionsEffects_reinitialize : isRunningState imageRunning ∧ (0x1000#32).toNat % 4096 = 0 ∧
    (0x240#32).toNat % max 64 imageRunning.params.salignBytes = 0 ∧ 0x1000#32 = wordAt imageRunning (0x1000#32 + 136#32).toNat ∧
    okEntry { imageRunning with prcbBase := 0x240#32 } 0x1000#32 136#32 ∧
    okEntry { imageRunning with prcbBase := 0x240#32 } 0x1000#32 168#32 ∧
    okEntry { imageRunning with prcbBase := 0x240#32 } 0x240#32 20#32 ∧
    okEntry { imageRunning with prcbBase := 0x240#32 } 0x240#32 40#32 ∧
    (0x1004#32).toNat % 4096 ≠ 0 ∧ (0x210#32).toNat % max 64 imageRunning.params.salignBytes ≠ 0 := by
  delta isRunningState okEntry okWord; decide +kernel
theorem witness_HostActionsEffects_other : ¬ isRunningState State.reset ∧ Memory.wf data.mem = true := by
  delta isRunningState; decide +kernel
theorem test_external_write : (externalWrite 0x2103 5 { data with executed := [0x2100] }).stale = [0x2100] ∧
    memRead (externalWrite 0x2103 5 data).mem 0x2103 = 5#8 := by decide +kernel

theorem witness_EventsAfterInstruction : ∃ u : State, getBit u.tc 1 = true ∧
    (getBit u.tc 7 && ((u.bp0.enabled && wordAligned u.bp0.ip == 0x8000#32) ||
      (u.bp1.enabled && wordAligned u.bp1.ip == 0x8000#32))) = true :=
  ⟨{ machine [] 0 with tc := 0x82, bp0 := ⟨true, 0x8003⟩ }, by decide +kernel⟩

theorem witness_IntegerResults_moves : (Src.reg 30).isEven = true ∧ Reg.isEven 14 = true ∧ (Src.lit 31).isEven = true ∧
    (Src.reg 28).isQuad = true ∧ Reg.isQuad 12 = true ∧ (Src.lit 31).isQuad = true := by decide

theorem witness_IntegerResults_divide : (Src.reg 18).isEven = true ∧ (Src.lit 31).isEven = true ∧ Reg.isEven 20 = true ∧
    srcValue (machine [(16, 10)] 0) (.reg 16) ≠ 0#32 ∧ srcValue (machine [] 0) (.lit 0) = 0#32 := by decide +kernel

theorem witness_MisalignedRegisters_integer : ((Src.reg 17).isEven && Reg.isEven 18) = false ∧
    ((Src.reg 16).isEven && Reg.isEven 31) = false ∧ ((Src.reg 18).isQuad && Reg.isQuad 20) = false ∧
    Reg.isEven 1 = false ∧ Reg.isQuad 2 = false := by decide
theorem witness_MisalignedRegisters_real : ((FpSrc.reg 17).fits .long && (FpDst.fpr 0).fits .long) = false ∧
    ((FpSrc.fpr 0).fits .ext && (FpDst.reg 18).fits .ext) = false ∧
    ((FpSrc.reg 16).fits .long && (FpSrc.reg 19).fits .long && (FpDst.reg 20).fits .long) = false ∧
    ((Src.reg 17).isEven && (FpDst.reg 18).fits .long) = false ∧ (FpSrc.reg 31).fits .long = false ∧
    ((FpSrc.reg 16).fits .long && (FpSrc.reg 17).fits .long) = false := by decide

/-! Accesses: g0 to g3 and g8 to g11 hold addresses at the end of the usable space. -/

/-- Addresses at the edges of the usable space. -/
def edges : State :=
  machine [(16, 0xFEFFFFFC), (17, 0xFEFFFFF8), (18, 0xFEFFFFF0), (19, 0xFEFFFFFD), (20, 0xFF000000), (21, 0xFF000007),
    (22, 0xFEFFFFFC), (23, 0xFF000010), (24, 0xFEFFFFFB), (25, 0xFEFFFFF7), (26, 0xFEFFFFF4), (27, 0xFEFFFFF5)] 0
/-- The same where DATA_ALIGN_POLICY splits unaligned accesses. -/
def splitEdges : State := { edges with params := { defaultParams with dataAlign := .split } }

theorem witness_Loads : effectiveAddr edges (.base 16) = 0xFEFFFFFC#32 ∧ DataAllowed edges 4 4 0xFEFFFFFC#32 ∧
    effectiveAddr edges (.base 17) = 0xFEFFFFF8#32 ∧ DataAllowed edges 8 8 0xFEFFFFF8#32 ∧ Reg.isEven 30 = true ∧
    effectiveAddr edges (.base 18) = 0xFEFFFFF0#32 ∧ DataAllowed edges 16 12 0xFEFFFFF0#32 ∧ Reg.isQuad 28 = true ∧
    readIsFree edges 0xFEFFFFF0#32 = false ∧ readIsFree edges (0xFEFFFFF0#32 + 8#32) = false := by
  delta DataAllowed; decide +kernel
theorem witness_Loads_split : DataAllowed splitEdges 4 4 (effectiveAddr splitEdges (.base 24)) ∧
    DataAllowed splitEdges 8 8 (effectiveAddr splitEdges (.base 25)) ∧
    DataAllowed splitEdges 16 12 (effectiveAddr splitEdges (.base 26)) ∧
    (effectiveAddr splitEdges (.base 24)).toNat % 4 ≠ 0 ∧ (effectiveAddr splitEdges (.base 26)).toNat % 16 ≠ 0 := by
  delta DataAllowed; decide +kernel
theorem witness_Stores : Memory.wf edges.mem = true ∧ effectiveAddr edges (.base 18) = 0xFEFFFFF0#32 ∧
    isReserved 0xFEFFFFF0#32 = false ∧ (0xFEFFFFF0#32).toNat % 4 = 0 ∧ (0xFEFFFFF0#32).toNat % 8 = 0 ∧
    Reg.isEven 28 = true ∧ (0xFEFFFFF0#32).toNat % 16 = 0 ∧ Reg.isQuad 28 = true := by decide +kernel
theorem witness_SplitAndRefusedAccesses_stores : splitEdges.params.dataAlign = .split ∧
    Memory.wf splitEdges.mem = true ∧ DataAllowed splitEdges 4 4 0xFEFFFFFB#32 ∧
    DataAllowed splitEdges 8 8 0xFEFFFFF7#32 ∧ Reg.isEven 28 = true ∧
    DataAllowed splitEdges 16 12 0xFEFFFFF4#32 ∧ Reg.isQuad 28 = true := by
  delta DataAllowed; decide +kernel
theorem witness_SplitAndRefusedAccesses_misaligned : edges.params.dataAlign = .refuse ∧
    (effectiveAddr edges (.base 19)).toNat % 4 ≠ 0 ∧
    (effectiveAddr edges (.base 16)).toNat % 8 ≠ 0 ∧ Reg.isEven 4 = true ∧
    (effectiveAddr edges (.base 17)).toNat % 16 ≠ 0 ∧ Reg.isQuad 4 = true := by decide +kernel
theorem witness_SplitAndRefusedAccesses_reserved : (effectiveAddr edges (.base 20)).toNat % 16 = 0 ∧
    (effectiveAddr edges (.base 20)).toNat % 8 = 0 ∧ (effectiveAddr edges (.base 20)).toNat % 4 = 0 ∧
    isReserved (effectiveAddr edges (.base 20)) = true ∧ isReserved (srcValue edges (.reg 23)) = true ∧
    wordAligned (srcValue edges (.reg 23)) ≠ icrAddress ∧ isReserved (srcValue edges (.reg 16)) = false := by
  decide +kernel
theorem witness_SplitAndRefusedAccesses_split : splitEdges.params.dataAlign = .split ∧
    isReserved (effectiveAddr splitEdges (.base 19) + BitVec.ofNat 32 (min 4 12 - 1)) = true ∧
    isReserved (effectiveAddr splitEdges (.base 24) + BitVec.ofNat 32 (min 8 12 - 1)) = true ∧
    isReserved (effectiveAddr splitEdges (.base 27) + BitVec.ofNat 32 (min 16 12 - 1)) = true := by decide +kernel
theorem witness_SplitAndRefusedAccesses_tables : 2 ^ 32 ≤ (0xFFFFFFF8#32).toNat + 8 * (1#8).toNat ∧ 8 ≤ (8#8).toNat ∧
    (pcPriority edges).toNat < (8#8).toNat / 8 ∧ getBit edges.pc 13 = false ∧
    recordRoom edges.intStack edges.params.interruptRecord.size ∧
    2 ^ 32 ≤ (0xFFFFFFDC#32).toNat + 36 + 4 * ((8#8).toNat - 8) := by
  delta recordRoom roomAt; decide +kernel
theorem test_table_past_the_end : deliverFault { ftype := 1, subtype := 2, afi := none, sip := none }
    { machine [] 0 with faultTable := 0xFFFFFFF8 } = .error (.refused .addressWrap) := rfl
theorem witness_SynchronousAccesses_load : wordAligned (srcValue edges (.reg 21)) = icrAddress ∧
    isReserved (srcValue edges (.reg 16)) = false ∧
    readIsFree edges (wordAligned (srcValue edges (.reg 16))) = false := by decide +kernel
theorem witness_SynchronousAccesses_move : Memory.wf edges.mem = true ∧ wordAligned (srcValue edges (.reg 21)) = icrAddress ∧
    isReserved (wordAligned (srcValue edges (.reg 16))) = false ∧
    readIsFree edges (wordAligned (srcValue edges (.reg 16))) = false ∧
    isReserved (wordAligned (srcValue edges (.reg 19))) = false := by decide +kernel

theorem witness_ModifyProcessControls_reads : srcValue (machine [] 0) (.lit 0) = 0#32 := by decide +kernel
/-- A supervisor at priority 31; g0 a mask for priority and trace-enable flag, g1 priority 31. -/
def supervisor : State := { machine [(16, 0x1F0001), (17, 0x1F0001)] 0 with pc := 0x1F2002 }
theorem witness_ModifyProcessControls_writes : srcValue supervisor (.reg 16) ≠ 0#32 ∧ pcEm supervisor = true ∧
    srcValue supervisor (.reg 16) &&& 0xFFE0D9FC#32 = 0#32 ∧
    (∀ i, i < 32 → getBit 0x1F2003#32 i = if getBit (srcValue supervisor (.reg 16)) i = true
      then getBit (getReg supervisor 17) i else getBit supervisor.pc i) ∧
    (pcPriority supervisor).toNat ≤ (BitVec.extractLsb' 16 5 0x1F2003#32).toNat ∧
    getBit 0x1F2003#32 0 ≠ getBit supervisor.pc 0 := by decide +kernel
theorem witness_ModifyProcessControls_lowers : srcValue supervisor (.reg 16) ≠ 0#32 ∧ pcEm supervisor = true ∧
    (∀ i, i < 32 → getBit 0x002002#32 i = if getBit (srcValue supervisor (.reg 16)) i = true
      then getBit (getReg supervisor 18) i else getBit supervisor.pc i) ∧
    okWord supervisor supervisor.intTable ∧ wordAt supervisor supervisor.intTable.toNat = 0#32 := by
  delta okWord; decide +kernel
theorem witness_ModifyProcessControls_checks : (BitVec.extractLsb' 16 5 0x002002#32).toNat < (pcPriority supervisor).toNat := by
  decide +kernel
theorem witness_ModifyProcessControls_traps : srcValue (machine [(16, 1)] 0) (.reg 16) ≠ 0#32 ∧
    pcEm (machine [(16, 1)] 0) = false ∧ pcEm supervisor = true ∧
    srcValue supervisor (.lit 4) &&& 0xFFE0D9FC#32 ≠ 0#32 := by decide +kernel

/-- A processor with three callers' sets on the chip. -/
def deep : State :=
  { machine [(31, 0x1000), (1, 0x1058)] 0 with
    older := [⟨0x0FC0, Vector.replicate 16 7#32⟩, ⟨0x0F80, Vector.replicate 16 8#32⟩,
      ⟨0x0F40, Vector.replicate 16 9#32⟩] }

theorem witness_FlushRegisters : Memory.wf deep.mem = true ∧
    (∀ e ∈ deep.older, frameAligned e.addr = e.addr ∧ isReserved e.addr = false) ∧
    deep.older.Pairwise (fun e f => e.addr ≠ f.addr) := by decide +kernel

theorem witness_Branches : Holds 0b101#3 (acCc (machine [] 4)) ∧ Holds 0b000#3 (acCc (machine [] 0)) ∧
    ¬ Holds 0b010#3 (acCc (machine [] 4)) ∧ ¬ Holds 0b000#3 (acCc (machine [] 4)) := by
  delta Holds; decide +kernel
theorem witness_BranchAndLink : getBit (machine [] 0).tc 3 = false ∧
    getBit ({ machine [] 0 with tc := 8 } : State).tc 3 = true ∧ (18#5 : Reg) ≠ pfpReg := by decide +kernel
theorem witness_FaultIfs : Holds 0b010#3 (acCc (machine [] 2)) ∧ ¬ Holds 0b111#3 (acCc (machine [] 0)) := by
  delta Holds; decide +kernel

theorem witness_LocalCalls_refused : ¬ roomAt (getReg (setReg caller spReg 0xFFFFFFC0#32) spReg) := by
  delta roomAt; decide +kernel
theorem witness_LocalCalls_free : caller.older.length ≤ 2 ∧ roomAt (getReg caller spReg) := by
  delta roomAt; decide +kernel
theorem witness_LocalCalls_spills : deep.older = [⟨0x0FC0, Vector.replicate 16 7#32⟩,
      ⟨0x0F80, Vector.replicate 16 8#32⟩, ⟨0x0F40, Vector.replicate 16 9#32⟩] ∧ Memory.wf deep.mem = true ∧
    roomAt (getReg deep spReg) ∧ frameAligned 0x0F40#32 = 0x0F40#32 ∧ isReserved 0x0F40#32 = false := by
  delta roomAt; decide +kernel

/-- A user program, its system-procedure table at 0x7000: entry 0 local, 1 and 3 reserved, 259 supervisor. -/
def tables : State :=
  withWords [(0x7030, 0xA000), (0x7034, 0xA001), (0x703C, 0xA003), (0x743C, 0xA002), (0x700C, 0x3001)]
    (machine [(31, 0x1000), (1, 0x1058), (16, 259), (17, 260)] 0)

theorem okEntry_tables : okEntry tables tables.sysprocBase (48#32 + 4#32 * srcValue tables (.lit 0)) ∧
    okEntry tables tables.sysprocBase (48#32 + 4#32 * srcValue tables (.reg 16)) ∧
    okEntry tables tables.sysprocBase 12#32 := by delta okEntry okWord; decide +kernel
theorem witness_SystemCalls_length : 259 < (srcValue tables (.reg 17)).toNat := by decide +kernel
theorem witness_SystemCalls_wrap : (srcValue tables (.lit 0)).toNat ≤ 259 ∧
    2 ^ 32 ≤ (0xFFFFFFD0#32).toNat + (48 + 4 * (srcValue tables (.lit 0)).toNat) := by decide +kernel
theorem witness_SystemCalls_reserved : (srcValue tables (.lit 1)).toNat ≤ 259 ∧
    okEntry tables tables.sysprocBase (48#32 + 4#32 * srcValue tables (.lit 1)) ∧
    (wordAt tables (tables.sysprocBase + (48#32 + 4#32 * srcValue tables (.lit 1))).toNat).setWidth 2 = 1#2 ∧
    (wordAt tables (tables.sysprocBase + (48#32 + 4#32 * srcValue tables (.lit 3))).toNat).setWidth 2 = 3#2 := by
  delta okEntry okWord; decide +kernel
theorem witness_SystemCalls_local : SystemEntry (srcValue tables (.lit 0)) tables 0xA000#32 0#32 (getReg tables spReg) 0b000#3 ∧
    roomAt (getReg tables spReg) ∧ tables.older.length ≤ 2 :=
  ⟨⟨by decide +kernel, okEntry_tables.1, by decide +kernel, .inl ⟨.inl (by decide), rfl, rfl⟩⟩,
    by delta roomAt; decide +kernel, by decide +kernel⟩
theorem witness_SystemCalls_supervisor :
    SystemEntry (srcValue tables (.reg 16)) tables 0xA002#32 0x3001#32 0x3000#32 0b010#3 ∧ roomAt 0x3000#32 :=
  ⟨⟨by decide +kernel, okEntry_tables.2.1, by decide +kernel, .inr ⟨by decide, by decide +kernel, okEntry_tables.2.2,
    by decide +kernel, by decide, by decide +kernel⟩⟩, by delta roomAt; decide⟩
theorem witness_SystemCalls_in_supervisor_mode :
    SystemEntry (srcValue tables (.reg 16)) { tables with pc := 2 } 0xA002#32 0#32 (getReg tables spReg) 0b000#3 :=
  ⟨by decide +kernel, by delta okEntry okWord; decide +kernel, by decide +kernel,
    .inl ⟨.inr ⟨by decide, by decide +kernel⟩, rfl, rfl⟩⟩
/-- The same program at the end of the address space. -/
def tablesHigh : State := setReg tables spReg 0xFFFFFFC0#32
theorem witness_SystemCalls_frame : ¬ roomAt 0xFFFFFFC0#32 ∧
    SystemEntry (srcValue tablesHigh (.lit 0)) tablesHigh 0xA000#32 0#32 (getReg tablesHigh spReg) 0b000#3 ∧
    getReg tablesHigh spReg = 0xFFFFFFC0#32 :=
  ⟨by delta roomAt; decide, ⟨by decide +kernel, by delta okEntry okWord; decide +kernel, by decide +kernel,
    .inl ⟨.inl (by decide), rfl, rfl⟩⟩, by decide +kernel⟩

/-- A procedure with a frame above one cached on the chip; its PFP holds return status `k`. -/
def callee (k : Nat) : State :=
  { machine [(0, 0x0FC0 + k), (31, 0x1000), (1, 0x1058)] 0 with older := [⟨0x0FC0, Vector.replicate 16 7#32⟩] }

theorem returnable_callee (k : Nat) : Returnable 0x0FC0#32 (callee k) := by
  refine ⟨fun e rest h => ?_, fun h => nomatch (show [(⟨0x0FC0, Vector.replicate 16 7#32⟩ : RegSet)] = [] from h)⟩
  have h : [(⟨0x0FC0, Vector.replicate 16 7#32⟩ : RegSet)] = e :: rest := h
  exact (List.cons.inj h).1 ▸ rfl

theorem witness_LocalReturn_cached : (getReg (callee 0) pfpReg).setWidth 3 = 0#3 ∧
    (callee 0).older = ⟨0x0FC0, Vector.replicate 16 7#32⟩ :: [] ∧ 0x0FC0#32 = getReg (callee 0) pfpReg &&& 0xFFFFFFC0#32 := by
  decide +kernel
theorem witness_LocalReturn_changed : (getReg (setReg (callee 0) pfpReg 0x1F00#32) pfpReg).setWidth 3 = 0#3 ∧
    (setReg (callee 0) pfpReg 0x1F00#32).older = ⟨0x0FC0, Vector.replicate 16 7#32⟩ :: [] ∧
    0x0FC0#32 ≠ getReg (setReg (callee 0) pfpReg 0x1F00#32) pfpReg &&& 0xFFFFFFC0#32 := by decide +kernel
theorem witness_LocalReturn_memory : (getReg caller pfpReg).setWidth 3 = 0#3 ∧ caller.older = [] ∧
    isReserved (getReg caller pfpReg &&& 0xFFFFFFC0#32) = false ∧
    ∀ i : Fin 16, scratchWord caller ((getReg caller pfpReg &&& 0xFFFFFFC0#32) + BitVec.ofNat 32 (4 * i.val)) = false := by
  decide +kernel

theorem witness_CallThenReturn : ∃ t, isCodeAddress caller.ip ∧ caller.older.length ≤ 2 ∧
    exec (.call 64) caller = .next t :=
  (next_of (by decide +kernel)).imp fun _ h => ⟨by delta isCodeAddress; decide +kernel, by decide +kernel, h⟩
theorem witness_CallThenReturn_extended : ∃ t, exec (.callx (.ipDisp 0xFFFFFFFC)) caller = .next t :=
  next_of (by decide +kernel)
theorem witness_CallThenReturn_supervisor : ∃ t, isCodeAddress tables.ip ∧ tables.older.length ≤ 2 ∧
    pcEm tables = false ∧ SystemEntry (srcValue tables (.reg 16)) tables 0xA002#32 0x3001#32 0x3000#32 0b010#3 ∧
    (0xA002#32).setWidth 2 = 2#2 ∧ exec (.calls (.reg 16)) tables = .next t :=
  (next_of (by decide +kernel)).imp fun _ h =>
    ⟨by delta isCodeAddress; decide +kernel, by decide +kernel, by decide +kernel, witness_SystemCalls_supervisor.1,
      by decide, h⟩

theorem witness_FaultReturn : (getReg (callee 1) pfpReg).setWidth 3 = 1#3 ∧ Returnable 0x0FC0#32 (callee 1) ∧
    0x0FC0#32 = getReg (callee 1) pfpReg &&& 0xFFFFFFC0#32 ∧ getReg (callee 1) fpReg &&& 0xFFFFFFC0#32 = 0x1000#32 ∧
    okWord (callee 1) (0x1000#32 - 12#32) ∧ okWord (callee 1) (0x1000#32 - 16#32) ∧ pcEm (callee 1) = false ∧
    pcEm { callee 1 with pc := 2 } = true ∧ (callee 1).params.faultRecord = defaultFaultLayout ∧
    getBit (wordAt (callee 1) (0x1000#32 - 16#32).toNat) 9 = false :=
  ⟨by decide +kernel, returnable_callee 1, by decide +kernel, by decide +kernel, okWord_of (by decide +kernel),
    okWord_of (by decide +kernel), by decide +kernel, by decide +kernel, by decide +kernel, by decide +kernel⟩
theorem witness_FaultReturn_refused : (getReg (callee 4) pfpReg).setWidth 3 = 4#3 ∧
    (getReg (callee 5) pfpReg).setWidth 3 = 5#3 ∧ (getReg (callee 6) pfpReg).setWidth 3 = 6#3 ∧
    pcEm (callee 2) = false ∧ (getReg (callee 2) pfpReg).setWidth 3 = 2#3 ∧
    (getReg (callee 3) pfpReg).setWidth 3 = 3#3 ∧ (getReg (callee 7) pfpReg).setWidth 3 = 7#3 := by decide +kernel
/-- A handler's return in supervisor mode with return status `k`, whose record has the resume flag set. -/
def resuming (k : Nat) : State := withWords [(0xFF0, 0x200)] { callee k with pc := 2 }
theorem witness_FaultReturn_resume : ∀ k ∈ [1, 7], pcEm (resuming k) = true ∧
    (getReg (resuming k) pfpReg).setWidth 3 = BitVec.ofNat 3 k ∧
    getReg (resuming k) fpReg &&& 0xFFFFFFC0#32 = 0x1000#32 ∧
    okWord (resuming k) (0x1000#32 - 12#32) ∧ okWord (resuming k) (0x1000#32 - 16#32) ∧
    getBit (wordAt (resuming k) (0x1000#32 - 16#32).toNat) 9 = true := by
  delta okWord; decide +kernel

theorem witness_FaultReturn_memory : (getReg { callee 1 with older := [] } pfpReg).setWidth 3 = 1#3 ∧
    Returnable 0x0FC0#32 { callee 1 with older := [] } ∧
    0x0FC0#32 = getReg { callee 1 with older := [] } pfpReg &&& 0xFFFFFFC0#32 :=
  ⟨by decide +kernel, ⟨fun _ _ h => (nomatch h), fun _ => by decide⟩, by decide +kernel⟩
theorem witness_SupervisorAndInterruptReturns_supervisor : pcEm { callee 2 with pc := 2 } = true ∧
    getReg { callee 2 with pc := 2 } fpReg &&& 0xFFFFFFC0#32 = 0x1000#32 ∧
    0x0FC0#32 = getReg { callee 2 with pc := 2 } pfpReg &&& 0xFFFFFFC0#32 ∧ Returnable 0x0FC0#32 { callee 2 with pc := 2 } ∧
    (getReg { callee 2 with pc := 2 } pfpReg).setWidth 3 = 2#3 ∧ Returnable 0x0FC0#32 { callee 3 with pc := 2, older := [] } ∧
    (getReg { callee 3 with pc := 2, older := [] } pfpReg).setWidth 3 = 3#3 :=
  ⟨by decide +kernel, by decide +kernel, by decide +kernel, returnable_callee 2, by decide +kernel,
    ⟨fun _ _ h => (nomatch h), fun _ => by decide⟩, by decide +kernel⟩
theorem witness_SupervisorAndInterruptReturns_interrupt : pcEm { callee 7 with pc := 2 } = true ∧
    getReg { callee 7 with pc := 2 } fpReg &&& 0xFFFFFFC0#32 = 0x1000#32 ∧
    0x0FC0#32 = getReg { callee 7 with pc := 2 } pfpReg &&& 0xFFFFFFC0#32 ∧ Returnable 0x0FC0#32 { callee 7 with pc := 2 } ∧
    (getReg { callee 7 with pc := 2 } pfpReg).setWidth 3 = 7#3 ∧
    (callee 7).params.interruptRecord = defaultInterruptLayout ∧ okWord (callee 7) (0x1000#32 - 12#32) ∧
    okWord (callee 7) (0x1000#32 - 16#32) ∧ getBit (wordAt (callee 7) (0x1000#32 - 16#32).toNat) 9 = false ∧
    (callee 7).status = .running ∧ okWord (callee 7) (callee 7).intTable ∧ wordAt (callee 7) (callee 7).intTable.toNat = 0#32 :=
  ⟨by decide +kernel, by decide +kernel, by decide +kernel, returnable_callee 7, by decide +kernel, by decide +kernel,
    okWord_of (by decide +kernel), okWord_of (by decide +kernel), by decide +kernel, by decide +kernel,
    okWord_of (by decide +kernel), by decide +kernel⟩

/-- A fault table at 0x5000: type 2 local; type 3 system procedure 259, a supervisor one; types 4 to 7 unusable; type 8
system procedure 0, a local one; types 9 and 10 trace-table procedures 1, a supervisor one, and 2, a local one; type 11
system procedure 1, of a reserved type. The trace table stands at 0x7800. -/
def handlers : State :=
  withWords [(0x5010, 0xB000), (0x5018, 4 * 259 + 2), (0x501C, 0x27F), (0x5020, 1), (0x5028, 3), (0x5030, 2),
    (0x5038, 4 * 260 + 2), (0x503C, 0x27F), (0x5040, 2), (0x5044, 0x27F), (0x5048, 4 * 1 + 2), (0x504C, 0x2BF),
    (0x5050, 4 * 2 + 2), (0x5054, 0x2FF), (0x5058, 4 * 1 + 2), (0x505C, 0x27F), (0x780C, 0x3003), (0x7834, 0xD002),
    (0x7838, 0xD100)] { tables with traceBase := 0x7800 }
/-- A fault of type `t`. -/
def faultOf (t : Byte) : FaultInfo := { ftype := t, subtype := 1, afi := some 0x8000#32, sip := some 0x8004#32 }

theorem entry_of {s : State} (t : Byte)
    (h : okEntry s s.faultTable (8#32 * t.setWidth 32) ∧ okEntry s s.faultTable (8#32 * t.setWidth 32 + 4#32)) :
    FaultTableEntry (faultOf t) s (wordAt s (s.faultTable + 8#32 * t.setWidth 32).toNat)
      (wordAt s (s.faultTable + (8#32 * t.setWidth 32 + 4#32)).toNat) := ⟨h.1, h.2, rfl, rfl⟩
theorem handlers_entries (t : Byte) (h : t ∈ [2#8, 3#8, 4#8, 5#8, 6#8, 7#8, 8#8, 9#8, 10#8, 11#8]) :
    okEntry handlers handlers.faultTable (8#32 * t.setWidth 32) ∧
      okEntry handlers handlers.faultTable (8#32 * t.setWidth 32 + 4#32) := by
  delta okEntry okWord; revert t; decide +kernel

theorem witness_FaultDelivered_state : Memory.wf handlers.mem = true ∧ handlers.older.length ≤ 2 ∧
    handlers.params.faultRecord = defaultFaultLayout ∧ recordRoom 0x3000#32 48#32 ∧
    isReserved (frameAbove (0x3000#32 + 48#32) - 28#32) = false ∧ isReserved (frameAbove (0x3000#32 + 48#32) - 4#32) = false ∧
    recordRoom 0x1058#32 48#32 ∧ isReserved (frameAbove (0x1058#32 + 48#32) - 28#32) = false ∧
    isReserved (frameAbove (0x1058#32 + 48#32) - 4#32) = false := by
  delta recordRoom roomAt; decide +kernel
theorem witness_FaultDelivered_local : HandledAt (faultOf 2) handlers 0xB000#32 0x1058#32 none :=
  ⟨_, _, entry_of 2 (handlers_entries 2 (by decide)), .inl ⟨by decide +kernel, by decide +kernel, by decide +kernel, rfl⟩⟩
theorem witness_FaultDelivered_supervisor : HandledAt (faultOf 3) handlers 0xA002#32 0x3000#32 (some 0x3001#32) :=
  ⟨_, _, entry_of 3 (handlers_entries 3 (by decide)), .inr ⟨handlers.sysprocBase,
    ⟨by decide +kernel, by decide +kernel, .inl ⟨by decide +kernel, rfl⟩, by delta okEntry okWord; decide +kernel,
      by decide +kernel⟩,
    .inr ⟨by decide, by delta okEntry okWord; decide +kernel, _, rfl, by decide +kernel, by decide +kernel⟩⟩⟩
theorem witness_FaultDelivered_in_supervisor_mode :
    HandledAt (faultOf 3) { handlers with pc := 2 } 0xA002#32 0x1058#32 (some 0x3001#32) :=
  ⟨_, _, entry_of 3 (by delta okEntry okWord; decide +kernel), .inr ⟨handlers.sysprocBase,
    ⟨by decide +kernel, by decide +kernel, .inl ⟨by decide +kernel, rfl⟩, by delta okEntry okWord; decide +kernel,
      by decide +kernel⟩,
    .inr ⟨by decide, by delta okEntry okWord; decide +kernel, _, rfl, by decide +kernel, by decide +kernel⟩⟩⟩
theorem witness_FaultDelivered_local_procedure : HandledAt (faultOf 8) handlers 0xA000#32 0x1058#32 none :=
  ⟨_, _, entry_of 8 (handlers_entries 8 (by decide)), .inr ⟨handlers.sysprocBase,
    ⟨by decide +kernel, by decide +kernel, .inl ⟨by decide +kernel, rfl⟩, by delta okEntry okWord; decide +kernel,
      by decide +kernel⟩, .inl ⟨by decide, by decide +kernel, rfl⟩⟩⟩
theorem witness_FaultDelivered_trace_table : HandledAt (faultOf 9) handlers 0xD002#32 0x3000#32 (some 0x3003#32) ∧
    HandledAt (faultOf 10) handlers 0xD100#32 0x1058#32 none :=
  ⟨⟨_, _, entry_of 9 (handlers_entries 9 (by decide)), .inr ⟨handlers.traceBase,
      ⟨by decide +kernel, by decide +kernel, .inr ⟨.inl (by decide +kernel), rfl⟩, by delta okEntry okWord; decide +kernel,
        by decide +kernel⟩,
      .inr ⟨by decide, by delta okEntry okWord; decide +kernel, _, rfl, by decide +kernel, by decide +kernel⟩⟩⟩,
    ⟨_, _, entry_of 10 (handlers_entries 10 (by decide)), .inr ⟨handlers.traceBase,
      ⟨by decide +kernel, by decide +kernel, .inr ⟨.inr (by decide +kernel), rfl⟩, by delta okEntry okWord; decide +kernel,
        by decide +kernel⟩, .inl ⟨by decide, by decide +kernel, rfl⟩⟩⟩⟩
theorem witness_FaultDelivered_refused : ¬ recordRoom 0xFFFFFFC0#32 48#32 ∧
    HandledAt (faultOf 2) (setReg handlers spReg 0xFFFFFFC0#32) 0xB000#32 0xFFFFFFC0#32 none :=
  ⟨by delta recordRoom roomAt; decide, _, _, entry_of 2 (by delta okEntry okWord; decide +kernel),
    .inl ⟨by decide +kernel, by decide +kernel, by decide +kernel, rfl⟩⟩
theorem witness_UnusableFaultEntrySticks :
    (wordAt handlers (handlers.faultTable + 8#32 * (4#8).setWidth 32).toNat).setWidth 2 = 1#2 ∧
    (wordAt handlers (handlers.faultTable + 8#32 * (5#8).setWidth 32).toNat).setWidth 2 = 3#2 ∧
    (wordAt handlers (handlers.faultTable + 8#32 * (6#8).setWidth 32).toNat).setWidth 2 = 2#2 ∧
    wordAt handlers (handlers.faultTable + (8#32 * (6#8).setWidth 32 + 4#32)).toNat = 0#32 ∧
    259 < (wordAt handlers (handlers.faultTable + 8#32 * (7#8).setWidth 32).toNat >>> 2).toNat := by decide +kernel
theorem witness_UnusableFaultEntrySticks_procedure : ProcedureTableEntry handlers
      (wordAt handlers (handlers.faultTable + 8#32 * (11#8).setWidth 32).toNat)
      (wordAt handlers (handlers.faultTable + (8#32 * (11#8).setWidth 32 + 4#32)).toNat) handlers.sysprocBase 0xA001#32 ∧
    (0xA001#32).setWidth 2 = 1#2 :=
  ⟨⟨by decide +kernel, by decide +kernel, .inl ⟨by decide +kernel, rfl⟩, by delta okEntry okWord; decide +kernel,
    by decide +kernel⟩, by decide⟩

/-- An interruptible program: priority 4, interrupt table at 0x6000 with one vector's handler at 0xC000. -/
def interruptible : State := withWords [(0x6000 + 36 + 4 * (40 - 8), 0xC000)] { caller with pc := 0x40000 }

theorem vectored_of {s : State} (h : s.params.interruptRecord = defaultInterruptLayout ∧ getBit s.pc 13 = false ∧
    isReserved (frameAbove (s.intStack + 16#32) - 16#32) = false ∧
    okEntry s s.intTable (36#32 + 4#32 * ((40#8).setWidth 32 - 8#32)) ∧
    (frameAbove (s.intStack + 16#32)).toNat - 16 + 12 ≤
      (s.intTable + (36#32 + 4#32 * ((40#8).setWidth 32 - 8#32))).toNat) :
    Vectored 40 s s.intStack (frameAbove (s.intStack + 16#32))
      (wordAt s (s.intTable + (36#32 + 4#32 * ((40#8).setWidth 32 - 8#32))).toNat) where
  layout := h.1
  stack := by rw [h.2.1]; rfl
  frame := rfl
  writable := h.2.2.1
  readable := h.2.2.2.1
  apart := fun _ hx k => Nat.lt_irrefl _ (Nat.lt_of_lt_of_le (Nat.lt_of_lt_of_le hx.2 h.2.2.2.2) k.1)
  target := rfl
theorem witness_InterruptTaken_serviced : ∃ entry, Memory.wf interruptible.mem = true ∧
    (pcPriority interruptible).toNat < (40#8).toNat / 8 ∧ (255#8).toNat / 8 = 31 ∧ interruptible.older.length ≤ 2 ∧
    Vectored 40 interruptible 0x4000#32 0x4040#32 entry ∧ recordRoom 0x4000#32 16#32 :=
  ⟨_, by decide +kernel, by decide +kernel, by decide, by decide +kernel,
    vectored_of (s := interruptible) (by delta okEntry okWord; decide +kernel), by delta recordRoom roomAt; decide⟩
theorem witness_InterruptTaken_refused : ¬ recordRoom 0xFFFFFFF8#32 16#32 ∧ ∃ nfp entry,
    Vectored 40 { interruptible with intStack := 0xFFFFFFF8#32 } 0xFFFFFFF8#32 nfp entry :=
  ⟨by delta recordRoom roomAt; decide, _, _,
    vectored_of (s := { interruptible with intStack := 0xFFFFFFF8#32 })
      (by delta okEntry okWord; decide +kernel)⟩
theorem witness_InterruptTaken_posted : (32#8).toNat / 8 ≤ (pcPriority interruptible).toNat ∧ (32#8).toNat / 8 ≠ 31 ∧
    okWord interruptible interruptible.intTable ∧ interruptible.intTable.toNat + 36 ≤ 0xFF000000 ∧
    inScratch interruptible (interruptible.intTable + BitVec.ofNat 32 (4 + (32#8).toNat / 8)) = false := by
  delta okWord; decide +kernel

/-- Interrupt entry changes no word outside its record, no table pointer, and not where the scratch space is, where a
register set is free. -/
theorem interruptEntry_keeps {v : Byte} {s t : State} (h : interruptEntry v s = .ok t)
    (hm : Memory.wf s.mem = true) (hl : s.older.length ≤ 2) (a : Nat)
    (hn : ((interruptRecord v s).map Prod.fst).all (fun o => decide ((nextFrame (interruptStackPointer s +
      s.params.interruptRecord.size) - s.params.interruptRecord.size + o).toNat + 4 ≤ a)) = true) :
    t.intTable = s.intTable ∧ t.prcbBase = s.prcbBase ∧ getReg t fpReg = nextFrame (interruptStackPointer s +
      s.params.interruptRecord.size) ∧ wordAt t a = wordAt s a := by
  obtain ⟨before, after, s2, -, -, hb, h1, ha, h3⟩ := interruptEntry_ok h
  obtain ⟨-, b, hc, rfl⟩ := callOp_ok h3
  obtain ⟨-, -, -, ⟨k₀, hk⟩, -⟩ := loadEntry_ok hb
  obtain ⟨⟨m, st, hs⟩, hf⟩ := storeFields_ok h1
  obtain ⟨-, -, -, ⟨j, hj⟩, -⟩ := loadEntry_ok ha
  rw [hk] at h1 hs hf
  obtain ⟨-, hr⟩ := hf hm
  generalize hw : drawn after.2 1 = w at hc
  rw [hj, hs] at hw
  have hw' : w.older = s.older ∧ w.mem = m ∧ w.intTable = s.intTable ∧ w.prcbBase = s.prcbBase ∧ w.params = s.params := by
    subst hw
    exact ⟨setReg_older .., setReg_mem .., setReg_intTable .., setReg_prcbBase .., setReg_params ..⟩
  obtain ⟨cur, hd⟩ := allocSet_room (s := w) (hw'.1 ▸ hl)
  obtain rfl := Except.ok.inj (hc.symm.trans hd)
  have hfp := (calledFrom_regs (handlerWord after.2 before.1 after.1) (interruptStackPointer s +
    s.params.interruptRecord.size) 0b111#3 w
    { w with cur := cur, older := ⟨curFrame w, w.cur⟩ :: w.older, draws := w.draws + 16 }).1
  obtain ⟨g, c, tc, pc, he⟩ := calledFrom_rest (handlerWord after.2 before.1 after.1) (interruptStackPointer s +
    s.params.interruptRecord.size) 0b111#3 w
    { w with cur := cur, older := ⟨curFrame w, w.cur⟩ :: w.older, draws := w.draws + 16 }
  refine ⟨?_, ?_, hfp, ?_⟩
  · rw [he]; exact hw'.2.2.1
  · rw [he]; exact hw'.2.2.2.1
  · rw [he]
    show memReadWord w.params.byteOrder w.mem a = memReadWord s.params.byteOrder s.mem a
    rw [hw'.2.1, hw'.2.2.2.2]
    have hk : ∀ k, memRead m (a + k) = memRead s.mem (a + k) := fun k => by
      refine (hs ▸ hr) _ fun p hp => .inr ?_
      exact Nat.le_trans (of_decide_eq_true (List.all_eq_true.1 hn p.1
        ((show List.map Prod.fst (interruptRecord v (drawn s k₀)) = _ from rfl) ▸ List.mem_map_of_mem hp))) (Nat.le_add_right a k)
    have h0 := hk 0
    rw [Nat.add_zero] at h0
    unfold memReadWord
    rw [h0, hk 1, hk 2, hk 3]

theorem witness_InterruptThenReturn : ∃ t, Memory.wf interruptible.mem = true ∧ isCodeAddress interruptible.ip ∧
    interruptible.older.length ≤ 2 ∧ interruptible.status = .running ∧
    interruptible.params.interruptRecord = defaultInterruptLayout ∧ getBit interruptible.pc 9 = false ∧
    interruptEntry 40 interruptible = .ok t ∧
    (∀ rec : Word, rec = getReg t fpReg &&& 0xFFFFFFC0#32 →
      scratchWord t (rec - 16#32) = false ∧ scratchWord t (rec - 12#32) = false) ∧
    okWord t t.intTable ∧ wordAt t t.intTable.toNat = 0#32 := by
  obtain ⟨t, ht⟩ : ∃ t, interruptEntry 40 interruptible = .ok t := ok_of (by decide +kernel)
  have hw : Memory.wf interruptible.mem = true := by decide +kernel
  obtain ⟨h1, h2, h3, h4⟩ := interruptEntry_keeps ht hw (by decide +kernel) 0x6000 (by decide +kernel)
  have hi : t.intTable = 0x6000#32 := h1.trans (by decide +kernel)
  have hp : t.prcbBase = 0x2000#32 := h2.trans (by decide +kernel)
  have hf : getReg t fpReg = 0x4040#32 := h3.trans (by decide +kernel)
  refine ⟨t, hw, by delta isCodeAddress; decide +kernel, by decide +kernel, by decide +kernel, by decide +kernel,
    by decide +kernel, ht, ?_, ⟨?_, ?_, ?_⟩, ?_⟩
  · rintro _ rfl
    unfold scratchWord inScratch
    rw [hp, hf]; decide
  · rw [hi]; decide
  · rw [hi]; decide
  · unfold scratchWord inScratch
    rw [hp, hi]; decide
  · rw [hi]; exact h4.trans (by decide +kernel)

/-- Pending vectors 251 and 40 (priorities 31 and 5), and priority 30's bit over an empty byte. -/
def pending : State := withWords [(0x6000, 0x80000020), (0x6009, 1), (0x6020, 0x08000000)] interruptible

theorem witness_PendingInterruptChosen_chosen : okWord pending pending.intTable ∧ pending.intTable.toNat + 36 ≤ 0xFF000000 ∧
    getBit (wordAt pending pending.intTable.toNat) 31 = true ∧
    isServiced pending (BitVec.ofNat 5 31) = true ∧
    (∀ q : Fin 32, 31 < q → getBit (wordAt pending pending.intTable.toNat) q.val = true →
      isServiced pending (BitVec.ofNat 5 q.val) = true → NothingAt pending q) ∧
    inScratch pending (pending.intTable + BitVec.ofNat 32 (4 + 31)) = false ∧
    (memRead pending.mem (pending.intTable.toNat + 4 + 31)).getLsbD 3 = true ∧
    (∀ j : Fin 8, 3 < j → (memRead pending.mem (pending.intTable.toNat + 4 + 31)).getLsbD j.val = false) := by
  delta okWord NothingAt; decide +kernel
/-- Pending vector 40 (priority 5), and priority 31's bit over an empty byte. -/
def halfPosted : State := withWords [(0x6000, 0x80000020), (0x6009, 1)] interruptible
theorem witness_PendingInterruptChosen_skips : okWord halfPosted halfPosted.intTable ∧
    getBit (wordAt halfPosted halfPosted.intTable.toNat) 5 = true ∧ isServiced halfPosted (BitVec.ofNat 5 5) = true ∧
    NothingAt halfPosted 31 ∧ (∀ q : Fin 32, 5 < q → getBit (wordAt halfPosted halfPosted.intTable.toNat) q.val = true →
      isServiced halfPosted (BitVec.ofNat 5 q.val) = true → NothingAt halfPosted q) ∧
    inScratch halfPosted (halfPosted.intTable + BitVec.ofNat 32 (4 + 5)) = false ∧
    (memRead halfPosted.mem (halfPosted.intTable.toNat + 4 + 5)).getLsbD 0 = true ∧
    (∀ j : Fin 8, 0 < j → (memRead halfPosted.mem (halfPosted.intTable.toNat + 4 + 5)).getLsbD j.val = false) := by
  delta okWord NothingAt; decide +kernel
theorem witness_PendingInterruptChosen_none : ∀ p : Fin 32, 0 < p.val →
    getBit (wordAt interruptible interruptible.intTable.toNat) p.val = true →
    isServiced interruptible (BitVec.ofNat 5 p.val) = false := by decide +kernel

/-- The interruptible program with handlers and system procedures, and three callers' sets on the chip. -/
def crowded : State :=
  withWords [(0x6000 + 36 + 4 * (40 - 8), 0xC000)] { handlers with pc := 0x40000, older := deep.older }

theorem witness_FullCacheSpills_state : crowded.older = [⟨0x0FC0, Vector.replicate 16 7#32⟩,
      ⟨0x0F80, Vector.replicate 16 8#32⟩, ⟨0x0F40, Vector.replicate 16 9#32⟩] ∧ Memory.wf crowded.mem = true ∧
    frameAligned 0x0F40#32 = 0x0F40#32 ∧ isReserved 0x0F40#32 = false := by decide +kernel
theorem witness_FullCacheSpills_calls :
    SystemEntry (srcValue crowded (.lit 0)) crowded 0xA000#32 0#32 (getReg crowded spReg) 0b000#3 ∧
    roomAt (getReg crowded spReg) ∧
    SystemEntry (srcValue crowded (.reg 16)) crowded 0xA002#32 0x3001#32 0x3000#32 0b010#3 ∧ roomAt 0x3000#32 :=
  ⟨⟨by decide +kernel, by delta okEntry okWord; decide +kernel, by decide +kernel, .inl ⟨.inl (by decide), rfl, rfl⟩⟩,
    by delta roomAt; decide +kernel,
    ⟨by decide +kernel, by delta okEntry okWord; decide +kernel, by decide +kernel, .inr ⟨by decide, by decide +kernel,
      by delta okEntry okWord; decide +kernel, by decide +kernel, by decide, by decide +kernel⟩⟩,
    by delta roomAt; decide⟩
theorem witness_FullCacheSpills_calls_supervisor :
    SystemEntry (srcValue crowded (.reg 16)) { crowded with pc := 2 } 0xA002#32 0#32 (getReg crowded spReg) 0b000#3 :=
  ⟨by decide +kernel, by delta okEntry okWord; decide +kernel, by decide +kernel,
    .inl ⟨.inr ⟨by decide, by decide +kernel⟩, rfl, rfl⟩⟩
theorem apart_of {p n q k : Nat} (h : p + n ≤ q ∨ q + k ≤ p) : ∀ x, bytesFrom p n x → ¬ bytesFrom q k x :=
  fun x hx hy => by obtain ⟨h1, h2⟩ := hx; obtain ⟨h3, h4⟩ := hy; omega
theorem witness_FullCacheSpills_fault : crowded.params.faultRecord = defaultFaultLayout ∧
    HandledAt (faultOf 2) crowded 0xB000#32 0x1058#32 none ∧ recordRoom 0x1058#32 48#32 ∧
    frameAbove (0x1058#32 + 48#32) = 0x10C0#32 ∧ isReserved (0x10C0#32 - 28#32) = false ∧
    isReserved (0x10C0#32 - 4#32) = false ∧
    ∀ x, bytesFrom ((0x10C0#32).toNat - 28) 28 x → ¬ bytesFrom (0x0F40#32).toNat 64 x :=
  ⟨by decide +kernel, ⟨_, _, entry_of 2 (by delta okEntry okWord; decide +kernel),
      .inl ⟨by decide +kernel, by decide +kernel, by decide +kernel, rfl⟩⟩,
    by delta recordRoom roomAt; decide, by decide, by decide, by decide, apart_of (by decide)⟩
theorem witness_FullCacheSpills_fault_supervisor : HandledAt (faultOf 3) crowded 0xA002#32 0x3000#32 (some 0x3001#32) ∧
    recordRoom 0x3000#32 48#32 ∧ frameAbove (0x3000#32 + 48#32) = 0x3040#32 ∧
    ∀ x, bytesFrom ((0x3040#32).toNat - 28) 28 x → ¬ bytesFrom (0x0F40#32).toNat 64 x :=
  ⟨⟨_, _, entry_of 3 (by delta okEntry okWord; decide +kernel), .inr ⟨crowded.sysprocBase,
      ⟨by decide +kernel, by decide +kernel, .inl ⟨by decide +kernel, rfl⟩, by delta okEntry okWord; decide +kernel,
        by decide +kernel⟩,
      .inr ⟨by decide, by delta okEntry okWord; decide +kernel, _, rfl, by decide +kernel, by decide +kernel⟩⟩⟩,
    by delta recordRoom roomAt; decide, by decide, apart_of (by decide)⟩
theorem witness_FullCacheSpills_interrupt : ∃ entry, (pcPriority crowded).toNat < (40#8).toNat / 8 ∧
    Vectored 40 crowded 0x4000#32 0x4040#32 entry ∧ recordRoom 0x4000#32 16#32 ∧
    ∀ x, bytesFrom ((0x4040#32).toNat - 16) 12 x → ¬ bytesFrom (0x0F40#32).toNat 64 x :=
  ⟨_, by decide +kernel, vectored_of (s := crowded) (by delta okEntry okWord; decide +kernel),
    by delta recordRoom roomAt; decide, apart_of (by decide)⟩

/-- The interruptible program with pins 2 and 3 latched and vector 40 at the interrupt controller. -/
def pinned : State := { interruptible with pinLatch := 0b1100#4, intrVector := 40 }

theorem witness_PinsServiced_vector : ∃ t, isRunningState pinned ∧ pinned.pinLatch.getLsbD 2 = true ∧
    pinned.params.pinOrder = .int0First ∧ (∀ j : Fin 4, pinned.pinLatch.getLsbD j.val = true → 2 ≤ j) ∧
    (∀ j, (0b1000#4).getLsbD j = (pinned.pinLatch.getLsbD j && j != 2)) ∧ pinned.icr.extractLsb' 16 8 = 0#8 ∧
    receiveInterrupt 40 { pinned with pinLatch := 0b1000#4 } = .ok t :=
  (ok_of (by decide +kernel)).imp fun _ h => ⟨rfl, by decide +kernel, by decide +kernel, by decide +kernel,
    fun j => by rcases j with _ | _ | _ | _ | j <;> simp [pinned], by decide +kernel, h⟩
theorem witness_PinsServiced_refused : ∃ e, isRunningState { pinned with intStack := 0xFFFFFFF8 } ∧
    receiveInterrupt 40 { pinned with pinLatch := 0b1000#4, intStack := 0xFFFFFFF8 } = .error e :=
  ⟨.refused .frameOverflow, rfl, rfl⟩
theorem witness_PinsServiced_other : isRunningState { pinned with pinLatch := 0b1010#4, icr := 0x05060728 } ∧
    (∀ j : Fin 4, (0b1010#4).getLsbD j.val = true → 1 ≤ j) ∧ (0x05060728#32).extractLsb' 16 8 ≠ 0#8 ∧
    (0b1000#4).getLsbD 3 = true ∧ ∀ j : Fin 4, (0b1000#4).getLsbD j.val = true → 3 ≤ j := by
  delta isRunningState; decide +kernel

theorem witness_TraceFaults_pending : isRunningState { caller with pc := 0x401 } ∧
    ({ caller with pc := 0x401 } : State).pinLatch = 0#4 ∧ pcTfp { caller with pc := 0x401 } = true ∧
    seenTe { caller with pc := 0x401 } = true := by
  delta isRunningState; decide +kernel
theorem witness_TraceFaults_disabled : ∃ s1 : State, ∃ w d s2, pcTfp { loaded 0x5C880610 0 with pc := 0x400 } = true ∧
    seenTe { loaded 0x5C880610 0 with pc := 0x400 } = false ∧
    s1 = { loaded 0x5C880610 0 with pc := 0x400 } ∧ fetchInstr s1 = .ok (w, d, s2) ∧
    decode w d = .instr (.mov (.reg 16) 17) :=
  ⟨_, 0x5C880610#32, 0#32, _, by decide +kernel, by decide +kernel, rfl, rfl, by decide⟩
theorem witness_TraceFaults_prereturn : ∃ w d s1, pcTfp { loaded 0x0A000000 0 with pc := 1, tc := 0x20 } = false ∧
    fetchInstr { loaded 0x0A000000 0 with pc := 1, tc := 0x20 } = .ok (w, d, s1) ∧ decode w d = .instr .ret ∧
    getBit (getReg { loaded 0x0A000000 0 with pc := 1, tc := 0x20 } pfpReg) 3 = true ∧
    traceMode { loaded 0x0A000000 0 with pc := 1, tc := 0x20 } .prereturn = true ∧
    seenTe { loaded 0x0A000000 0 with pc := 1, tc := 0x20 } = true :=
  ⟨0x0A000000#32, 0#32, _, by decide +kernel, rfl, by decide, by decide +kernel, by decide +kernel, by decide +kernel⟩
/-- A `ret` with its prereturn-trace flag set under prereturn-trace mode, with the process controls `pc`. -/
def returning (pc : Word) : State := { loaded 0x0A000000 0 with pc := pc, tc := 0x20 }
theorem witness_TraceFaults_prereturn_disabled : ∃ s1 s2, fetchInstr (returning 0) = .ok (0x0A000000#32, 0#32, s1) ∧
    fetchInstr (returning 0x400) = .ok (0x0A000000#32, 0#32, s2) ∧ decode 0x0A000000#32 0#32 = .instr .ret ∧
    getBit (getReg (returning 0x400) pfpReg) 3 = true ∧ pcTfp (returning 0) = false ∧ pcTfp (returning 0x400) = true ∧
    (∀ k : Fin 7, getBit (returning 0x400).tc (17 + k.val) = false) ∧
    traceMode (returning 0) .prereturn = true ∧ seenTe (returning 0) = false ∧ seenTe (returning 0x400) = false :=
  ⟨_, _, rfl, rfl, by decide, by decide +kernel, by decide +kernel, by decide +kernel, by decide +kernel,
    by decide +kernel, by decide +kernel, by decide +kernel⟩
theorem test_prereturn_tracing_off : result 0x0A000000 (withWords [(0xFC8, 0x8124)]
    { machine [(0, 0xFC8), (31, 0x1000)] 0 with tc := 0x20 }) [31, 2] = some ([0xFC0, 0x8124], 0) := by decide +kernel

/-! ### Witnesses for the floating-point statements -/

theorem witness_RoundingRule : (3 / 10 : Rat) ≠ 0 ∧ 0 < 24 := by decide +kernel
theorem witness_RoundingRule_tie : (5 / 2 : Rat) ≠ 0 ∧
    2 * |roundP .nearest (5 / 2) 2 - 5 / 2| = pow2 (floorLog2 (5 / 2) - (2 : Nat) + 1) := by decide +kernel

/-- The mode that the low two bits of `AC.rc` select: up, down, toward zero, nearest. -/
def moded (rc : Nat) (mask : Nat) : Nat := rc * 2 ^ 30 + mask * 2 ^ 24

/-- Numbers in registers: reals 1.0, 3.0, 2^127, 2.0, -2.0, 0.0, an infinity, quiet and signaling NaNs, a denormal
in 16 to 25; long reals 1.0 and 3.0 in 26 and 28; masks and mode by `ac`. -/
def numbers (ac : Nat) : State :=
  withFp [(0, 0x3FFF8000000000000000), (1, 0x3FFF0000000000000001), (2, 0x7FFFC000000000000001), (3, 0)]
    (machine [(16, 0x3F800000), (17, 0x40400000), (18, 0x7F000000), (19, 0x40000000), (20, 0xC0000000), (21, 0),
      (22, 0x7F800000), (23, 0x7FC00001), (24, 0x7F800001), (25, 1), (26, 0), (27, 0x3FF00000), (28, 0),
      (29, 0x40080000), (4, 0x00800000), (5, 0x3F000001), (6, 0xFF800000), (7, 0x3E800000), (8, 0x41000000),
      (9, 0x4F32D05E), (10, 0xC0200000), (11, 0x80000000), (2, 1), (3, 0x80000000), (12, 0x00800000), (13, 0x00800001),
      (14, 0xBF800000), (15, 200001), (30, 0x80000000)] ac)

/-- Every exception masked, rounding to nearest. -/
def masked : State := numbers (moded 3 0x1F)
/-- No exception masked, rounding to nearest. -/
def unmasked : State := numbers (moded 3 0)

theorem number_one : Number .real masked (.reg 16) 1 := .inl ⟨false, by decide +kernel⟩
theorem number_three : Number .real masked (.reg 17) 3 := .inl ⟨false, by decide +kernel⟩
theorem number_long : Number .long masked (.reg 28) 3 := .inl ⟨false, by decide +kernel⟩
theorem number_two : Number .real masked (.reg 19) 2 := .inl ⟨false, by decide +kernel⟩
theorem number_minus_two : Number .real masked (.reg 20) (-2) := .inl ⟨true, by decide +kernel⟩
theorem number_minus_one : Number .real masked (.reg 14) (-1) := .inl ⟨true, by decide +kernel⟩
/-- An operand is only one number. -/
theorem number_unique {f : Fmt} {s : State} {x : FpSrc} {n : Bool} {v w : Rat} (h : fetch f s x = .norm n w)
    (hv : Number f s x v) : v = w := by
  rcases hv with ⟨m, hm⟩ | ⟨-, m, hm⟩ <;> rw [h] at hm <;> cases hm
  rfl
theorem number_denormal : Number .real (numbers (moded 3 0x3F)) (.reg 25) (pow2 (-149)) :=
  .inr ⟨by decide +kernel, false, by decide +kernel⟩

theorem witness_FpInstructionsComplete : AllMasked masked ∧ Usable .real masked (.reg 17) ∧
    Usable .real masked (.fpr 2) ∧ Usable .long masked (.reg 28) ∧
    ((FpSrc.reg 28).fits .long && (FpSrc.fpr 2).fits .long && (FpDst.reg 20).fits .long) = true ∧
    ((FpSrc.reg 17).fits .real && (FpDst.reg 19).fits .real) = true := by
  delta AllMasked Usable; decide +kernel

/-- The conversions to integers also ask that the integer overflow is masked, and a pair that starts at an even register. -/
theorem witness_FpInstructionsComplete_integers : AllMasked (numbers (moded 3 0x1F + 0x1000)) ∧
    acBit (numbers (moded 3 0x1F + 0x1000)) iomBit = true ∧ Usable .real (numbers (moded 3 0x1F + 0x1000)) (.reg 9) ∧
    Reg.isEven 20 = true ∧ ((Src.reg 2).isEven && (FpDst.reg 20).fits .long) = true := by
  delta AllMasked Usable; decide +kernel

theorem witness_ReservedEncodingFaults :
    isUnnamed (fetch .real masked (.reg 25)) = false ∧ isReservedOperand masked (fetch .real masked (.reg 25)) = true ∧
    isUnnamed (fetch .long masked (.fpr 1)) = false ∧ isReservedOperand masked (fetch .long masked (.fpr 1)) = true ∧
    isUnnamed (fetch .real masked (.reg 16)) = false ∧ ((FpSrc.fpr 1).fits .long && (FpDst.reg 20).fits .long) = true ∧
    Reg.isEven 20 = true := by decide +kernel

theorem witness_BasicOperations_real : ∃ v w, Number .real masked (.reg 16) v ∧ Number .real masked (.reg 17) w ∧
    InRange .real (.reg 19) masked (w + v) ∧ InRange .real (.reg 19) masked (w - v) ∧
    InRange .real (.reg 19) masked (w * v) ∧ InRange .real (.reg 19) masked (v / w) ∧
    InexactQuiet .real (.reg 19) masked (v / w) :=
  ⟨1, 3, number_one, number_three, by delta InRange Overflow largest rounded; decide +kernel, by delta InRange Overflow largest rounded; decide +kernel,
    by delta InRange Overflow largest rounded; decide +kernel, by delta InRange Overflow largest rounded; decide +kernel, .inl (by decide +kernel)⟩
theorem witness_BasicOperations_long : ∃ v w, Number .long masked (.reg 28) v ∧ Number .long masked (.fpr 0) w ∧
    ((FpSrc.reg 28).fits .long && (FpSrc.fpr 0).fits .long && (FpDst.fpr 3).fits .long) = true ∧
    InRange .long (.fpr 3) masked (w / v) ∧ InexactQuiet .long (.fpr 3) masked (w / v) :=
  ⟨3, 1, number_long, .inl ⟨false, by decide +kernel⟩, by decide, by delta InRange Overflow largest rounded; decide +kernel,
    .inl (by decide +kernel)⟩

theorem witness_ZerosAndInfinities_sums : fetch .real masked (.reg 22) = .inf false ∧ fetch .real masked (.reg 6) = .inf true ∧
    fetch .real masked (.reg 21) = .zero false ∧ fetch .real masked (.reg 11) = .zero true ∧
    FiniteSign .real masked (.reg 20) true ∧ FiniteSign .real masked (.reg 11) true ∧
    NonzeroSign .real masked (.reg 20) true ∧ NonzeroSign .real masked (.reg 6) true ∧
    Number .real masked (.reg 19) 2 ∧ Number .real masked (.reg 20) (-2) ∧ (-2 : Rat) + 2 = 0 :=
  ⟨by decide +kernel, by decide +kernel, by decide +kernel, by decide +kernel,
    .inr ⟨-2, number_minus_two, by decide +kernel⟩, .inl (by decide +kernel), .inr ⟨-2, number_minus_two, by decide +kernel⟩,
    .inl (by decide +kernel), number_two, number_minus_two, by decide +kernel⟩
theorem witness_ZerosAndInfinities_number : ∀ e ∈ [(3 : Rat), -3], InRange .real (.reg 19) masked e ∧
    InexactQuiet .real (.reg 19) masked e := by
  delta InRange Overflow largest rounded InexactQuiet; decide +kernel

theorem witness_RealMoves_number : ∃ v, Number .real masked (.reg 17) v ∧ InRange .real (.reg 19) masked v ∧
    InexactQuiet .real (.reg 19) masked v :=
  ⟨3, number_three, by delta InRange Overflow largest rounded; decide +kernel, .inl (by decide +kernel)⟩
theorem witness_RealMoves_other : fetch .real masked (.reg 11) = .zero true ∧ fetch .real masked (.reg 6) = .inf true ∧
    ((FpSrc.reg 16).fits .ext && (FpDst.reg 28).fits .ext) = true ∧ (FpSrc.fpr 1).fits .ext = true := by decide +kernel

theorem witness_InvalidOperations_binary : ∀ s ∈ [masked, unmasked],
    fetch .real s (.reg 22) = .inf false ∧ fetch .real s (.reg 6) = .inf (!false) ∧
    fetch .real s (.reg 21) = .zero false ∧ isNan (fetch .real s (.reg 17)) = false ∧
    isUnnamed (fetch .real s (.reg 17)) = false ∧ isReservedOperand s (fetch .real s (.reg 17)) = false := by
  decide +kernel
theorem witness_InvalidOperations_masks : acBit masked fvmBit = true ∧ acBit unmasked fvmBit = false := by
  decide +kernel
theorem witness_InvalidOperations_root : ∃ v, v < 0 ∧ Number .real masked (.reg 20) v ∧
    Number .real unmasked (.reg 20) v ∧ fetch .real masked (.reg 6) = .inf true :=
  ⟨-2, by decide +kernel, .inl ⟨true, by decide +kernel⟩, .inl ⟨true, by decide +kernel⟩, by decide +kernel⟩

theorem witness_InvalidOperations_logarithms : ∃ v, v < -1 ∧ Number .real masked (.reg 20) v ∧
    isNan (fetch .real masked (.reg 17)) = false ∧ Usable .real masked (.reg 17) ∧
    fetch .real masked (.reg 21) = .zero false ∧ fetch .real masked (.reg 22) = .inf false ∧
    Number .real masked (.reg 16) 1 ∧ Number .real masked (.reg 14) (-1) :=
  ⟨-2, by decide +kernel, number_minus_two, by decide +kernel, by delta Usable; decide +kernel, by decide +kernel,
    by decide +kernel, number_one, number_minus_one⟩

theorem witness_ZeroDivides : ∃ w, fetch .real masked (.reg 11) = .zero true ∧ Number .real masked (.reg 20) w ∧
    false = (true ^^ decide (w < 0)) ∧ false = (!decide (w < 0)) ∧ acBit masked fzmBit = true ∧
    fetch .real unmasked (.reg 11) = .zero true ∧ Number .real unmasked (.reg 20) w ∧ acBit unmasked fzmBit = false ∧
    Number .real masked (.reg 14) (-1) ∧ Number .real unmasked (.reg 14) (-1) :=
  ⟨-2, by decide +kernel, .inl ⟨true, by decide +kernel⟩, by decide +kernel, by decide +kernel, by decide +kernel,
    by decide +kernel, .inl ⟨true, by decide +kernel⟩, by decide +kernel, number_minus_one, .inl ⟨true, by decide +kernel⟩⟩

theorem witness_NanOperands_one : nanOf (fetch .real masked (.reg 23)) = some (false, 0x4000010000000000#63) ∧
    isSnan (fetch .real masked (.reg 23)) = false ∧ isSnan (fetch .real masked (.reg 24)) = true ∧
    nanOf (fetch .real masked (.reg 24)) = some (false, 0x0000010000000000#63) ∧ acBit masked fvmBit = true ∧
    isSnan (fetch .real unmasked (.reg 24)) = true ∧ acBit unmasked fvmBit = false := by decide +kernel
/-- The quiet NaN of g7 beside an operand that is no NaN. -/
theorem nanAmong_one {b : FpSrc} (hf : b.fits .real = true) (h : isUnnamed (fetch .real masked b) = false ∧
    isReservedOperand masked (fetch .real masked b) = false ∧ nanOf (fetch .real masked b) = none) :
    NanAmong .real (.reg 23) b (.fpr 0) false 0x4000010000000000#63 masked :=
  ⟨by rw [hf]; rfl, by delta Usable; decide +kernel, ⟨h.1, h.2.1⟩, .inl ⟨by decide +kernel, h.2.2⟩⟩
theorem nanAmong_other {a : FpSrc} (hf : a.fits .real = true) (h : isUnnamed (fetch .real masked a) = false ∧
    isReservedOperand masked (fetch .real masked a) = false ∧ nanOf (fetch .real masked a) = none) :
    NanAmong .real a (.reg 23) (.fpr 0) false 0x4000010000000000#63 masked :=
  ⟨by rw [hf]; rfl, ⟨h.1, h.2.1⟩, by delta Usable; decide +kernel, .inr (.inl ⟨h.2.2, by decide +kernel⟩)⟩
theorem witness_NanOperands_quiet : NanAmong .real (.reg 23) (.reg 17) (.fpr 0) false 0x4000010000000000#63 masked ∧
    NanAmong .real (.reg 23) (.reg 21) (.fpr 0) false 0x4000010000000000#63 masked ∧
    NanAmong .real (.reg 23) (.reg 22) (.fpr 0) false 0x4000010000000000#63 masked ∧
    isSnan (fetch .real masked (.reg 17)) = false ∧ fetch .real masked (.reg 22) = .inf false :=
  ⟨nanAmong_one rfl (by decide +kernel), nanAmong_one rfl (by decide +kernel), nanAmong_one rfl (by decide +kernel),
    by decide +kernel, by decide +kernel⟩
theorem witness_NanOperands_two : NanAmong .real (.reg 23) (.reg 24) (.fpr 0) false 0x4000010000000000#63 masked ∧
    isSnan (fetch .real masked (.reg 24)) = true ∧
    NanAmong .real (.reg 23) (.fpr 2) (.fpr 0) false 0x4000010000000000#63 masked ∧
    isSnan (fetch .real masked (.fpr 2)) = false :=
  ⟨⟨rfl, by delta Usable; decide +kernel, by delta Usable; decide +kernel,
      .inr (.inr ⟨(false, 0x4000010000000000#63), (false, 0x0000010000000000#63), by decide +kernel, by decide +kernel,
        by decide +kernel⟩)⟩, by decide +kernel,
    ⟨rfl, by delta Usable; decide +kernel, by delta Usable; decide +kernel,
      .inr (.inr ⟨(false, 0x4000010000000000#63), (false, 0x4000000000000001#63), by decide +kernel, by decide +kernel,
        by decide +kernel⟩)⟩, by decide +kernel⟩
theorem witness_NanOperands_invalid : NanAmong .real (.reg 21) (.reg 23) (.fpr 0) false 0x4000010000000000#63 masked ∧
    fetch .real masked (.reg 21) = .zero false ∧
    NanAmong .real (.reg 6) (.reg 23) (.fpr 0) false 0x4000010000000000#63 masked ∧
    fetch .real masked (.reg 6) = .inf true ∧
    NanAmong .real (.reg 20) (.reg 23) (.fpr 0) false 0x4000010000000000#63 masked ∧ (-2 : Rat) < -1 ∧
    Number .real masked (.reg 20) (-2) :=
  ⟨nanAmong_other rfl (by decide +kernel), by decide +kernel, nanAmong_other rfl (by decide +kernel), by decide +kernel,
    nanAmong_other rfl (by decide +kernel), by decide +kernel, number_minus_two⟩
theorem witness_NanOperands_domain : NanAmong .real (.reg 17) (.reg 23) (.fpr 0) false 0x4000010000000000#63 masked ∧
    fetch .real masked (.reg 17) ≠ .inf true ∧ ∀ v, Number .real masked (.reg 17) v → 0 ≤ v :=
  ⟨nanAmong_other rfl (by decide +kernel), by decide +kernel,
    fun v h => number_unique (n := false) (w := 3) (by decide +kernel) h ▸ by decide +kernel⟩

/-! Overflow and underflow: products, quotients and scaled numbers. -/

/-- What the statements about delivered results assume. -/
def Delivered (f : Fmt) (d : FpDst) (s : State) (i : Instr) (ac : Word) (e : Rat) : Prop := Delivers f d s i ac e ∧ e ≠ 0
theorem fits_two (a : FpSrc) (d : FpDst) : (a.fits .real && d.fits .real) = true := by cases a <;> cases d <;> rfl
theorem fits_three (a b : FpSrc) (d : FpDst) : (a.fits .real && b.fits .real && d.fits .real) = true := by
  cases a <;> cases b <;> cases d <;> rfl
theorem delivers_product {s : State} {a b : FpSrc} {d : FpDst} {v w : Rat} (hv : Number .real s a v)
    (hw : Number .real s b w) (h : w * v ≠ 0) : Delivered .real d s (.mulr a b d) s.ac (w * v) :=
  ⟨.basic (op := fun v w => w * v) (by simp [basic]) hv hw (fits_three a b d), h⟩
theorem delivers_quotient {s : State} {a b : FpSrc} {d : FpDst} {v w : Rat} (hv : Number .real s a v)
    (hw : Number .real s b w) (h : w / v ≠ 0) : Delivered .real d s (.divr a b d) s.ac (w / v) :=
  ⟨.basic (op := fun v w => w / v) (by simp [basic]) hv hw (fits_three a b d), h⟩
theorem delivers_scaled {s : State} {x : Src} {a : FpSrc} {d : FpDst} {v : Rat} (k : Int) (hv : Number .real s a v)
    (hk : max (-200000) (min (srcValue s x).toInt 200000) = k) (h : v * pow2 k ≠ 0) :
    Delivered .real d s (.scaler x a d) s.ac (v * pow2 k) :=
  ⟨hk ▸ .scale (by simp [scales]) hv (fits_two a d), h⟩

/-- 2^127 times -2 and 2, every exception masked, in each rounding mode. -/
theorem witness_MaskedOverflowAndUnderflow_overflow (rc : Fin 4) : ∀ n : Bool,
    Delivered .real (.reg 19) (numbers (moded rc 0x1F)) (.mulr (.reg 18) (.reg (if n then 20 else 19)) (.reg 19))
      (numbers (moded rc 0x1F)).ac
      ((if n then -2 else 2) * pow2 127) ∧
    Overflow .real (.reg 19) (numbers (moded rc 0x1F)) ((if n then -2 else 2) * pow2 127) ∧
    acBit (numbers (moded rc 0x1F)) fomBit = true ∧ acBit (numbers (moded rc 0x1F)) fxmBit = true ∧
    roundMode (numbers (moded rc 0x1F)) = defaultParams.rcDecode[rc] := by
  intro n
  refine ⟨delivers_product (.inl ⟨false, ?_⟩) (.inl ⟨n, ?_⟩) ?_, ?_, ?_⟩
  · revert rc; decide +kernel
  · revert rc n; decide +kernel
  · revert n; decide +kernel
  · delta Overflow rounded largest; revert rc n; decide +kernel
  · revert rc; decide +kernel
/-- Every exception but inexactness masked, rounding to nearest. -/
def inexactUnmasked : State := numbers (moded 3 0x0F)
/-- What rounding makes of -2 scaled by `k`. -/
theorem scaled_bounds (m : RoundMode) (k : Int) {p : Nat} (hp : 0 < p) :
    (-2 * pow2 k : Rat) ≠ 0 ∧ pow2 (k + 1) ≤ |roundP m (-2 * pow2 k) p| ∧ |roundP m (-2 * pow2 k) p| ≤ pow2 (k + 2) := by
  have h0 := pow2_pos k
  have h1 : |(-2 * pow2 k : Rat)| = pow2 (k + 1) := by
    rw [abs_mul, abs_of_pos h0, pow2_add, mul_comm]; congr 1
  have h2 : floorLog2 (-2 * pow2 k) = k + 1 := floorLog2_unique h1.ge (h1.trans_lt (pow2_lt.2 (by omega)))
  have hne : (-2 * pow2 k : Rat) ≠ 0 := mul_ne_zero (by norm_num) h0.ne'
  have := roundP_bounds m hne hp
  rw [h2] at this
  exact ⟨hne, this.1, by rw [show k + 2 = k + 1 + 1 by omega]; exact this.2.1⟩
theorem delivers_far {s : State} {x : Src} (d : FpDst) (k : Int) (hv : Number .real s (.reg 20) (-2))
    (hk : max (-200000) (min (srcValue s x).toInt 200000) = k) :
    Delivered .real d s (.scaler x (.reg 20) d) s.ac (-2 * pow2 k) :=
  delivers_scaled k hv hk (scaled_bounds .up k (p := 1) (by decide)).1
theorem overflow_far {s : State} {d : FpDst} (h : s.params.overflowAfterRounding = true) :
    Overflow .real d s (-2 * pow2 200000) ∧ pow2 40960 ≤ |rounded .real d s (-2 * pow2 200000)| := by
  have hb := (scaled_bounds (roundMode s) 200000 (p := precision (destFmt .real d)) (Nat.succ_pos _)).2.1
  refine ⟨?_, (pow2_le.2 (by decide)).trans hb⟩
  rw [Overflow, if_pos h]
  exact (pow2_le.2 (show eMax (destFmt .real d) + 1 ≤ 200001 by
    cases d
    exacts [show eMax .real + 1 ≤ 200001 by decide, show eMax .ext + 1 ≤ 200001 by decide])).trans hb
theorem underflow_far (s : State) (d : FpDst) : |rounded .real d s (-2 * pow2 (-200000))| < pow2 (-40958) :=
  ((scaled_bounds (roundMode s) (-200000) (p := precision (destFmt .real d)) (Nat.succ_pos _)).2.2).trans_lt
    (pow2_lt.2 (by decide))
/-- -2 scaled beyond the clamped amount, up and down. -/
theorem witness_MaskedOverflowAndUnderflow_massive :
    Delivered .real (.reg 19) inexactUnmasked (.scaler (.reg 15) (.reg 20) (.reg 19)) inexactUnmasked.ac (-2 * pow2 200000) ∧
    Overflow .real (.reg 19) inexactUnmasked (-2 * pow2 200000) ∧ acBit inexactUnmasked fomBit = true ∧
    Delivered .real (.reg 19) inexactUnmasked (.scaler (.reg 30) (.reg 20) (.reg 19)) inexactUnmasked.ac (-2 * pow2 (-200000)) ∧
    |rounded .real (.reg 19) inexactUnmasked (-2 * pow2 (-200000))| < pow2 (eMin (destFmt .real (.reg 19))) ∧
    acBit inexactUnmasked fumBit = true ∧ acBit inexactUnmasked fxmBit = false :=
  ⟨delivers_far _ _ (.inl ⟨true, by decide +kernel⟩) (by decide +kernel), (overflow_far (by decide +kernel)).1,
    by decide +kernel, delivers_far _ _ (.inl ⟨true, by decide +kernel⟩) (by decide +kernel),
    (underflow_far _ _).trans (pow2_lt.2 (by decide)), by decide +kernel, by decide +kernel⟩
/-- An exact and an inexact tiny result, and one that rounds to zero. -/
theorem witness_MaskedOverflowAndUnderflow_tiny :
    Delivered .real (.reg 19) masked (.mulr (.reg 4) (.reg 7) (.reg 19)) masked.ac (1 / 4 * pow2 (-126)) ∧
    |rounded .real (.reg 19) masked (1 / 4 * pow2 (-126))| < pow2 (eMin (destFmt .real (.reg 19))) ∧
    Delivered .real (.reg 19) masked (.divr (.reg 17) (.reg 4) (.reg 19)) masked.ac (pow2 (-126) / 3) ∧
    |rounded .real (.reg 19) masked (pow2 (-126) / 3)| < pow2 (eMin (destFmt .real (.reg 19))) ∧
    Delivered .real (.reg 19) masked (.mulr (.reg 4) (.reg 4) (.reg 19)) masked.ac (pow2 (-126) * pow2 (-126)) ∧
    |rounded .real (.reg 19) masked (pow2 (-126) * pow2 (-126))| < pow2 (eMin (destFmt .real (.reg 19))) ∧
    acBit masked fumBit = true :=
  ⟨delivers_product (.inl ⟨false, by decide +kernel⟩) (.inl ⟨false, by decide +kernel⟩) (by decide +kernel),
    by delta rounded; decide +kernel,
    delivers_quotient number_three (.inl ⟨false, by decide +kernel⟩) (by decide +kernel), by delta rounded; decide +kernel,
    delivers_product (.inl ⟨false, by decide +kernel⟩) (.inl ⟨false, by decide +kernel⟩) (by decide +kernel),
    by delta rounded; decide +kernel, by decide +kernel⟩

/-- No exception masked; 2^16383 in fp0, 2^-16382 in fp1. -/
def extremes : State :=
  withFp [(0, 0x7FFE8000000000000000), (1, 0x00018000000000000000)] unmasked
theorem witness_UnmaskedFpFaults_overflow :
    Delivered .real (.reg 19) unmasked (.mulr (.reg 18) (.reg 19) (.reg 19)) unmasked.ac (2 * pow2 127) ∧
    Overflow .real (.reg 19) unmasked (2 * pow2 127) ∧ |rounded .real (.reg 19) unmasked (2 * pow2 127)| < pow2 16384 ∧
    acBit unmasked fomBit = false :=
  ⟨delivers_product (.inl ⟨false, by decide +kernel⟩) (.inl ⟨false, by decide +kernel⟩) (by decide +kernel),
    by delta Overflow rounded largest; decide +kernel, by delta rounded; decide +kernel, by decide +kernel⟩
theorem witness_UnmaskedFpFaults_overflow_adjusted :
    Delivered .real (.fpr 2) extremes (.mulr (.fpr 0) (.fpr 0) (.fpr 2)) extremes.ac (pow2 16383 * pow2 16383) ∧
    Overflow .real (.fpr 2) extremes (pow2 16383 * pow2 16383) ∧
    pow2 16384 ≤ |rounded .real (.fpr 2) extremes (pow2 16383 * pow2 16383)| ∧
    |rounded .real (.fpr 2) extremes (pow2 16383 * pow2 16383)| < pow2 40960 ∧ acBit extremes fomBit = false :=
  ⟨delivers_product (.inl ⟨false, by decide +kernel⟩) (.inl ⟨false, by decide +kernel⟩) (by decide +kernel),
    by delta Overflow rounded largest; decide +kernel, by delta rounded; decide +kernel, by delta rounded; decide +kernel,
    by decide +kernel⟩
theorem witness_UnmaskedFpFaults_overflow_massive :
    Delivered .real (.fpr 2) unmasked (.scaler (.reg 15) (.reg 20) (.fpr 2)) unmasked.ac (-2 * pow2 200000) ∧
    Overflow .real (.fpr 2) unmasked (-2 * pow2 200000) ∧
    pow2 40960 ≤ |rounded .real (.fpr 2) unmasked (-2 * pow2 200000)| :=
  ⟨delivers_far _ _ (.inl ⟨true, by decide +kernel⟩) (by decide +kernel), (overflow_far (by decide +kernel)).1,
    (overflow_far (by decide +kernel)).2⟩
theorem witness_UnmaskedFpFaults_underflow :
    Delivered .real (.reg 19) unmasked (.divr (.reg 17) (.reg 4) (.reg 19)) unmasked.ac (pow2 (-126) / 3) ∧
    |rounded .real (.reg 19) unmasked (pow2 (-126) / 3)| < pow2 (eMin (destFmt .real (.reg 19))) ∧
    pow2 (-16382) ≤ |rounded .real (.reg 19) unmasked (pow2 (-126) / 3)| ∧ acBit unmasked fumBit = false ∧
    rounded .real (.reg 19) unmasked (pow2 (-126) / 3) ≠ pow2 (-126) / 3 ∧ acBit unmasked fxmBit = false :=
  ⟨delivers_quotient (.inl ⟨false, by decide +kernel⟩) (.inl ⟨false, by decide +kernel⟩) (by decide +kernel),
    by delta rounded; decide +kernel, by delta rounded; decide +kernel, by decide +kernel,
    by delta rounded; decide +kernel, by decide +kernel⟩
theorem witness_UnmaskedFpFaults_underflow_adjusted :
    Delivered .real (.fpr 2) extremes (.mulr (.fpr 1) (.fpr 1) (.fpr 2)) extremes.ac (pow2 (-16382) * pow2 (-16382)) ∧
    |rounded .real (.fpr 2) extremes (pow2 (-16382) * pow2 (-16382))| < pow2 (eMin (destFmt .real (.fpr 2))) ∧
    |rounded .real (.fpr 2) extremes (pow2 (-16382) * pow2 (-16382))| < pow2 (-16382) ∧
    pow2 (-40958) ≤ |rounded .real (.fpr 2) extremes (pow2 (-16382) * pow2 (-16382))| ∧ acBit extremes fumBit = false :=
  ⟨delivers_product (.inl ⟨false, by decide +kernel⟩) (.inl ⟨false, by decide +kernel⟩) (by decide +kernel),
    by delta rounded; decide +kernel, by delta rounded; decide +kernel, by delta rounded; decide +kernel, by decide +kernel⟩
theorem witness_UnmaskedFpFaults_underflow_massive :
    Delivered .real (.fpr 2) unmasked (.scaler (.reg 30) (.reg 20) (.fpr 2)) unmasked.ac (-2 * pow2 (-200000)) ∧
    |rounded .real (.fpr 2) unmasked (-2 * pow2 (-200000))| < pow2 (eMin (destFmt .real (.fpr 2))) ∧
    |rounded .real (.fpr 2) unmasked (-2 * pow2 (-200000))| < pow2 (-40958) :=
  ⟨delivers_far _ _ (.inl ⟨true, by decide +kernel⟩) (by decide +kernel),
    (underflow_far _ _).trans (pow2_lt.2 (by decide)), underflow_far _ _⟩
theorem witness_UnmaskedFpFaults_inexact :
    Delivered .real (.reg 19) unmasked (.divr (.reg 17) (.reg 16) (.reg 19)) unmasked.ac (1 / 3) ∧
    InRange .real (.reg 19) unmasked (1 / 3) ∧ rounded .real (.reg 19) unmasked (1 / 3) ≠ 1 / 3 ∧
    acBit unmasked fxmBit = false :=
  ⟨delivers_quotient (.inl ⟨false, by decide +kernel⟩) (.inl ⟨false, by decide +kernel⟩) (by decide +kernel),
    by delta InRange Overflow largest rounded; decide +kernel, by delta rounded; decide +kernel, by decide +kernel⟩

theorem three_no_power (k : Int) : (3 : Rat) ≠ pow2 k := fun h => by
  rcases lt_or_ge 1 k with hk | hk
  · exact absurd ((pow2_le.2 hk).trans_eq h.symm) (by decide +kernel)
  · exact absurd (h.trans_le (pow2_le.2 hk)) (by decide +kernel)
theorem quarter_no_integer (k : Int) : (1 / 4 : Rat) ≠ k := fun h => by
  have h4 : (1 : Rat) = ((4 * k : Int) : Rat) := by push_cast; rw [← h]; norm_num
  have := Int.cast_inj.1 (by exact_mod_cast h4 : ((1 : Int) : Rat) = ((4 * k : Int) : Rat))
  omega
theorem constrained_ne_zero {neg : Bool} {ok : Rat → Bool} {alt raw : Rat} (h : alt ≠ 0) :
    constrained neg ok alt raw ≠ 0 := by
  have hs : ∀ {n : Bool} {v : Rat}, v ≠ 0 → signed n v ≠ 0 := fun {n} _ hv => by cases n <;> simpa [signed] using hv
  unfold constrained
  split
  · rename_i hr
    refine hs fun h0 => ?_
    rw [ratAbs_eq, abs_eq_zero] at h0
    simp [isWide, h0] at hr
  · exact hs h
/-- 2^16383, 2^-16382, 200 and -100.5 in the floating-point registers; every exception masked if `m`, else none. -/
def extreme (m : Bool) : State :=
  withFp [(0, 0x7FFE8000000000000000), (1, 0x00018000000000000000), (2, 0x4006C800000000000000), (3, 0xC005C900000000000000)]
    (if m then masked else unmasked)
theorem extreme_number (m : Bool) : Number .real (extreme m) (.fpr 0) (pow2 16383) ∧
    Number .real (extreme m) (.fpr 1) (pow2 (-16382)) ∧ Number .real (extreme m) (.fpr 2) (200 : Int) ∧
    Number .real (extreme m) (.fpr 3) (-201 / 2) ∧ Number .real (extreme m) (.reg 17) 3 ∧
    Number .real (extreme m) (.reg 7) (1 / 4) ∧ Number .real (extreme m) (.reg 19) 2 ∧
    fetch .real (extreme m) (.reg 22) = .inf false := by
  refine ⟨.inl ⟨false, ?_⟩, .inl ⟨false, ?_⟩, .inl ⟨false, ?_⟩, .inl ⟨true, ?_⟩, .inl ⟨false, ?_⟩, .inl ⟨false, ?_⟩,
    .inl ⟨false, ?_⟩, ?_⟩ <;> revert m <;> decide +kernel
theorem overflow_of {s : State} {n : Reg} {e : Rat} (h : s.params.overflowAfterRounding = true)
    (he : pow2 (eMax .real + 1) ≤ |e|) : Overflow .real (.reg n) s e := by
  have hne : e ≠ 0 := fun h0 => absurd ((pow2_pos _).trans_le he) (by rw [h0]; decide +kernel)
  have hl := pow2_lt.1 (he.trans_lt (floorLog2_spec hne).2)
  rw [Overflow, if_pos h]
  exact (pow2_le.2 (show eMax .real + 1 ≤ floorLog2 e by omega)).trans
    (roundP_bounds (roundMode s) hne (p := precision (destFmt .real (.reg n))) (Nat.succ_pos _)).1
theorem delivers_moved {s : State} {a : FpSrc} {d : FpDst} {v : Rat} (h : Number .real s a v) :
    Delivers .real d s (.movr a d) s.ac v := .function (g := id) (by simp [functions]) h (fits_two a d)
/-- The result `r` is delivered to a real destination, and overflows it. -/
def Narrowed (m : Bool) (i : Instr) (ac : Word) (r : Rat) : Prop :=
  Delivered .real (.reg 19) (extreme m) i ac r ∧ Overflow .real (.reg 19) (extreme m) r
theorem narrowed {m : Bool} {i : Instr} {ac : Word} {r : Rat} (h : Delivers .real (.reg 19) (extreme m) i ac r)
    (hr : pow2 128 ≤ |r|) : Narrowed m i ac r :=
  ⟨⟨h, fun h0 => absurd ((pow2_pos _).trans_le hr) (by rw [h0]; decide +kernel)⟩,
    overflow_of (by clear h; revert m; decide +kernel) hr⟩
/-- 2^16383 moved and rounded to an integer, its root, and its remainder by an infinity. -/
theorem witness_UnmaskedFpFaults_narrowed (m : Bool) : acBit (extreme m) fomBit = m ∧
    Narrowed m (.movr (.fpr 0) (.reg 19)) (extreme m).ac (pow2 16383) ∧
    Narrowed m (.roundr (.fpr 0) (.reg 19)) (extreme m).ac (pow2 16383) ∧
    Narrowed m (.sqrtr (.fpr 0) (.reg 19)) (extreme m).ac (sqrtValue (pow2 16383)) ∧
    Narrowed m (.remr (.reg 22) (.fpr 0) (.reg 19)) (remAc (extreme m) (.num (pow2 16383)) (.inf false)) (pow2 16383) := by
  have masks : acBit (extreme m) fomBit = m := by revert m; decide +kernel
  have ⟨n0, _, _, _, _, _, _, inf⟩ := extreme_number m
  have big : pow2 128 ≤ |pow2 16383| := by decide +kernel
  refine ⟨masks, narrowed (delivers_moved n0) big, narrowed (.round ?_ n0 rfl ?_) big,
    narrowed (.root ?_ n0 rfl ?_) ?_, narrowed (.unreduced ?_ inf n0 rfl) big⟩
  · simp
  · decide +kernel
  · simp
  · decide +kernel
  · decide +kernel
  · simp [remainders]
/-- 2^16383 times logarithms of powers of two, and 2^200 - 1. -/
theorem witness_UnmaskedFpFaults_powers (m : Bool) :
    Narrowed m (.logr (.reg 19) (.fpr 0) (.reg 19)) (extreme m).ac (pow2 16383 * (1 : Int)) ∧
    Narrowed m (.logepr (.reg 17) (.fpr 0) (.reg 19)) (extreme m).ac (pow2 16383 * (2 : Int)) ∧
    Narrowed m (.expr (.fpr 2) (.reg 19)) (extreme m).ac (pow2 200 - 1) := by
  obtain ⟨n0, -, n2, -, n17, -, n19, -⟩ := extreme_number m
  have two : Number .real (extreme m) (.reg 19) (pow2 1) := n19
  have three : Number .real (extreme m) (.reg 17) (pow2 2 - 1) :=
    (show (pow2 2 - 1 : Rat) = 3 by decide +kernel) ▸ n17
  exact ⟨narrowed (.powerLog (by simp [logs]) two n0 rfl (by decide)) (by decide +kernel),
    narrowed (.powerLogEpsilon (by simp [logEpsilons]) three n0 rfl (by decide)) (by decide +kernel),
    narrowed (.power (by simp [exponents]) n2 rfl (by decide)) (by decide +kernel)⟩
/-- 2^-16382 moved into a real destination. -/
theorem witness_MaskedOverflowAndUnderflow_narrowed (m : Bool) :
    Delivered .real (.reg 19) (extreme m) (.movr (.fpr 1) (.reg 19)) (extreme m).ac (pow2 (-16382)) ∧
    |rounded .real (.reg 19) (extreme m) (pow2 (-16382))| < pow2 (eMin (destFmt .real (.reg 19))) ∧
    acBit (extreme m) fumBit = m :=
  ⟨⟨delivers_moved (extreme_number m).2.1, (pow2_pos _).ne'⟩,
    (roundP_bounds (roundMode (extreme m)) (pow2_pos _).ne' (p := precision (destFmt .real (.reg 19)))
      (Nat.succ_pos _)).2.1.trans_lt (pow2_lt.2 (by
        rw [show floorLog2 (pow2 (-16382)) = -16382 from floorLog2_unique (abs_of_pos (pow2_pos _)).ge
          ((abs_of_pos (pow2_pos _)).trans_lt (pow2_lt.2 (by decide)))]
        decide)), by revert m; decide +kernel⟩
/-- An integer and a long integer that rounding changes, and 2^-100.5 - 1. -/
theorem witness_MaskedOverflowAndUnderflow_inexact (m : Bool) :
    (∃ e : Int, Delivered .real (.reg 19) (extreme m) (.cvtir (.reg 9) (.reg 19)) (extreme m).ac e ∧
      InRange .real (.reg 19) (extreme m) e ∧ rounded .real (.reg 19) (extreme m) e ≠ e) ∧
    (∃ e : Int, Delivered .long (.reg 20) (extreme m) (.cvtilr (.reg 2) (.reg 20)) (extreme m).ac e ∧
      InRange .long (.reg 20) (extreme m) e ∧ rounded .long (.reg 20) (extreme m) e ≠ e) ∧
    (∃ e : Rat, Delivered .real (.reg 19) (extreme m) (.expr (.fpr 3) (.reg 19)) (extreme m).ac e ∧
      InRange .real (.reg 19) (extreme m) e ∧ rounded .real (.reg 19) (extreme m) e ≠ e) ∧
    acBit (extreme m) fxmBit = m :=
  ⟨⟨0x4F32D05E, ⟨(show (srcValue (extreme m) (.reg 9)).toInt = 0x4F32D05E by revert m; decide +kernel) ▸ .integer rfl,
      by decide +kernel⟩, by delta InRange Overflow largest rounded; revert m; decide +kernel,
      by delta rounded; revert m; decide +kernel⟩,
    ⟨1 - 2 ^ 63, ⟨(show (getReg (extreme m) (2 + 1#5) ++ getReg (extreme m) 2).toInt = 1 - 2 ^ 63 by
        revert m; decide +kernel) ▸ .longInteger rfl (by decide), by decide +kernel⟩,
      by delta InRange Overflow largest rounded; revert m; decide +kernel, by delta rounded; revert m; decide +kernel⟩,
    ⟨-1 + pow2 (-26), ⟨.lowExponent (by simp [exponents]) (extreme_number m).2.2.2.1 rfl (by decide +kernel),
      by decide +kernel⟩, by delta InRange Overflow largest rounded; revert m; decide +kernel,
      by delta rounded; revert m; decide +kernel⟩, by revert m; decide +kernel⟩
/-- The functions left free: 2^(1/4) - 1, multiples of logarithms of 3, a sine and an arctangent. -/
theorem witness_MaskedOverflowAndUnderflow_free (m : Bool) :
    Delivered .real (.reg 19) (extreme m) (.expr (.reg 7) (.reg 19)) (extreme m).ac (exp2m1Fn (1 / 4)) ∧
    Delivered .real (.reg 19) (extreme m) (.logr (.reg 17) (.reg 17) (.reg 19)) (extreme m).ac (ylog2xFn 3 3) ∧
    Delivered .real (.reg 19) (extreme m) (.logepr (.reg 19) (.reg 17) (.reg 19)) (extreme m).ac (ylog2xp1Fn 2 3) ∧
    Delivered .real (.reg 19) (extreme m) (.sinr (.reg 17) (.reg 19)) (extreme m).ac (sinFn 3) ∧
    Delivered .real (.reg 19) (extreme m) (.atanr (.reg 17) (.reg 17) (.reg 19)) (extreme m).ac
      (atan2Fn (.num 3) (.num 3)) := by
  obtain ⟨-, -, -, -, n17, n7, n19, -⟩ := extreme_number m
  have half : wideHalf ≠ 0 := by decide +kernel
  refine ⟨⟨.exponent (by simp [exponents]) n7 rfl quarter_no_integer (by decide +kernel), ?_⟩,
    ⟨.log (by simp [logs]) n17 n17 rfl (by decide +kernel) three_no_power, constrained_ne_zero half⟩,
    ⟨.logEpsilon (by simp [logEpsilons]) n19 n17 rfl (by decide +kernel)
      fun k h => three_no_power k (by rw [← h]; decide +kernel), constrained_ne_zero half⟩,
    ⟨.function (by simp [functions]) n17 rfl, constrained_ne_zero half⟩,
    ⟨.arctangent (by simp) n17 n17 rfl (by simp [HasArc]), constrained_ne_zero half⟩⟩
  unfold exp2m1Fn
  rw [if_pos (by decide +kernel)]
  exact constrained_ne_zero half

theorem witness_Remainders_exact : ∃ y x r : Rat, Number .real masked (.reg 16) y ∧
    Number .real masked (.reg 17) x ∧ y ≠ 0 ∧ x ≠ 0 ∧ RemainderIs masked x y r ∧ r = 0 :=
  ⟨1, 3, 0, number_one, number_three, by decide +kernel, by decide +kernel,
    ⟨3, by decide +kernel, by rw [if_neg (by decide +kernel)]; decide +kernel⟩, rfl⟩
theorem witness_Remainders_rest : ∃ y x r : Rat, Number .real masked (.reg 20) y ∧
    Number .real masked (.reg 17) x ∧ y ≠ 0 ∧ x ≠ 0 ∧ RemainderIs masked x y r ∧ r ≠ 0 ∧
    InRange .real (.reg 19) masked r :=
  ⟨-2, 3, 1, number_minus_two, number_three, by decide +kernel, by decide +kernel,
    ⟨-1, by decide +kernel, by rw [if_neg (by decide +kernel)]; decide +kernel⟩, by decide +kernel,
    by delta InRange Overflow largest rounded; decide +kernel⟩

/-- With the remainder of IEEE. -/
def nearestQuotient : State := { masked with params := { defaultParams with remIsIeee := true } }
theorem witness_Remainders_ieee : ∃ y x r : Rat, Number .real nearestQuotient (.reg 20) y ∧
    Number .real nearestQuotient (.reg 17) x ∧ y ≠ 0 ∧ x ≠ 0 ∧ RemainderIs nearestQuotient x y r ∧
    nearestQuotient.params.remIsIeee = true ∧ r ≠ 0 ∧ InRange .real (.reg 19) nearestQuotient r :=
  ⟨-2, 3, -1, .inl ⟨true, by decide +kernel⟩, .inl ⟨false, by decide +kernel⟩, by decide +kernel, by decide +kernel,
    ⟨-2, by decide +kernel, by rw [if_pos (by decide +kernel)]; decide +kernel⟩, by decide +kernel, by decide +kernel,
    by delta InRange Overflow largest rounded; decide +kernel⟩
/-- 3 divided by an infinity; a zero divided by -2 and by an infinity. -/
theorem witness_Remainders_special : fetch .real masked (.reg 6) = .inf true ∧ Number .real masked (.reg 17) 3 ∧
    InRange .real (.reg 19) masked 3 ∧ HasValue .real masked (.reg 20) (.num (-2)) ∧
    HasValue .real masked (.reg 22) (.inf false) ∧ fetch .real masked (.reg 11) = .zero true :=
  ⟨by decide +kernel, number_three, by delta InRange Overflow largest rounded; decide +kernel, number_minus_two,
    show fetch .real masked (.reg 22) = .inf false by decide +kernel, by decide +kernel⟩

theorem witness_RoundsToIntegral : ∃ v w, Number .real masked (.reg 10) v ∧ v ≠ 0 ∧
    |v| < pow2 (precision (destFmt .real (.reg 19)) - 1) ∧ Number .real masked (.reg 7) w ∧ w ≠ 0 ∧ |w| < 1 / 2 :=
  ⟨-5 / 2, 1 / 4, .inl ⟨true, by decide +kernel⟩, by decide +kernel, by decide +kernel, .inl ⟨false, by decide +kernel⟩,
    by decide +kernel, by decide +kernel⟩
theorem witness_RoundsToIntegral_other : ∃ v, Number .real masked (.reg 9) v ∧
    pow2 (precision (destFmt .real (.reg 19)) - 1) ≤ |v| ∧ InRange .real (.reg 19) masked v ∧
    InexactQuiet .real (.reg 19) masked v ∧ fetch .real masked (.reg 11) = .zero true ∧
    fetch .real masked (.reg 6) = .inf true :=
  ⟨3000000000, .inl ⟨false, by decide +kernel⟩, by decide +kernel, by delta InRange Overflow largest rounded; decide +kernel,
    .inl (by decide +kernel), by decide +kernel, by decide +kernel⟩

theorem witness_SquareRoots (rc : Fin 4) : ∃ v, Number .real (numbers (moded rc 0x1F)) (.reg 19) v ∧ 0 < v ∧
    eMin (destFmt .real (.reg 20)) ≤ floorLog2 v / 2 ∧ floorLog2 v / 2 < eMax (destFmt .real (.reg 20)) := by
  refine ⟨2, .inl ⟨false, ?_⟩, by decide +kernel, by decide +kernel, by decide +kernel⟩
  revert rc; decide +kernel
theorem witness_SquareRoots_neighbours : Number .real masked (.reg 19) 2 ∧ (0 : Rat) < 2 ∧ sqrtValue 2 * sqrtValue 2 ≠ 2 ∧
    Number .real masked (.reg 7) (1 / 4) ∧ (0 : Rat) < 1 / 4 ∧ sqrtValue (1 / 4) * sqrtValue (1 / 4) = 1 / 4 :=
  ⟨number_two, by decide +kernel, by decide +kernel, .inl ⟨false, by decide +kernel⟩, by decide +kernel, by decide +kernel⟩
theorem witness_SquareRoots_other : fetch .real masked (.reg 11) = .zero true ∧ fetch .real masked (.reg 21) = .zero false ∧
    fetch .real masked (.reg 22) = .inf false := by decide +kernel

theorem witness_IntegerToReal_word : (0 : Int) = (srcValue masked (.lit 0)).toInt ∧
    (-(2 : Int) ^ 31) = (srcValue masked (.reg 11)).toInt ∧ (-(2 : Int) ^ 31) ≠ 0 := by decide +kernel
theorem witness_IntegerToReal_pair : ((Src.reg 2).isEven && (FpDst.reg 20).fits .long) = true ∧
    (1 - 2 ^ 63 : Int) = (getReg masked (2 + 1#5) ++ getReg masked 2).toInt ∧ ((Src.lit 31).isEven) = true := by
  decide +kernel

theorem witness_RealToInteger_number : ∃ v w, Number .real masked (.reg 10) v ∧ Usable .real masked (.reg 10) ∧
    -(2 ^ 31) ≤ v ∧ v < 2 ^ 31 ∧ Number .real masked (.reg 9) w ∧ Usable .real masked (.reg 9) ∧ 2 ^ 31 ≤ w ∧
    masked.params.intOverflow = .lowBits ∧ Reg.isEven 20 = true :=
  ⟨-5 / 2, 3000000000, .inl ⟨true, by decide +kernel⟩, by delta Usable; decide +kernel,
    by decide +kernel, by decide +kernel, .inl ⟨false, by decide +kernel⟩, by delta Usable; decide +kernel,
    by decide +kernel, by decide +kernel, by decide⟩
theorem witness_RealToInteger_other : isNan (fetch .real masked (.reg 23)) = true ∧ Usable .real masked (.reg 23) ∧
    isNan (fetch .real masked (.reg 24)) = true ∧ fetch .real masked (.reg 21) = .zero false ∧
    Usable .real masked (.reg 21) ∧ fetch .real masked (.reg 22) = .inf false ∧ Usable .real masked (.reg 22) := by
  delta Usable; decide +kernel
theorem witness_RealToInteger_masks : acBit masked fvmBit = true ∧ acBit unmasked fvmBit = false ∧
    acBit masked iomBit = false ∧ acBit (numbers 0x1000) iomBit = true ∧ acBit masked fxmBit = true ∧
    acBit unmasked fxmBit = false := by decide +kernel

theorem witness_Comparisons_ordered : Usable .real masked (.reg 16) ∧ Usable .real masked (.reg 17) ∧
    Usable .real masked (.reg 6) ∧ onLine (fetch .real masked (.reg 16)) = some (0, 1) ∧
    onLine (fetch .real masked (.reg 17)) = some (0, 3) ∧ onLine (fetch .real masked (.reg 6)) = some (-1, 0) ∧
    Above (0, 3) (0, 1) ∧ Above (0, 1) (-1, 0) := by
  delta Usable Above; decide +kernel
theorem witness_Comparisons_equal_zeros : onLine (fetch .real masked (.reg 21)) = onLine (fetch .real masked (.reg 11)) ∧
    onLine (fetch .real masked (.reg 21)) = some (0, 0) := by decide +kernel
theorem witness_Comparisons_unordered : isNan (fetch .real masked (.reg 23)) = true ∧ Usable .real masked (.reg 23) ∧
    (false || isSnan (fetch .real masked (.reg 23)) || isSnan (fetch .real masked (.reg 16))) = false ∧
    (true || isSnan (fetch .real masked (.reg 23)) || isSnan (fetch .real masked (.reg 16))) = true := by
  delta Usable; decide +kernel
theorem witness_Comparisons_signaled : isNan (fetch .real unmasked (.reg 24)) = true ∧
    Usable .real unmasked (.reg 24) ∧ Usable .real unmasked (.reg 16) ∧
    (false || isSnan (fetch .real unmasked (.reg 24)) || isSnan (fetch .real unmasked (.reg 16))) = true ∧
    acBit unmasked fvmBit = false ∧ acBit masked fvmBit = true := by
  delta Usable; decide +kernel

theorem witness_Classification : fetch .real masked (.reg 21) = .zero false ∧
    fetch .real masked (.reg 25) = .denorm false (pow2 (-149)) ∧ fetch .real masked (.reg 17) = .norm false 3 ∧
    fetch .real masked (.reg 6) = .inf true ∧ fetch .real masked (.reg 23) = .qnan false 0x4000010000000000#63 ∧
    fetch .real masked (.reg 24) = .snan false 0x0000010000000000#63 ∧ fetch .long masked (.fpr 1) = .reserved ∧
    (FpSrc.fpr 1).fits .long = true := by decide +kernel
theorem test_classr_sign : ∀ n : Bool, (result 0x68000F80 (withFp [(0, if n then 0xBFFF0000000000000001 else 0x3FFF0000000000000001)]
    (machine [] 0)) []).map (fun r => r.2 / 64) = some (if n then 1 else 0) := by decide +kernel

theorem witness_Trigonometry : ∃ v w, AllMasked masked ∧ fetch .real masked (.reg 11) = .zero true ∧
    fetch .long masked (.fpr 3) = .zero false ∧ Number .real masked (.reg 16) v ∧ Number .real masked (.reg 17) w :=
  ⟨1, 3, by delta AllMasked; decide +kernel, by decide +kernel, by decide +kernel, number_one, number_three⟩
theorem witness_Trigonometry_half_turn : (1 : Rat) ≠ 0 ∧ (0 : Rat) < 1 ∧ 1 < pi66 ∧ 1 < pi66 / 2 ∧
    Config.FpValue.zero true ≠ .num 0 ∧ Config.FpValue.inf true ≠ .num 0 ∧ Config.FpValue.num (-1) ≠ .num 0 := by
  decide +kernel
theorem witness_Trigonometry_arctangent : fetch .real masked (.reg 11) = .zero true ∧
    fetch .real masked (.reg 21) = .zero false ∧ fetch .real masked (.reg 22) = .inf false ∧
    fetch .real masked (.reg 6) = .inf true ∧ (0 : Rat) < 1 ∧ Number .real masked (.reg 16) 1 ∧ (-2 : Rat) < 0 ∧
    Number .real masked (.reg 20) (-2) ∧ FiniteSign .real masked (.reg 21) false ∧ FiniteSign .real masked (.reg 20) true :=
  ⟨by decide +kernel, by decide +kernel, by decide +kernel, by decide +kernel, by decide +kernel, number_one,
    by decide +kernel, number_minus_two, .inl (by decide +kernel), .inr ⟨-2, number_minus_two, by decide +kernel⟩⟩

theorem witness_Logarithms_exponent : ∃ v, Number .real masked (.reg 17) v ∧ pow2 1 ≤ |v| ∧ |v| < pow2 (1 + 1) ∧
    Number .real masked (.reg 16) 1 ∧ pow2 0 ≤ |(1 : Rat)| ∧ |(1 : Rat)| < pow2 (0 + 1) :=
  ⟨3, number_three, by decide +kernel, by decide +kernel, number_one, by decide +kernel, by decide +kernel⟩
theorem witness_Logarithms_product : Number .real masked (.reg 8) (pow2 3) ∧ Number .real masked (.reg 17) 3 ∧
    Number .real masked (.reg 16) (pow2 0) ∧ InRange .real (.reg 19) masked (3 * (3 : Int)) ∧
    InexactQuiet .real (.reg 19) masked (3 * (3 : Int)) :=
  ⟨.inl ⟨false, by decide +kernel⟩, number_three, .inl ⟨false, by decide +kernel⟩,
    by delta InRange Overflow largest rounded; decide +kernel, .inl (by decide +kernel)⟩
theorem witness_Logarithms_inexact : AllMasked masked ∧ Number .real masked (.reg 17) 3 ∧ (0 : Rat) < 3 ∧
    (∀ k, (3 : Rat) ≠ pow2 k) ∧ Number .real masked (.reg 19) 2 ∧ (-1 : Rat) < 2 ∧ ∀ k, (2 : Rat) + 1 ≠ pow2 k :=
  ⟨by delta AllMasked; decide +kernel, number_three, by decide +kernel, three_no_power, number_two, by decide +kernel,
    fun k h => three_no_power k (by rw [← h]; decide +kernel)⟩
theorem witness_Logarithms_other : fetch .real masked (.reg 22) = .inf false ∧ NonzeroSign .real masked (.reg 20) true ∧
    fetch .real masked (.reg 21) = .zero false ∧ Number .real masked (.reg 7) (1 / 4) ∧ (0 : Rat) < 1 / 4 ∧
    (1 / 4 : Rat) ≠ 1 ∧ fetch .real masked (.reg 11) = .zero true ∧ Number .real masked (.reg 14) (-1) ∧
    FiniteSign .real masked (.reg 20) true :=
  ⟨by decide +kernel, .inr ⟨-2, number_minus_two, by decide +kernel⟩, by decide +kernel, .inl ⟨false, by decide +kernel⟩,
    by decide +kernel, by decide +kernel, by decide +kernel, number_minus_one, .inr ⟨-2, number_minus_two, by decide +kernel⟩⟩
theorem witness_Logarithms_epsilon : Number .real masked (.reg 17) (pow2 2 - 1) ∧ Number .real masked (.reg 16) 1 ∧
    InRange .real (.reg 19) masked (1 * (2 : Int)) ∧ InexactQuiet .real (.reg 19) masked (1 * (2 : Int)) :=
  ⟨.inl ⟨false, by decide +kernel⟩, number_one, by delta InRange Overflow largest rounded; decide +kernel, .inl (by decide +kernel)⟩

theorem witness_ExponentAndScale_exponent : Number .real masked (.reg 17) (3 : Int) ∧ (3 : Int) < 40962 ∧
    InRange .real (.reg 19) masked (pow2 3 - 1) ∧ InexactQuiet .real (.reg 19) masked (pow2 3 - 1) :=
  ⟨.inl ⟨false, by decide +kernel⟩, by decide, by delta InRange Overflow largest rounded; decide +kernel,
    .inl (by decide +kernel)⟩
theorem witness_ExponentAndScale_other : Number .real masked (.reg 7) (1 / 4) ∧ (∀ k : Int, (1 / 4 : Rat) ≠ k) ∧
    fetch .real masked (.reg 11) = .zero true ∧ fetch .real masked (.reg 22) = .inf false ∧
    fetch .real masked (.reg 6) = .inf true ∧ Number .real masked (.reg 9) 3000000000 ∧ (40962 : Rat) ≤ 3000000000 ∧
    Number .real unmasked (.reg 9) 3000000000 ∧ acBit masked fomBit = true ∧ acBit unmasked fomBit = false :=
  ⟨.inl ⟨false, by decide +kernel⟩, fun k h => absurd (congrArg Rat.den h) (by rw [Rat.den_intCast]; decide +kernel),
    by decide +kernel, by decide +kernel, by decide +kernel, .inl ⟨false, by decide +kernel⟩, by decide +kernel,
    .inl ⟨false, by decide +kernel⟩, by decide +kernel, by decide +kernel⟩
theorem witness_ExponentAndScale_scale : Number .real masked (.reg 17) 3 ∧
    (3 * pow2 31 : Rat) = 3 * pow2 (max (-200000) (min (srcValue masked (.lit 31)).toInt 200000)) ∧
    InRange .real (.reg 19) masked (3 * pow2 31) ∧ InexactQuiet .real (.reg 19) masked (3 * pow2 31) :=
  ⟨number_three, by decide +kernel, by delta InRange Overflow largest rounded; decide +kernel, .inl (by decide +kernel)⟩

end Sys2Proof.Tests
end

section
/-! PROOFS. Every step keeps the invariant: what holds inside a step of a running processor (`Live`), and that the
operations of the machine keep it. -/
namespace Sys2Proof.Machine

/-! ### Code addresses and trace controls -/

theorem isCodeAddress_iff (a : Word) : isCodeAddress a ↔ a.toNat % 4 = 0 := by
  have h := wordAligned_toNat a
  constructor
  · intro e
    rw [e] at h
    have := Nat.mod_le a.toNat 4
    omega
  · intro e
    exact BitVec.eq_of_toNat_eq (by omega)

theorem isCodeAddress_wordAligned (a : Word) : isCodeAddress (wordAligned a) := wordAligned_idem a

theorem isCodeAddress_add {a b : Word} (ha : isCodeAddress a) (hb : isCodeAddress b) : isCodeAddress (a + b) := by
  rw [isCodeAddress_iff] at *
  rw [BitVec.toNat_add]
  omega

theorem isCodeAddress_ctrlOffset (t : BitVec 22) : isCodeAddress (ctrlOffset t) := by
  unfold isCodeAddress
  apply BitVec.eq_of_getLsbD_eq
  intro i hi
  rw [getLsbD_wordAligned]
  by_cases h : 2 ≤ i
  · simp [h]
  · have h2 : (t ++ 0#2).getLsbD i = false := by
      rw [BitVec.getLsbD_append, if_pos (by omega)]
      simp
    simp only [h, decide_false, Bool.false_and, ctrlOffset]
    rw [BitVec.getLsbD_signExtend, if_pos (by omega), h2]
    simp

theorem isCodeAddress_memLength (a : Addr) : isCodeAddress (memLength a) := by
  rw [isCodeAddress_iff]
  cases a <;> simp [memLength]

/-- The reserved bits of a trace-controls word are zero exactly if every bit that is set is a defined one (R48). -/
theorem tcReserved_iff (v : Word) :
    v &&& ~~~tcDefined = 0#32 ↔ ∀ i, getBit v i = true → getBit tcDefined i = true := by
  constructor
  · intro h i hi
    have hlt : i < 32 := by
      by_contra hge
      rw [getBit_ge (by omega)] at hi
      cases hi
    have := congrArg (·.getLsbD i) h
    unfold getBit at hi ⊢
    simpa [hi, hlt] using this
  · intro h
    apply BitVec.eq_of_getLsbD_eq
    intro i hlt
    have := h i
    unfold getBit at this
    rw [BitVec.getLsbD_and, BitVec.getLsbD_not]
    cases hv : v.getLsbD i
    · simp
    · simp [this hv]

theorem tcReserved_setEvent {v : Word} (e : TraceEvent) (h : v &&& ~~~tcDefined = 0#32) :
    setBit v (16 + modeBit e) true &&& ~~~tcDefined = 0#32 := by
  rw [tcReserved_iff] at *
  intro i hi
  rw [getBit_setBit] at hi
  split at hi
  · rename_i hc
    rw [hc.1]
    cases e <;> decide
  · exact h i hi

theorem tcReserved_clearEvents {v : Word} (h : v &&& ~~~tcDefined = 0#32) :
    setField v 17 7 0#7 &&& ~~~tcDefined = 0#32 := by
  rw [tcReserved_iff] at *
  intro i hi
  rw [getBit_setField] at hi
  split at hi
  · simp at hi
  · exact h i hi

theorem tcReserved_modtc {v m x : Word} (h : v &&& ~~~tcDefined = 0#32) :
    maskedUpdate v (m &&& tcDefined) x &&& ~~~tcDefined = 0#32 := by
  rw [tcReserved_iff] at *
  intro i hi
  rw [getBit_maskedUpdate] at hi
  split at hi
  · rename_i hm
    unfold getBit at *
    simp only [BitVec.getLsbD_and, Bool.and_eq_true] at hm
    exact hm.2
  · exact h i hi

/-! ### What holds inside a step -/

/-- What holds of every state inside a step of a running processor with the parameters `p`. -/
structure Live (p : Params) (s : State) : Prop where
  inv : Inv s
  running : s.status = .running
  params : s.params = p

namespace Live
variable {p : Params} {s t : State}

/-- `Live` looks at no other field of the state than these. -/
theorem congr (h : Live p s) (mem : t.mem = s.mem := by simp) (older : t.older = s.older := by simp)
    (ip : t.ip = s.ip := by simp) (lastIp : t.lastIp = s.lastIp := by simp) (tc : t.tc = s.tc := by simp)
    (status : t.status = s.status := by simp) (failPin : t.failPin = s.failPin := by simp)
    (teHold : t.teHold = s.teHold := by simp) (executed : t.executed = s.executed := by simp)
    (stale : t.stale = s.stale := by simp) (params : t.params = s.params := by simp) : Live p t := by
  obtain ⟨inv, running, par⟩ := h
  refine ⟨?_, status.trans running, params.trans par⟩
  exact {
    memory := mem ▸ inv.memory, cached := older ▸ inv.cached, frames := older ▸ inv.frames, code := ip ▸ inv.code
    lastCode := lastIp ▸ inv.lastCode, trace := tc ▸ inv.trace, fail := by rw [failPin, status]; exact inv.fail
    delay := teHold ▸ inv.delay, executedRising := executed ▸ inv.executedRising
    staleRising := stale ▸ inv.staleRising, staleExecuted := by rw [stale, executed]; exact inv.staleExecuted }

/-- The processor in a step is not stopped, so that it may get stuck and keep the invariant. -/
theorem stuck (h : Live p s) : Inv { s with status := .stuck } :=
  { h.inv with
    fail := by
      have := h.inv.fail
      rw [h.running] at this
      simpa using this }

theorem withIp (h : Live p s) {a : Word} (ha : isCodeAddress a) : Live p { s with ip := a } :=
  ⟨{ h.inv with code := ha }, h.running, h.params⟩

theorem withTc (h : Live p s) {v : Word} (hv : v &&& ~~~tcDefined = 0#32) : Live p { s with tc := v } :=
  ⟨{ h.inv with trace := hv }, h.running, h.params⟩

theorem withOlder (h : Live p s) {l : List RegSet} (hl : l.length ≤ 3) (hf : ∀ e ∈ l, frameAligned e.addr = e.addr) :
    Live p { s with older := l } :=
  ⟨{ h.inv with cached := hl, frames := hf }, h.running, h.params⟩

theorem withMem (h : Live p s) {m : Memory} (hm : Memory.wf m = true) : Live p { s with mem := m } :=
  ⟨{ h.inv with memory := hm }, h.running, h.params⟩

theorem withDelay (h : Live p s) {n : Nat} (hn : n ≤ 5) : Live p { s with teHold := n } :=
  ⟨{ h.inv with delay := hn }, h.running, h.params⟩

theorem withFp (h : Live p s) (v : Vector Ext 4) : Live p { s with fp := v } := h.congr

theorem setReg (h : Live p s) (n : Reg) (v : Word) : Live p (setReg s n v) := h.congr

theorem setRegLong (h : Live p s) (n : Reg) (v : BitVec 64) : Live p (setRegLong s n v) := (h.setReg _ _).setReg _ _

theorem setAcFlag (h : Live p s) (i : Nat) : Live p (setAcFlag s i) := h.congr

theorem setAs (h : Live p s) (v : BitVec 4) : Live p (setAs s v) := h.congr

theorem setCc (h : Live p s) (v : BitVec 3) : Live p (setCc s v) := h.congr

theorem drawn (h : Live p s) (k : Nat) : Live p (drawn s k) := h.congr

theorem setPc (h : Live p s) (pc : Word) : Live p (setPc s pc) := (h.withDelay (Nat.zero_le 5)).congr

theorem setTe (h : Live p s) (b : Bool) : Live p (setTe s b) := h.setPc _

theorem setEm (h : Live p s) (b : Bool) : Live p (setEm s b) := h.congr

theorem setTfp (h : Live p s) (b : Bool) : Live p (setTfp s b) := h.congr

theorem clearEvents (h : Live p s) : Live p (clearEvents s) := h.withTc (tcReserved_clearEvents h.inv.trace)

theorem signal (h : Live p s) (e : TraceEvent) : Live p (signal e s) := by
  rw [signal_eq]
  exact (h.withTc (tcReserved_setEvent e h.inv.trace)).congr

theorem signalIfEnabled (h : Live p s) (e : TraceEvent) : Live p (signalIfEnabled e s) := by
  unfold Machine.signalIfEnabled
  split
  · exact h.signal e
  · exact h

theorem commonEvents (h : Live p s) (a : Word) : Live p (commonEvents a s) := by
  unfold Machine.commonEvents signalBreakpoint
  split
  · exact (h.signalIfEnabled _).signalIfEnabled _
  · exact h.signalIfEnabled _

theorem retire (h : Live p s) {a : Word} (ha : isCodeAddress a) : Live p (retire a s) := by
  have hd := h.inv.delay
  exact ⟨{ h.inv with lastCode := ha, delay := by rw [retire_teHold]; omega }, h.running, h.params⟩

/-- A completed instruction: its events, and the last IP (stages 5 and 6 of R552). -/
theorem ended (h : Live p s) {a : Word} (ha : isCodeAddress a) : Live p (Machine.retire a (Machine.commonEvents a s)) :=
  (h.commonEvents a).retire ha

/-! ### Memory -/

theorem markStale (h : Live p s) (a : Nat) : Live p (markStale s a) := by
  unfold Machine.markStale
  dsimp only
  split
  · rename_i hc
    refine ⟨{ h.inv with staleRising := ?_, staleExecuted := ?_ }, h.running, h.params⟩
    · exact addrsRising_insert h.inv.staleRising (Nat.zero_le _)
    · intro b hb
      rcases mem_insertAddr.mp hb with rfl | hb
      · exact List.contains_iff_mem.mp hc
      · exact h.inv.staleExecuted b hb
  · exact h

theorem markExecuted (h : Live p s) (a : Nat) : Live p (markExecuted s a) :=
  ⟨{ h.inv with
      executedRising := addrsRising_insert h.inv.executedRising (Nat.zero_le _)
      staleExecuted := fun b hb => mem_insertAddr.mpr (Or.inr (h.inv.staleExecuted b hb)) }, h.running, h.params⟩

theorem putWord (h : Live p s) {a : Word} (v : Word) (ha : a.toNat + 3 < 2 ^ 32) : Live p (putWord s a v) :=
  ((h.withMem (memWriteWord_wf v h.inv.memory ha)).markStale _).markStale _

theorem putWords : ∀ (vs : List Word) {s : State} {a : Word}, Live p s → a.toNat + 4 * vs.length ≤ 2 ^ 32 →
    Live p (putWords s a vs)
  | [], _, _, h, _ => h
  | [v], _, _, h, ha => h.putWord v (by simp only [List.length_cons, List.length_nil] at ha; omega)
  | v :: w :: vs, s, a, h, ha => by
    simp only [List.length_cons] at ha
    have h4 : (a + 4#32).toNat = a.toNat + 4 := by
      rw [BitVec.toNat_add, BitVec.toNat_ofNat]; omega
    exact putWords (w :: vs) (h.putWord v (by omega)) (by simp only [List.length_cons]; omega)

theorem storeWord (h : Live p s) {a v : Word} (e : storeWord s a v = .ok t) : Live p t := by
  obtain ⟨ha, _, rfl⟩ := storeWord_ok e
  exact h.putWord v (aligned_no_wrap ha)

theorem storeWords : ∀ {vs : List Word} {s t : State} {a : Word}, Live p s → storeWords s a vs = .ok t → Live p t
  | [], _, _, _, h, e => by cases e; exact h
  | v :: vs, s, t, a, h, e => by
    unfold Machine.storeWords at e
    split at e
    · cases e
    · exact storeWords (h.storeWord ‹_›) e

theorem storeFields : ∀ {vs : List (Word × Word)} {s t : State} {a : Word}, Live p s → storeFields s a vs = .ok t →
    Live p t
  | [], _, _, _, h, e => by cases e; exact h
  | (o, v) :: vs, s, t, a, h, e => by
    unfold Machine.storeFields at e
    split at e
    · cases e
    · exact storeFields (h.storeWord ‹_›) e

theorem storeByte (h : Live p s) {a : Word} {v : Byte} (e : storeByte s a v = .ok t) : Live p t := by
  have hw := storeByte_wf e h.inv.memory
  obtain ⟨_, rfl⟩ := storeByte_ok e
  rw [markStale_mem] at hw
  exact (h.withMem hw).markStale _

theorem readWord (h : Live p s) (free : Bool) (a : Word) : Live p (readWord free s a).2 := by
  obtain ⟨⟨k, e⟩, _⟩ := readWord_eq free s a
  rw [e]
  exact h.drawn k

theorem loadWord (h : Live p s) {a : Word} {q : Word × State} (e : loadWord s a = .ok q) : Live p q.2 := by
  obtain ⟨_, _, ⟨k, hk⟩, _⟩ := loadWord_ok e
  rw [hk]
  exact h.drawn k

theorem loadEntry (h : Live p s) {b o : Word} {q : Word × State} (e : loadEntry s b o = .ok q) : Live p q.2 := by
  obtain ⟨_, _, _, ⟨k, hk⟩, _⟩ := loadEntry_ok e
  rw [hk]
  exact h.drawn k

theorem loadByte (h : Live p s) {a : Word} {q : Byte × State} (e : loadByte s a = .ok q) : Live p q.2 := by
  obtain ⟨_, ⟨k, hk⟩, _⟩ := loadByte_ok e
  rw [hk]
  exact h.drawn k

/-! ### Calls and returns -/

theorem allocSet (h : Live p s) (e : allocSet s = .ok t) : Live p t := by
  have hl : s.older.length ≤ 3 := h.inv.cached
  have hf : ∀ x ∈ (⟨curFrame s, s.cur⟩ : RegSet) :: s.older, frameAligned x.addr = x.addr := by
    intro x hx
    rcases List.mem_cons.mp hx with rfl | hx
    · exact frameAligned_idem _
    · exact h.inv.frames x hx
  obtain ⟨cur, older, mem, stale, ht, ⟨hn, rfl, rfl, rfl⟩ | ⟨hn, rfl, x, _, hs⟩⟩ := allocSet_ok e
  · rw [ht]
    exact (h.withOlder (by simp only [List.length_cons]; omega) hf).congr
  · have h1 : Live p { s with older := (⟨curFrame s, s.cur⟩ :: s.older).dropLast } :=
      h.withOlder (by simpa using hl) fun x hx => hf x (List.dropLast_subset _ hx)
    exact storeWords (h1.congr) hs

theorem callOp (h : Live p s) {target b : Word} {st : BitVec 3} (e : callOp target b st s = .ok t) : Live p t := by
  obtain ⟨_, a, ha, rfl⟩ := callOp_ok e
  exact (((((h.allocSet ha).setReg _ _).setReg _ _).setReg _ _).withIp (wordAligned_idem target)).signalIfEnabled _

theorem callFrom (h : Live p s) {rip target b : Word} {st : BitVec 3} (e : callFrom rip target b st s = .ok t) :
    Live p t := (h.setReg _ _).callOp e

theorem returnOp (h : Live p s) (e : returnOp s = .ok t) : Live p t := by
  have h0 : Live p (returning s) := h.setReg _ _
  obtain ⟨v, hv, rfl⟩ := returnOp_ok e
  refine withIp ?_ (wordAligned_idem _)
  rcases releaseSet_ok hv with ⟨x, rest, ho, _, rfl⟩ | ⟨_, _, _, rfl⟩
  · have hc := h0.inv.cached
    rw [ho] at hc
    refine (h0.withOlder (l := rest) (Nat.le_of_succ_le hc) fun y hy => h0.inv.frames y ?_).congr
    rw [ho]
    exact List.mem_cons_of_mem _ hy
  · exact h0.congr

theorem spillAll : ∀ {l : List RegSet} {s t : State}, Live p s → spillAll l s = .ok t → Live p t
  | [], _, _, h, e => by cases e; exact h
  | x :: rest, s, t, h, e => by
    unfold Machine.spillAll at e
    split at e
    · cases e
    · rename_i s' hs
      exact spillAll (storeWords h hs) e

/-! ### Faults and interrupts -/

theorem handlerState (h : Live p s) (e : HandlerState s t) : Live p t := by
  obtain ⟨k, rfl | ⟨te, rfl⟩⟩ := e
  · exact h.drawn k
  · exact ((h.drawn k).setEm true).setTe te

/-- Taking a fault either enters its handler or leaves the processor stuck. -/
theorem deliverFault (h : Live p s) {f : FaultInfo} (e : deliverFault f s = .ok t) : Inv t ∧ t.params = p := by
  rcases deliverFault_ok e with ⟨_, rfl⟩ | ⟨x, s1, hx, _, _, h1, h2⟩
  · exact ⟨h.stuck, h.params⟩
  · have l1 := (h.handlerState (faultHandler_ok hx).2).storeFields h1
    have l2 := ((l1.setReg _ _).drawn _).callOp h2
    exact ⟨l2.inv, l2.params⟩

theorem traceFault (h : Live p s) {sip : Word} {afi : Option Word} (e : traceFault sip afi s = .ok t) :
    Inv t ∧ t.params = p := (h.clearEvents.setTfp false).deliverFault e

theorem interruptEntry (h : Live p s) {v : Byte} (e : interruptEntry v s = .ok t) : Live p t := by
  obtain ⟨b, a, s2, _, _, h1, h2, h3, h4⟩ := interruptEntry_ok e
  have l2 := (h.loadEntry h1).storeFields h2
  have l3 := (((l2.setReg _ _).setPc _).drawn 1).loadEntry h3
  exact (l3.drawn 1).callOp h4

theorem postInterrupt (h : Live p s) {v : Byte} (e : postInterrupt v s = .ok t) : Live p t := by
  obtain ⟨b, s2, w, h1, h2, h3, h4⟩ := postInterrupt_ok e
  exact (((h.loadByte h1).storeByte h2).loadWord h3).storeWord h4

theorem receiveInterrupt (h : Live p s) {v : Byte} (e : receiveInterrupt v s = .ok t) : Live p t := by
  unfold Machine.receiveInterrupt at e
  split at e
  · exact h.interruptEntry e
  · exact h.postInterrupt e

theorem checkPending (h : Live p s) (e : checkPending s = .ok t) : Live p t := by
  obtain ⟨pp, h0, e⟩ := checkPending_ok e
  have l0 := h.loadWord h0
  rcases checkPendingFrom_ok e with ⟨j, rfl⟩ | ⟨j, prio, k, rest, s1, s2, h1, h2, h3⟩
  · exact l0.drawn j
  · have l1 := (l0.drawn j).storeByte h1
    rcases h2 with rfl | h2
    · exact l1.interruptEntry h3
    · exact (l1.storeWord h2).interruptEntry h3

end Live

/-! ### Effects and rules -/

/-- What the rule of an instruction comes to is a state inside the step. -/
def Effect.Keeps (p : Params) (e : Effect) : Prop :=
  match e with
  | .done s | .doneCheck s | .restored s _ | .late s _ => Live p s
  | .early _ => True

/-- Whatever the rule of an instruction comes to, if it comes to anything, is a state inside the step. -/
structure RuleKeeps (p : Params) (r : Result Effect) : Prop where
  effect : ∀ e, r = .ok e → e.Keeps p

theorem toOutcome_next {r : Result State} {t : State} (e : toOutcome r = .next t) : r = .ok t := by
  unfold toOutcome at e
  split at e <;> cases e
  rfl

/-- The end of an instruction keeps the invariant where its rule does. -/
theorem finish_keeps {p : Params} {s t : State} {r : Result Effect} (h : Live p s) (hr : RuleKeeps p r)
    (e : finish s r = .next t) : Inv t ∧ t.params = p := by
  have live : ∀ {u : State}, Live p u → Inv u ∧ u.params = p := fun h => ⟨h.inv, h.params⟩
  cases r with
  | error x => cases toOutcome_next e
  | ok x =>
    have e : finishEffect s x = .ok t := toOutcome_next e
    have hx := hr.effect x rfl
    cases x with
    | done u =>
      cases e
      exact live (Live.ended hx h.inv.code)
    | doneCheck u => exact live ((Live.ended hx h.inv.code).checkPending e)
    | restored u check =>
      have hu := Live.retire hx h.inv.code
      cases check with
      | true => exact live (hu.checkPending e)
      | false =>
        cases e
        exact live hu
    | early f => exact h.deliverFault e
    | late u f => exact (Live.ended hx h.inv.code).deliverFault e

section
variable {p : Params} {s u : State}

theorem ruleKeeps_ok {e : Effect} (h : e.Keeps p) : RuleKeeps p (.ok e) :=
  ⟨fun _ hx => by cases hx; exact h⟩

theorem ruleKeeps_error (x : Stop) : RuleKeeps p (.error x) := ⟨fun _ he => nomatch he⟩

theorem ruleKeeps_bind {α : Type} {x : Result α} {f : α → Result Effect} (h : ∀ a, x = .ok a → RuleKeeps p (f a)) :
    RuleKeeps p (x >>= f) := by
  refine ⟨fun e he => ?_⟩
  obtain ⟨a, ha, he⟩ := result_bind_ok he
  exact (h a ha).effect e he

theorem ruleKeeps_requireAligned {ok : Bool} {r : Result Effect} (h : RuleKeeps p r) :
    RuleKeeps p (requireAligned ok s r) := by
  cases ok
  · exact ruleKeeps_ok trivial
  · exact h

theorem ruleKeeps_requireFpAligned {ok : Bool} {r : Result Effect} (h : RuleKeeps p r) :
    RuleKeeps p (requireFpAligned ok r) := by
  cases ok
  · exact ruleKeeps_error _
  · exact h

theorem ruleKeeps_checkOperands {ops : List FVal} {r : Result Effect} (h : RuleKeeps p r) :
    RuleKeeps p (checkOperands ops s r) := by
  unfold checkOperands
  split
  · exact ruleKeeps_error _
  · split
    · exact ruleKeeps_ok trivial
    · exact h

theorem next4_keeps (h : Live p u) : (next4 u).Keeps p := h.withIp (isCodeAddress_add h.inv.code rfl)

theorem ruleKeeps_next4 (h : Live p u) : RuleKeeps p (.ok (next4 u)) := ruleKeeps_ok (next4_keeps h)

theorem nextMem_keeps (h : Live p u) (a : Addr) : (nextMem a u).Keeps p :=
  h.withIp (isCodeAddress_add h.inv.code (isCodeAddress_memLength a))

theorem advance_keeps (h : Live p u) : Live p (advance u) := next4_keeps h

/-- A rule that only goes on from what another operation answers. -/
theorem result_map_ok {α β : Type} {x : Result α} {f : α → β} {b : β} (h : x.map f = .ok b) :
    ∃ a, x = .ok a ∧ f a = b := by
  cases x with
  | error e => cases h
  | ok a => exact ⟨a, rfl, Except.ok.inj h⟩

end

end Sys2Proof.Machine
end

section
/-! PROOFS. Every step keeps the invariant: the rule of each instruction, the stages before it, the first stage of
initialization, and the step. -/
namespace Sys2Proof.Machine

/-! ### Floating point -/

section
variable {p : Params} {s : State}

theorem storeFp_keeps (h : Live p s) (f : Fmt) (dst : FpDst) (bits : Ext) : Live p (storeFp f dst bits s) := by
  obtain ⟨g, c, fp, e⟩ := storeFp_eq f dst bits s
  rw [e]
  exact h.congr

theorem storeDone_keeps (h : Live p s) (f : Fmt) (dst : FpDst) (res : Ext) : (storeDone f dst res s).Keeps p :=
  next4_keeps (storeFp_keeps h f dst res)

theorem storeInexact_keeps (h : Live p s) (f : Fmt) (dst : FpDst) (res : Ext) : (storeInexact f dst res s).Keeps p := by
  unfold storeInexact
  split
  · exact storeDone_keeps (h.setAcFlag _) f dst res
  · exact advance_keeps (storeFp_keeps h f dst res)

theorem rangeFault_keeps (h : Live p s) (sub : Byte) (v u : Rat) (d : Ext × Option Bool) :
    (rangeFault sub v u d s).Keeps p := advance_keeps h

theorem deliver_keeps (h : Live p s) (f : Fmt) (dst : FpDst) (v : Rat) : (deliver f dst v s).Keeps p := by
  unfold deliver
  dsimp only
  split
  · split
    · exact storeInexact_keeps (h.setAcFlag _) ..
    · exact rangeFault_keeps h ..
  · split
    · split
      · split
        · exact storeDone_keeps h ..
        · exact storeInexact_keeps (h.setAcFlag _) ..
      · exact rangeFault_keeps h ..
    · split
      · exact storeDone_keeps h ..
      · exact storeInexact_keeps h ..

theorem invalidResult_keeps (h : Live p s) (f : Fmt) (dst : FpDst) (ops : List FVal) :
    (invalidResult f dst ops s).Keeps p := by
  unfold invalidResult
  split
  · exact storeDone_keeps (h.setAcFlag _) ..
  · trivial

theorem zeroDivideResult_keeps (h : Live p s) (f : Fmt) (dst : FpDst) (neg : Bool) :
    (zeroDivideResult f dst neg s).Keeps p := by
  unfold zeroDivideResult
  split
  · exact storeDone_keeps (h.setAcFlag _) ..
  · trivial

theorem storeOutcome_keeps (h : Live p s) (f : Fmt) (dst : FpDst) (ops : List FVal) (o : FpOutcome) :
    (storeOutcome f dst ops o s).Keeps p := by
  cases o with
  | invalid => exact invalidResult_keeps h ..
  | zeroDivide neg => exact zeroDivideResult_keeps h ..
  | value v => exact deliver_keeps h ..
  | rounded neg v => exact storeInexact_keeps h ..
  | nan | zero neg | inf neg | exact v => exact storeDone_keeps h ..

theorem arith_keeps (h : Live p s) (f : Fmt) (dst : FpDst) (ops : List FVal) (o : FpOutcome) :
    RuleKeeps p (arith f dst ops o s) := by
  refine ruleKeeps_checkOperands (ruleKeeps_ok ?_)
  split
  · exact invalidResult_keeps h ..
  · exact storeOutcome_keeps h ..

theorem arith1_keeps (h : Live p s) (f : Fmt) (o : Fmt → Arg → FpOutcome) (a : FpSrc) (d : FpDst) :
    RuleKeeps p (arith1 f o a d s) := ruleKeeps_requireFpAligned (arith_keeps h ..)

theorem arith2_keeps (h : Live p s) (f : Fmt) (o : Arg → Arg → FpOutcome) (a b : FpSrc) (d : FpDst) :
    RuleKeeps p (arith2 f o a b d s) := ruleKeeps_requireFpAligned (arith_keeps h ..)

theorem withStatus_keeps {e : Effect} (h : e.Keeps p) (st : BitVec 4) : (withStatus st e).Keeps p := by
  cases e with
  | done u => exact Live.setAs h st
  | late u f =>
    change Live p (if _ then _ else _)
    split
    · exact Live.setAs h st
    · exact h
  | doneCheck u | restored u c | early f => exact h

theorem ruleRem_keeps (h : Live p s) (f : Fmt) (a b : FpSrc) (d : FpDst) : RuleKeeps p (ruleRem f a b d s) := by
  refine ⟨fun e he => ?_⟩
  obtain ⟨x, hx, rfl⟩ := result_map_ok he
  have hx := (arith2_keeps h f _ a b d).effect x hx
  cases remStatusOf s.params.remIsIeee (toArg (fetch f s a)) (toArg (fetch f s b)) with
  | none => exact hx
  | some v => exact withStatus_keeps hx v

theorem unordered_keeps (h : Live p s) (sig : Bool) : (unordered sig s).Keeps p := by
  unfold unordered
  split
  · split
    · exact next4_keeps ((h.setAcFlag _).setCc _)
    · trivial
  · exact next4_keeps (h.setCc _)

theorem ruleCompare_keeps (h : Live p s) (f : Fmt) (ordered : Bool) (a b : FpSrc) :
    RuleKeeps p (ruleCompare f ordered a b s) := by
  refine ruleKeeps_requireFpAligned (ruleKeeps_checkOperands (ruleKeeps_ok ?_))
  split
  · exact unordered_keeps h _
  · exact next4_keeps (h.setCc _)

theorem ruleClass_keeps (h : Live p s) (f : Fmt) (a : FpSrc) : RuleKeeps p (ruleClass f a s) := by
  refine ruleKeeps_requireFpAligned (ruleKeeps_ok ?_)
  split
  · exact next4_keeps (h.setAs _)
  · exact next4_keeps ((h.setAs _).drawn _)

theorem setInteger_keeps (h : Live p s) (wide : Bool) (dst : Reg) (v : BitVec 64) :
    Live p (setInteger wide dst v s) := by
  cases wide
  · exact h.setReg _ _
  · exact h.setRegLong _ _

theorem intOverflow_keeps (h : Live p s) (wide : Bool) (dst : Reg) (n : Option Int) :
    (intOverflow wide dst n s).Keeps p := by
  have hs : Live p (match n with
      | some n => setInteger wide dst (intOverflowResult s.params wide n) s
      | none => drawn (setInteger wide dst (freeAt s 1 ++ freeAt s 0) s) 2) := by
    cases n with
    | some n => exact setInteger_keeps h ..
    | none => exact (setInteger_keeps h ..).drawn _
  unfold intOverflow
  dsimp only
  split
  · exact next4_keeps (hs.setAcFlag _)
  · exact advance_keeps hs

theorem convertNumber_keeps (h : Live p s) (wide : Bool) (dst : Reg) (v : Rat) (n : Int) :
    (convertNumber wide dst v n s).Keeps p := by
  have hs : Live p (setInteger wide dst (BitVec.ofInt 64 n) s) := setInteger_keeps h ..
  unfold convertNumber
  dsimp only
  split
  · split
    · exact next4_keeps hs
    · split
      · exact next4_keeps (hs.setAcFlag _)
      · exact advance_keeps hs
  · exact intOverflow_keeps h ..

theorem ruleCvt_keeps (h : Live p s) (wide : Bool) (m : RoundMode) (a : FpSrc) (d : Reg) :
    RuleKeeps p (ruleCvt wide m a d s) := by
  refine ruleKeeps_checkOperands (ruleKeeps_ok ?_)
  cases toArg (fetch .real s a) with
  | zero neg => exact next4_keeps (setInteger_keeps h ..)
  | num v => exact convertNumber_keeps h ..
  | inf neg => exact intOverflow_keeps h ..
  | nan =>
    dsimp only
    split
    · exact next4_keeps ((setInteger_keeps h ..).setAcFlag _)
    · trivial

/-! ### Integers, loads and stores -/

theorem foldl_setReg_keeps (src : Src) (s0 : State) (dst : Reg) : ∀ (l : List Nat) {t : State}, Live p t →
    Live p (l.foldl (fun t k => setReg t (dst + BitVec.ofNat 5 k) (srcWord s0 src k)) t)
  | [], _, h => h
  | _ :: l, _, h => foldl_setReg_keeps src s0 dst l (h.setReg _ _)

theorem moveWords_keeps (h : Live p s) (src : Src) (dst : Reg) (n : Nat) : Live p (moveWords s src dst n) :=
  foldl_setReg_keeps src s dst _ (h.drawn _)

theorem ruleEdiv_keeps (h : Live p s) (a b : Src) (d : Reg) : RuleKeeps p (ruleEdiv a b d s) := by
  unfold ruleEdiv
  dsimp only
  split
  · exact ruleKeeps_ok trivial
  · exact ruleKeeps_next4 (((h.drawn _).setReg _ _).setReg _ _)

theorem loadRegs_keeps : ∀ (n : Nat) (a : Word) (r : Reg) {s : State}, Live p s → Live p (loadRegs n a r s)
  | 0, _, _, _, h => h
  | n + 1, a, r, _, h => loadRegs_keeps n (a + 4#32) (r + 1#5) ((h.readWord _ a).setReg _ _)

theorem ruleLoad_keeps (h : Live p s) (n align : Nat) (a : Addr) (d : Reg) : RuleKeeps p (ruleLoad n align a d s) := by
  unfold ruleLoad
  dsimp only
  split
  · exact ruleKeeps_error _
  · exact ruleKeeps_ok (nextMem_keeps (loadRegs_keeps n _ d h) a)

/-- A data access that is allowed starts below the reserved space (R82, R89). -/
theorem checkData_ok {q : DataAlign} {align n : Nat} {a : Word} {u : Unit} (e : checkData q align n a = .ok u) :
    a.toNat < 0xFF000000 := by
  have below : isReserved a = false → a.toNat < 0xFF000000 := by
    intro h
    simpa [isReserved_eq] using h
  cases q with
  | refuse => exact below (checkAccess_ok (n := align) e).2
  | split =>
    unfold checkData at e
    dsimp only at e
    split at e
    · cases e
    · rename_i hc
      exact below (by simp_all)

theorem ruleStore_keeps (h : Live p s) {n : Nat} (hn : n ≤ 4) (align : Nat) (r : Reg) (a : Addr) :
    RuleKeeps p (ruleStore n align r a s) := by
  unfold ruleStore
  dsimp only
  split
  · exact ruleKeeps_error _
  · rename_i hc
    have hb := checkData_ok hc
    have hlen : (regsFrom s r n).length = n := by simp only [regsFrom, List.length_map, List.length_range]
    exact ruleKeeps_ok (nextMem_keeps (Live.putWords _ h (by omega)) a)

theorem syncRead_keeps (h : Live p s) {a : Word} {q : Word × State} (e : syncRead s a = .ok q) : Live p q.2 := by
  unfold syncRead at e
  split at e
  · cases e
    exact h
  · split at e
    · cases e
    · cases e
      exact h.readWord _ a

theorem ruleSynld_keeps (h : Live p s) (a : Src) (d : Reg) : RuleKeeps p (ruleSynld a d s) := by
  unfold ruleSynld
  split
  · exact ruleKeeps_error _
  · rename_i q hq
    exact ruleKeeps_next4 (((syncRead_keeps h hq).setReg _ _).setCc _)

theorem ruleSynmov_keeps (h : Live p s) (d a : Src) : RuleKeeps p (ruleSynmov d a s) := by
  unfold ruleSynmov
  dsimp only
  split
  · exact ruleKeeps_error _
  · rename_i q hq
    have l := syncRead_keeps h hq
    split
    · exact ruleKeeps_next4 (Live.setCc (l.congr) _)
    · split
      · exact ruleKeeps_error _
      · rename_i u hu
        exact ruleKeeps_next4 ((l.storeWord hu).setCc _)

/-! ### Control registers -/

theorem modifyPc_keeps (h : Live p s) (pc : Word) : Live p (modifyPc pc s) := by
  unfold modifyPc
  split
  · exact h.congr
  · split
    · exact (h.withDelay (Nat.zero_le 5)).congr
    · exact (h.withDelay (n := Config.modpcTraceDelay.val + 1) (by omega)).congr

theorem ruleModpc_keeps (h : Live p s) (m : Src) (d : Reg) : RuleKeeps p (ruleModpc m d s) := by
  unfold ruleModpc
  dsimp only
  split
  · exact ruleKeeps_next4 (h.setReg _ _)
  · split
    · exact ruleKeeps_ok trivial
    · split
      · exact ruleKeeps_error _
      · refine ruleKeeps_ok ?_
        have l := Live.withIp ((modifyPc_keeps h (maskedUpdate s.pc (srcValue s m) (getReg s d))).setReg d s.pc)
          (isCodeAddress_add h.inv.code (b := 4#32) rfl)
        split <;> exact l

theorem ruleModtc_keeps (h : Live p s) (m a : Src) (d : Reg) : RuleKeeps p (ruleModtc m a d s) :=
  ruleKeeps_next4 ((h.withTc (tcReserved_modtc h.inv.trace)).setReg _ _)

theorem ruleModac_keeps (h : Live p s) (m a : Src) (d : Reg) : RuleKeeps p (ruleModac m a d s) := by
  have l : Live p { s with ac := maskedUpdate s.ac (srcValue s m) (srcValue s a) } := h.congr
  exact ruleKeeps_next4 (l.setReg _ _)

theorem ruleFaultIf_keeps (h : Live p s) (m : BitVec 3) : RuleKeeps p (ruleFaultIf m s) := by
  refine ruleKeeps_ok ?_
  split <;> exact next4_keeps h

theorem ruleMark_keeps (h : Live p s) (c : Bool) :
    RuleKeeps p (.ok (next4 (if c then signal .breakpoint s else s))) := by
  refine ruleKeeps_next4 ?_
  split
  · exact h.signal _
  · exact h

/-! ### Branches, calls and returns -/

theorem isCodeAddress_ctrlTarget (h : Live p s) (t : CtrlDisp) : isCodeAddress (ctrlTarget s t) :=
  isCodeAddress_add h.inv.code (isCodeAddress_ctrlOffset t)

theorem branchTo_keeps (h : Live p s) {a : Word} (ha : isCodeAddress a) : (branchTo a s).Keeps p :=
  (h.withIp ha).signalIfEnabled _

theorem ruleBranchIf_keeps (h : Live p s) (m : BitVec 3) (t : CtrlDisp) : RuleKeeps p (ruleBranchIf m t s) := by
  refine ruleKeeps_ok ?_
  split
  · exact branchTo_keeps h (isCodeAddress_ctrlTarget h t)
  · exact next4_keeps h

theorem linkEvent_keeps (h : Live p s) : Live p (linkEvent s) := by
  unfold linkEvent
  split
  · exact (h.setReg _ _).signal _
  · exact h

theorem ruleBal_keeps (h : Live p s) (t : CtrlDisp) : RuleKeeps p (ruleBal t s) :=
  ruleKeeps_ok ((linkEvent_keeps (h.setReg _ _)).withIp (isCodeAddress_ctrlTarget h t))

theorem ruleBalx_keeps (h : Live p s) (a : Addr) (d : Reg) : RuleKeeps p (ruleBalx a d s) :=
  ruleKeeps_ok ((linkEvent_keeps (h.setReg _ _)).withIp (isCodeAddress_wordAligned _))

theorem ruleCall_keeps (h : Live p s) (t : CtrlDisp) : RuleKeeps p (ruleCall t s) :=
  ruleKeeps_bind fun _ ha => ruleKeeps_ok (h.callFrom ha)

theorem ruleCallx_keeps (h : Live p s) (a : Addr) : RuleKeeps p (ruleCallx a s) :=
  ruleKeeps_bind fun _ ha => ruleKeeps_ok (h.callFrom ha)

theorem callEntry_keeps (h : Live p s) (w : Word) : RuleKeeps p (callEntry w s) := by
  unfold callEntry
  split
  · exact ruleKeeps_bind fun _ ha => ruleKeeps_ok (h.callFrom ha)
  · split
    · exact ruleKeeps_bind fun _ ha => ruleKeeps_ok ((h.callFrom ha).signalIfEnabled _)
    · exact ruleKeeps_bind fun _ hw => ruleKeeps_bind fun _ ha =>
        ruleKeeps_ok (((((h.loadEntry hw).setTe _).setEm _).callFrom ha).signalIfEnabled _)
  · exact ruleKeeps_error _

theorem ruleCalls_keeps (h : Live p s) (t : Src) : RuleKeeps p (ruleCalls t s) := by
  unfold ruleCalls
  dsimp only
  split
  · exact ruleKeeps_ok trivial
  · exact ruleKeeps_bind fun _ ha => callEntry_keeps (h.loadEntry ha) _

theorem returnEvents_keep (h : Live p s) (a : Word) : Live p (retOwnEvents a s) :=
  (h.signalIfEnabled _).commonEvents a

theorem restorePc_keeps {t : State} (h : Live p s) {pc : Word} (e : restorePc pc s = .ok t) : Live p t := by
  unfold restorePc at e
  split at e
  · cases e
  · cases e
    exact h.setPc pc

theorem faultReturn_keeps (h : Live p s) : RuleKeeps p (faultReturn s) := by
  refine ruleKeeps_bind fun q hq => ?_
  have l := h.loadWord hq
  dsimp only
  split
  · refine ruleKeeps_bind fun r hr => ruleKeeps_bind fun v hv => ruleKeeps_bind fun u hu => ruleKeeps_ok ?_
    exact (restorePc_keeps (returnEvents_keep (l.loadWord hr) s.ip).congr hv).returnOp hu
  · refine ruleKeeps_bind fun u hu => ruleKeeps_ok ?_
    have l2 : Live p { q.2 with ac := q.1 } := l.congr
    exact (l2.returnOp hu).signalIfEnabled _

theorem interruptReturn_keeps (h : Live p s) : RuleKeeps p (interruptReturn s) := by
  unfold interruptReturn
  split
  · exact ruleKeeps_error _
  · refine ruleKeeps_bind fun q hq => ruleKeeps_bind fun r hr => ruleKeeps_bind fun v hv => ruleKeeps_bind fun u hu =>
      ruleKeeps_ok ?_
    exact (restorePc_keeps (returnEvents_keep ((h.loadWord hq).loadWord hr) s.ip).congr hv).returnOp hu

theorem supervisorReturn_keeps (h : Live p s) (te : Bool) : RuleKeeps p (supervisorReturn te s) := by
  unfold supervisorReturn
  split
  · exact ruleKeeps_error _
  · refine ruleKeeps_bind fun u hu => ruleKeeps_ok ?_
    exact ((((h.setTe te).setEm false).returnOp hu).signalIfEnabled _).signalIfEnabled _

theorem ruleRet_keeps (h : Live p s) : RuleKeeps p (ruleRet s) := by
  unfold ruleRet
  split
  · exact ruleKeeps_bind fun _ hu => ruleKeeps_ok ((h.returnOp hu).signalIfEnabled _)
  · exact faultReturn_keeps h
  · exact supervisorReturn_keeps h false
  · exact supervisorReturn_keeps h true
  · exact interruptReturn_keeps h
  · exact ruleKeeps_error _

theorem ruleFlushreg_keeps (h : Live p s) : RuleKeeps p (ruleFlushreg s) :=
  ruleKeeps_bind fun _ hu => ruleKeeps_next4 ((h.spillAll hu).withOlder (Nat.zero_le 3) (by simp))

end

/-- Each instruction ends as `finish` has it, of a rule that keeps the invariant. -/
theorem exec_rule {p : Params} {s : State} (h : Live p s) (i : Instr) :
    ∃ r, exec i s = finish s r ∧ RuleKeeps p r :=
  match i with
  | .cvtir _ _ => ⟨_, rfl, ruleKeeps_ok (storeOutcome_keeps h ..)⟩
  | .cvtilr _ _ => ⟨_, rfl, ruleKeeps_requireFpAligned (ruleKeeps_ok (storeOutcome_keeps h ..))⟩
  | .cvtri _ _ | .cvtzri _ _ => ⟨_, rfl, ruleCvt_keeps h ..⟩
  | .cvtril _ _ | .cvtzril _ _ => ⟨_, rfl, ruleKeeps_requireFpAligned (ruleCvt_keeps h ..)⟩
  | .scaler _ _ _ | .scalerl _ _ _ | .sqrtr _ _ | .expr _ _ | .logbnr _ _ | .roundr _ _ | .sinr _ _ | .cosr _ _
  | .tanr _ _ | .sqrtrl _ _ | .exprl _ _ | .logbnrl _ _ | .roundrl _ _ | .sinrl _ _ | .cosrl _ _ | .tanrl _ _
  | .movr _ _ | .movrl _ _ => ⟨_, rfl, arith1_keeps h ..⟩
  | .atanr _ _ _ | .logepr _ _ _ | .logr _ _ _ | .atanrl _ _ _ | .logeprl _ _ _ | .logrl _ _ _ | .divr _ _ _
  | .mulr _ _ _ | .subr _ _ _ | .addr _ _ _ | .divrl _ _ _ | .mulrl _ _ _ | .subrl _ _ _ | .addrl _ _ _ =>
    ⟨_, rfl, arith2_keeps h ..⟩
  | .remr _ _ _ | .remrl _ _ _ => ⟨_, rfl, ruleRem_keeps h ..⟩
  | .cmpor _ _ | .cmpr _ _ | .cmporl _ _ | .cmprl _ _ => ⟨_, rfl, ruleCompare_keeps h ..⟩
  | .classr _ | .classrl _ => ⟨_, rfl, ruleClass_keeps h ..⟩
  | .movre _ _ | .cpysre _ _ _ | .cpyrsre _ _ _ =>
    ⟨_, rfl, ruleKeeps_requireFpAligned (ruleKeeps_ok (storeDone_keeps h ..))⟩
  | .alterbit _ _ _ | .addo _ _ _ | .mov _ _ => ⟨_, rfl, ruleKeeps_next4 (h.setReg _ _)⟩
  | .chkbit _ _ => ⟨_, rfl, ruleKeeps_next4 (h.setCc _)⟩
  | .movl _ _ | .movt _ _ => ⟨_, rfl, ruleKeeps_requireAligned (ruleKeeps_next4 (moveWords_keeps h ..))⟩
  | .ediv _ _ _ => ⟨_, rfl, ruleKeeps_requireAligned (ruleEdiv_keeps h ..)⟩
  | .synmov _ _ => ⟨_, rfl, ruleSynmov_keeps h ..⟩
  | .synld _ _ => ⟨_, rfl, ruleSynld_keeps h ..⟩
  | .modac _ _ _ => ⟨_, rfl, ruleModac_keeps h ..⟩
  | .modtc _ _ _ => ⟨_, rfl, ruleModtc_keeps h ..⟩
  | .modpc _ _ _ => ⟨_, rfl, ruleModpc_keeps h ..⟩
  | .calls _ => ⟨_, rfl, ruleCalls_keeps h _⟩
  | .mark | .fmark => ⟨_, rfl, ruleMark_keeps h _⟩
  | .flushreg => ⟨_, rfl, ruleFlushreg_keeps h⟩
  | .syncf => ⟨_, rfl, ruleKeeps_next4 h⟩
  | .b t => ⟨_, rfl, ruleKeeps_ok (branchTo_keeps h (isCodeAddress_ctrlTarget h t))⟩
  | .bx _ => ⟨_, rfl, ruleKeeps_ok (branchTo_keeps h (isCodeAddress_wordAligned _))⟩
  | .call _ => ⟨_, rfl, ruleCall_keeps h _⟩
  | .callx _ => ⟨_, rfl, ruleCallx_keeps h _⟩
  | .ret => ⟨_, rfl, ruleRet_keeps h⟩
  | .bal _ => ⟨_, rfl, ruleBal_keeps h _⟩
  | .balx _ _ => ⟨_, rfl, ruleBalx_keeps h ..⟩
  | .bno _ | .bg _ | .be _ | .bge _ | .bl _ | .bne _ | .ble _ | .bo _ => ⟨_, rfl, ruleBranchIf_keeps h ..⟩
  | .faultno | .faultg | .faulte | .faultge | .faultl | .faultne | .faultle | .faulto =>
    ⟨_, rfl, ruleFaultIf_keeps h _⟩
  | .ld _ _ => ⟨_, rfl, ruleLoad_keeps h ..⟩
  | .ldl _ _ | .ldt _ _ => ⟨_, rfl, ruleKeeps_requireAligned (ruleLoad_keeps h ..)⟩
  | .st _ _ => ⟨_, rfl, ruleStore_keeps h (by decide) ..⟩
  | .stl _ _ | .stt _ _ => ⟨_, rfl, ruleKeeps_requireAligned (ruleStore_keeps h (by decide) ..)⟩

/-! ### The stages before the instruction -/

section
variable {p : Params} {s t : State}

theorem servicePins_keeps : ∀ {l : List Nat} {s t : State}, Live p s → servicePins l s = .ok t → Live p t
  | [], _, _, h, e => by cases e; exact h
  | k :: rest, s, t, h, e => by
    unfold servicePins at e
    dsimp only at e
    have l : Live p { s with pinLatch := s.pinLatch &&& ~~~(1#4 <<< k) } := h.congr
    split at e
    · split at e
      · exact servicePins_keeps l e
      · obtain ⟨u, hu, e⟩ := result_bind_ok e
        exact servicePins_keeps (l.receiveInterrupt hu) e
    · exact servicePins_keeps h e

theorem fetchWord_keeps (h : Live p s) {a : Word} {q : Word × State} (e : fetchWord s a = .ok q) : Live p q.2 := by
  unfold fetchWord at e
  split at e
  · cases e
  · split at e
    · cases e
    · cases e
      exact (h.markExecuted _).readWord _ a

theorem fetchInstr_keeps (h : Live p s) {q : Word × Word × State} (e : fetchInstr s = .ok q) : Live p q.2.2 := by
  obtain ⟨r, hr, e⟩ := result_bind_ok e
  have l := fetchWord_keeps h hr
  dsimp only at e
  split at e
  · obtain ⟨r2, hr2, e⟩ := result_bind_ok e
    cases e
    exact fetchWord_keeps l hr2
  · cases e
    exact l

/-- What the stages before the instruction come to keeps the invariant. -/
def Prepared.Keeps (p : Params) (x : Prepared) : Prop :=
  match x with
  | .ended s => Inv s ∧ s.params = p
  | .run _ s => Live p s

/-- The prereturn-trace check of a `ret` (R545): the step has ended in a fault, or goes on. -/
theorem prereturnCheck_keeps (h : Live p s) {q : Bool × State} (e : prereturnCheck s = .ok q) :
    (q.1 = true → Inv q.2 ∧ q.2.params = p) ∧ (q.1 = false → Live p q.2) := by
  unfold prereturnCheck at e
  dsimp only at e
  have l : Live p (signal .prereturn (setReg s pfpReg (setBit (getReg s pfpReg) 3 false))) :=
    (h.setReg _ _).signal _
  split at e
  · split at e
    · obtain ⟨u, hu, rfl⟩ := result_map_ok e
      exact ⟨fun _ => l.traceFault hu, fun c => nomatch c⟩
    · cases e
      exact ⟨fun c => (nomatch c), fun _ => l⟩
  · cases e
    exact ⟨fun c => (nomatch c), fun _ => h⟩

theorem fetchStage_keeps (h : Live p s) {x : Prepared} (e : fetchStage s = .ok x) : x.Keeps p := by
  obtain ⟨q, hq, e⟩ := result_bind_ok e
  have l := fetchInstr_keeps h hq
  dsimp only at e
  split at e
  · cases e
  · cases e
  · obtain ⟨u, hu, e⟩ := result_bind_ok e
    cases e
    exact l.deliverFault hu
  · split at e
    · obtain ⟨⟨b, u⟩, hu, e⟩ := result_bind_ok e
      have hk := prereturnCheck_keeps l hu
      cases b <;> cases e
      · exact hk.2 rfl
      · exact hk.1 rfl
    · cases e
      exact l

theorem traceStage_keeps (h : Live p s) {x : Prepared} (e : traceStage s = .ok x) : x.Keeps p := by
  unfold traceStage at e
  split at e
  · split at e
    · obtain ⟨u, hu, rfl⟩ := result_map_ok e
      exact h.traceFault hu
    · exact fetchStage_keeps h.clearEvents e
  · exact fetchStage_keeps h e

theorem prepare_keeps (h : Live p s) {x : Prepared} (e : prepare s = .ok x) : x.Keeps p := by
  obtain ⟨u, hu, e⟩ := result_bind_ok e
  exact traceStage_keeps (servicePins_keeps h hu) e

end

/-! ### The first stage of initialization -/

/-- Loading the pointers changes the cached pointers, and may draw free values (R571, R579). -/
theorem loadPointers_ok {sat prcb : Word} {s t : State} (e : loadPointers sat prcb s = .ok t) :
    ∃ satBase prcbBase sysprocBase traceBase intTable intStack faultTable draws, t = { s with
      satBase := satBase, prcbBase := prcbBase, sysprocBase := sysprocBase, traceBase := traceBase
      intTable := intTable, intStack := intStack, faultTable := faultTable, draws := draws } := by
  unfold loadPointers at e
  obtain ⟨_, _, e⟩ := result_bind_ok e
  obtain ⟨_, _, e⟩ := result_bind_ok e
  obtain ⟨⟨satBase, s1⟩, h1, e⟩ := result_bind_ok e
  obtain ⟨_, _, e⟩ := result_bind_ok e
  obtain ⟨⟨sysproc, s2⟩, h2, e⟩ := result_bind_ok e
  obtain ⟨⟨trace, s3⟩, h3, e⟩ := result_bind_ok e
  obtain ⟨⟨table, s4⟩, h4, e⟩ := result_bind_ok e
  obtain ⟨⟨stack, s5⟩, h5, e⟩ := result_bind_ok e
  obtain ⟨⟨faults, s6⟩, h6, e⟩ := result_bind_ok e
  obtain ⟨-, -, -, ⟨k1, e1⟩, -⟩ := loadEntry_ok h1
  obtain ⟨-, -, -, ⟨k2, e2⟩, -⟩ := loadEntry_ok h2
  obtain ⟨-, -, -, ⟨k3, e3⟩, -⟩ := loadEntry_ok h3
  obtain ⟨-, -, -, ⟨k4, e4⟩, -⟩ := loadEntry_ok h4
  obtain ⟨-, -, -, ⟨k5, e5⟩, -⟩ := loadEntry_ok h5
  obtain ⟨-, -, -, ⟨k6, e6⟩, -⟩ := loadEntry_ok h6
  have hd : ∃ k, s6 = drawn { s with prcbBase := prcb } k :=
    ⟨k1 + k2 + k3 + k4 + k5 + k6, by
      simp only at e1 e2 e3 e4 e5 e6
      rw [e6, e5, e4, e3, e2, e1]
      simp only [drawn_drawn]⟩
  obtain ⟨k, hk⟩ := hd
  refine ⟨satBase, prcb, sysproc, trace, table, stack, faults, s.draws + k, ?_⟩
  rw [← Except.ok.inj e, hk]
  rfl

/-- The first stage of initialization stops the processor with FAIL asserted, or starts it at a code address with no
word executed (R571, R572). -/
theorem firstStage_keeps {s t : State} (h : Inv s) (hs : s.status = .reset) (e : firstStage s = .ok t) :
    Inv t ∧ t.params = s.params := by
  have hfail : s.failPin = false := by
    have := h.fail
    rw [hs] at this
    simpa using this
  unfold firstStage at e
  split at e
  · cases e
    exact ⟨{ h with fail := by simp }, rfl⟩
  · obtain ⟨u, hu, e⟩ := result_bind_ok e
    obtain ⟨_, _, _, _, _, _, _, _, rfl⟩ := loadPointers_ok hu
    cases e
    refine ⟨?_, ?_⟩
    · exact {
        memory := by simpa [forgetExecuted] using h.memory, cached := by simpa [forgetExecuted] using h.cached
        frames := by simpa [forgetExecuted] using h.frames, code := wordAligned_idem _
        lastCode := by simpa [forgetExecuted] using h.lastCode, trace := by simpa [forgetExecuted] using h.trace
        fail := by simp [forgetExecuted, hfail], delay := by simpa [forgetExecuted] using h.delay
        executedRising := rfl, staleRising := rfl, staleExecuted := fun _ ha => ha }
    · simp [forgetExecuted]

end Sys2Proof.Machine

namespace Sys2Proof.Proofs
open Sys2Proof.Machine

/-- Settles O8: the first stage of initialization, the stages before an instruction and the rule of every instruction
keep the invariant. -/
theorem stepKeepsInv : Obligations.StepKeepsInv := by
  unfold Obligations.StepKeepsInv
  intro s t h e
  unfold step at e
  split at e
  case h_1 hs => exact firstStage_keeps h hs (toOutcome_next e)
  case h_2 hs => cases e
  case h_3 hs => cases e
  case h_4 hs =>
    have live : Live s.params s := ⟨h, hs, rfl⟩
    split at e
    · cases toOutcome_next e
    · rename_i u hu
      cases e
      exact prepare_keeps live hu
    · rename_i i u hu
      have hl : Live s.params u := prepare_keeps live hu
      obtain ⟨r, hr, hk⟩ := exec_rule hl i
      rw [hr] at e
      exact finish_keeps hl hk e

end Sys2Proof.Proofs

end

section
/-! PROOFS. The call operation in the words of the claims (R382 to R384), and `call` and `callx` (R385, R386). -/
namespace Sys2Proof.Claims
open Sys2Proof.Machine

/-! ### The system registers -/

theorem SameSystem.refl (s : State) : SameSystem s s := by constructor <;> rfl

theorem SameSystem.trans {s t u : State} (h : SameSystem s t) (k : SameSystem t u) : SameSystem s u where
  bp0 := k.bp0.trans h.bp0
  bp1 := k.bp1.trans h.bp1
  icr := k.icr.trans h.icr
  pinLatch := k.pinLatch.trans h.pinLatch
  intrVector := k.intrVector.trans h.intrVector
  satBase := k.satBase.trans h.satBase
  prcbBase := k.prcbBase.trans h.prcbBase
  sysprocBase := k.sysprocBase.trans h.sysprocBase
  traceBase := k.traceBase.trans h.traceBase
  intTable := k.intTable.trans h.intTable
  intStack := k.intStack.trans h.intStack
  faultTable := k.faultTable.trans h.faultTable
  status := k.status.trans h.status
  failPin := k.failPin.trans h.failPin
  params := k.params.trans h.params

/-- What changes none of the system registers, field by field. -/
theorem SameSystem.of_fields {s u : State} (bp0 : u.bp0 = s.bp0 := by simp) (bp1 : u.bp1 = s.bp1 := by simp)
    (icr : u.icr = s.icr := by simp) (pinLatch : u.pinLatch = s.pinLatch := by simp)
    (intrVector : u.intrVector = s.intrVector := by simp) (satBase : u.satBase = s.satBase := by simp)
    (prcbBase : u.prcbBase = s.prcbBase := by simp) (sysprocBase : u.sysprocBase = s.sysprocBase := by simp)
    (traceBase : u.traceBase = s.traceBase := by simp) (intTable : u.intTable = s.intTable := by simp)
    (intStack : u.intStack = s.intStack := by simp) (faultTable : u.faultTable = s.faultTable := by simp)
    (status : u.status = s.status := by simp) (failPin : u.failPin = s.failPin := by simp)
    (params : u.params = s.params := by simp) : SameSystem s u :=
  ⟨bp0, bp1, icr, pinLatch, intrVector, satBase, prcbBase, sysprocBase, traceBase, intTable, intStack, faultTable,
    status, failPin, params⟩

theorem sameSystem_signalIfEnabled (e : TraceEvent) (s : State) : SameSystem s (signalIfEnabled e s) :=
  SameSystem.of_fields

/-! ### Frames -/

theorem frameAbove_eq (b : Word) : frameAbove b = nextFrame b := rfl

theorem frameFits_iff (b : Word) : frameFits b = true ↔ roomAt b := by
  unfold frameFits
  rw [Bool.and_eq_true, decide_eq_true_eq, decide_eq_true_eq]
  exact Iff.rfl

/-- Where there is room above `b`, the next frame starts at a 64-byte boundary from `b` on. -/
theorem frameAbove_toNat {b : Word} (h : b.toNat + 63 < 2 ^ 32) :
    (frameAbove b).toNat = b.toNat + 63 - (b.toNat + 63) % 64 := by
  rw [frameAbove_eq, nextFrame, frameAligned_toNat, BitVec.toNat_add, BitVec.toNat_ofNat]
  omega

/-! ### The call operation -/

/-- An event changes PC and TC as `EventOnly` says. -/
theorem eventOnly_signalIfEnabled (e : TraceEvent) (s : State) : EventOnly e s (signalIfEnabled e s) :=
  signalIfEnabled_bits e s

/-- What the call operation comes to, called in state `c`, whatever the register cache: the new frame, the call event,
and nothing of the system registers. -/
structure Entered (target b : Word) (status : BitVec 3) (c u : State) : Prop where
  called : Called target b status c u
  event : EventOnly .call c u
  seen : seenTe u = seenTe c
  system : SameSystem c u

/-- An event changes PC and TC as `EventOnly` says, and not whether tracing is seen enabled. -/
theorem seenTe_of_event {e : TraceEvent} {s u : State} (h : EventOnly e s u) (hold : u.teHold = s.teHold)
    (old : u.teOld = s.teOld) : seenTe u = seenTe s := by
  have := h.2 0
  unfold seenTe pcTe
  rw [hold, old, this]
  simp

theorem entered_calledFrom {target b : Word} {status : BitVec 3} {c a : State} (h : allocSet c = .ok a) :
    Entered target b status c (calledFrom target b status c a) := by
  obtain ⟨cur, older, mem, stale, rfl, -⟩ := allocSet_ok h
  obtain ⟨rfp, rsp, rpfp, rest⟩ := calledFrom_regs target b status c
    { c with cur := cur, older := older, mem := mem, stale := stale, draws := c.draws + 16 }
  obtain ⟨pf, ps, pt, pz⟩ := newPfp_fields (curFrame c) (traceMode c .call) status
  have event : EventOnly .call c (calledFrom target b status c { c with
      cur := cur, older := older, mem := mem, stale := stale, draws := c.draws + 16 }) :=
    eventOnly_signalIfEnabled .call { setReg (setReg (setReg
      { c with cur := cur, older := older, mem := mem, stale := stale, draws := c.draws + 16 }
      pfpReg (newPfp (curFrame c) (traceMode c .call) status)) spReg (nextFrame b + 64#32)) fpReg (nextFrame b) with
      ip := wordAligned target }
  refine ⟨⟨?_, rfp, rsp, ?_, ?_, ?_, ?_, ?_, ?_, ?_⟩, event, ?_, ?_⟩
  · simp only [calledFrom, signalIfEnabled_ip]
    rfl
  · rw [rpfp]
    exact pf.trans (frameAligned_idem _)
  · rw [rpfp]
    exact ps
  · rw [rpfp]
    exact pt
  · rw [rpfp]
    exact pz
  · intro r hr hne
    refine (rest r hne ?_ ?_).trans (getReg_global (by rfl) hr)
    · rintro rfl
      exact absurd hr (by decide)
    · rintro rfl
      exact absurd hr (by decide)
  · simp [calledFrom]
  · simp [calledFrom]
  · exact seenTe_of_event event (by simp [calledFrom]) (by simp [calledFrom])
  · constructor <;> simp [calledFrom]

/-- A call with a register set free (R383, R384): memory does not change. -/
theorem callOp_room {target b : Word} {status : BitVec 3} {c : State} (hb : roomAt b) (ho : c.older.length ≤ 2) :
    ∃ u, callOp target b status c = .ok u ∧ Entered target b status c u ∧ Pushed c u ∧ u.mem = c.mem := by
  obtain ⟨cur, ha⟩ := allocSet_room ho
  refine ⟨_, callOp_of ((frameFits_iff b).mpr hb) ha, entered_calledFrom ha, ?_, ?_⟩
  · simp only [Pushed, calledFrom, signalIfEnabled_older, setReg_older]
    rfl
  · simp [calledFrom]

/-- A call with three callers' sets on the chip (R383, R384): the oldest is written to its save area. -/
theorem callOp_full {target b : Word} {status : BitVec 3} {c : State} {e f g : RegSet} (hb : roomAt b)
    (ho : c.older = [e, f, g]) (hm : Memory.wf c.mem = true) (hg : frameAligned g.addr = g.addr)
    (hr : isReserved g.addr = false) :
    ∃ u, callOp target b status c = .ok u ∧ Entered target b status c u ∧ Spilled c e f g nothing c u := by
  obtain ⟨cur, mem, stale, ha, -, hin, hout⟩ := allocSet_full ho hm hg hr
  refine ⟨_, callOp_of ((frameFits_iff b).mpr hb) ha, entered_calledFrom ha, ?_, ?_, ?_⟩
  · simp only [calledFrom, signalIfEnabled_older, setReg_older]
    rfl
  · intro i
    rw [← hin i]
    simp [wordAt, calledFrom]
  · intro x hx _
    rw [← hout x (by unfold bytesFrom at hx; omega)]
    simp [calledFrom]

theorem callOp_noRoom {target b : Word} {status : BitVec 3} {c : State} (hb : ¬ roomAt b) :
    callOp target b status c = .error (.refused .frameOverflow) := by
  unfold callOp
  rw [if_neg (mt (frameFits_iff b).mp hb)]

/-! ### The caller -/

/-- The state `c` in which a call operation starts has of `s` what `Called` looks at. -/
theorem Called.transfer {target b : Word} {status : BitVec 3} {s c u : State} (h : Called target b status c u)
    (globals : c.globals = s.globals) (fp : c.fp = s.fp) (ac : c.ac = s.ac) (tc : c.tc = s.tc) :
    Called target b status s u where
  ip := h.ip
  fp := h.fp
  sp := h.sp
  pfpFrame := by rw [h.pfpFrame, getReg_global globals (by decide)]
  pfpStatus := h.pfpStatus
  pfpTrace := by rw [h.pfpTrace, tc]
  pfpZero := h.pfpZero
  globals := fun r hr hne => (h.globals r hr hne).trans (getReg_global globals hr)
  fps := h.fps.trans fp
  ac := h.ac.trans ac

theorem setReg_ripReg_globals (s : State) (v : Word) : (setReg s ripReg v).globals = s.globals := rfl

/-- A call operation whose caller's r2 receives the return address (R384). -/
theorem Entered.fromRip {target b rip : Word} {status : BitVec 3} {s u : State}
    (h : Entered target b status (setReg s ripReg rip) u) : Entered target b status s u where
  called := h.called.transfer rfl (by simp) (by simp) (by simp)
  event := h.event
  seen := h.seen.trans (by simp [seenTe, pcTe])
  system := SameSystem.trans SameSystem.of_fields h.system

theorem Spilled.fromRip {rip : Word} {s u : State} {e f g : RegSet} {bytes : Nat → Prop} {c : State}
    (h : Spilled c e f g bytes (setReg s ripReg rip) u) : Spilled c e f g bytes s u where
  cache := by rw [h.cache, getReg_global (setReg_ripReg_globals s rip) (by decide)]
  saved := h.saved
  rest := h.rest

/-! ### `call` and `callx` -/

/-- The target of a CTRL instruction: a multiple of four from IP (R127). -/
theorem ctrlTarget_eq (s : State) (t : CtrlDisp) : ctrlTarget s t = s.ip + BitVec.ofInt 32 (4 * t.toInt) := by
  unfold ctrlTarget ctrlOffset
  rw [BitVec.signExtend, BitVec.toInt_append_zero]
  rfl

/-- The address a `call` or `callx` goes to, and the length of the instruction (R385, R386). -/
def CallOf (s : State) (i : Instr) (target len : Word) : Prop :=
  (∃ t, i = .call t ∧ target = s.ip + BitVec.ofInt 32 (4 * t.toInt) ∧ len = 4#32) ∨
    (∃ m, i = .callx m ∧ target = effectiveAddr s m ∧ len = memLength m)

/-- `call` and `callx` are a call operation from the caller's state with the return address in r2. -/
theorem exec_call {s : State} {i : Instr} {target len : Word} (h : CallOf s i target len) :
    exec i s = finish s ((callOp target (getReg s spReg) 0b000#3 (setReg s ripReg (s.ip + len))) >>=
      fun u => .ok (.done u)) := by
  obtain ⟨t, rfl, rfl, rfl⟩ | ⟨m, rfl, rfl, rfl⟩ := h
  · rw [← ctrlTarget_eq]
    rfl
  · rfl

theorem exec_call_noRoom {s : State} {i : Instr} {target len : Word} (hi : CallOf s i target len)
    (hb : ¬ roomAt (getReg s spReg)) : exec i s = .refused .frameOverflow := by
  rw [exec_call hi, callOp_noRoom hb]
  rfl

theorem exec_call_room {s : State} {i : Instr} {target len : Word} (hi : CallOf s i target len)
    (hb : roomAt (getReg s spReg)) (ho : s.older.length ≤ 2) :
    ∃ u, exec i s = .next (ended s.ip u) ∧ Called target (getReg s spReg) 0b000#3 s u ∧
      Pushed (setReg s ripReg (s.ip + len)) u ∧ EventOnly .call s u ∧ u.mem = s.mem ∧ SameSystem s u := by
  obtain ⟨u, hu, he, hp, hm⟩ := callOp_room (target := target) (status := 0b000#3)
    (c := setReg s ripReg (s.ip + len)) hb (by simpa using ho)
  refine ⟨u, ?_, he.fromRip.called, hp, he.fromRip.event, hm, he.fromRip.system⟩
  rw [exec_call hi, hu]
  exact finish_done s u

theorem exec_call_full {s : State} {i : Instr} {target len : Word} {e f g : RegSet} (hi : CallOf s i target len)
    (hb : roomAt (getReg s spReg)) (ho : s.older = [e, f, g]) (hm : Memory.wf s.mem = true)
    (hg : frameAligned g.addr = g.addr) (hr : isReserved g.addr = false) :
    ∃ u, exec i s = .next (ended s.ip u) ∧ Called target (getReg s spReg) 0b000#3 s u ∧
      Spilled (setReg s ripReg (s.ip + len)) e f g nothing s u ∧ EventOnly .call s u ∧ SameSystem s u := by
  obtain ⟨u, hu, he, hsp⟩ := callOp_full (target := target) (status := 0b000#3)
    (c := setReg s ripReg (s.ip + len)) hb (by simpa using ho) (by simpa using hm) hg hr
  refine ⟨u, ?_, he.fromRip.called, hsp.fromRip, he.fromRip.event, he.fromRip.system⟩
  rw [exec_call hi, hu]
  exact finish_done s u

end Sys2Proof.Claims

namespace Sys2Proof.Proofs
open Sys2Proof.Machine Sys2Proof.Claims

/-- Settles O25: `call` and `callx` are one call operation (`CallOf`), without room for the frame, with a register set
free, and with a full cache. -/
theorem localCalls : Obligations.LocalCalls := by
  unfold Obligations.LocalCalls
  refine ⟨fun s t m hb => ⟨?_, ?_⟩, fun s ho hb => ⟨fun t => ?_, fun m => ?_⟩, ?_⟩
  · exact exec_call_noRoom (.inl ⟨t, rfl, rfl, rfl⟩) hb
  · exact exec_call_noRoom (.inr ⟨m, rfl, rfl, rfl⟩) hb
  · exact exec_call_room (.inl ⟨t, rfl, rfl, rfl⟩) hb ho
  · exact exec_call_room (.inr ⟨m, rfl, rfl, rfl⟩) hb ho
  · intro s i target len e f g ho hm hb hg hr hi
    exact exec_call_full hi hb ho hm hg hr

end Sys2Proof.Proofs
end

section
/-! PROOFS. System calls, faults and interrupts up to their call operation: the state it starts from and the record
below its frame (R388, R480, R523), in the words of the claims. -/
namespace Sys2Proof.Claims
open Sys2Proof.Machine

/-! ### What an event leaves -/

theorem Called.afterEvent {target b : Word} {status : BitVec 3} {s u : State} (h : Called target b status s u)
    (e : TraceEvent) : Called target b status s (signalIfEnabled e u) where
  ip := by simpa using h.ip
  fp := by simpa using h.fp
  sp := by simpa using h.sp
  pfpFrame := by simpa using h.pfpFrame
  pfpStatus := by simpa using h.pfpStatus
  pfpTrace := by simpa using h.pfpTrace
  pfpZero := by simpa using h.pfpZero
  globals := by simpa using h.globals
  fps := by simpa using h.fps
  ac := by simpa using h.ac

theorem Spilled.afterEvent {c s u : State} {e f g : RegSet} {bytes : Nat → Prop} (h : Spilled c e f g bytes s u)
    (ev : TraceEvent) : Spilled c e f g bytes s (signalIfEnabled ev u) where
  cache := by simpa using h.cache
  saved := by simpa [wordAt] using h.saved
  rest := by simpa using h.rest

/-- The target of a call operation has its low two bits cleared, whoever clears them (R384). -/
theorem Called.unaligned {target b : Word} {status : BitVec 3} {s u : State}
    (h : Called (wordAligned target) b status s u) : Called target b status s u :=
  { h with ip := h.ip.trans (wordAligned_idem target) }

/-! ### Supervisor mode with the trace-enable flag of a table -/

/-- The state in which a supervisor procedure is entered from user mode: supervisor mode, and the trace-enable flag
`te` of the table (R388, R480). -/
def inSupervisor (te : Bool) (s : State) : State := setEm (setTe s te) true

theorem getBit_inSupervisor (te : Bool) (s : State) (i : Nat) :
    getBit (inSupervisor te s).pc i = if i = 1 then true else if i = 0 then te else getBit s.pc i := by
  have h : (inSupervisor te s).pc = setBit (setBit s.pc 0 te) 1 true := rfl
  rw [h, getBit_setBit, getBit_setBit]
  by_cases h1 : i = 1
  · simp [h1]
  · by_cases h0 : i = 0 <;> simp [h0, h1]

theorem setTe_setEm (te : Bool) (s : State) : setTe (setEm s true) te = inSupervisor te s := by
  have h : setBit (setBit s.pc 1 true) 0 te = setBit (setBit s.pc 0 te) 1 true := by
    apply getBit_ext
    intro i _
    simp only [getBit_setBit]
    by_cases h1 : i = 1
    · simp [h1]
    · by_cases h0 : i = 0 <;> simp [h0, h1]
  unfold inSupervisor setTe setEm setPc
  simp only [h]

theorem seenTe_inSupervisor (te : Bool) (s : State) : seenTe (inSupervisor te s) = te := by
  change getBit (inSupervisor te s).pc 0 = te
  rw [getBit_inSupervisor]
  simp

theorem sameSystem_inSupervisor (te : Bool) (s : State) : SameSystem s (inSupervisor te s) := by
  constructor <;> rfl

/-! ### Tables -/

/-- A readable entry of a table is loaded from memory. -/
theorem loadEntry_okEntry {s : State} {base o : Word} (h : okEntry s base o) :
    loadEntry s base o = .ok (wordAt s (base + o).toNat, s) := loadEntry_of h.1 h.2.1 h.2.2.1 h.2.2.2

/-! ### System calls (R388) -/

/-- The state after a call of `calls` and the supervisor event, where the entry is a supervisor procedure. -/
def afterCalls (sup : Bool) (u : State) : State := if sup then supervisorEvent u else u

/-- Two events one after the other: each under its own mode, the pending flag if tracing is seen enabled (R547). -/
theorem EventOnly.andThen {e1 : TraceEvent} {c u : State} (h : EventOnly e1 c u) (hs : seenTe u = seenTe c)
    (e2 : TraceEvent) :
    (∀ i, getBit (signalIfEnabled e2 u).tc i = (getBit c.tc i || (traceMode c e1 && i == 16 + modeBit e1) ||
      (traceMode c e2 && i == 16 + modeBit e2))) ∧
    (∀ i, getBit (signalIfEnabled e2 u).pc i =
      (getBit c.pc i || (seenTe c && (traceMode c e1 || traceMode c e2) && i == 10))) := by
  obtain ⟨htc, hpc⟩ := signalIfEnabled_bits e2 u
  have hmode : traceMode u e2 = traceMode c e2 := by
    refine (h.1 _).trans ?_
    have : (modeBit e2 == 16 + modeBit e1) = false := by
      rw [beq_eq_false_iff_ne]
      cases e1 <;> cases e2 <;> decide
    rw [this, Bool.and_false, Bool.or_false]
    rfl
  constructor
  · intro i
    rw [htc, h.1 i, hmode]
  · intro i
    rw [hpc, h.2 i, hmode, hs]
    cases getBit c.pc i <;> cases seenTe c <;> cases traceMode c e1 <;> simp

/-- What `calls` comes to where the table names a procedure: a call operation from the state `c`, the program's own or
in supervisor mode, and then the supervisor event of a supervisor procedure. -/
theorem ruleCalls_of {s : State} {x : Src} {entry w b : Word} {status : BitVec 3}
    (h : SystemEntry (srcValue s x) s entry w b status) :
    ∃ (c : State) (sup : Bool), (c = s ∨ c = inSupervisor (getBit w 0) s) ∧
      ruleCalls x s = (callOp (wordAligned entry) b status (setReg c ripReg (s.ip + 4#32)) >>=
        fun u => .ok (.done (afterCalls sup u))) ∧
      ∀ u, EventOnly .call c u → seenTe u = seenTe c → CallControls entry w s (afterCalls sup u) := by
  obtain ⟨hn, hok, he, hcase⟩ := h
  have rule : ruleCalls x s = callEntry entry s := by
    unfold ruleCalls procedureOffset
    dsimp only
    rw [if_neg (by omega), loadEntry_okEntry hok, he]
    rfl
  rcases hcase with ⟨ht | ⟨ht, hem⟩, rfl, rfl⟩ | ⟨ht, hem, hok2, hw, rfl, rfl⟩
  · refine ⟨s, false, .inl rfl, ?_, fun u hu _ => ⟨fun _ => hu, fun h2 => ?_⟩⟩
    · rw [rule]
      unfold callEntry
      rw [ht]
      rfl
    · rw [ht] at h2
      exact absurd h2 (by decide)
  · refine ⟨s, true, .inl rfl, ?_, fun u hu hs => ⟨fun h0 => ?_, fun _ => ?_⟩⟩
    · rw [rule]
      unfold callEntry
      rw [ht, hem]
      rfl
    · rw [ht] at h0
      exact absurd h0 (by decide)
    · obtain ⟨htc, hpc⟩ := hu.andThen hs .supervisor
      refine ⟨htc, fun _ => ⟨fun i hi => ?_, ?_⟩, fun hu => ?_⟩
      · exact (hpc i).trans (by simp [hi])
      · exact (hpc 10).trans (by rw [beq_self_eq_true, Bool.and_true]; rfl)
      · rw [hem] at hu
        cases hu
  · refine ⟨inSupervisor (getBit w 0) s, true, .inr rfl, ?_, fun u hu hs => ⟨fun h0 => ?_, fun _ => ?_⟩⟩
    · rw [rule]
      unfold callEntry
      rw [ht, hem, hw]
      dsimp only
      rw [loadEntry_okEntry hok2]
      rfl
    · rw [ht] at h0
      exact absurd h0 (by decide)
    · obtain ⟨htc, hpc⟩ := hu.andThen hs .supervisor
      refine ⟨htc, fun hs => ?_, fun _ => ⟨?_, ?_, ?_, fun i h0 h1 h10 => ?_⟩⟩
      · rw [hem] at hs
        cases hs
      · exact (hpc 1).trans (by simp [getBit_inSupervisor])
      · exact (hpc 0).trans (by simp [getBit_inSupervisor])
      · exact (hpc 10).trans (by rw [getBit_inSupervisor, seenTe_inSupervisor]; simp; rfl)
      · exact (hpc i).trans (by simp [getBit_inSupervisor, h0, h1, h10])

theorem exec_calls_full {s : State} {x : Src} {entry w b : Word} {status : BitVec 3} {e f g : RegSet}
    (h : SystemEntry (srcValue s x) s entry w b status) (hb : roomAt b) (ho : s.older = [e, f, g])
    (hm : Memory.wf s.mem = true) (hg : frameAligned g.addr = g.addr) (hr : isReserved g.addr = false) :
    ∃ u, exec (.calls x) s = .next (ended s.ip u) ∧ Called entry b status s u ∧
      Spilled (setReg s ripReg (s.ip + 4#32)) e f g nothing s u ∧ CallControls entry w s u ∧ SameSystem s u := by
  obtain ⟨c, sup, hc, hrule, hctl⟩ := ruleCalls_of h
  obtain ⟨hglob, hcur, hfp, hac, htc, hold, hmem, hpar, hsys⟩ : c.globals = s.globals ∧ c.cur = s.cur ∧ c.fp = s.fp ∧
      c.ac = s.ac ∧ c.tc = s.tc ∧ c.older = s.older ∧ c.mem = s.mem ∧ c.params = s.params ∧ SameSystem s c := by
    rcases hc with rfl | rfl
    · exact ⟨rfl, rfl, rfl, rfl, rfl, rfl, rfl, rfl, SameSystem.refl _⟩
    · exact ⟨rfl, rfl, rfl, rfl, rfl, rfl, rfl, rfl, sameSystem_inSupervisor _ _⟩
  obtain ⟨u, hu, he, hsp⟩ := callOp_full (target := wordAligned entry) (status := status)
    (c := setReg c ripReg (s.ip + 4#32)) hb (by simpa [hold] using ho) (by simpa [hmem] using hm) hg hr
  have hcalled : Called entry b status s u := (he.fromRip.called.transfer hglob hfp hac htc).unaligned
  have hspilled : Spilled (setReg s ripReg (s.ip + 4#32)) e f g nothing s u := by
    refine ⟨?_, hsp.saved, fun a h1 h2 => ?_⟩
    · have hc2 : (setReg c ripReg (s.ip + 4#32)).cur = (setReg s ripReg (s.ip + 4#32)).cur := by
        change c.cur.set 2 _ = s.cur.set 2 _
        rw [hcur]
      rw [hsp.fromRip.cache, getReg_global hglob (by decide), hc2]
    · rw [hsp.fromRip.rest a h1 h2, hmem]
  refine ⟨afterCalls sup u, ?_, ?_, ?_, hctl u he.fromRip.event he.fromRip.seen, ?_⟩
  · change finish s (ruleCalls x s) = _
    rw [hrule, hu]
    exact finish_done s _
  all_goals cases sup
  · exact hcalled
  · exact hcalled.afterEvent .supervisor
  · exact hspilled
  · exact hspilled.afterEvent .supervisor
  · exact hsys.trans he.fromRip.system
  · exact (hsys.trans he.fromRip.system).trans (sameSystem_signalIfEnabled _ _)

/-! ### Faults (R480 to R490) -/

/-- The state the handler of a fault starts from; `sup` is the word at offset 12 of its table if it is a supervisor
procedure (R480). -/
def handlerStart (sup : Option Word) (s : State) : State :=
  match sup with
  | none => s
  | some w => inSupervisor (getBit w 0) s

theorem faultHandler_of {f : FaultInfo} {s : State} {entry nsp : Word} {sup : Option Word}
    (h : HandledAt f s entry nsp sup) :
    faultHandler s f.ftype = .ok (some ⟨wordAligned entry, nsp, handlerStart sup s⟩) := by
  obtain ⟨e0, e1, ⟨ok0, ok1, h0, h1⟩, hcase⟩ := h
  unfold faultHandler faultOffset
  rw [loadEntry_okEntry ok0]
  dsimp only [bind, Except.bind]
  rw [loadEntry_okEntry ok1, ← h0, ← h1]
  dsimp only
  obtain ⟨ht, rfl, rfl, rfl⟩ | ⟨base, ⟨ht, hn, hbase, hok, hent⟩, hcase⟩ := hcase
  · rw [ht]
    rfl
  · have handler : procedureHandler s base (e0 >>> 2) = .ok (some ⟨wordAligned entry, nsp, handlerStart sup s⟩) := by
      unfold procedureHandler procedureOffset
      rw [if_neg (by omega), loadEntry_okEntry hok, ← hent]
      dsimp only [bind, Except.bind]
      obtain ⟨h2, rfl, rfl⟩ | ⟨h2, hok2, w, rfl, hw, rfl⟩ := hcase
      · rw [h2]
        rfl
      · rw [h2, loadEntry_okEntry hok2, ← hw]
        exact congrArg (fun t => Except.ok (some (Handler.mk _ _ t))) (setTe_setEm _ _)
    rw [ht]
    obtain ⟨rfl, rfl⟩ | ⟨hk, rfl⟩ := hbase
    · exact handler
    · have hne : e1 ≠ 0x27F#32 := by
        rintro rfl
        revert hk
        decide
      change (if e1 = 0x27F#32 then _ else _) = _
      rw [if_neg hne, if_pos hk]
      exact handler

end Sys2Proof.Claims
end

section
/-! PROOFS. The records of faults and interrupts, and what taking a fault and an interrupt comes to (R480, R487, R515,
R520, R523). -/
namespace Sys2Proof.Claims
open Sys2Proof.Machine

/-! ### Words in memory -/

/-- A word read from memory that agrees on its bytes. -/
theorem wordAt_of_bytes {u : State} {o : ByteOrder} {m : Memory} {x : Nat} (ho : u.params.byteOrder = o)
    (h : ∀ k, k < 4 → memRead u.mem (x + k) = memRead m (x + k)) : wordAt u x = memReadWord o m x := by
  unfold wordAt memReadWord
  have h0 := h 0 (by omega)
  rw [Nat.add_zero] at h0
  rw [ho, h0, h 1 (by omega), h 2 (by omega), h 3 (by omega)]

/-- Words stored below the reserved space: they are in memory, and no other byte has changed. -/
theorem storeWords_record (t : State) {a : Word} (vs : List Word) (ha : a.toNat % 4 = 0)
    (hend : a.toNat + 4 * vs.length ≤ 0xFF000000) (hm : Memory.wf t.mem = true) :
    ∃ mem stale, storeWords t a vs = .ok { t with mem := mem, stale := stale } ∧ Memory.wf mem = true ∧
      (∀ (i : Nat) (h : i < vs.length), memReadWord t.params.byteOrder mem (a.toNat + 4 * i) = vs[i]) ∧
      ∀ b, ¬ bytesFrom a.toNat (4 * vs.length) b → memRead mem b = memRead t.mem b := by
  obtain ⟨u, hu⟩ := storeWords_of vs t ha hend
  obtain ⟨⟨mem, stale, rfl⟩, hwf, hin, hout⟩ := storeWords_ok hu hm (by omega)
  exact ⟨mem, stale, hu, hwf, hin, fun b hb => hout b (by unfold bytesFrom at hb; omega)⟩

/-- Where a record of `n` bytes and a frame fit, the frame lies at a 64-byte boundary above the record. -/
theorem recordRoom_frame {nsp n : Word} (h : recordRoom nsp n) :
    (frameAbove (nsp + n)).toNat % 64 = 0 ∧ n.toNat ≤ (frameAbove (nsp + n)).toNat := by
  have hadd : (nsp + n).toNat = nsp.toNat + n.toNat := by
    rw [BitVec.toNat_add]
    exact Nat.mod_eq_of_lt h.1
  have := frameAbove_toNat h.2.1
  omega

theorem sub_toNat {a b : Word} (h : b.toNat ≤ a.toNat) : (a - b).toNat = a.toNat - b.toNat :=
  BitVec.toNat_sub_of_le h

theorem isReserved_false_iff (a : Word) : isReserved a = false ↔ a.toNat < 0xFF000000 := by
  rw [isReserved_eq]
  simp

/-! ### The call operation above a record -/

theorem EventOnly.congr {e : TraceEvent} {s c u : State} (h : EventOnly e c u) (pc : c.pc = s.pc) (tc : c.tc = s.tc)
    (hold : c.teHold = s.teHold) (old : c.teOld = s.teOld) : EventOnly e s u := by
  have hs : seenTe c = seenTe s := by
    unfold seenTe pcTe
    rw [pc, hold, old]
  refine ⟨fun i => ?_, fun i => ?_⟩
  · rw [h.1 i, tc]
    simp only [traceMode, tc]
  · rw [h.2 i, pc, hs]
    simp only [traceMode, tc]

/-- The state `c` in which the call operation of a fault or an interrupt taken in `s` starts, the record in the memory
`mem` and the saved IP `r2` in the caller's r2. -/
structure CallerAt (s c : State) (mem : Memory) (r2 : Word) : Prop where
  globals : c.globals = s.globals
  cur : c.cur = (setReg s ripReg r2).cur
  older : c.older = s.older
  fp : c.fp = s.fp
  ac : c.ac = s.ac
  tc : c.tc = s.tc
  mem : c.mem = mem
  system : SameSystem s c

/-- The call operation above a record, with a register set free. -/
theorem callOp_record_room {target b : Word} {status : BitVec 3} {s c : State} {mem : Memory} {r2 : Word}
    (hc : CallerAt s c mem r2) (hb : roomAt b) (ho : s.older.length ≤ 2) :
    ∃ u, callOp target b status c = .ok u ∧ Called target b status s u ∧ EventOnly .call c u ∧ SameSystem s u ∧
      Pushed (setReg s ripReg r2) u ∧ u.mem = mem := by
  obtain ⟨u, hu, he, hp, hmem⟩ := callOp_room (target := target) (status := status) (c := c) hb
    (by rw [hc.older]; exact ho)
  refine ⟨u, hu, he.called.transfer hc.globals hc.fp hc.ac hc.tc, he.event, hc.system.trans he.system, ?_,
    hmem.trans hc.mem⟩
  unfold Pushed at hp ⊢
  rw [hp, getReg_global hc.globals (by decide), hc.cur, hc.older, setReg_older,
    getReg_global (setReg_ripReg_globals s r2) (by decide)]

/-- The call operation above a record that occupies `n` bytes from `a` on, with a full cache: the oldest set is stored
after the record and away from it. -/
theorem callOp_record_full {target b : Word} {status : BitVec 3} {s c : State} {mem : Memory} {r2 : Word}
    {e f g : RegSet} {a n : Nat} (hc : CallerAt s c mem r2) (hb : roomAt b) (ho : s.older = [e, f, g])
    (hm : Memory.wf mem = true) (hg : frameAligned g.addr = g.addr) (hr : isReserved g.addr = false)
    (hout : ∀ x, ¬ bytesFrom a n x → memRead mem x = memRead s.mem x)
    (hap : ∀ x, bytesFrom a n x → ¬ bytesFrom g.addr.toNat 64 x) :
    ∃ u, callOp target b status c = .ok u ∧ Called target b status s u ∧ EventOnly .call c u ∧ SameSystem s u ∧
      Spilled (setReg s ripReg r2) e f g (bytesFrom a n) s u ∧
      ∀ x, bytesFrom a n x → memRead u.mem x = memRead mem x := by
  obtain ⟨u, hu, he, hsp⟩ := callOp_full (target := target) (status := status) (c := c) hb (hc.older.trans ho)
    (by rw [hc.mem]; exact hm) hg hr
  refine ⟨u, hu, he.called.transfer hc.globals hc.fp hc.ac hc.tc, he.event, hc.system.trans he.system,
    ⟨?_, hsp.saved, fun x h1 h2 => ?_⟩, fun x hx => ?_⟩
  · rw [hsp.cache, getReg_global hc.globals (by decide), hc.cur]
  · rw [hsp.rest x h1 fun h => h, hc.mem, hout x h2]
  · rw [hsp.rest x (hap x hx) fun h => h, hc.mem]

/-! ### Fault records -/

/-- The seven words of a fault record as R487 lays it out, from the fault data on. -/
def faultWords (f : FaultInfo) (pc ac : Word) (t : State) : List Word :=
  [(faultData f t).1, (faultData f t).2.1, (faultData f t).2.2, pc, ac, faultTypeWord f (freeAt t 3),
    f.afi.getD (freeAt t 4)]

theorem getBit_setBitIfDefined_other (v : Word) {i j : Nat} (b : Option Bool) (h : j ≠ i) :
    getBit (setBitIfDefined v i b) j = getBit v j := by
  cases b with
  | none => rfl
  | some b =>
    change getBit (setBit v i b) j = _
    rw [getBit_setBit, if_neg (by omega)]

theorem getBit_setBitIfDefined_same (v : Word) {i : Nat} (hi : i < 32) (b : Bool) :
    getBit (setBitIfDefined v i (some b)) i = b := by
  change getBit (setBit v i b) i = _
  rw [getBit_setBit, if_pos ⟨rfl, hi⟩]

/-- The field of `w` bits at `lo` that was written last. -/
theorem extractLsb'_of_bits {v : Word} {lo w : Nat} {x : BitVec w}
    (h : ∀ i, i < w → getBit v (lo + i) = x.getLsbD i) : v.extractLsb' lo w = x := by
  apply BitVec.eq_of_getLsbD_eq
  intro i hi
  rw [BitVec.getLsbD_extractLsb']
  simp only [hi, decide_true, Bool.true_and]
  exact h i hi

/-- The fields of the type word of a fault record (R471, R487). -/
theorem faultTypeWord_fields (f : FaultInfo) (w : Word) :
    (faultTypeWord f w).extractLsb' 0 8 = f.subtype ∧ (faultTypeWord f w).extractLsb' 16 8 = f.ftype ∧
    (∀ b, f.f0 = some b → getBit (faultTypeWord f w) 24 = b) ∧
    (∀ b, f.f1 = some b → getBit (faultTypeWord f w) 25 = b) := by
  unfold faultTypeWord
  refine ⟨?_, ?_, fun b hb => ?_, fun b hb => ?_⟩
  · apply extractLsb'_of_bits
    intro i hi
    rw [getBit_setBitIfDefined_other _ _ (by omega), getBit_setBitIfDefined_other _ _ (by omega), getBit_setField,
      if_neg (by omega), getBit_setField, if_pos (by omega)]
    simp
  · apply extractLsb'_of_bits
    intro i hi
    rw [getBit_setBitIfDefined_other _ _ (by omega), getBit_setBitIfDefined_other _ _ (by omega), getBit_setField,
      if_pos (by omega)]
    simp
  · rw [hb, getBit_setBitIfDefined_other _ _ (by omega), getBit_setBitIfDefined_same _ (by omega)]
  · rw [hb, getBit_setBitIfDefined_same _ (by omega)]

/-- A state whose memory holds the words of a fault record has it recorded (R487). -/
theorem faultRecorded_of {f : FaultInfo} {nfp : Word} {s t u : State} (hn : 28 ≤ nfp.toNat)
    (h : ∀ (i : Nat) (hi : i < 7), wordAt u (nfp.toNat - 28 + 4 * i) = (faultWords f s.pc s.ac t)[i]) :
    FaultRecorded f nfp s u := by
  have word : ∀ (i : Nat) (hi : i < 7) {a : Nat}, a = nfp.toNat - 28 + 4 * i →
      wordAt u a = (faultWords f s.pc s.ac t)[i] := fun i hi a ha => ha ▸ h i hi
  have htype : wordAt u (nfp.toNat - 8) = faultTypeWord f (freeAt t 3) := word 5 (by omega) (by omega)
  obtain ⟨hsub, hty, hf0, hf1⟩ := faultTypeWord_fields f (freeAt t 3)
  refine ⟨word 3 (by omega) (by omega), word 4 (by omega) (by omega), by rw [htype, hsub], by rw [htype, hty],
    fun b hb => by rw [htype, hf0 b hb], fun b hb => by rw [htype, hf1 b hb], fun a ha => ?_, fun d hd => ?_⟩
  · rw [word 6 (by omega) (by omega)]
    change f.afi.getD _ = a
    rw [ha]
    rfl
  · have hdata : faultData f t =
        (d.extractLsb' 0 32, d.extractLsb' 32 32, setField (freeAt t 2) 0 16 (d.extractLsb' 64 16)) := by
      unfold faultData
      rw [hd]
    refine ⟨?_, ?_, ?_⟩
    · rw [word 0 (by omega) (by omega)]
      exact congrArg (·.1) hdata
    · rw [word 1 (by omega) (by omega)]
      exact congrArg (·.2.1) hdata
    · rw [word 2 (by omega) (by omega)]
      change (faultData f t).2.2.extractLsb' 0 16 = _
      rw [hdata]
      apply extractLsb'_of_bits
      intro i hi
      rw [getBit_setField, if_pos (by omega)]
      simp

/-! ### Taking a fault (R480) -/

theorem callerAt_fault (sup : Option Word) (s : State) (mem : Memory) (stale : List Nat) (r2 : Word) :
    CallerAt s (drawn (setReg { handlerStart sup s with mem := mem, stale := stale } ripReg r2) 6) mem r2 := by
  cases sup <;> exact ⟨rfl, rfl, rfl, rfl, rfl, rfl, rfl,
    (by constructor <;> rfl)⟩

/-- The call event of a fault changes PC and TC as `HandlerControls` says. -/
theorem handlerControls_of {sup : Option Word} {s u : State} (h : EventOnly .call (handlerStart sup s) u) :
    HandlerControls sup s u := by
  cases sup with
  | none => exact h
  | some w =>
    have hpc : ∀ i, getBit u.pc i = (getBit (inSupervisor (getBit w 0) s).pc i ||
        (getBit s.tc 3 && getBit w 0 && i == 10)) := by
      intro i
      refine (h.2 i).trans ?_
      change (_ || (_ && seenTe (inSupervisor (getBit w 0) s) && _)) = _
      rw [seenTe_inSupervisor]
      rfl
    refine ⟨?_, ?_, ?_, fun i h0 h1 h10 => ?_, h.1⟩
    · rw [hpc, getBit_inSupervisor]
      simp
    · rw [hpc, getBit_inSupervisor]
      simp
    · rw [hpc, getBit_inSupervisor]
      simp [Bool.and_comm]
    · rw [hpc, getBit_inSupervisor]
      simp [h0, h1, h10]

/-- Taking a fault through a usable entry is a call operation above its record (R480, R487). -/
theorem deliverFault_of {f : FaultInfo} {s : State} {entry nsp nfp : Word} {sup : Option Word}
    (h : HandledAt f s entry nsp sup) (hroom : recordRoom nsp 48#32) (hnfp : nfp = frameAbove (nsp + 48#32))
    (hlo : isReserved (nfp - 28#32) = false) (hm : Memory.wf s.mem = true)
    (hlay : s.params.faultRecord = defaultFaultLayout) :
    ∃ mem stale r2, deliverFault f s = callOp (wordAligned entry) (nsp + 48#32) 0b001#3
        (drawn (setReg { handlerStart sup s with mem := mem, stale := stale } ripReg r2) 6) ∧
      (∀ a, f.sip = some a → r2 = a) ∧ Memory.wf mem = true ∧ 28 ≤ nfp.toNat ∧
      (∀ (i : Nat) (hi : i < 7), memReadWord s.params.byteOrder mem (nfp.toNat - 28 + 4 * i) =
        (faultWords f s.pc s.ac (handlerStart sup s))[i]) ∧
      ∀ b, ¬ bytesFrom (nfp.toNat - 28) 28 b → memRead mem b = memRead s.mem b := by
  obtain ⟨hpar, hmem⟩ : (handlerStart sup s).params = s.params ∧ (handlerStart sup s).mem = s.mem := by
    cases sup <;> exact ⟨rfl, rfl⟩
  have hfr := recordRoom_frame hroom
  rw [← hnfp, show (48#32 : Word).toNat = 48 from rfl] at hfr
  have h28 : (nfp - 28#32).toNat = nfp.toNat - 28 := sub_toNat (by rw [show (28#32 : Word).toNat = 28 from rfl]; omega)
  rw [isReserved_false_iff] at hlo
  obtain ⟨mem, stale, hst, hwf, hin, hout⟩ := storeWords_record (handlerStart sup s) (a := nfp - 28#32)
    (faultWords f s.pc s.ac (handlerStart sup s)) (by omega)
    (show (nfp - 28#32).toNat + 4 * 7 ≤ 0xFF000000 by omega) (by rw [hmem]; exact hm)
  rw [hpar, h28] at hin
  rw [hmem, h28] at hout
  refine ⟨mem, stale, f.sip.getD (freeAt { handlerStart sup s with mem := mem, stale := stale } 5), ?_, ?_, hwf,
    by omega, hin, hout⟩
  · have hc : (decide (nsp.toNat + 48 < 2 ^ 32) && frameFits (nsp + faultRecordSize)) = true := by
      rw [Bool.and_eq_true, decide_eq_true_eq]
      exact ⟨hroom.1, (frameFits_iff _).mpr hroom.2⟩
    have hrec : storeFields (handlerStart sup s) (nextFrame (nsp + faultRecordSize) - faultRecordSize)
        (faultRecord f s.pc s.ac (handlerStart sup s)) =
          .ok { handlerStart sup s with mem := mem, stale := stale } := by
      rw [storeFields_faultRecord _ _ _ _ _ _ (hpar ▸ hlay)]
      change storeWords _ (frameAbove (nsp + 48#32) - 28#32) _ = _
      rw [← hnfp]
      exact hst
    unfold deliverFault
    rw [faultHandler_of h]
    dsimp only [bind, Except.bind]
    rw [if_pos hc, hrec]
    rfl
  · intro a ha
    rw [ha]
    rfl

/-! ### Taking an interrupt (R515, R523) -/

/-- A vector's priority is its number by eight (R511). -/
theorem vectorPriority_toNat (v : Byte) : (vectorPriority v).toNat = v.toNat / 8 := by
  have := v.isLt
  unfold vectorPriority
  rw [BitVec.extractLsb'_toNat, Nat.shiftRight_eq_div_pow]
  omega

theorem isServiced_iff (s : State) (v : Byte) :
    isServiced s (vectorPriority v) = true ↔ (pcPriority s).toNat < v.toNat / 8 ∨ v.toNat / 8 = 31 := by
  unfold isServiced
  rw [Bool.or_eq_true, BitVec.ult, decide_eq_true_eq, beq_iff_eq, ← vectorPriority_toNat,
    ← BitVec.toNat_inj (y := 31#5)]
  rfl

/-- The bits of PC in an interrupt handler (R523). -/
theorem getBit_interruptPc (v : Byte) (s : State) (i : Nat) :
    getBit (interruptPc v s) i = if i = 0 ∨ i = 10 then false else if i = 1 ∨ i = 13 then true
      else if 16 ≤ i ∧ i < 21 then (vectorPriority v).getLsbD (i - 16) else getBit s.pc i := by
  unfold interruptPc
  simp only [getBit_setBit, getBit_setField]
  by_cases h0 : i = 0
  · simp [h0]
  by_cases h10 : i = 10
  · simp [h10]
  by_cases h1 : i = 1
  · simp [h1]
  by_cases h13 : i = 13
  · simp [h13]
  by_cases hp : 16 ≤ i ∧ i < 21
  · simp [h0, h10, h1, h13, hp, show i < 32 by omega]
  · simp [h0, h10, h1, h13, hp]

theorem callerAt_interrupt (v : Byte) (s : State) (mem : Memory) (stale : List Nat) (k : Nat) :
    CallerAt s (drawn (setPc (setReg { s with mem := mem, stale := stale } ripReg s.ip) (interruptPc v s)) k) mem
      s.ip :=
  ⟨rfl, rfl, rfl, rfl, rfl, rfl, rfl,
    (by constructor <;> rfl)⟩

/-- The three words of an interrupt record as R520 lays it out. -/
def interruptWords (v : Byte) (s : State) : List Word := [s.pc, s.ac, setField (freeAt s 0) 0 8 v]

theorem interruptEntry_noRoom {v : Byte} {s : State} {nsp nfp entry : Word} (h : Vectored v s nsp nfp entry)
    (hroom : ¬ recordRoom nsp 16#32) : interruptEntry v s = .error (.refused .frameOverflow) := by
  have hsize : s.params.interruptRecord.size = 16#32 := congrArg (·.size) h.layout
  have hnsp : interruptStackPointer s = nsp := h.stack.symm
  have hc : ¬ (decide (nsp.toNat + (16#32 : Word).toNat < 2 ^ 32) && frameFits (nsp + 16#32)) = true := by
    rw [Bool.and_eq_true, decide_eq_true_eq, frameFits_iff]
    exact hroom
  unfold interruptEntry
  dsimp only
  rw [hsize, hnsp, if_neg hc]
  rfl

/-- Taking an interrupt is a call operation above its record (R523); the record does not overlap the table entry, so
that the order of the two does not matter (R606). -/
theorem interruptEntry_of {v : Byte} {s : State} {nsp nfp entry : Word} (h : Vectored v s nsp nfp entry)
    (hroom : recordRoom nsp 16#32) (hm : Memory.wf s.mem = true) :
    ∃ mem stale, interruptEntry v s = callOp entry (nsp + 16#32) 0b111#3
        (drawn (setPc (setReg { s with mem := mem, stale := stale } ripReg s.ip) (interruptPc v s)) 2) ∧
      Memory.wf mem = true ∧ 16 ≤ nfp.toNat ∧
      (∀ (i : Nat) (hi : i < 3), memReadWord s.params.byteOrder mem (nfp.toNat - 16 + 4 * i) =
        (interruptWords v s)[i]) ∧
      ∀ b, ¬ bytesFrom (nfp.toNat - 16) 12 b → memRead mem b = memRead s.mem b := by
  have hsize : s.params.interruptRecord.size = 16#32 := congrArg (·.size) h.layout
  have hnsp : interruptStackPointer s = nsp := h.stack.symm
  have hfr := recordRoom_frame hroom
  rw [← h.frame, show (16#32 : Word).toNat = 16 from rfl] at hfr
  have h16 : (nfp - 16#32).toNat = nfp.toNat - 16 := sub_toNat (by rw [show (16#32 : Word).toNat = 16 from rfl]; omega)
  have hw := (isReserved_false_iff _).mp h.writable
  obtain ⟨mem, stale, hst, hwf, hin, hout⟩ := storeWords_record s (a := nfp - 16#32) (interruptWords v s) (by omega)
    (show (nfp - 16#32).toNat + 4 * 3 ≤ 0xFF000000 by omega) hm
  rw [h16] at hin hout
  refine ⟨mem, stale, ?_, hwf, by omega, hin, hout⟩
  have hc : (decide (nsp.toNat + (16#32 : Word).toNat < 2 ^ 32) && frameFits (nsp + 16#32)) = true := by
    rw [Bool.and_eq_true, decide_eq_true_eq]
    exact ⟨hroom.1, (frameFits_iff _).mpr hroom.2⟩
  have hrec : storeFields s (nextFrame (nsp + 16#32) - 16#32) (interruptRecord v s) =
      .ok { s with mem := mem, stale := stale } := by
    have hs := storeFields_interruptRecord v (frameAbove (nsp + 16#32)) s s h.layout
    rw [hsize] at hs
    change storeFields s (frameAbove (nsp + 16#32) - 16#32) _ = _
    rw [hs, ← h.frame]
    exact hst
  have hbefore : loadEntry s s.intTable (vectorOffset v) = .ok (entry, s) := by
    rw [h.target]
    exact loadEntry_okEntry h.readable
  have hafter : ∀ t : State, t.params = s.params → t.mem = mem → t.prcbBase = s.prcbBase →
      loadEntry t s.intTable (vectorOffset v) = .ok (entry, t) := by
    intro t hp hmem hb
    have hok : okEntry t s.intTable (vectorOffset v) := by
      obtain ⟨hlt, hal, hres, hscr⟩ := h.readable
      refine ⟨hlt, hal, hres, ?_⟩
      unfold scratchWord inScratch at hscr ⊢
      rw [hb]
      exact hscr
    have hword : wordAt t (s.intTable + vectorOffset v).toNat = entry := by
      rw [h.target]
      refine wordAt_of_bytes (congrArg (·.byteOrder) hp) fun k hk => ?_
      rw [hmem]
      exact hout _ fun hx => h.apart _ hx ⟨Nat.le_add_right _ _, Nat.add_lt_add_left hk _⟩
    rw [loadEntry_okEntry hok, hword]
  unfold interruptEntry
  dsimp only
  rw [hsize, hnsp, if_pos hc, hbefore]
  dsimp only [bind, Except.bind]
  rw [hrec]
  dsimp only
  rw [hafter (drawn (setPc (setReg { s with mem := mem, stale := stale } ripReg s.ip) (interruptPc v s)) 1) rfl rfl rfl]
  dsimp only
  rw [handlerWord, ite_self, drawn_drawn]

/-- What an interrupt handler is entered with (R523), of the call operation above its record. -/
theorem interruptEntered_of {v : Byte} {nsp nfp entry : Word} {s u : State} {mem : Memory} {stale : List Nat} {k : Nat}
    (hcalled : Called entry (nsp + 16#32) 0b111#3 s u)
    (hev : EventOnly .call
      (drawn (setPc (setReg { s with mem := mem, stale := stale } ripReg s.ip) (interruptPc v s)) k) u)
    (hsys : SameSystem s u) (hn : 16 ≤ nfp.toNat)
    (hw : ∀ (i : Nat) (hi : i < 3), wordAt u (nfp.toNat - 16 + 4 * i) = (interruptWords v s)[i]) :
    InterruptEntered v nsp nfp entry s u := by
  have hte : seenTe (drawn (setPc (setReg { s with mem := mem, stale := stale } ripReg s.ip) (interruptPc v s)) k) =
      false := by
    change getBit (interruptPc v s) 0 = false
    rw [getBit_interruptPc]
    rfl
  have hpc : ∀ i, getBit u.pc i = getBit (interruptPc v s) i := by
    intro i
    rw [hev.2 i, hte]
    simp
  have word : ∀ (i : Nat) (hi : i < 3) {a : Nat}, a = nfp.toNat - 16 + 4 * i →
      wordAt u a = (interruptWords v s)[i] := fun i hi a ha => ha ▸ hw i hi
  refine ⟨hcalled, word 0 (by omega) (by omega), word 1 (by omega) (by omega), ?_, ?_, ?_, ?_, ?_, ?_, hsys⟩
  · rw [word 2 (by omega) (by omega)]
    apply BitVec.eq_of_getLsbD_eq
    intro i hi
    rw [BitVec.getLsbD_setWidth]
    change (decide (i < 8) && getBit (setField (freeAt s 0) 0 8 v) i) = _
    rw [getBit_setField, if_pos (by omega)]
    simp [hi]
  · simp [hpc, getBit_interruptPc]
  · rw [← vectorPriority_toNat]
    refine congrArg BitVec.toNat (extractLsb'_of_bits fun i hi => ?_)
    rw [hpc, getBit_interruptPc, if_neg (by omega), if_neg (by omega), if_pos (by omega)]
    simp
  · intro i h0 h1 h10 h13 hp
    rw [hpc, getBit_interruptPc, if_neg (by omega), if_neg (by omega), if_neg (by omega)]
  · intro i
    exact hev.1 i
  · intro hr
    have h13 : pcState u = true := by
      change getBit u.pc 13 = true
      rw [hpc, getBit_interruptPc]
      rfl
    unfold procState
    rw [hsys.status, hr, h13]
    rfl

end Sys2Proof.Claims
end

section
/-! PROOFS. Faults and interrupts with a full register cache, and taking and posting interrupts (R383, R480, R516,
R523). -/
namespace Sys2Proof.Claims
open Sys2Proof.Machine

/-- Taking a fault with a full register cache: the record, then the spill of the oldest set (R383, R480). -/
theorem deliverFault_full {i : FaultInfo} {s : State} {entry nsp nfp : Word} {sup : Option Word} {e f g : RegSet}
    (h : HandledAt i s entry nsp sup) (hroom : recordRoom nsp 48#32) (hnfp : nfp = frameAbove (nsp + 48#32))
    (hlo : isReserved (nfp - 28#32) = false) (hlay : s.params.faultRecord = defaultFaultLayout)
    (ho : s.older = [e, f, g]) (hm : Memory.wf s.mem = true) (hg : frameAligned g.addr = g.addr)
    (hr : isReserved g.addr = false) (hap : ∀ x, bytesFrom (nfp.toNat - 28) 28 x → ¬ bytesFrom g.addr.toNat 64 x) :
    ∃ (u : State) (r2 : Word), deliverFault i s = .ok u ∧
      Called entry (nsp + 48#32) 0b001#3 s u ∧ FaultRecorded i nfp s u ∧ (∀ a, i.sip = some a → r2 = a) ∧
      HandlerControls sup s u ∧
      Spilled (setReg s ripReg r2) e f g (bytesFrom (nfp.toNat - 28) 28) s u ∧ SameSystem s u := by
  obtain ⟨mem, stale, r2, hd, hsip, hwf, hn, hin, hout⟩ := deliverFault_of h hroom hnfp hlo hm hlay
  obtain ⟨u, hu, hcalled, hev, hsys, hsp, hrec⟩ := callOp_record_full (target := wordAligned entry)
    (status := 0b001#3) (callerAt_fault sup s mem stale r2) hroom.2 ho hwf hg hr hout hap
  refine ⟨u, r2, hd.trans hu, hcalled.unaligned, ?_, hsip, ?_, hsp, hsys⟩
  · refine faultRecorded_of (t := handlerStart sup s) hn fun k hk =>
      (wordAt_of_bytes ?_ fun j hj => ?_).trans (hin k hk)
    · rw [hsys.params]
    · exact hrec _ (by unfold bytesFrom; omega)
  · exact handlerControls_of (hev.congr (by simp) (by simp) (by simp) (by simp))

/-- The words of the record are in memory after the call operation if their bytes are. -/
theorem interruptWords_kept {v : Byte} {s u : State} {mem : Memory} {a : Nat} (hp : u.params = s.params)
    (hin : ∀ (i : Nat) (hi : i < 3), memReadWord s.params.byteOrder mem (a + 4 * i) = (interruptWords v s)[i])
    (hk : ∀ x, bytesFrom a 12 x → memRead u.mem x = memRead mem x) :
    ∀ (i : Nat) (hi : i < 3), wordAt u (a + 4 * i) = (interruptWords v s)[i] := by
  intro i hi
  rw [← hin i hi]
  refine wordAt_of_bytes (congrArg (·.byteOrder) hp) fun k hk4 => hk _ ?_
  unfold bytesFrom
  omega

/-- A vector that is serviced at once enters its handler (R515). -/
theorem receiveInterrupt_serviced {v : Byte} {s : State} (h : (pcPriority s).toNat < v.toNat / 8 ∨ v.toNat / 8 = 31) :
    receiveInterrupt v s = interruptEntry v s := if_pos ((isServiced_iff s v).mpr h)

/-- A vector that is not is posted (R515). -/
theorem receiveInterrupt_posted {v : Byte} {s : State} (h1 : v.toNat / 8 ≤ (pcPriority s).toNat)
    (h2 : v.toNat / 8 ≠ 31) : receiveInterrupt v s = postInterrupt v s :=
  if_neg (mt (isServiced_iff s v).mp (by omega))

/-- Taking an interrupt with a full register cache: the record, then the spill of the oldest set (R383, R523). -/
theorem interruptEntry_full {v : Byte} {s : State} {nsp nfp entry : Word} {e f g : RegSet}
    (h : Vectored v s nsp nfp entry) (hroom : recordRoom nsp 16#32) (ho : s.older = [e, f, g])
    (hm : Memory.wf s.mem = true) (hg : frameAligned g.addr = g.addr) (hr : isReserved g.addr = false)
    (hap : ∀ x, bytesFrom (nfp.toNat - 16) 12 x → ¬ bytesFrom g.addr.toNat 64 x) :
    ∃ u, interruptEntry v s = .ok u ∧ InterruptEntered v nsp nfp entry s u ∧
      Spilled (setReg s ripReg s.ip) e f g (bytesFrom (nfp.toNat - 16) 12) s u := by
  obtain ⟨mem, stale, hi, hwf, hn, hin, hout⟩ := interruptEntry_of h hroom hm
  obtain ⟨u, hu, hcalled, hev, hsys, hsp, hrec⟩ := callOp_record_full (target := entry) (status := 0b111#3)
    (callerAt_interrupt v s mem stale 2) hroom.2 ho hwf hg hr hout hap
  exact ⟨u, hi.trans hu, interruptEntered_of hcalled hev hsys hn (interruptWords_kept hsys.params hin hrec), hsp⟩

/-- Taking an interrupt with a register set free (R523): no byte but those of the record changes. -/
theorem interruptEntry_room {v : Byte} {s : State} {nsp nfp entry : Word} (h : Vectored v s nsp nfp entry)
    (hroom : recordRoom nsp 16#32) (ho : s.older.length ≤ 2) (hm : Memory.wf s.mem = true) :
    ∃ u, interruptEntry v s = .ok u ∧ InterruptEntered v nsp nfp entry s u ∧ Pushed (setReg s ripReg s.ip) u ∧
      ∀ x, ¬ bytesFrom (nfp.toNat - 16) 12 x → memRead u.mem x = memRead s.mem x := by
  obtain ⟨mem, stale, hi, -, hn, hin, hout⟩ := interruptEntry_of h hroom hm
  obtain ⟨u, hu, hcalled, hev, hsys, hp, hmem⟩ := callOp_record_room (target := entry) (status := 0b111#3)
    (callerAt_interrupt v s mem stale 2) hroom.2 ho
  refine ⟨u, hi.trans hu, interruptEntered_of hcalled hev hsys hn
    (interruptWords_kept hsys.params hin fun x _ => by rw [hmem]), hp, fun x hx => ?_⟩
  rw [hmem, hout x hx]

/-! ### Posting (R516) -/

theorem scratchWord_congr {s t : State} (h : t.prcbBase = s.prcbBase) (a : Word) :
    scratchWord t a = scratchWord s a := by
  unfold scratchWord inScratch
  rw [h]

/-- A byte outside the scratch space is loaded from memory (R587). -/
theorem loadByte_of {s : State} {a : Word} (h : isReserved a = false) (hsc : inScratch s a = false) :
    loadByte s a = .ok (memRead s.mem a.toNat, s) := by
  unfold loadByte
  rw [checkAccess_of (Nat.mod_one _) h, hsc]
  rfl

theorem storeByte_of {s : State} {a : Word} (b : Byte) (h : isReserved a = false) :
    ∃ stale, storeByte s a b = .ok { s with mem := memWrite s.mem a.toNat b, stale := stale } := by
  obtain ⟨stale, hs⟩ := markStale_eq { s with mem := memWrite s.mem a.toNat b } a.toNat
  refine ⟨stale, ?_⟩
  unfold storeByte
  rw [checkAccess_of (Nat.mod_one _) h, hs]

/-- The byte of pending vectors of a priority lies in the interrupt table, which ends below the reserved space
(R513). -/
theorem pendingByte_addr {t : Word} (p : BitVec 5) (hend : t.toNat + 36 ≤ 0xFF000000) :
    (t + pendingOffset p).toNat = t.toNat + 4 + p.toNat ∧
      entryAddr t (pendingOffset p) = .ok (t + pendingOffset p) := by
  have hp := p.isLt
  have ho : (pendingOffset p).toNat = 4 + p.toNat := by
    unfold pendingOffset
    rw [BitVec.toNat_add, BitVec.toNat_setWidth, BitVec.toNat_ofNat]
    omega
  refine ⟨?_, ?_⟩
  · rw [BitVec.toNat_add, ho]
    omega
  · unfold entryAddr
    rw [ho, if_pos (by omega)]

theorem pendingOffset_vector (v : Byte) : pendingOffset (vectorPriority v) = BitVec.ofNat 32 (4 + v.toNat / 8) := by
  have := v.isLt
  apply BitVec.eq_of_toNat_eq
  unfold pendingOffset
  rw [BitVec.toNat_add, BitVec.toNat_setWidth, vectorPriority_toNat, BitVec.toNat_ofNat, BitVec.toNat_ofNat]
  omega

/-- Posting is one byte store and one word store, where the table lies in ordinary memory (R516). -/
theorem postInterrupt_stores {v : Byte} {s : State} (hm : Memory.wf s.mem = true) (hok : okWord s s.intTable)
    (hend : s.intTable.toNat + 36 ≤ 0xFF000000)
    (hsc : inScratch s (s.intTable + pendingOffset (vectorPriority v)) = false) :
    ∃ stale, postInterrupt v s = .ok { s with
      mem := memWriteWord s.params.byteOrder
        (memWrite s.mem (s.intTable + pendingOffset (vectorPriority v)).toNat
          (memRead s.mem (s.intTable + pendingOffset (vectorPriority v)).toNat ||| (1#8 <<< (v.toNat % 8))))
        s.intTable.toNat (setBit (wordAt s s.intTable.toNat) (vectorPriority v).toNat true)
      stale := stale } := by
  obtain ⟨hal, hres, hscr⟩ := hok
  obtain ⟨haddr, hentry⟩ := pendingByte_addr (vectorPriority v) hend
  have hp := (vectorPriority v).isLt
  have hbres := (isReserved_false_iff (s.intTable + pendingOffset (vectorPriority v))).mpr (by omega)
  obtain ⟨stale1, hstore⟩ := storeByte_of (s := s)
    (memRead s.mem (s.intTable + pendingOffset (vectorPriority v)).toNat ||| (1#8 <<< (v.toNat % 8))) hbres
  have hload : ∀ t : State, t.prcbBase = s.prcbBase → loadWord t s.intTable = .ok (wordAt t s.intTable.toNat, t) :=
    fun t ht => loadWord_of hal hres ((scratchWord_congr ht _).trans hscr)
  have hput : ∀ w : Word, ∀ t : State, storeWord t s.intTable w = .ok (putWord t s.intTable w) := fun w t =>
    storeWord_of w hal hres
  unfold postInterrupt
  rw [hentry]
  dsimp only [bind, Except.bind]
  rw [loadByte_of hbres hsc]
  dsimp only
  rw [hstore]
  dsimp only
  rw [hload _ (by rfl)]
  dsimp only
  rw [hput]
  have hword : wordAt { s with
      mem := memWrite s.mem (s.intTable + pendingOffset (vectorPriority v)).toNat
        (memRead s.mem (s.intTable + pendingOffset (vectorPriority v)).toNat ||| (1#8 <<< (v.toNat % 8)))
      stale := stale1 } s.intTable.toNat = wordAt s s.intTable.toNat :=
    wordAt_of_bytes rfl fun k hk => (memRead_memWrite _ _ _ hm).trans (if_neg (by omega))
  rw [hword]
  obtain ⟨stale2, h2⟩ := putWord_eq { s with
    mem := memWrite s.mem (s.intTable + pendingOffset (vectorPriority v)).toNat
      (memRead s.mem (s.intTable + pendingOffset (vectorPriority v)).toNat ||| (1#8 <<< (v.toNat % 8)))
    stale := stale1 } s.intTable (setBit (wordAt s s.intTable.toNat) (vectorPriority v).toNat true)
  exact ⟨stale2, congrArg Except.ok h2⟩

/-- What posting a vector leaves in memory: its bit and its priority's bit are set, no other byte has changed (R516). -/
theorem postInterrupt_of {v : Byte} {s : State} (hm : Memory.wf s.mem = true) (hok : okWord s s.intTable)
    (hend : s.intTable.toNat + 36 ≤ 0xFF000000)
    (hsc : inScratch s (s.intTable + BitVec.ofNat 32 (4 + v.toNat / 8)) = false) :
    ∃ mem stale, postInterrupt v s = .ok { s with mem := mem, stale := stale } ∧
      memRead mem (s.intTable.toNat + 4 + v.toNat / 8) =
        memRead s.mem (s.intTable.toNat + 4 + v.toNat / 8) ||| (1#8 <<< (v.toNat % 8)) ∧
      memReadWord s.params.byteOrder mem s.intTable.toNat =
        wordAt s s.intTable.toNat ||| (1#32 <<< (v.toNat / 8)) ∧
      ∀ x, ¬ bytesFrom s.intTable.toNat 4 x → x ≠ s.intTable.toNat + 4 + v.toNat / 8 →
        memRead mem x = memRead s.mem x := by
  rw [← pendingOffset_vector] at hsc
  obtain ⟨stale, hpost⟩ := postInterrupt_stores hm hok hend hsc
  have haddr := (pendingByte_addr (vectorPriority v) hend).1
  rw [vectorPriority_toNat] at haddr
  rw [haddr, vectorPriority_toNat] at hpost
  have hv := v.isLt
  have hw := memSorted_memWrite (m := s.mem) (memRead s.mem (s.intTable.toNat + 4 + v.toNat / 8) |||
    (1#8 <<< (v.toNat % 8))) hm (Nat.zero_le _) (a := s.intTable.toNat + 4 + v.toNat / 8) (by omega)
  have hread := fun x => memRead_memWriteWord (o := s.params.byteOrder) (a := s.intTable.toNat) x
    (setBit (wordAt s s.intTable.toNat) (v.toNat / 8) true) hw (by omega)
  refine ⟨_, stale, hpost, ?_, memReadWord_memWriteWord_same _ hw (by omega), fun x hx hne => ?_⟩
  · rw [hread, if_neg (by omega), if_neg (by omega), if_neg (by omega), if_neg (by omega),
      memRead_memWrite _ _ _ hm, if_pos rfl]
  · unfold bytesFrom at hx
    rw [hread, if_neg (by omega), if_neg (by omega), if_neg (by omega), if_neg (by omega),
      memRead_memWrite _ _ _ hm, if_neg hne]

end Sys2Proof.Claims

namespace Sys2Proof.Proofs
open Sys2Proof.Machine Sys2Proof.Claims

/-- Settles O27: system calls, faults and interrupts with three callers' sets on the chip. -/
theorem fullCacheSpills : Obligations.FullCacheSpills := by
  unfold Obligations.FullCacheSpills
  intro s e f g ho hm hg hr
  refine ⟨fun x entry w b status h hb => exec_calls_full h hb ho hm hg hr, ?_, ?_⟩
  · intro i entry nsp nfp sup hlay h hroom hnfp hlo _ hap
    exact deliverFault_full h hroom hnfp hlo hlay ho hm hg hr hap
  · intro v nsp nfp entry hp h hroom hap
    rw [receiveInterrupt_serviced hp]
    exact interruptEntry_full h hroom ho hm hg hr hap

/-- Settles O35: a vector is serviced or posted, by its priority. -/
theorem interruptTaken : Obligations.InterruptTaken := by
  unfold Obligations.InterruptTaken
  intro s v hm
  refine ⟨fun hp nsp nfp entry h => ?_, fun h1 h2 hok hend hsc => ?_⟩
  · rw [receiveInterrupt_serviced hp]
    exact ⟨interruptEntry_noRoom h, fun hroom ho => interruptEntry_room h hroom ho hm⟩
  · rw [receiveInterrupt_posted h1 h2]
    obtain ⟨mem, stale, hpost, hbyte, hword, hrest⟩ := postInterrupt_of hm hok hend hsc
    exact ⟨_, hpost, hbyte, hword, hrest, rfl, rfl, ⟨rfl, rfl⟩, fun _ => rfl, rfl, rfl, rfl,
      (by constructor <;> rfl)⟩

end Sys2Proof.Proofs
end

section
/-! PROOFS. Supervisor and interrupt returns (R397 to R399, R527). -/
namespace Sys2Proof.Claims
open Sys2Proof.Machine

/-! ### The return operation -/

/-- The registers of a frame whose registers are found, taken back from the chip or from memory (R383). -/
theorem releaseSet_returnable {c : State} {t : Word} (hal : t.toNat % 4 = 0) (h : Returnable t c) :
    ∃ cur older draws, releaseSet c t = .ok { c with cur := cur, older := older, draws := draws } ∧
      (∀ e rest, c.older = e :: rest → cur = e.regs ∧ older = rest) ∧
      (c.older = [] → older = [] ∧ ∀ i : Fin 16,
        scratchWord c (t + BitVec.ofNat 32 (4 * i.val)) = false → cur[i] = wordAt c (t.toNat + 4 * i.val)) := by
  unfold releaseSet
  cases ho : c.older with
  | nil =>
    refine ⟨savedRegs c t, [], c.draws + 16, ?_, fun e rest he => (nomatch he), fun _ => ⟨rfl, fun i hi => ?_⟩⟩
    · unfold reloadSet
      rw [checkAccess_of hal (h.2 ho)]
      simp only [drawn]
    · refine (Vector.getElem_ofFn _).trans (if_neg ?_)
      rw [Bool.not_eq_true]
      exact hi
  | cons e rest =>
    refine ⟨e.regs, rest, c.draws, if_pos (h.1 e rest ho), fun e' rest' he => ?_, fun hn => (nomatch hn)⟩
    cases he
    exact ⟨rfl, rfl⟩

/-- The return to a frame whose registers are found: it changes the two register sets, the cache and IP (R397). -/
theorem returnOp_returned {c : State} {t : Word} (ht : t = getReg c pfpReg &&& 0xFFFFFFC0#32) (h : Returnable t c) :
    ∃ globals cur older ip draws, returnOp c =
        .ok { c with globals := globals, cur := cur, older := older, ip := ip, draws := draws } ∧
      Returned t c { c with globals := globals, cur := cur, older := older, ip := ip, draws := draws } := by
  have ht' : frameAligned (getReg c pfpReg) = t := ht.symm
  have hal : t.toNat % 4 = 0 := by
    rw [← ht', frameAligned_toNat]
    omega
  have hre : returning c = { c with globals := c.globals.set 15 t } := by
    unfold returning
    rw [ht']
    rfl
  obtain ⟨cur, older, draws, hrel, hchip, hmem⟩ := releaseSet_returnable (c := returning c) hal
    (by rw [hre]; exact h)
  rw [hre] at hrel hchip hmem
  have hop := returnOp_of (s := c) (by rw [hre, ht']; exact hrel)
  refine ⟨c.globals.set 15 t, cur, older, _, draws, hop, hchip, hmem, ?_, rfl, fun r hr hne => ?_, rfl, rfl⟩
  · exact (getReg_global (s := setReg c fpReg t) (by rfl) (by decide)).trans (getReg_setReg_same _ _ _)
  · refine (getReg_global (s := setReg c fpReg t) (by rfl) hr).trans ?_
    rw [getReg_setReg, if_neg hne]

/-- A return from a state `c` that has of `s` what `Returned` looks at. -/
theorem Returned.transfer {t : Word} {s c u : State} (h : Returned t c u) (globals : c.globals = s.globals)
    (older : c.older = s.older) (fp : c.fp = s.fp) (mem : c.mem = s.mem) (prcb : c.prcbBase = s.prcbBase)
    (params : c.params = s.params) : Returned t s u where
  fromChip := fun e rest he => h.fromChip e rest (older.trans he)
  fromMemory := fun hn => by
    obtain ⟨ho, hr⟩ := h.fromMemory (older.trans hn)
    refine ⟨ho, fun i hi => (hr i ((scratchWord_congr prcb _).trans hi)).trans ?_⟩
    unfold wordAt
    rw [mem, params]
  fp := h.fp
  ip := h.ip
  globals := fun r hr hne => (h.globals r hr hne).trans (getReg_global globals hr)
  fps := h.fps.trans fp
  mem := h.mem.trans mem

theorem Returned.afterEvent {t : Word} {s u : State} (h : Returned t s u) (e : TraceEvent) :
    Returned t s (signalIfEnabled e u) where
  fromChip := by simpa using h.fromChip
  fromMemory := by simpa using h.fromMemory
  fp := by simpa using h.fp
  ip := by simpa using h.ip
  globals := by simpa using h.globals
  fps := by simpa using h.fps
  mem := by simpa using h.mem

theorem Returned.retired {t : Word} {s u : State} (h : Returned t s u) (a : Word) : Returned t s (retire a u) :=
  ⟨h.fromChip, h.fromMemory, h.fp, h.ip, h.globals, h.fps, h.mem⟩

/-! ### The supervisor return (R398, R399) -/

/-- The state a supervisor return is made from: user mode, with the trace-enable flag `te` (R398). -/
def inUser (te : Bool) (s : State) : State := setEm (setTe s te) false

theorem getBit_inUser (te : Bool) (s : State) (i : Nat) :
    getBit (inUser te s).pc i = if i = 1 then false else if i = 0 then te else getBit s.pc i := by
  have h : (inUser te s).pc = setBit (setBit s.pc 0 te) 1 false := rfl
  rw [h, getBit_setBit, getBit_setBit]
  by_cases h1 : i = 1
  · simp [h1]
  · by_cases h0 : i = 0 <;> simp [h0, h1]

theorem seenTe_inUser (te : Bool) (s : State) : seenTe (inUser te s) = te := by
  change getBit (inUser te s).pc 0 = te
  rw [getBit_inUser]
  simp

theorem ruleRet_supervisor {s : State} {te : Bool} (hem : pcEm s = true)
    (h : (getReg s pfpReg).setWidth 3 = (if te = true then 3#3 else 2#3)) :
    ruleRet s = (returnOp (inUser te s) >>= fun u => .ok (.done (returnEvent (supervisorEvent u)))) := by
  unfold ruleRet
  rw [h]
  cases te
  all_goals
    change supervisorReturn _ s = _
    unfold supervisorReturn
    rw [hem]
    rfl

theorem exec_ret_supervisor {s : State} {t : Word} {te : Bool} (hem : pcEm s = true)
    (ht : t = getReg s pfpReg &&& 0xFFFFFFC0#32) (hr : Returnable t s)
    (h : (getReg s pfpReg).setWidth 3 = (if te = true then 3#3 else 2#3)) :
    ∃ u, exec .ret s = .next (ended s.ip u) ∧ Returned t s u ∧ u.ac = s.ac ∧
      getBit u.pc 1 = false ∧ getBit u.pc 0 = te ∧
      getBit u.pc 10 = (getBit s.pc 10 || (te && (getBit s.tc 4 || getBit s.tc 6))) ∧
      (∀ i, i ≠ 0 → i ≠ 1 → i ≠ 10 → getBit u.pc i = getBit s.pc i) ∧
      (∀ i, getBit u.tc i = (getBit s.tc i || (getBit s.tc 4 && i == 20) || (getBit s.tc 6 && i == 22))) ∧
      SameSystem s u := by
  obtain ⟨globals, cur, older, ip, draws, hop, hret⟩ := returnOp_returned (c := inUser te s) (t := t) ht hr
  generalize hv : ({ inUser te s with
    globals := globals, cur := cur, older := older, ip := ip, draws := draws } : State) = v at hop hret
  have hvsys : SameSystem s v := by
    rw [← hv]
    constructor <;> rfl
  have hev : EventOnly .supervisor (inUser te s) (supervisorEvent v) :=
    EventOnly.congr (eventOnly_signalIfEnabled .supervisor v) (by rw [← hv]) (by rw [← hv]) (by rw [← hv])
      (by rw [← hv])
  have hseen : seenTe (supervisorEvent v) = seenTe (inUser te s) :=
    seenTe_of_event hev (by rw [← hv]; simp [supervisorEvent]) (by rw [← hv]; simp [supervisorEvent])
  obtain ⟨htc, hpc⟩ := hev.andThen hseen .ret
  have hpc : ∀ i, getBit (returnEvent (supervisorEvent v)).pc i =
      (getBit (inUser te s).pc i || (te && (getBit s.tc 4 || getBit s.tc 6) && i == 10)) := by
    intro i
    refine (hpc i).trans ?_
    rw [seenTe_inUser, Bool.or_comm (traceMode _ _)]
    rfl
  refine ⟨returnEvent (supervisorEvent v), ?_, ?_, ?_, ?_, ?_, ?_, fun i h0 h1 h10 => ?_, fun i => ?_, ?_⟩
  · change finish s (ruleRet s) = _
    rw [ruleRet_supervisor hem h, hop]
    exact finish_done s _
  · have hfrom : Returned t s v := Returned.transfer (c := inUser te s) hret rfl rfl rfl rfl rfl rfl
    exact (hfrom.afterEvent .supervisor).afterEvent .ret
  · rw [← hv]
    simp [returnEvent, supervisorEvent, inUser]
  · rw [hpc, getBit_inUser]
    simp
  · rw [hpc, getBit_inUser]
    simp
  · rw [hpc, getBit_inUser]
    simp
  · rw [hpc, getBit_inUser]
    simp [h0, h1, h10]
  · refine (htc i).trans ?_
    rw [Bool.or_assoc, Bool.or_comm (traceMode _ _ && _), ← Bool.or_assoc]
    rfl
  · exact (hvsys.trans (sameSystem_signalIfEnabled _ _)).trans (sameSystem_signalIfEnabled _ _)

/-! ### The interrupt return (R527) -/

/-- With no priority bit set no interrupt is pending (R518). -/
theorem checkPendingFrom_zero (s : State) : ∀ n, checkPendingFrom 0#32 s n = .ok s
  | 0 => rfl
  | n + 1 => by
    have h : getBit 0#32 (n + 1) = false := by simp [getBit]
    unfold checkPendingFrom
    dsimp only
    rw [h]
    exact checkPendingFrom_zero s n

theorem checkPending_zero {s : State} (hok : okWord s s.intTable) (h : wordAt s s.intTable.toNat = 0#32) :
    checkPending s = .ok s := by
  unfold checkPending
  rw [loadWord_of hok.1 hok.2.1 hok.2.2, h]
  exact checkPendingFrom_zero s 31

theorem loadWord_okWord {s : State} {a : Word} (h : okWord s a) : loadWord s a = .ok (wordAt s a.toNat, s) :=
  loadWord_of h.1 h.2.1 h.2.2

/-- The state an interrupt return is made from: its events signaled, AC and PC restored (R491, R527). -/
def restoredFrom (ac pc : Word) (s : State) : State := setPc { retOwnEvents s.ip s with ac := ac } pc

theorem ruleRet_interrupt {s : State} {rec : Word} (hem : pcEm s = true) (hrec : rec = getReg s fpReg &&& 0xFFFFFFC0#32)
    (h : (getReg s pfpReg).setWidth 3 = 7#3) (hlay : s.params.interruptRecord = defaultInterruptLayout)
    (hac : okWord s (rec - 12#32)) (hpc : okWord s (rec - 16#32))
    (hres : getBit (wordAt s (rec - 16#32).toNat) 9 = false) :
    ruleRet s = (returnOp (restoredFrom (wordAt s (rec - 12#32).toNat) (wordAt s (rec - 16#32).toNat) s) >>=
      fun u => .ok (.restored u true)) := by
  have ha : curFrame s - s.params.interruptRecord.size + s.params.interruptRecord.ac = rec - 12#32 := by
    rw [hlay, hrec]
    change curFrame s - 16#32 + 4#32 = curFrame s - 12#32
    bv_omega
  have hp : curFrame s - s.params.interruptRecord.size + s.params.interruptRecord.pc = rec - 16#32 := by
    rw [hlay, hrec]
    change curFrame s - 16#32 + 0#32 = curFrame s - 16#32
    bv_omega
  have hrest : ∀ t : State, restorePc (wordAt s (rec - 16#32).toNat) t = .ok (setPc t (wordAt s (rec - 16#32).toNat)) :=
    fun t => if_neg (by rw [resumeFlag, hres]; decide)
  unfold ruleRet
  rw [h]
  change interruptReturn s = _
  unfold interruptReturn
  rw [hem]
  change (loadWord s _ >>= _) = _
  rw [ha, loadWord_okWord hac]
  change (loadWord s _ >>= _) = _
  rw [hp, loadWord_okWord hpc]
  change (restorePc _ _ >>= _) = _
  rw [hrest]
  rfl

theorem exec_ret_interrupt {s : State} {rec t : Word} (hem : pcEm s = true)
    (hrec : rec = getReg s fpReg &&& 0xFFFFFFC0#32) (ht : t = getReg s pfpReg &&& 0xFFFFFFC0#32) (hr : Returnable t s)
    (h : (getReg s pfpReg).setWidth 3 = 7#3) (hlay : s.params.interruptRecord = defaultInterruptLayout)
    (hac : okWord s (rec - 12#32)) (hpc : okWord s (rec - 16#32))
    (hres : getBit (wordAt s (rec - 16#32).toNat) 9 = false) :
    ∃ v, v.pc = wordAt s (rec - 16#32).toNat ∧ v.ac = wordAt s (rec - 12#32).toNat ∧
      Returned t s v ∧ v.lastIp = s.ip ∧ SameSystem s v ∧ v.tc = (ended s.ip (signalIfEnabled .ret s)).tc ∧
      (s.status = .running → (procState v = .interrupted ↔ getBit v.pc 13 = true)) ∧
      exec .ret s = toOutcome (checkPending v) ∧
      (okWord s s.intTable → wordAt s s.intTable.toNat = 0#32 → exec .ret s = .next v) := by
  generalize hc : restoredFrom (wordAt s (rec - 12#32).toNat) (wordAt s (rec - 16#32).toNat) s = c
  have hcreg : ∀ r, getReg c r = getReg s r := fun r => by
    rw [← hc]
    exact (getReg_commonEvents _ _ _).trans (getReg_signalIfEnabled _ _ _)
  have hcsys : SameSystem s c := by
    rw [← hc]
    constructor <;> simp [restoredFrom, retOwnEvents, returnEvent]
  have hcold : c.older = s.older := by
    rw [← hc]
    simp [restoredFrom, retOwnEvents, returnEvent]
  obtain ⟨globals, cur, older, ip, draws, hop, hret⟩ := returnOp_returned (c := c) (t := t) (by rw [hcreg]; exact ht)
    ⟨fun e rest he => hr.1 e rest (hcold ▸ he), fun hn => hr.2 (hcold ▸ hn)⟩
  have hsys : SameSystem s (retire s.ip { c with
      globals := globals, cur := cur, older := older, ip := ip, draws := draws }) :=
    hcsys.trans (by constructor <;> rfl)
  have hexec : exec .ret s = toOutcome (checkPending (retire s.ip { c with
      globals := globals, cur := cur, older := older, ip := ip, draws := draws })) := by
    change finish s (ruleRet s) = _
    rw [ruleRet_interrupt hem hrec h hlay hac hpc hres, hc, hop]
    rfl
  have hmem : c.mem = s.mem := by
    rw [← hc]
    simp [restoredFrom, retOwnEvents, returnEvent]
  refine ⟨_, ?_, ?_, Returned.retired (hret.transfer ?_ hcold ?_ hmem hcsys.prcbBase hcsys.params) s.ip, rfl, hsys, ?_,
    fun hrun => ?_, hexec, fun hok hz => ?_⟩
  · rw [← hc]
    rfl
  · rw [← hc]
    rfl
  · rw [← hc]
    simp [restoredFrom, retOwnEvents, returnEvent]
  · rw [← hc]
    simp [restoredFrom, retOwnEvents, returnEvent]
  · rw [← hc]
    rfl
  · unfold procState
    rw [hsys.status, hrun]
    change (if pcState _ = true then ProcState.interrupted else .executing) = _ ↔ pcState _ = true
    split <;> simp_all
  · rw [hexec, checkPending_zero]
    · rfl
    · rw [hsys.intTable]
      exact ⟨hok.1, hok.2.1, (scratchWord_congr hsys.prcbBase _).trans hok.2.2⟩
    · rw [hsys.intTable, ← hz]
      refine wordAt_of_bytes (congrArg (·.byteOrder) hsys.params) fun k _ => ?_
      change memRead c.mem _ = _
      rw [hmem]

end Sys2Proof.Claims

namespace Sys2Proof.Proofs
open Sys2Proof.Machine Sys2Proof.Claims

/-- Settles O31: the supervisor return and the interrupt return. -/
theorem supervisorAndInterruptReturns : Obligations.SupervisorAndInterruptReturns := by
  unfold Obligations.SupervisorAndInterruptReturns
  intro s rec t hem hrec ht hr
  exact ⟨fun te h => exec_ret_supervisor hem ht hr h, fun h hlay hac hpc hres =>
    exec_ret_interrupt hem hrec ht hr h hlay hac hpc hres⟩

end Sys2Proof.Proofs
end

section
/-! PROOFS. Misaligned registers (R138), and the rule that each floating-point instruction of a list goes by. -/
namespace Sys2Proof.Claims
open Sys2Proof.Machine

/-! ### The rules of the lists of floating-point instructions -/

/-- The instructions with one floating-point source go by `arith1` of their format. -/
theorem exec_unary : ∀ p ∈ unary, ∀ a d s, ∃ o, exec (p.2 a d) s = finish s (arith1 p.1 o a d s) := by
  simp only [unary, List.forall_mem_cons, List.not_mem_nil, false_imp_iff, implies_true, and_true]
  and_intros
  all_goals exact fun _ _ _ => ⟨_, rfl⟩

/-- The instructions with two floating-point sources, but for the remainder, go by `arith2` of their format. -/
theorem exec_binary : ∀ p ∈ binary, ∀ a b d s, ∃ o, exec (p.2 a b d) s = finish s (arith2 p.1 o a b d s) := by
  simp only [binary, List.forall_mem_cons, List.not_mem_nil, false_imp_iff, implies_true, and_true]
  and_intros
  all_goals exact fun _ _ _ _ => ⟨_, rfl⟩

theorem exec_remainders : ∀ p ∈ remainders, ∀ a b d s, exec (p.2 a b d) s = finish s (ruleRem p.1 a b d s) := by
  simp only [remainders, List.forall_mem_cons, List.not_mem_nil, false_imp_iff, implies_true, and_true]
  exact ⟨fun _ _ _ _ => rfl, fun _ _ _ _ => rfl⟩

/-- The scale instructions go by `arith1`: the integer source is part of the outcome (R366). -/
theorem exec_scales : ∀ p ∈ scales, ∀ x b d s, ∃ o, exec (p.2 x b d) s = finish s (arith1 p.1 o b d s) := by
  simp only [scales, List.forall_mem_cons, List.not_mem_nil, false_imp_iff, implies_true, and_true]
  exact ⟨fun _ _ _ _ => ⟨_, rfl⟩, fun _ _ _ _ => ⟨_, rfl⟩⟩

/-- The conversions to integers, where the pair of a 64-bit destination is aligned, go by `ruleCvt` (R252). -/
theorem exec_toIntegers : ∀ p ∈ toIntegers, ∀ a n s, (p.1 = true → Reg.isEven n = true) →
    ∃ m, exec (p.2 a n) s = finish s (ruleCvt p.1 m a n s) := by
  have wide : ∀ (n : Reg) (r : Result Effect), (True → Reg.isEven n = true) →
      requireFpAligned (Reg.isEven n) r = r := fun _ _ h => if_pos (h trivial)
  simp only [toIntegers, List.forall_mem_cons, List.not_mem_nil, false_imp_iff, implies_true, and_true]
  exact ⟨fun _ _ _ _ => ⟨_, rfl⟩, fun _ _ s h => ⟨_, congrArg (finish s) (wide _ _ h)⟩, fun _ _ _ _ => ⟨_, rfl⟩,
    fun _ _ s h => ⟨_, congrArg (finish s) (wide _ _ h)⟩⟩

theorem exec_compares : ∀ p ∈ compares, ∀ a b s, exec (p.2.2 a b) s = finish s (ruleCompare p.1 p.2.1 a b s) := by
  simp only [compares, List.forall_mem_cons, List.not_mem_nil, false_imp_iff, implies_true, and_true]
  exact ⟨fun _ _ _ => rfl, fun _ _ _ => rfl, fun _ _ _ => rfl, fun _ _ _ => rfl⟩

/-! ### Misaligned registers -/

/-- An instruction with a misaligned integer pair or triple faults in the state before it (R138, R472). -/
theorem finish_requireAligned_false {ok : Bool} {s : State} {r : Result Effect} (h : ok = false) :
    finish s (requireAligned ok s r) = faultsWith (invalidOperand s) s := by
  rw [h]
  exact finish_early s (invalidOperandFault s)

/-- A floating-point instruction with a misaligned operand is refused by name (R138). -/
theorem finish_requireFpAligned_false {ok : Bool} {s : State} {r : Result Effect} (h : ok = false) :
    finish s (requireFpAligned ok r) = .refused .misalignedFpRegister := by
  rw [h]
  exact finish_refused s .misalignedFpRegister

theorem ruleRem_misaligned {f : Fmt} {a b : FpSrc} {d : FpDst} {s : State}
    (h : (a.fits f && b.fits f && d.fits f) = false) :
    ruleRem f a b d s = .error (.refused .misalignedFpRegister) := by
  unfold ruleRem arith2
  rw [h]
  rfl

theorem exec_unary_misaligned {p : Fmt × (FpSrc → FpDst → Instr)} (hp : p ∈ unary ++ [(.ext, .movre)]) {a : FpSrc}
    {d : FpDst} {s : State} (h : (a.fits p.1 && d.fits p.1) = false) :
    exec (p.2 a d) s = .refused .misalignedFpRegister := by
  rcases List.mem_append.mp hp with hp | hp
  · obtain ⟨o, ho⟩ := exec_unary p hp a d s
    rw [ho]
    exact finish_requireFpAligned_false h
  · cases List.mem_singleton.mp hp
    exact finish_requireFpAligned_false h

theorem exec_binary_misaligned {p : Fmt × (FpSrc → FpSrc → FpDst → Instr)}
    (hp : p ∈ binary ++ remainders ++ [(.ext, .cpysre), (.ext, .cpyrsre)]) {a b : FpSrc} {d : FpDst} {s : State}
    (h : (a.fits p.1 && b.fits p.1 && d.fits p.1) = false) :
    exec (p.2 a b d) s = .refused .misalignedFpRegister := by
  rcases List.mem_append.mp hp with hp | hp
  · rcases List.mem_append.mp hp with hp | hp
    · obtain ⟨o, ho⟩ := exec_binary p hp a b d s
      rw [ho]
      exact finish_requireFpAligned_false h
    · rw [exec_remainders p hp, ruleRem_misaligned h]
      exact finish_refused s .misalignedFpRegister
  · rcases List.mem_cons.mp hp with rfl | hp
    · exact finish_requireFpAligned_false h
    · cases List.mem_singleton.mp hp
      exact finish_requireFpAligned_false h

theorem exec_scales_misaligned {p : Fmt × (Src → FpSrc → FpDst → Instr)} (hp : p ∈ scales) {x : Src} {b : FpSrc}
    {d : FpDst} {s : State} (h : (b.fits p.1 && d.fits p.1) = false) :
    exec (p.2 x b d) s = .refused .misalignedFpRegister := by
  obtain ⟨o, ho⟩ := exec_scales p hp x b d s
  rw [ho]
  exact finish_requireFpAligned_false h

end Sys2Proof.Claims

namespace Sys2Proof.Proofs
open Sys2Proof.Machine Sys2Proof.Claims

/-- Settles O13: the alignment check comes before the rule of each of these instructions. -/
theorem misalignedRegisters : Obligations.MisalignedRegisters := by
  unfold Obligations.MisalignedRegisters
  intro s x y n m a b d
  exact ⟨fun h => finish_requireAligned_false h, fun h => finish_requireAligned_false h,
    fun h => finish_requireAligned_false h,
    fun h => ⟨finish_requireAligned_false h, finish_requireAligned_false h⟩,
    fun h => ⟨finish_requireAligned_false h, finish_requireAligned_false h⟩,
    fun _ hp h => exec_unary_misaligned hp h, fun _ hp h => exec_binary_misaligned hp h,
    fun _ hp h => exec_scales_misaligned hp h, fun h => finish_requireFpAligned_false h,
    fun h => ⟨finish_requireFpAligned_false h, finish_requireFpAligned_false h⟩,
    fun h => ⟨finish_requireFpAligned_false h, finish_requireFpAligned_false h⟩,
    fun h => finish_requireFpAligned_false h⟩

end Sys2Proof.Proofs
end

section
/-! PROOFS. What an instruction keeps, and the floating-point instructions with every exception masked (R199, R212). -/
namespace Sys2Proof.Claims
open Sys2Proof.Machine

/-! ### What writes keep -/

theorem Kept.trans {R : Reg → Prop} {F : BitVec 2 → Prop} {B : Nat → Prop} {s t u : State} (h : Kept R F B s t)
    (k : Kept R F B t u) : Kept R F B s u where
  regs := fun r hr => (k.regs r hr).trans (h.regs r hr)
  fps := fun i hi => (k.fps i hi).trans (h.fps i hi)
  bytes := fun a ha => (k.bytes a ha).trans (h.bytes a ha)
  cache := k.cache.trans h.cache
  system := h.system.trans k.system

theorem Kept.mono {R R' : Reg → Prop} {F F' : BitVec 2 → Prop} {B B' : Nat → Prop} {s u : State} (h : Kept R F B s u)
    (hR : ∀ r, R r → R' r) (hF : ∀ i, F i → F' i) (hB : ∀ a, B a → B' a) : Kept R' F' B' s u :=
  ⟨fun r hr => h.regs r (mt (hR r) hr), fun i hi => h.fps i (mt (hF i) hi), fun a ha => h.bytes a (mt (hB a) ha),
    h.cache, h.system⟩

/-- What changes neither registers, memory, the register cache nor the system registers keeps them. -/
theorem Kept.of_fields {R : Reg → Prop} {F : BitVec 2 → Prop} {B : Nat → Prop} {s u : State}
    (regs : ∀ r, getReg u r = getReg s r) (fps : ∀ k, getFp u k = getFp s k) (mem : u.mem = s.mem)
    (older : u.older = s.older) (system : SameSystem s u) :
    Kept R F B s u :=
  ⟨fun r _ => regs r, fun k _ => fps k, fun a _ => by rw [mem], older, system⟩

theorem kept_withAc {R : Reg → Prop} {F : BitVec 2 → Prop} {B : Nat → Prop} (s : State) (w : Word) :
    Kept R F B s { s with ac := w } :=
  Kept.of_fields (fun _ => rfl) (fun _ => rfl) rfl rfl (by constructor <;> rfl)

theorem kept_withIp {R : Reg → Prop} {F : BitVec 2 → Prop} {B : Nat → Prop} (s : State) (a : Word) :
    Kept R F B s { s with ip := a } :=
  Kept.of_fields (fun _ => rfl) (fun _ => rfl) rfl rfl (by constructor <;> rfl)

theorem kept_drawn {R : Reg → Prop} {F : BitVec 2 → Prop} {B : Nat → Prop} (s : State) (k : Nat) :
    Kept R F B s (drawn s k) :=
  Kept.of_fields (fun _ => rfl) (fun _ => rfl) rfl rfl (by constructor <;> rfl)

theorem kept_setReg {F : BitVec 2 → Prop} {B : Nat → Prop} (s : State) (d : Reg) (v : Word) :
    Kept (only d) F B s (setReg s d v) where
  regs := fun r hr => (getReg_setReg s d r v).trans (if_neg hr)
  fps := fun k _ => getFp_setReg s d v k
  bytes := fun a _ => by rw [setReg_mem]
  cache := setReg_older s d v
  system := SameSystem.of_fields

theorem kept_setRegLong {F : BitVec 2 → Prop} {B : Nat → Prop} (s : State) (d : Reg) (v : BitVec 64) :
    Kept (pairOf d) F B s (setRegLong s d v) :=
  ((kept_setReg s d _).mono (fun _ h => Or.inl h) (fun _ h => h) fun _ h => h).trans
    ((kept_setReg _ (d + 1#5) _).mono (fun _ h => Or.inr h) (fun _ h => h) fun _ h => h)

theorem kept_storeFp (f : Fmt) (d : FpDst) (bits : Ext) (s : State) :
    Kept (inDst f d) (isDst d) nothing s (storeFp (destFmt f d) d bits s) where
  regs := fun r hr => by
    refine getReg_storeFp _ d bits s r fun n hn => ?_
    subst hn
    cases f
    · exact ⟨hr, fun h => absurd rfl h, fun h => nomatch h⟩
    · exact ⟨mt .inl hr, fun _ => mt .inr hr, fun h => nomatch h⟩
    · exact ⟨mt .inl hr, fun _ => mt (fun h => .inr (.inl h)) hr, fun _ => mt (fun h => .inr (.inr h)) hr⟩
  fps := fun k hk => getFp_storeFp _ d bits s k hk
  bytes := fun a _ => by
    obtain ⟨g, c, fp, e⟩ := storeFp_eq (destFmt f d) d bits s
    rw [e]
  cache := by
    obtain ⟨g, c, fp, e⟩ := storeFp_eq (destFmt f d) d bits s
    rw [e]
  system := by
    obtain ⟨g, c, fp, e⟩ := storeFp_eq (destFmt f d) d bits s
    rw [e]
    constructor <;> rfl

/-! ### Exception flags -/

/-- Of AC, only bits of `P` are changed, and only from clear to set. -/
def SetsOnly (P : Nat → Prop) (s u : State) : Prop :=
  ∀ k, getBit u.ac k = getBit s.ac k ∨ (P k ∧ getBit u.ac k = true)

/-- The floating-point exception flags of AC (R33). -/
def isFpFlag (i : Nat) : Prop := i = fofBit ∨ i = fufBit ∨ i = fvfBit ∨ i = fzfBit ∨ i = fxfBit

theorem flagsOnly_iff (s u : State) : FlagsOnly s u ↔ SetsOnly isFpFlag s u := Iff.rfl

theorem SetsOnly.refl (P : Nat → Prop) (s : State) : SetsOnly P s s := fun _ => .inl rfl

theorem SetsOnly.setAcFlag {P : Nat → Prop} {s u : State} (h : SetsOnly P s u) {i : Nat} (hi : P i) :
    SetsOnly P s (setAcFlag u i) := by
  intro k
  rw [setAcFlag_ac, getBit_setBit]
  split
  · rename_i hk
    exact .inr ⟨hk.1 ▸ hi, rfl⟩
  · exact h k

/-- `t` is `s` with exception flags set at most. -/
structure Flagged (s t : State) : Prop where
  flags : SetsOnly isFpFlag s t
  rest : t = { s with ac := t.ac }

theorem Flagged.refl (s : State) : Flagged s s := ⟨SetsOnly.refl _ s, rfl⟩

theorem Flagged.setAcFlag {s t : State} (h : Flagged s t) {i : Nat} (hi : isFpFlag i) : Flagged s (setAcFlag t i) where
  flags := h.flags.setAcFlag hi
  rest := by
    unfold Machine.setAcFlag
    rw [h.rest]

/-- With every exception masked the outcome of an arithmetic instruction is stored, with flags set at most. -/
theorem storeOutcome_flagged {s : State} (hm : AllMasked s) (f : Fmt) (d : FpDst) (ops : List FVal) (o : FpOutcome) :
    ∃ bits t, storeOutcome f d ops o s = storeDone f d bits t ∧ Flagged s t := by
  obtain ⟨hom, hum, hvm, hzm, hxm⟩ := hm
  obtain ⟨bits, t, h, ht⟩ := storeOutcome_masked (f := f) (dst := d) (ops := ops) o hom hum hxm hvm hzm
  have hof : isFpFlag fofBit := .inl rfl
  have huf : isFpFlag fufBit := .inr (.inl rfl)
  have hvf : isFpFlag fvfBit := .inr (.inr (.inl rfl))
  have hzf : isFpFlag fzfBit := .inr (.inr (.inr (.inl rfl)))
  have hxf : isFpFlag fxfBit := .inr (.inr (.inr (.inr rfl)))
  refine ⟨bits, t, h, ?_⟩
  rcases ht with rfl | rfl | rfl | rfl | rfl | rfl
  · exact Flagged.refl _
  · exact (Flagged.refl s).setAcFlag hxf
  · exact ((Flagged.refl s).setAcFlag hof).setAcFlag hxf
  · exact ((Flagged.refl s).setAcFlag huf).setAcFlag hxf
  · exact (Flagged.refl s).setAcFlag hvf
  · exact (Flagged.refl s).setAcFlag hzf

/-- With every exception masked and operands that raise no reserved-encoding fault, an arithmetic instruction stores
a result, with flags set at most. -/
theorem arith_flagged {s : State} (hm : AllMasked s) {f : Fmt} {d : FpDst} {ops : List FVal} (o : FpOutcome)
    (h : ∀ a ∈ ops, isUnnamed a = false ∧ isReservedOperand s a = false) :
    ∃ bits t, arith f d ops o s = .ok (storeDone f d bits t) ∧ Flagged s t := by
  by_cases hs : ∃ a ∈ ops, isSnan a = true
  · obtain ⟨bits, t, hb, ht⟩ := storeOutcome_flagged hm f d ops .invalid
    exact ⟨bits, t, (arith_signaling (fun a ha => (h a ha).1) (fun a ha => (h a ha).2) hs).trans (congrArg _ hb), ht⟩
  · obtain ⟨bits, t, hb, ht⟩ := storeOutcome_flagged hm f d ops o
    refine ⟨bits, t, (arith_quiet fun a ha => ⟨(h a ha).1, (h a ha).2, ?_⟩).trans (congrArg _ hb), ht⟩
    exact Bool.eq_false_iff.mpr fun hn => hs ⟨a, ha, hn⟩

/-! ### Instructions with a floating-point destination -/

/-- The state after a result is stored and IP has gone on to the next instruction (R169, R200). -/
def storedFp (f : Fmt) (d : FpDst) (bits : Ext) (t : State) : State :=
  { storeFp (destFmt f d) d bits t with ip := (storeFp (destFmt f d) d bits t).ip + 4#32 }

theorem storedFp_ac (f : Fmt) (d : FpDst) (bits : Ext) (t : State) : (storedFp f d bits t).ac = t.ac := by
  obtain ⟨g, c, fp, e⟩ := storeFp_eq (destFmt f d) d bits t
  unfold storedFp
  rw [e]

theorem fpKept_storedFp (f : Fmt) (d : FpDst) (bits : Ext) {s t : State} (h : Flagged s t) :
    FpKept f d s (storedFp f d bits t) := by
  have hkept : Kept (inDst f d) (isDst d) nothing s t := by
    rw [h.rest]
    exact kept_withAc s t.ac
  have hfields : SameControls s (storedFp f d bits t) ∧ (storedFp f d bits t).ip = s.ip + 4#32 := by
    obtain ⟨g, c, fp, e⟩ := storeFp_eq (destFmt f d) d bits t
    unfold storedFp
    rw [e, h.rest]
    exact ⟨⟨rfl, rfl⟩, rfl⟩
  exact ⟨(hkept.trans (kept_storeFp f d bits t)).trans (kept_withIp _ _), hfields.1, hfields.2⟩

theorem FpKept.withAc {f : Fmt} {d : FpDst} {s u : State} (h : FpKept f d s u) (w : Word) :
    FpKept f d s { u with ac := w } :=
  ⟨h.kept.trans (kept_withAc u w), h.controls, h.next⟩

/-- An instruction whose rule stores a result completes. -/
theorem finish_storeDone {f : Fmt} {d : FpDst} {bits : Ext} {s t : State} (h : Flagged s t) :
    ∃ u, finish s (.ok (storeDone (destFmt f d) d bits t)) = .next (ended s.ip u) ∧ FlagsOnly s u ∧ FpKept f d s u :=
  ⟨storedFp f d bits t, finish_done s _, fun i => by rw [storedFp_ac]; exact h.flags i, fpKept_storedFp f d bits h⟩

theorem finish_arith1 {f : Fmt} {s : State} {a : FpSrc} {d : FpDst} (hm : AllMasked s) (ha : Usable f s a)
    (hal : (a.fits f && d.fits f) = true) (o : Fmt → Arg → FpOutcome) :
    ∃ u, finish s (arith1 f o a d s) = .next (ended s.ip u) ∧ FlagsOnly s u ∧ FpKept f d s u := by
  obtain ⟨bits, t, h, ht⟩ := arith_flagged hm (f := destFmt f d) (d := d) (ops := [fetch f s a])
    (o (destFmt f d) (toArg (fetch f s a))) (List.forall_mem_singleton.mpr ha)
  have hr : arith1 f o a d s = .ok (storeDone (destFmt f d) d bits t) := (if_pos hal).trans h
  rw [hr]
  exact finish_storeDone ht

theorem arith2_flagged {f : Fmt} {s : State} {a b : FpSrc} {d : FpDst} (hm : AllMasked s) (ha : Usable f s a)
    (hb : Usable f s b) (hal : (a.fits f && b.fits f && d.fits f) = true) (o : Arg → Arg → FpOutcome) :
    ∃ bits t, arith2 f o a b d s = .ok (storeDone (destFmt f d) d bits t) ∧ Flagged s t := by
  obtain ⟨bits, t, h, ht⟩ := arith_flagged hm (f := destFmt f d) (d := d) (ops := [fetch f s a, fetch f s b])
    (o (toArg (fetch f s a)) (toArg (fetch f s b)))
    (List.forall_mem_cons.mpr ⟨ha, List.forall_mem_singleton.mpr hb⟩)
  exact ⟨bits, t, (if_pos hal).trans h, ht⟩

/-- The remainder completes too, and may have written the arithmetic status (R286). -/
theorem finish_ruleRem {f : Fmt} {s : State} {a b : FpSrc} {d : FpDst} (hm : AllMasked s) (ha : Usable f s a)
    (hb : Usable f s b) (hal : (a.fits f && b.fits f && d.fits f) = true) :
    ∃ u, finish s (ruleRem f a b d s) = .next (ended s.ip u) ∧
      (∀ i, i < 3 ∨ 7 ≤ i → getBit u.ac i = getBit s.ac i ∨ (isFpFlag i ∧ getBit u.ac i = true)) ∧ FpKept f d s u := by
  obtain ⟨bits, t, h, ht⟩ := arith2_flagged hm ha hb hal (remOutcome s.params.remIsIeee)
  have hk := fpKept_storedFp f d bits ht
  have hf : SetsOnly isFpFlag s (storedFp f d bits t) := fun i => by
    rw [storedFp_ac]
    exact ht.flags i
  unfold ruleRem
  rw [h]
  cases remStatusOf s.params.remIsIeee (toArg (fetch f s a)) (toArg (fetch f s b)) with
  | none => exact ⟨_, finish_done s (storedFp f d bits t), fun i _ => hf i, hk⟩
  | some v =>
    refine ⟨_, finish_done s (setAs (storedFp f d bits t) v), fun i hi => ?_, hk.withAc _⟩
    rw [setAs_ac, getBit_setField, if_neg (by omega)]
    exact hf i

/-! ### Conversions to integers (R252) -/

/-- The registers of an integer destination. -/
def inInteger (wide : Bool) (n : Reg) : Reg → Prop := if wide = true then pairOf n else only n

/-- The flags a conversion to an integer may set (R252, R256). -/
def isCvtFlag (k : Nat) : Prop := k = fvfBit ∨ k = fxfBit ∨ k = iofBit

/-- What a conversion to an integer leaves, up to IP: its destination and its flags. -/
structure Converted (wide : Bool) (n : Reg) (s t : State) : Prop where
  flags : SetsOnly isCvtFlag s t
  ip : t.ip = s.ip
  controls : SameControls s t
  kept : Kept (inInteger wide n) nothing nothing s t

theorem converted_setInteger (wide : Bool) (n : Reg) (v : BitVec 64) (s : State) :
    Converted wide n s (setInteger wide n v s) := by
  cases wide with
  | false => exact ⟨fun k => .inl (by simp [setInteger]), by simp [setInteger], by simp [setInteger, SameControls],
      kept_setReg s n _⟩
  | true => exact ⟨fun k => .inl (by simp [setInteger, setRegLong]), by simp [setInteger, setRegLong],
      by simp [setInteger, setRegLong, SameControls], kept_setRegLong s n v⟩

namespace Converted
variable {wide : Bool} {n : Reg} {s t : State}

theorem setAcFlag (h : Converted wide n s t) {i : Nat} (hi : isCvtFlag i) : Converted wide n s (setAcFlag t i) :=
  ⟨h.flags.setAcFlag hi, h.ip, h.controls, h.kept.trans (kept_withAc t _)⟩

theorem drawn (h : Converted wide n s t) (k : Nat) : Converted wide n s (drawn t k) :=
  ⟨h.flags, h.ip, h.controls, h.kept.trans (kept_drawn t k)⟩

theorem finish_next4 (h : Converted wide n s t) :
    ∃ u, finish s (.ok (next4 t)) = .next (ended s.ip u) ∧ SetsOnly isCvtFlag s u ∧ u.ip = s.ip + 4#32 ∧
      SameControls s u ∧ Kept (inInteger wide n) nothing nothing s u :=
  ⟨_, finish_done s _, h.flags, congrArg (· + 4#32) h.ip, h.controls, h.kept.trans (kept_withIp t _)⟩

end Converted

/-- An integer overflow with its mask set: some result is stored, and the flag is set (R256). -/
theorem intOverflow_converted {s : State} (hiom : acBit s iomBit = true) (wide : Bool) (n : Reg) (v : Option Int) :
    ∃ t, intOverflow wide n v s = next4 t ∧ Converted wide n s t := by
  have hi : isCvtFlag iofBit := .inr (.inr rfl)
  unfold intOverflow
  rw [if_pos hiom]
  cases v with
  | none => exact ⟨_, rfl, ((converted_setInteger ..).drawn 2).setAcFlag hi⟩
  | some k => exact ⟨_, rfl, (converted_setInteger ..).setAcFlag hi⟩

theorem convertNumber_converted {s : State} (hiom : acBit s iomBit = true) (hxm : acBit s fxmBit = true) (wide : Bool)
    (n : Reg) (v : Rat) (k : Int) : ∃ t, convertNumber wide n v k s = next4 t ∧ Converted wide n s t := by
  unfold convertNumber
  dsimp only
  split
  · split
    · exact ⟨_, rfl, converted_setInteger ..⟩
    · exact ⟨_, rfl, (converted_setInteger ..).setAcFlag (.inr (.inl rfl))⟩
  · exact intOverflow_converted hiom wide n (some k)

theorem checkOperands_of {ops : List FVal} {s : State} {r : Result Effect}
    (h : ∀ a ∈ ops, isUnnamed a = false ∧ isReservedOperand s a = false) : checkOperands ops s r = r := by
  have h1 : ops.any isUnnamed = false := List.any_eq_false.mpr fun a ha => by simp [(h a ha).1]
  have h2 : ops.any (isReservedOperand s) = false := List.any_eq_false.mpr fun a ha => by simp [(h a ha).2]
  unfold checkOperands
  rw [h1, h2]
  rfl

/-- A conversion to an integer stores some result, whatever the class of its operand. -/
theorem ruleCvt_converted {s : State} {a : FpSrc} (hm : AllMasked s) (hiom : acBit s iomBit = true)
    (ha : Usable .real s a) (wide : Bool) (m : RoundMode) (n : Reg) :
    ∃ t, ruleCvt wide m a n s = .ok (next4 t) ∧ Converted wide n s t := by
  obtain ⟨-, -, hvm, -, hxm⟩ := hm
  unfold ruleCvt
  dsimp only
  rw [checkOperands_of (List.forall_mem_singleton.mpr ha)]
  cases toArg (fetch .real s a) with
  | nan =>
    dsimp only
    rw [if_pos hvm]
    exact ⟨_, rfl, (converted_setInteger ..).setAcFlag (.inl rfl)⟩
  | zero neg => exact ⟨_, rfl, converted_setInteger ..⟩
  | inf neg =>
    obtain ⟨t, h, ht⟩ := intOverflow_converted hiom wide n none
    exact ⟨t, congrArg Except.ok h, ht⟩
  | num v =>
    obtain ⟨t, h, ht⟩ := convertNumber_converted hiom hxm wide n v (roundGrid m v 1).floor
    exact ⟨t, congrArg Except.ok h, ht⟩

/-! ### Comparisons (R312, R314) -/

/-- A comparison writes the condition code, and sets the invalid-operation flag at most. -/
theorem ruleCompare_next4 {f : Fmt} {ordered : Bool} {s : State} {a b : FpSrc} (hm : AllMasked s) (ha : Usable f s a)
    (hb : Usable f s b) (hal : (a.fits f && b.fits f) = true) :
    ∃ t cc, ruleCompare f ordered a b s = .ok (next4 (setCc t cc)) ∧ (t = s ∨ t = setAcFlag s fvfBit) := by
  obtain ⟨-, -, hvm, -, -⟩ := hm
  unfold ruleCompare
  dsimp only
  rw [hal, checkOperands_of (List.forall_mem_cons.mpr ⟨ha, List.forall_mem_singleton.mpr hb⟩)]
  change ∃ t cc, (Except.ok _ : Result Effect) = _ ∧ _
  split
  · unfold unordered
    split
    · exact ⟨_, _, rfl, .inr rfl⟩
    · exact ⟨_, _, rfl, .inl rfl⟩
  · exact ⟨_, _, rfl, .inl rfl⟩

theorem finish_ruleCompare {f : Fmt} {ordered : Bool} {s : State} {a b : FpSrc} (hm : AllMasked s)
    (ha : Usable f s a) (hb : Usable f s b) (hal : (a.fits f && b.fits f) = true) :
    ∃ u, finish s (ruleCompare f ordered a b s) = .next (ended s.ip u) ∧
      (∀ k, 3 ≤ k → getBit u.ac k = getBit s.ac k ∨ (k = fvfBit ∧ getBit u.ac k = true)) ∧
      u.ip = s.ip + 4#32 ∧ SameControls s u ∧ Kept nothing nothing nothing s u := by
  obtain ⟨t, cc, h, ht⟩ := ruleCompare_next4 (ordered := ordered) hm ha hb hal
  have hf : SetsOnly (· = fvfBit) s t := by
    rcases ht with rfl | rfl
    · exact SetsOnly.refl _ _
    · exact (SetsOnly.refl _ s).setAcFlag rfl
  have hrest : t = { s with ac := t.ac } := by
    rcases ht with rfl | rfl <;> rfl
  rw [h]
  refine ⟨_, finish_done s _, fun k hk => ?_, ?_, ?_, ?_⟩
  · change getBit (setField t.ac 0 3 cc) k = _ ∨ _ ∧ getBit (setField t.ac 0 3 cc) k = _
    rw [getBit_setField, if_neg (by omega)]
    exact hf k
  · rw [hrest]
    rfl
  · rw [hrest]
    exact ⟨rfl, rfl⟩
  · rw [hrest]
    exact (kept_withAc s _).trans (kept_withIp _ _)

end Sys2Proof.Claims

namespace Sys2Proof.Proofs
open Sys2Proof.Machine Sys2Proof.Claims

/-- Settles O41: with every exception masked, each rule ends in the store of a result. -/
theorem fpInstructionsComplete : Obligations.FpInstructionsComplete := by
  unfold Obligations.FpInstructionsComplete
  intro s a b d x hm
  refine ⟨fun p hp ha hal => ?_, fun p hp ha hb hal => ?_, fun p hp ha hb hal => ?_, fun p hp hb hal => ?_, ?_,
    fun hal => ?_, fun n p hp ha hn hiom => ?_, fun p hp ha hb hal => ?_⟩
  · obtain ⟨o, h⟩ := exec_unary p hp a d s
    rw [h]
    exact finish_arith1 hm ha hal o
  · obtain ⟨o, h⟩ := exec_binary p hp a b d s
    obtain ⟨bits, t, hr, ht⟩ := arith2_flagged hm ha hb hal o
    rw [h, hr]
    exact finish_storeDone ht
  · rw [exec_remainders p hp]
    exact finish_ruleRem hm ha hb hal
  · obtain ⟨o, h⟩ := exec_scales p hp x b d s
    rw [h]
    exact finish_arith1 hm hb hal o
  · obtain ⟨bits, t, h, ht⟩ := storeOutcome_flagged hm (destFmt .real d) d [] (integerOutcome (srcValue s x).toInt)
    change ∃ u, finish s (.ok (storeOutcome _ _ _ _ s)) = _ ∧ _
    rw [h]
    exact finish_storeDone ht
  · obtain ⟨bits, t, h, ht⟩ := storeOutcome_flagged hm (destFmt .long d) d [] (integerOutcome (longInteger s x))
    change ∃ u, finish s (requireFpAligned _ (.ok (storeOutcome _ _ _ _ s))) = _ ∧ _
    rw [hal, h]
    exact finish_storeDone ht
  · obtain ⟨m, h⟩ := exec_toIntegers p hp a n s hn
    obtain ⟨t, hr, ht⟩ := ruleCvt_converted hm hiom ha p.1 m n
    rw [h, hr]
    exact ht.finish_next4
  · rw [exec_compares p hp]
    exact finish_ruleCompare hm ha hb hal

end Sys2Proof.Proofs
end

section
/-! PROOFS. The interrupt pins (R517, R528, R529): what receiving a vector leaves of the system registers, and the
order in which latched pins are serviced. -/
namespace Sys2Proof.Claims
open Sys2Proof.Machine

/-! ### What receiving a vector leaves -/

/-- A write of memory leaves the system registers. -/
theorem sameSystem_withMem (s : State) (mem : Memory) (stale : List Nat) :
    SameSystem s { s with mem := mem, stale := stale } := by
  constructor <;> rfl

theorem sameSystem_drawn (s : State) (k : Nat) : SameSystem s (drawn s k) := by
  constructor <;> rfl

theorem sameSystem_loadEntry {s : State} {b o : Word} {q : Word × State} (e : loadEntry s b o = .ok q) :
    SameSystem s q.2 := by
  obtain ⟨-, -, -, ⟨k, hk⟩, -⟩ := loadEntry_ok e
  rw [hk]
  exact sameSystem_drawn s k

theorem sameSystem_callOp {target b : Word} {status : BitVec 3} {s u : State} (e : callOp target b status s = .ok u) :
    SameSystem s u := by
  obtain ⟨-, a, ha, rfl⟩ := callOp_ok e
  exact (entered_calledFrom (target := target) (b := b) (status := status) ha).system

theorem sameSystem_storeFields {s u : State} {a : Word} {vs : List (Word × Word)} (e : storeFields s a vs = .ok u) :
    SameSystem s u := by
  obtain ⟨⟨mem, stale, rfl⟩, -⟩ := storeFields_ok e
  exact sameSystem_withMem s mem stale

theorem sameSystem_interruptEntry {v : Byte} {s u : State} (e : interruptEntry v s = .ok u) : SameSystem s u := by
  obtain ⟨b, a, s2, -, -, h1, h2, h3, h4⟩ := interruptEntry_ok e
  have hframe : SameSystem s2 (drawn (setPc (setReg s2 ripReg s.ip) (interruptPc v s)) 1) := SameSystem.of_fields
  exact ((((sameSystem_loadEntry h1).trans (sameSystem_storeFields h2)).trans hframe).trans
    (sameSystem_loadEntry h3)).trans ((sameSystem_drawn _ 1).trans (sameSystem_callOp h4))

theorem sameSystem_postInterrupt {v : Byte} {s u : State} (e : postInterrupt v s = .ok u) : SameSystem s u := by
  obtain ⟨b, s2, w, h1, h2, h3, h4⟩ := postInterrupt_ok e
  obtain ⟨-, ⟨j, hj⟩, -⟩ := loadByte_ok h1
  obtain ⟨-, rfl⟩ := storeByte_ok h2
  obtain ⟨-, -, ⟨k, hk⟩, -⟩ := loadWord_ok h3
  obtain ⟨-, -, rfl⟩ := storeWord_ok h4
  rw [hk, hj]
  exact SameSystem.of_fields

theorem sameSystem_receiveInterrupt {v : Byte} {s u : State} (e : receiveInterrupt v s = .ok u) : SameSystem s u := by
  unfold receiveInterrupt at e
  split at e
  · exact sameSystem_interruptEntry e
  · exact sameSystem_postInterrupt e

/-! ### The latch -/

theorem getLsbD_pin {k : Nat} (hk : k < 4) (j : Nat) : (1#4 <<< k).getLsbD j = (j == k) := by
  rw [Bool.eq_iff_iff, BitVec.getLsbD_shiftLeft, BitVec.getLsbD_one]
  simp
  omega

/-- The state with the latch of pin `k` cleared (R517). -/
def unlatch (k : Nat) (s : State) : State := { s with pinLatch := s.pinLatch &&& ~~~(1#4 <<< k) }

theorem getLsbD_unlatch {k : Nat} (hk : k < 4) (s : State) (j : Nat) :
    (unlatch k s).pinLatch.getLsbD j = (s.pinLatch.getLsbD j && j != k) := by
  change (s.pinLatch &&& ~~~(1#4 <<< k)).getLsbD j = _
  by_cases hj : j < 4
  · rw [BitVec.getLsbD_and, BitVec.getLsbD_not, getLsbD_pin hk]
    simp [hj, bne]
  · rw [BitVec.getLsbD_of_ge _ _ (by omega), BitVec.getLsbD_of_ge _ _ (by omega), Bool.false_and]

/-- A state that has of `s` everything but the latch of pin `k`. -/
theorem eq_unlatch {k : Nat} (hk : k < 4) {s s1 : State} (h : s1 = { s with pinLatch := s1.pinLatch })
    (hb : ∀ j, s1.pinLatch.getLsbD j = (s.pinLatch.getLsbD j && j != k)) : s1 = unlatch k s := by
  rw [h]
  unfold unlatch
  congr 1
  exact BitVec.eq_of_getLsbD_eq fun j _ => (hb j).trans (getLsbD_unlatch hk s j).symm

/-- In the order of the pins, the pins before `k` are those of a higher priority (R529). -/
theorem pinSequence_split (o : PinOrder) (k : Fin 4) :
    ∃ before after, pinSequence o = before ++ k.val :: after ∧
      ∀ j : Fin 4, j.val ∈ before → if o = .int0First then j < k else k < j := by
  refine ⟨(pinSequence o).takeWhile (· != k.val), ((pinSequence o).dropWhile (· != k.val)).tail, ?_⟩
  cases o <;> revert k <;> decide

theorem pinSequence_lt (o : PinOrder) : ∀ j ∈ pinSequence o, j < 4 := by cases o <;> decide

/-! ### Servicing the pins (R517) -/

/-- One pin: it is passed over, ignored, or its vector is received. -/
theorem servicePins_cons (k : Nat) (rest : List Nat) (s : State) :
    servicePins (k :: rest) s =
      if s.pinLatch.getLsbD k = true then
        (pinVector (unlatch k s) k).elim (servicePins rest (unlatch k s))
          fun v => receiveInterrupt v (unlatch k s) >>= servicePins rest
      else servicePins rest s := by
  rw [servicePins]
  change (if _ then (match pinVector (unlatch k s) k with | none => _ | some v => _) else _) = _
  cases pinVector (unlatch k s) k <;> rfl

/-- Pins that are not latched are passed over. -/
theorem servicePins_skip {rest : List Nat} {s : State} : ∀ {l : List Nat}, (∀ j ∈ l, s.pinLatch.getLsbD j = false) →
    servicePins (l ++ rest) s = servicePins rest s
  | [], _ => rfl
  | j :: l, h => by
    have hj := h j List.mem_cons_self
    have ih := servicePins_skip (rest := rest) fun i hi => h i (List.mem_cons_of_mem j hi)
    rw [List.cons_append, servicePins_cons, hj]
    exact ih

theorem servicePins_ignored {k : Nat} {rest : List Nat} {s : State} (hl : s.pinLatch.getLsbD k = true)
    (hv : pinVector (unlatch k s) k = none) : servicePins (k :: rest) s = servicePins rest (unlatch k s) := by
  rw [servicePins_cons, if_pos hl, hv]
  rfl

theorem servicePins_received {k : Nat} {rest : List Nat} {s : State} {v : Byte} (hl : s.pinLatch.getLsbD k = true)
    (hv : pinVector (unlatch k s) k = some v) :
    servicePins (k :: rest) s = receiveInterrupt v (unlatch k s) >>= servicePins rest := by
  rw [servicePins_cons, if_pos hl, hv]
  rfl

/-- Pin `k` is latched in `s`, and no pin before it in the order of the pins is (R529). -/
structure FirstPin (k : Fin 4) (s : State) : Prop where
  latched : s.pinLatch.getLsbD k.val = true
  first : ∀ j : Fin 4, s.pinLatch.getLsbD j.val = true → if s.params.pinOrder = .int0First then k ≤ j else j ≤ k

/-- The pins from the first latched one on, which the step services; a state with that pin's latch cleared, and the
others as they are, services the pins after it. -/
theorem FirstPin.serviced {k : Fin 4} {s : State} (h : FirstPin k s) :
    ∃ after, servicePins (pinSequence s.params.pinOrder) s = servicePins (k.val :: after) s ∧
      ∀ t : State, t.params = s.params → t.pinLatch = (unlatch k.val s).pinLatch →
        servicePins (pinSequence t.params.pinOrder) t = servicePins after t := by
  obtain ⟨before, after, hseq, hbefore⟩ := pinSequence_split s.params.pinOrder k
  have hclear : ∀ j ∈ before, s.pinLatch.getLsbD j = false := by
    intro j hj
    have hlt : j < 4 := pinSequence_lt s.params.pinOrder j (by rw [hseq]; exact List.mem_append_left _ hj)
    have hb := hbefore ⟨j, hlt⟩ hj
    rw [Bool.eq_false_iff]
    intro hl
    have hf := h.first ⟨j, hlt⟩ hl
    split at hf
    · rw [if_pos ‹_›] at hb
      exact absurd hb (not_lt.mpr hf)
    · rw [if_neg ‹_›] at hb
      exact absurd hb (not_lt.mpr hf)
  refine ⟨after, by rw [hseq, servicePins_skip hclear], fun t hp ht => ?_⟩
  have hskip : ∀ j ∈ before ++ [k.val], t.pinLatch.getLsbD j = false := by
    intro j hj
    rw [ht, getLsbD_unlatch k.isLt]
    rcases List.mem_append.mp hj with hj | hj
    · rw [hclear j hj, Bool.false_and]
    · rw [List.mem_singleton.mp hj, bne_self_eq_false, Bool.and_false]
  rw [hp, hseq, ← List.singleton_append, ← List.append_assoc]
  exact servicePins_skip hskip

/-- A pin whose request is ignored: the step is that of the state with its latch cleared (R528). -/
theorem FirstPin.prepare_ignored {k : Fin 4} {s : State} (h : FirstPin k s)
    (hv : pinVector (unlatch k.val s) k.val = none) : prepare s = prepare (unlatch k.val s) := by
  obtain ⟨after, hs, ht⟩ := h.serviced
  unfold prepare
  rw [hs, servicePins_ignored h.latched hv, ← ht (unlatch k.val s) rfl rfl]

/-- A pin with a vector: the step is that of the state which receiving the vector comes to (R517). -/
theorem FirstPin.prepare_received {k : Fin 4} {s : State} (h : FirstPin k s) {v : Byte}
    (hv : pinVector (unlatch k.val s) k.val = some v) :
    prepare s = receiveInterrupt v (unlatch k.val s) >>= prepare := by
  obtain ⟨after, hs, ht⟩ := h.serviced
  unfold prepare
  rw [hs, servicePins_received h.latched hv]
  cases hr : receiveInterrupt v (unlatch k.val s) with
  | error e => rfl
  | ok t =>
    have hsys := sameSystem_receiveInterrupt hr
    change _ = (servicePins (pinSequence t.params.pinOrder) t >>= traceStage)
    rw [ht t hsys.params hsys.pinLatch]
    rfl

theorem step_congr_prepare {s t : State} (hs : s.status = .running) (ht : t.status = .running)
    (h : prepare s = prepare t) : step s = step t := by
  unfold step
  rw [hs, ht, h]

theorem step_prepare_error {s : State} {e : Stop} (hs : s.status = .running) (h : prepare s = .error e) :
    step s = toOutcome (.error e) := by
  unfold step
  rw [hs, h]

/-! ### The vector of a pin (R528) -/

/-- INTA, pin 3 in INTR/INTA mode, is an output. -/
theorem pinVector_inta {s : State} (h : s.icr.extractLsb' 16 8 = 0#8) : pinVector s 3 = none := by
  have hm : intrMode s = true := by
    unfold intrMode icrVector
    rw [h]
    rfl
  unfold pinVector
  rw [hm]
  rfl

theorem pinVector_some {s : State} {k : Fin 4} {v : Byte}
    (h : if k = 2 ∧ s.icr.extractLsb' 16 8 = 0#8 then v = s.intrVector
      else (k = 3 → s.icr.extractLsb' 16 8 ≠ 0#8) ∧ v = s.icr.extractLsb' (8 * k.val) 8) :
    pinVector s k.val = some v := by
  have hmode : intrMode s = true ↔ s.icr.extractLsb' 16 8 = 0#8 := by
    unfold intrMode icrVector
    exact beq_iff_eq
  have h2 : k = 2 ↔ k.val = 2 := Fin.ext_iff
  have h3 : k = 3 ↔ k.val = 3 := Fin.ext_iff
  unfold pinVector
  split at h
  · rename_i hc
    rw [if_pos (by simp [hmode.mpr hc.2, h2.mp hc.1]), h]
  · rename_i hc
    rw [if_neg (by simpa [hmode, ← h2, and_comm] using hc),
      if_neg (by simpa [hmode, ← h3, imp_not_comm] using h.1), h.2]
    rfl

end Sys2Proof.Claims

namespace Sys2Proof.Proofs
open Sys2Proof.Machine Sys2Proof.Claims

/-- Settles O38: the first latched pin is serviced, and the state reached services the pins after it. -/
theorem pinsServiced : Obligations.PinsServiced := by
  unfold Obligations.PinsServiced
  refine ⟨fun s k => ⟨fun j => ?_, rfl, fun v => rfl⟩, fun s k hrun hl hfirst s1 h1 hb => ?_⟩
  · change (s.pinLatch ||| (1#4 <<< k.toNat)).getLsbD j = _
    rw [BitVec.getLsbD_or, getLsbD_pin k.isLt]
  · have hpin : FirstPin k s := ⟨hl, hfirst⟩
    obtain rfl := eq_unlatch k.isLt h1 hb
    refine ⟨fun hk hmode => ?_, fun v hv => ?_⟩
    · subst hk
      exact step_congr_prepare hrun hrun (hpin.prepare_ignored (pinVector_inta hmode))
    · have hprep := hpin.prepare_received (pinVector_some (s := unlatch k.val s) hv)
      refine ⟨fun t ht => step_congr_prepare hrun ((sameSystem_receiveInterrupt ht).status.trans hrun) ?_,
        fun e he => step_prepare_error hrun ?_⟩
      · rw [hprep, ht]
        rfl
      · rw [hprep, he]
        rfl

end Sys2Proof.Proofs
end

section
/-! PROOFS. The first stage of initialization (R571 to R579): the check sum, the pointers, and the state it leaves. -/
namespace Sys2Proof.Claims
open Sys2Proof.Machine

/-! ### The check sum (R573) -/

/-- One step of the check sum, in natural numbers: the sum modulo 2^32 and the carry out of it. -/
theorem addWithCarry_ofNat {t c t' c' : Nat} {x : Word} (ht : t < 2 ^ 32) (hc : c ≤ 1) (ht' : t' < 2 ^ 32)
    (h : t' + 2 ^ 32 * c' = t + x.toNat + c) :
    c' ≤ 1 ∧ addWithCarry (BitVec.ofNat 32 t) x (decide (c = 1)) = (BitVec.ofNat 32 t', decide (c' = 1)) := by
  have hx := x.isLt
  have hcarry : (decide (c = 1)).toNat = c := by
    rcases Nat.le_one_iff_eq_zero_or_eq_one.mp hc with rfl | rfl <;> rfl
  have hsum : (BitVec.ofNat 32 t).toNat + x.toNat + (decide (c = 1)).toNat = t' + 2 ^ 32 * c' := by
    rw [BitVec.toNat_ofNat, Nat.mod_eq_of_lt ht, hcarry, h]
  refine ⟨by omega, ?_⟩
  unfold addWithCarry
  dsimp only
  rw [hsum]
  refine Prod.ext ?_ ?_
  · apply BitVec.eq_of_toNat_eq
    simp only [BitVec.toNat_ofNat]
    omega
  · exact decide_eq_decide.mpr (by omega)

/-- The check sum over the words from `k` on follows the sums `t` and the carries `c` (R573). -/
theorem checksumFrom_ofNat {s : State} {t c : Nat → Nat} : ∀ (n k : Nat), t k < 2 ^ 32 → c k ≤ 1 →
    (∀ i, k ≤ i → i < k + n →
      t (i + 1) < 2 ^ 32 ∧ t (i + 1) + 2 ^ 32 * c (i + 1) = t i + (wordAt s (4 * i)).toNat + c i) →
    checksumFrom s (List.range' k n) (BitVec.ofNat 32 (t k), decide (c k = 1)) =
      (BitVec.ofNat 32 (t (k + n)), decide (c (k + n) = 1))
  | 0, _, _, _, _ => rfl
  | n + 1, k, ht, hc, h => by
    obtain ⟨hlt, hsum⟩ := h k le_rfl (by omega)
    obtain ⟨hc', hadd⟩ := addWithCarry_ofNat ht hc hlt hsum
    have ih := checksumFrom_ofNat n (k + 1) hlt hc' fun i hi hi' => h i (by omega) (by omega)
    rw [List.range'_succ, checksumFrom]
    change checksumFrom s _ (addWithCarry _ (wordAt s (4 * k)) _) = _
    rw [hadd, ih, show k + 1 + n = k + (n + 1) by omega]

theorem checksum_ofNat {s : State} {t c : Nat → Nat} (ht : t 0 = 0xFFFFFFFF) (hc : c 0 = 0)
    (h : ∀ i, i < 8 →
      t (i + 1) < 2 ^ 32 ∧ t (i + 1) + 2 ^ 32 * c (i + 1) = t i + (wordAt s (4 * i)).toNat + c i) :
    checksum s = BitVec.ofNat 32 (t 8) := by
  have hsum := checksumFrom_ofNat (s := s) (t := t) (c := c) 8 0 (by omega) (by omega) fun i _ hi => h i (by omega)
  rw [ht, hc] at hsum
  unfold checksum
  rw [List.range_eq_range']
  exact congrArg Prod.fst hsum

/-! ### The pointers (R579, R584) -/

theorem checkBoundary_of {n : Nat} {a : Word} (h : a.toNat % n = 0) : checkBoundary n a = .ok () :=
  if_neg (not_not.mpr h)

theorem checkBoundary_refused {n : Nat} {a : Word} (h : a.toNat % n ≠ 0) :
    checkBoundary n a = .error (.refused .misaligned) := if_pos h

theorem loadPointers_misaligned {sat prcb : Word} {s : State}
    (h : sat.toNat % 4096 ≠ 0 ∨ prcb.toNat % max 64 s.params.salignBytes ≠ 0) :
    loadPointers sat prcb s = .error (.refused .misaligned) := by
  unfold loadPointers
  by_cases hsat : sat.toNat % 4096 = 0
  · have hprcb : prcb.toNat % s.params.controlBlockBoundary ≠ 0 := h.resolve_left (not_not.mpr hsat)
    rw [checkBoundary_of hsat, checkBoundary_refused hprcb]
    rfl
  · rw [checkBoundary_refused hsat]
    rfl

/-- The tables stand on their boundaries and are readable where the scratch space is that of the new PRCB: `q` (R88,
R579, R584). -/
structure Bootable (q : State) (sat prcb satBase : Word) : Prop where
  satAligned : sat.toNat % 4096 = 0
  prcbAligned : prcb.toNat % max 64 q.params.salignBytes = 0
  satBaseAligned : satBase.toNat % 4096 = 0
  readSat : okEntry q sat 136#32
  readSysproc : okEntry q satBase 152#32
  readTrace : okEntry q satBase 168#32
  readIntTable : okEntry q prcb 20#32
  readIntStack : okEntry q prcb 24#32
  readFaultTable : okEntry q prcb 40#32

/-- The state with the pointers of the initial memory image cached (R579). -/
def withPointers (satBase prcb : Word) (s : State) : State :=
  { s with
    satBase := satBase, prcbBase := prcb
    sysprocBase := wordAt s (satBase + 152#32).toNat, traceBase := wordAt s (satBase + 168#32).toNat
    intTable := wordAt s (prcb + 20#32).toNat, intStack := wordAt s (prcb + 24#32).toNat
    faultTable := wordAt s (prcb + 40#32).toNat }

theorem loadPointers_of {sat prcb satBase : Word} {s : State} (hbase : satBase = wordAt s (sat + 136#32).toNat)
    (h : Bootable { s with prcbBase := prcb } sat prcb satBase) :
    loadPointers sat prcb s = .ok (withPointers satBase prcb s) := by
  unfold loadPointers
  rw [checkBoundary_of h.satAligned, checkBoundary_of (n := s.params.controlBlockBoundary) h.prcbAligned]
  dsimp only [bind, Except.bind]
  rw [loadEntry_okEntry h.readSat]
  dsimp only
  rw [show wordAt { s with prcbBase := prcb } (sat + 136#32).toNat = satBase from hbase.symm,
    checkBoundary_of h.satBaseAligned]
  dsimp only
  rw [loadEntry_okEntry h.readSysproc]
  dsimp only
  rw [loadEntry_okEntry h.readTrace]
  dsimp only
  rw [loadEntry_okEntry h.readIntTable]
  dsimp only
  rw [loadEntry_okEntry h.readIntStack]
  dsimp only
  rw [loadEntry_okEntry h.readFaultTable]
  rfl

/-! ### The state it leaves (R571) -/

/-- PC after the first stage: priority 31, interrupted (R577). -/
def bootPc (pc : Word) : Word := setBit (setField pc 16 5 31#5) 13 true

theorem getBit_bootPc (pc : Word) (i : Nat) :
    getBit (bootPc pc) i = if i = 13 ∨ (16 ≤ i ∧ i < 21) then true else getBit pc i := by
  unfold bootPc
  rw [getBit_setBit, getBit_setField]
  by_cases h13 : i = 13
  · simp [h13]
  · by_cases hf : 16 ≤ i ∧ i < 21
    · have hbit : ∀ j, j < 5 → (31#5).getLsbD j = true := by decide
      rw [if_neg (fun hc => h13 hc.1), if_pos (by omega), if_pos (.inr hf)]
      exact hbit (i - 16) (by omega)
    · rw [if_neg (fun hc => h13 hc.1), if_neg (by omega), if_neg (by omega)]

theorem bootPc_priority (pc : Word) : (bootPc pc).extractLsb' 16 5 = 31#5 := by
  have hbit : ∀ j, j < 5 → (31#5).getLsbD j = true := by decide
  refine extractLsb'_of_bits fun i hi => ?_
  rw [getBit_bootPc, if_pos (by omega), hbit i hi]

/-- The state that starts at `start` from `u`, whose pointers are loaded (R571). -/
def booted (start : Word) (u : State) : State :=
  { forgetExecuted (setReg u fpReg u.intStack) with
    pc := bootPc u.pc, ip := wordAligned start, pinLatch := 0#4, status := .running }

theorem firstStage_of {s u : State} (hsum : checksum s = 0#32)
    (h : loadPointers (wordAt s 0) (wordAt s 4) s = .ok u) : firstStage s = .ok (booted (wordAt s 12) u) := by
  unfold firstStage
  rw [if_neg (not_not.mpr hsum)]
  change (loadPointers (wordAt s 0) (wordAt s 4) s >>= _) = _
  rw [h]
  change Except.ok _ = Except.ok _
  unfold booted bootPc
  rw [setReg_pc]
  rfl

theorem firstStage_error {s : State} {e : Stop} (hsum : checksum s = 0#32)
    (h : loadPointers (wordAt s 0) (wordAt s 4) s = .error e) : firstStage s = .error e := by
  unfold firstStage
  rw [if_neg (not_not.mpr hsum)]
  change (loadPointers (wordAt s 0) (wordAt s 4) s >>= _) = _
  rw [h]
  rfl

theorem getReg_booted_fp (start : Word) (u : State) : getReg (booted start u) fpReg = u.intStack :=
  (getReg_global (s := setReg u fpReg u.intStack) rfl (by decide)).trans (getReg_setReg_same _ _ _)

theorem procState_running_interrupted {s : State} (h : s.status = .running) (h13 : getBit s.pc 13 = true) :
    procState s = .interrupted := by
  unfold procState
  rw [h]
  exact if_pos h13

theorem step_reset {s : State} (h : s.status = .reset) : step s = toOutcome (firstStage s) := by
  unfold step
  rw [h]

end Sys2Proof.Claims

namespace Sys2Proof.Proofs
open Sys2Proof.Machine Sys2Proof.Claims

/-- Settles O2: the check sum, and the first stage of initialization with each outcome of it. -/
theorem firstStageOfInitialization : Obligations.FirstStageOfInitialization := by
  unfold Obligations.FirstStageOfInitialization
  intro s hs
  refine ⟨fun t c ht hc h => checksum_ofNat ht hc h, fun hsum => ?_, fun hsum => ?_⟩
  · refine ⟨{ s with status := .stopped, failPin := true }, ?_, rfl, rfl, rfl, rfl⟩
    rw [step_reset hs]
    unfold firstStage
    rw [if_pos hsum]
    rfl
  · rintro _ _ _ satBase _ rfl rfl rfl rfl hbase
    refine ⟨fun hmis => ?_, fun hsat hprcb hsatBase h1 h2 h3 h4 h5 h6 => ?_⟩
    · rw [step_reset hs, firstStage_error hsum (loadPointers_misaligned hmis)]
      rfl
    · have hload := loadPointers_of hbase ⟨hsat, hprcb, hsatBase, h1, h2, h3, h4, h5, h6⟩
      refine ⟨booted (wordAt s 12) (withPointers satBase (wordAt s 4) s), ?_, rfl, getReg_booted_fp _ _, ?_⟩
      · rw [step_reset hs, firstStage_of hsum hload]
        rfl
      · have hstatus : (booted (wordAt s 12) (withPointers satBase (wordAt s 4) s)).status = .running := rfl
        have hpri : pcPriority (booted (wordAt s 12) (withPointers satBase (wordAt s 4) s)) = 31#5 :=
          bootPc_priority s.pc
        refine ⟨rfl, rfl, rfl, rfl, rfl, rfl, rfl, hstatus, procState_running_interrupted hstatus ?_, ?_,
          fun i h13 hi => ?_, rfl, rfl, rfl⟩
        · exact getBit_bootPc s.pc 13
        · rw [hpri]
          rfl
        · exact (getBit_bootPc s.pc i).trans (if_neg (by omega))

end Sys2Proof.Proofs
end

section
/-! PROOFS. The synchronous accesses (R451, R452). -/
namespace Sys2Proof.Claims
open Sys2Proof.Machine

/-! ### Addresses and the condition code -/

theorem isReserved_icrAddress : isReserved icrAddress = true := by decide

theorem ne_icrAddress {a : Word} (h : isReserved a = false) : a ≠ icrAddress := by
  rintro rfl
  rw [isReserved_icrAddress] at h
  cases h

theorem isReserved_wordAligned {a : Word} (h : isReserved a = false) : isReserved (wordAligned a) = false := by
  rw [isReserved_false_iff] at *
  rw [wordAligned_toNat]
  omega

theorem wordAligned_mod (a : Word) : (wordAligned a).toNat % 4 = 0 := by
  rw [wordAligned_toNat]
  omega

/-- A write of the condition code is all that changes AC (R30). -/
theorem onlyCc_of {cc : BitVec 3} {s u : State} (h : u.ac = setField s.ac 0 3 cc) : OnlyCc cc s u := by
  refine ⟨?_, fun i hi => ?_⟩
  · unfold acCc
    rw [h]
    refine extractLsb'_of_bits fun i hi => ?_
    rw [getBit_setField, if_pos (by omega)]
    simp
  · rw [h, getBit_setField, if_neg (by omega)]

/-! ### The read -/

/-- A synchronous access reads the interrupt-control register at its address, and memory outside the reserved space
(R53, R451). -/
theorem syncRead_of {s : State} {b : Word} (hal : b.toNat % 4 = 0) (h : b = icrAddress ∨ isReserved b = false) :
    ∃ w k, syncRead s b = .ok (w, drawn s k) ∧ (b = icrAddress → w = s.icr) ∧
      (isReserved b = false → readIsFree s b = false → w = wordAt s b.toNat) := by
  unfold syncRead
  by_cases hb : b = icrAddress
  · rw [if_pos hb]
    exact ⟨s.icr, 0, rfl, fun _ => rfl, fun hr => absurd hb (ne_icrAddress hr)⟩
  · rw [if_neg hb, checkAccess_of hal (h.resolve_left hb)]
    obtain ⟨⟨k, hk⟩, hdef⟩ := readWord_eq (readIsFree s b) s b
    refine ⟨(programRead s b).1, k, ?_, fun he => absurd he hb, fun _ hf => ?_⟩
    · rw [← hk]
      rfl
    · exact congrArg Prod.fst (hdef hf)

/-- The value a synchronous move writes, where it is defined: `v` (R452). -/
def SyncSource (s : State) (b v : Word) : Prop :=
  (b = icrAddress ∧ v = s.icr) ∨ (isReserved b = false ∧ (readIsFree s b = false → v = wordAt s b.toNat))

theorem SyncSource.read {s : State} {b v : Word} (h : SyncSource s b v) (hal : b.toNat % 4 = 0) :
    ∃ w k, syncRead s b = .ok (w, drawn s k) ∧ (b = icrAddress ∨ readIsFree s b = false → w = v) := by
  obtain ⟨w, k, hread, hicr, hmem⟩ := syncRead_of (s := s) hal (h.imp And.left And.left)
  refine ⟨w, k, hread, fun hdef => ?_⟩
  rcases h with ⟨hb, rfl⟩ | ⟨hr, hv⟩
  · exact hicr hb
  · have hfree := hdef.resolve_left (ne_icrAddress hr)
    rw [hmem hr hfree, hv hfree]

/-! ### `synld` (R451) -/

theorem exec_synld {s : State} {x : Src} {w : Word} {k : Nat} (d : Reg)
    (h : syncRead s (wordAligned (srcValue s x)) = .ok (w, drawn s k)) :
    exec (.synld x d) s = finish s (.ok (next4 (syncDone (setReg (drawn s k) d w)))) := by
  change finish s (ruleSynld x d s) = _
  unfold ruleSynld
  rw [h]

theorem exec_synld_of {s : State} {x : Src} {d : Reg}
    (h : wordAligned (srcValue s x) = icrAddress ∨ isReserved (srcValue s x) = false) :
    ∃ u, exec (.synld x d) s = .next (ended s.ip u) ∧
      (wordAligned (srcValue s x) = icrAddress → getReg u d = s.icr) ∧
      (isReserved (srcValue s x) = false → readIsFree s (wordAligned (srcValue s x)) = false →
        getReg u d = wordAt s (wordAligned (srcValue s x)).toNat) ∧
      OnlyCc 0b010#3 s u ∧ u.ip = s.ip + 4#32 ∧ SameControls s u ∧ Kept (only d) nothing nothing s u := by
  obtain ⟨w, k, hread, hicr, hmem⟩ := syncRead_of (s := s) (wordAligned_mod (srcValue s x))
    (h.imp_right isReserved_wordAligned)
  have hd : getReg (setReg (drawn s k) d w) d = w := getReg_setReg_same _ _ _
  refine ⟨_, (exec_synld d hread).trans (finish_done s _), fun hi => hd.trans (hicr hi),
    fun hr hf => hd.trans (hmem (isReserved_wordAligned hr) hf), onlyCc_of ?_, ?_, ?_, ?_⟩
  · simp [syncDone]
  · simp [syncDone]
  · simp [syncDone, SameControls]
  · exact (((kept_drawn s k).trans (kept_setReg _ d w)).trans (kept_withAc _ _)).trans (kept_withIp _ _)

/-! ### `synmov` (R452) -/

theorem exec_synmov_icr {s : State} {x y : Src} {w : Word} {k : Nat}
    (h : syncRead s (wordAligned (srcValue s y)) = .ok (w, drawn s k)) (ha : wordAligned (srcValue s x) = icrAddress) :
    exec (.synmov x y) s = finish s (.ok (next4 (syncDone { drawn s k with icr := w }))) := by
  change finish s (ruleSynmov x y s) = _
  unfold ruleSynmov
  dsimp only
  rw [h]
  dsimp only
  rw [if_pos ha]

theorem exec_synmov_mem {s : State} {x y : Src} {w : Word} {k : Nat}
    (h : syncRead s (wordAligned (srcValue s y)) = .ok (w, drawn s k))
    (ha : isReserved (wordAligned (srcValue s x)) = false) :
    exec (.synmov x y) s = finish s (.ok (next4 (syncDone (putWord (drawn s k) (wordAligned (srcValue s x)) w)))) := by
  change finish s (ruleSynmov x y s) = _
  unfold ruleSynmov
  dsimp only
  rw [h]
  dsimp only
  rw [if_neg (ne_icrAddress ha), storeWord_of w (wordAligned_mod _) ha]

/-- A word written to memory reads back, and no byte but its own changes; registers and system registers do not. -/
theorem putWord_kept {s : State} {a : Word} (w : Word) (hm : Memory.wf s.mem = true) (ha : a.toNat % 4 = 0) :
    wordAt (putWord s a w) a.toNat = w ∧ Kept nothing nothing (bytesFrom a.toNat 4) s (putWord s a w) := by
  obtain ⟨stale, hput⟩ := putWord_eq s a w
  have hlt := aligned_no_wrap ha
  rw [hput]
  refine ⟨memReadWord_memWriteWord_same w hm hlt, fun _ _ => rfl, fun _ _ => rfl, fun x hx => ?_, rfl,
    sameSystem_withMem s _ stale⟩
  unfold bytesFrom at hx
  exact (memRead_memWriteWord x w hm hlt).trans
    (by rw [if_neg (by omega), if_neg (by omega), if_neg (by omega), if_neg (by omega)])

theorem exec_synmov_of_icr {s : State} {x y : Src} {v : Word} (hsrc : SyncSource s (wordAligned (srcValue s y)) v)
    (ha : wordAligned (srcValue s x) = icrAddress) :
    ∃ u, exec (.synmov x y) s = .next (ended s.ip u) ∧
      (wordAligned (srcValue s y) = icrAddress ∨ readIsFree s (wordAligned (srcValue s y)) = false → u.icr = v) ∧
      OnlyCc 0b010#3 s u ∧ u.ip = s.ip + 4#32 ∧ SameControls s u ∧
      Kept nothing nothing nothing s { u with icr := s.icr } := by
  obtain ⟨w, k, hread, hw⟩ := hsrc.read (wordAligned_mod _)
  exact ⟨_, (exec_synmov_icr hread ha).trans (finish_done s _), hw, onlyCc_of rfl, rfl, ⟨rfl, rfl⟩,
    ((kept_drawn s k).trans (kept_withAc _ _)).trans (kept_withIp _ _)⟩

theorem exec_synmov_of_mem {s : State} {x y : Src} {v : Word} (hm : Memory.wf s.mem = true)
    (hsrc : SyncSource s (wordAligned (srcValue s y)) v) (ha : isReserved (wordAligned (srcValue s x)) = false) :
    ∃ u, exec (.synmov x y) s = .next (ended s.ip u) ∧
      (wordAligned (srcValue s y) = icrAddress ∨ readIsFree s (wordAligned (srcValue s y)) = false →
        wordAt u (wordAligned (srcValue s x)).toNat = v) ∧
      OnlyCc 0b010#3 s u ∧ u.ip = s.ip + 4#32 ∧ SameControls s u ∧
      Kept nothing nothing (bytesFrom (wordAligned (srcValue s x)).toNat 4) s u := by
  obtain ⟨w, k, hread, hw⟩ := hsrc.read (wordAligned_mod _)
  obtain ⟨hword, hkept⟩ := putWord_kept (s := drawn s k) w hm (wordAligned_mod (srcValue s x))
  refine ⟨_, (exec_synmov_mem hread ha).trans (finish_done s _), fun hdef => hword.trans (hw hdef), onlyCc_of ?_,
    ?_, ?_, (((kept_drawn s k).trans hkept).trans (kept_withAc _ _)).trans (kept_withIp _ _)⟩
  · simp [syncDone]
  · simp [syncDone]
  · simp [syncDone, SameControls]

end Sys2Proof.Claims

namespace Sys2Proof.Proofs
open Sys2Proof.Machine Sys2Proof.Claims

/-- Settles O17: the read, then the write to a register, to the interrupt-control register or to memory. -/
theorem synchronousAccesses : Obligations.SynchronousAccesses := by
  unfold Obligations.SynchronousAccesses
  refine ⟨fun s x d h => exec_synld_of h, ?_⟩
  rintro s x y _ _ v hm rfl rfl hsrc
  exact ⟨fun ha => exec_synmov_of_icr hsrc ha, fun ha => exec_synmov_of_mem hm hsrc ha⟩

end Sys2Proof.Proofs
end

section
/-! PROOFS. What the outside world does to the processor between two steps: it keeps the invariant, and what it writes
(R103, R530, R558, R570, R588). -/
namespace Sys2Proof.Claims
open Sys2Proof.Machine

/-! ### Writes of external agents (R103, R108) -/

/-- The words that are stale after a byte is written: the word it lies in joins them if it has been executed (R108). -/
theorem mem_markStale_stale (s : State) (a b : Nat) :
    b ∈ (markStale s a).stale ↔ b ∈ s.stale ∨ (b = a - a % 4 ∧ b ∈ s.executed) := by
  unfold markStale hasAddr
  dsimp only
  split
  · rename_i hexec
    have hexec : a - a % 4 ∈ s.executed := List.contains_iff_mem.mp hexec
    constructor
    · intro hb
      rcases mem_insertAddr.mp hb with rfl | hb
      · exact .inr ⟨rfl, hexec⟩
      · exact .inl hb
    · rintro (hb | ⟨rfl, -⟩)
      · exact mem_insertAddr.mpr (.inr hb)
      · exact mem_insertAddr.mpr (.inl rfl)
  · rename_i hexec
    refine (or_iff_left ?_).symm
    rintro ⟨rfl, hb⟩
    exact hexec (List.contains_iff_mem.mpr hb)

theorem staleRising_markStale {s : State} (h : addrsRising 0 s.stale = true) (a : Nat) :
    addrsRising 0 (markStale s a).stale = true := by
  unfold markStale
  dsimp only
  split
  · exact addrsRising_insert h (Nat.zero_le _)
  · exact h

/-- A write by an external agent changes the byte and the stale words only. -/
theorem externalWrite_eq (a : Word) (v : Byte) (s : State) :
    externalWrite a v s = { s with
      mem := memWrite s.mem a.toNat v
      stale := (markStale { s with mem := memWrite s.mem a.toNat v } a.toNat).stale } := by
  obtain ⟨stale, h⟩ := markStale_eq { s with mem := memWrite s.mem a.toNat v } a.toNat
  unfold externalWrite externalPut
  rw [h]

/-! ### The invariant -/

theorem inv_externalWrite {s : State} (h : Inv s) (a : Word) (v : Byte) : Inv (externalWrite a v s) := by
  rw [externalWrite_eq]
  exact { h with
    memory := memSorted_memWrite v h.memory (Nat.zero_le _) a.isLt
    staleRising := staleRising_markStale (s := { s with mem := memWrite s.mem a.toNat v }) h.staleRising _
    staleExecuted := fun b hb => by
      rcases (mem_markStale_stale _ _ _).mp hb with hb | ⟨-, hb⟩
      · exact h.staleExecuted b hb
      · exact hb }

theorem inv_iacSetBreakpoint {s : State} (h : Inv s) (x y : Option Word) : Inv (iacSetBreakpoint x y s) := by
  unfold iacSetBreakpoint
  split
  · exact { h with }
  · exact h

/-- RESET leaves nothing of the state but its memory (R570). -/
theorem inv_hardReset {s : State} (h : Inv s) : Inv (hardReset s) where
  memory := h.memory
  cached := Nat.zero_le _
  frames := fun _ he => absurd he List.not_mem_nil
  code := (isCodeAddress_iff 0#32).mpr rfl
  lastCode := (isCodeAddress_iff 0#32).mpr rfl
  trace := BitVec.zero_and
  fail := ⟨fun h => (nomatch h), fun h => (nomatch h)⟩
  delay := Nat.zero_le _
  executedRising := rfl
  staleRising := rfl
  staleExecuted := fun _ hb => hb

theorem isRunning_iff (s : State) : isRunning s = true ↔ isRunningState s := by
  unfold isRunning isRunningState
  cases s.status <;> simp

theorem live_of_isRunning {s : State} (h : Inv s) (hr : isRunning s = true) : Live s.params s :=
  ⟨h, (isRunning_iff s).mp hr, rfl⟩

theorem inv_iacInterrupt {s t : State} (h : Inv s) {v : Byte} (e : iacInterrupt v s = .ok t) : Inv t := by
  unfold iacInterrupt at e
  split at e
  · exact ((live_of_isRunning h ‹_›).receiveInterrupt e).inv
  · cases e
    exact h

theorem inv_iacTestPending {s t : State} (h : Inv s) (e : iacTestPending s = .ok t) : Inv t := by
  unfold iacTestPending at e
  split at e
  · exact ((live_of_isRunning h ‹_›).checkPending e).inv
  · cases e
    exact h

theorem inv_iacReinitialize {s t : State} (h : Inv s) {sat prcb ip : Word}
    (e : iacReinitialize sat prcb ip s = .ok t) : Inv t := by
  unfold iacReinitialize at e
  split at e
  · obtain ⟨u, hu, e⟩ := result_bind_ok e
    obtain ⟨_, _, _, _, _, _, _, _, rfl⟩ := loadPointers_ok hu
    cases e
    exact { h with
      code := wordAligned_idem ip, executedRising := rfl, staleRising := rfl, staleExecuted := fun _ hb => hb }
  · cases e
    exact h

/-! ### The messages (R530, R558, R588) -/

/-- A register given an address is enabled with it, one given none is disabled, and nothing else changes (R558). -/
theorem iacSetBreakpoint_of {s : State} (h : isRunning s = true) (x y : Option Word) :
    iacSetBreakpoint x y s =
      { s with bp0 := ⟨x.isSome, x.getD s.bp0.ip⟩, bp1 := ⟨y.isSome, y.getD s.bp1.ip⟩ } := if_pos h

theorem iacReinitialize_error {s : State} {sat prcb : Word} {e : Stop} (ip : Word) (hr : isRunning s = true)
    (h : loadPointers sat prcb s = .error e) : iacReinitialize sat prcb ip s = .error e := by
  unfold iacReinitialize
  rw [if_pos hr, h]
  rfl

/-- The reinitialize message loads the pointers and IP, and forgets which words have been executed (R588). -/
theorem iacReinitialize_of {s u : State} {sat prcb : Word} (ip : Word) (hr : isRunning s = true)
    (h : loadPointers sat prcb s = .ok u) :
    iacReinitialize sat prcb ip s = .ok { forgetExecuted u with ip := wordAligned ip } := by
  unfold iacReinitialize
  rw [if_pos hr, h]
  rfl

end Sys2Proof.Claims

namespace Sys2Proof.Proofs
open Sys2Proof.Machine Sys2Proof.Claims

/-- Settles O9: the actions on a running processor are operations of a step, the others change a field or two. -/
theorem hostActionsKeepInv : Obligations.HostActionsKeepInv := by
  unfold Obligations.HostActionsKeepInv
  intro s t h
  exact ⟨fun _ => { h with }, fun _ => { h with }, inv_externalWrite h, inv_iacSetBreakpoint h, inv_hardReset h,
    fun _ => inv_iacInterrupt h, inv_iacTestPending h, fun _ _ _ => inv_iacReinitialize h⟩

/-- Settles O10: RESET, each message to a running processor and to one that is not, and the external write. -/
theorem hostActionsEffects : Obligations.HostActionsEffects := by
  unfold Obligations.HostActionsEffects
  intro s
  refine ⟨rfl, rfl, rfl, fun hrun => ?_, fun hrun => ?_, fun a v hm => ?_⟩
  · have hr := (isRunning_iff s).mpr hrun
    refine ⟨fun x y => ⟨_, iacSetBreakpoint_of hr x y, rfl, ?_, ?_, ?_, ?_⟩, fun v => if_pos hr, if_pos hr, ?_⟩
    · rintro a rfl
      rfl
    · rintro rfl
      rfl
    · rintro a rfl
      rfl
    · rintro rfl
      rfl
    · rintro sat prcb ip satBase _ rfl
      refine ⟨fun hmis => iacReinitialize_error ip hr (loadPointers_misaligned hmis),
        fun hsat hprcb hbase hsatBase h1 h2 h3 h4 h5 h6 => ?_⟩
      exact iacReinitialize_of ip hr (loadPointers_of hbase ⟨hsat, hprcb, hsatBase, h1, h2, h3, h4, h5, h6⟩)
  · have hr : ¬ isRunning s = true := mt (isRunning_iff s).mp hrun
    exact ⟨fun _ _ => if_neg hr, fun _ => if_neg hr, if_neg hr, fun _ _ _ => if_neg hr⟩
  · refine ⟨_, externalWrite_eq a v s, rfl, ?_, fun b hb => ?_, mem_markStale_stale _ _⟩
    · exact (memRead_memWrite _ _ v hm).trans (if_pos rfl)
    · exact (memRead_memWrite _ _ v hm).trans (if_neg hb)

end Sys2Proof.Proofs
end

section
/-! PROOFS. Loads and stores (R445 to R450): which accesses are carried out and which refused (R82, R89), what a run of
reads leaves in the registers and a run of writes in memory. -/
namespace Sys2Proof.Claims
open Sys2Proof.Machine

/-! ### The check of an access -/

/-- An aligned access outside the reserved space ends outside it: the space starts at a multiple of the alignment. -/
theorem aligned_end {align a : Nat} (hd : align ∣ 0xFF000000) (ha : a % align = 0) (hlt : a < 0xFF000000) :
    a + align ≤ 0xFF000000 := by
  have hgap : align ∣ 0xFF000000 - a := Nat.dvd_sub hd (Nat.dvd_of_mod_eq_zero ha)
  have := Nat.le_of_dvd (by omega) hgap
  omega

/-- An access that `DataAllowed` allows passes the check, whatever the policy (R82, R89). -/
theorem checkData_of {s : State} {align n : Nat} {a : Word} (h : DataAllowed s align n a) (hd : align ∣ 0xFF000000)
    (hn : n ≤ align) (hpos : 0 < n) : checkData s.params.dataAlign align n a = .ok () := by
  obtain ⟨hres, halign⟩ := h
  have hlt := (isReserved_false_iff a).mp hres
  cases hp : s.params.dataAlign with
  | refuse =>
    rw [hp] at halign
    exact checkAccess_of (halign.resolve_right fun h => nomatch h.1) hres
  | split =>
    have hlast : isReserved (a + BitVec.ofNat 32 (n - 1)) = false := by
      rcases halign with ha | ⟨-, hlast⟩
      · have hend := aligned_end hd ha hlt
        rw [isReserved_false_iff, BitVec.toNat_add, BitVec.toNat_ofNat]
        omega
      · exact hlast
    unfold checkData
    dsimp only
    rw [hres, hlast]
    rfl

/-- An access off its natural alignment is refused by the default policy (R89). -/
theorem checkData_misaligned {align n : Nat} {a : Word} (ha : a.toNat % align ≠ 0) :
    checkData .refuse align n a = .error (.refused .misaligned) := if_pos ha

theorem checkAccess_reserved {align : Nat} {a : Word} (ha : a.toNat % align = 0) (hr : isReserved a = true) :
    checkAccess align a = .error (.refused .reservedSpace) := by
  unfold checkAccess
  rw [if_neg (not_not.mpr ha), if_pos hr]

/-- An access to the reserved space, in whole or, where it is split, in part, is refused (R82). -/
theorem checkData_reserved {p : DataAlign} {align n : Nat} {a : Word}
    (h : (isReserved a = true ∧ (a.toNat % align = 0 ∨ p = .split)) ∨
      (p = .split ∧ isReserved (a + BitVec.ofNat 32 (n - 1)) = true)) :
    checkData p align n a = .error (.refused .reservedSpace) := by
  cases p with
  | refuse =>
    obtain ⟨hr, ha⟩ := h.resolve_right fun h => nomatch h.1
    exact checkAccess_reserved (ha.resolve_right fun h => nomatch h) hr
  | split =>
    refine if_pos ?_
    rw [Bool.or_eq_true]
    exact h.imp And.left And.right

/-- The bytes of an access lie below 2^32: the reserved space leaves room for them (R90). -/
theorem DataAllowed.no_wrap {s : State} {align n : Nat} {a : Word} (h : DataAllowed s align n a) (hn : n ≤ 16) :
    a.toNat + n ≤ 2 ^ 32 := by
  have := (isReserved_false_iff a).mp h.1
  omega

/-! ### Refused loads and stores -/

theorem finish_load_refused {s : State} {n align : Nat} {m : Addr} {r : Refusal} (d : Reg)
    (h : checkData s.params.dataAlign align (4 * n) (effectiveAddr s m) = .error (.refused r)) :
    finish s (ruleLoad n align m d s) = .refused r := by
  unfold ruleLoad
  dsimp only
  rw [h]
  rfl

theorem finish_store_refused {s : State} {n align : Nat} {m : Addr} {r : Refusal} (d : Reg)
    (h : checkData s.params.dataAlign align (4 * n) (effectiveAddr s m) = .error (.refused r)) :
    finish s (ruleStore n align d m s) = .refused r := by
  unfold ruleStore
  dsimp only
  rw [h]
  rfl

/-- A word load and a word store whose access the check refuses. -/
theorem exec_word_refused {s : State} {m : Addr} {r : Refusal} (d : Reg)
    (h : checkData s.params.dataAlign 4 4 (effectiveAddr s m) = .error (.refused r)) :
    exec (.ld m d) s = .refused r ∧ exec (.st d m) s = .refused r :=
  ⟨finish_load_refused d h, finish_store_refused d h⟩

theorem requireAligned_true {ok : Bool} {s : State} {e : Result Effect} (h : ok = true) :
    requireAligned ok s e = e := if_pos h

theorem exec_long_refused {s : State} {m : Addr} {r : Refusal} {d : Reg} (hd : Reg.isEven d = true)
    (h : checkData s.params.dataAlign 8 8 (effectiveAddr s m) = .error (.refused r)) :
    exec (.ldl m d) s = .refused r ∧ exec (.stl d m) s = .refused r := by
  change finish s (requireAligned _ s _) = _ ∧ finish s (requireAligned _ s _) = _
  rw [requireAligned_true hd, requireAligned_true hd]
  exact ⟨finish_load_refused d h, finish_store_refused d h⟩

theorem exec_triple_refused {s : State} {m : Addr} {r : Refusal} {d : Reg} (hd : Reg.isQuad d = true)
    (h : checkData s.params.dataAlign 16 12 (effectiveAddr s m) = .error (.refused r)) :
    exec (.ldt m d) s = .refused r ∧ exec (.stt d m) s = .refused r := by
  change finish s (requireAligned _ s _) = _ ∧ finish s (requireAligned _ s _) = _
  rw [requireAligned_true hd, requireAligned_true hd]
  exact ⟨finish_load_refused d h, finish_store_refused d h⟩

/-! ### Loads -/

/-- The reads of a load see no register but the frame pointer (R100, R587). -/
theorem readIsFree_congr {s t : State} (hfp : getReg t fpReg = getReg s fpReg) (hold : t.older = s.older)
    (hprcb : t.prcbBase = s.prcbBase) (a : Word) : readIsFree t a = readIsFree s a := by
  unfold readIsFree curFrame
  rw [hfp, hold, scratchWord_congr hprcb]

/-- A register loaded from the word at `a` (R86): nothing but that register is changed. -/
theorem loadReg_eq (s : State) (a : Word) (r : Reg) :
    ∃ w k, setReg (programRead s a).2 r (programRead s a).1 = setReg (drawn s k) r w ∧
      (readIsFree s a = false → w = wordAt s a.toNat) := by
  obtain ⟨⟨k, hk⟩, hdef⟩ := readWord_eq (readIsFree s a) s a
  exact ⟨(programRead s a).1, k, congrArg (setReg · r _) hk, fun hf => congrArg Prod.fst (hdef hf)⟩

/-- The `k`-th place after the first is the one `k + 1` places on, for registers and for the addresses of words. -/
theorem add_ofNat_succ {n : Nat} (x c : BitVec n) (j k : Nat) (hc : c = BitVec.ofNat n j) :
    x + c + BitVec.ofNat n (j * k) = x + BitVec.ofNat n (j * (k + 1)) := by
  rw [hc, BitVec.add_assoc, ← BitVec.ofNat_add, Nat.mul_succ, Nat.add_comm (j * k)]

theorem reg_succ_add (r : Reg) (k : Nat) : r + 1#5 + BitVec.ofNat 5 k = r + BitVec.ofNat 5 (k + 1) := by
  have h := add_ofNat_succ r 1#5 1 k rfl
  rwa [Nat.one_mul, Nat.one_mul] at h

/-- A register is another one than those up to 31 places after it. -/
theorem reg_ne_later (r : Reg) {k : Nat} (h0 : 0 < k) (hk : k < 32) : r ≠ r + BitVec.ofNat 5 k := by
  intro h
  have := congrArg BitVec.toNat (BitVec.add_right_eq_self.mp h.symm)
  simp at this
  omega

/-- What a load of `n` words from `a` on into the registers from `r` on leaves, `u`, once IP has gone on by `len`
(R86, R100). -/
structure Loaded (n : Nat) (a : Word) (r : Reg) (len : Word) (s u : State) : Prop where
  words : ∀ k, k < n → readIsFree s (a + BitVec.ofNat 32 (4 * k)) = false →
    getReg u (r + BitVec.ofNat 5 k) = wordAt s (a + BitVec.ofNat 32 (4 * k)).toNat
  ip : u.ip = s.ip + len
  ac : u.ac = s.ac
  controls : SameControls s u
  kept : Kept (fun x => ∃ k, k < n ∧ x = r + BitVec.ofNat 5 k) nothing nothing s u

/-- Words outside what is changed are read alike. -/
theorem Kept.wordAt_eq {R : Reg → Prop} {F : BitVec 2 → Prop} {s u : State} (h : Kept R F nothing s u) (x : Nat) :
    wordAt u x = wordAt s x :=
  wordAt_of_bytes (congrArg (·.byteOrder) h.system.params) fun _ _ => h.bytes _ fun hn => hn

/-- A run of reads loads its words, where no register but the last is the frame pointer: each read sees the frame and
the cache as they were before the first. -/
theorem loadRegs_loaded (len : Word) : ∀ (n : Nat) (a : Word) (r : Reg) (s : State), n ≤ 32 →
    (∀ k, k + 1 < n → r + BitVec.ofNat 5 k ≠ fpReg) →
    Loaded n a r len s { loadRegs n a r s with ip := (loadRegs n a r s).ip + len }
  | 0, _, _, s, _, _ => ⟨fun _ hk => absurd hk (Nat.not_lt_zero _), rfl, rfl, ⟨rfl, rfl⟩, kept_withIp s _⟩
  | n + 1, a, r, s, hn, hfp => by
    obtain ⟨w, j, hone, hw⟩ := loadReg_eq s a r
    have hstep : loadRegs (n + 1) a r s = loadRegs n (a + 4#32) (r + 1#5) (setReg (drawn s j) r w) :=
      congrArg (loadRegs n (a + 4#32) (r + 1#5)) hone
    have hkept : Kept (only r) nothing nothing s (setReg (drawn s j) r w) :=
      (kept_drawn s j).trans (kept_setReg _ r w)
    obtain ⟨hwords, hip, hac, ⟨hpc, htc⟩, hrest⟩ := loadRegs_loaded len n (a + 4#32) (r + 1#5)
      (setReg (drawn s j) r w) (by omega) fun k hk => by
        rw [reg_succ_add]
        exact hfp (k + 1) (by omega)
    rw [hstep]
    refine ⟨?_, by simpa using hip, by simpa using hac, ⟨by simpa using hpc, by simpa using htc⟩, ?_⟩
    · intro k hk hfree
      rcases k with _ | k
      · simp only [Nat.mul_zero, BitVec.add_zero] at hfree ⊢
        rw [← hw hfree]
        refine (hrest.regs r ?_).trans (getReg_setReg_same _ _ _)
        rintro ⟨i, hi, hr⟩
        rw [reg_succ_add] at hr
        exact reg_ne_later r (Nat.succ_pos i) (by omega) hr
      · have hne : fpReg ≠ r := by
          have := hfp 0 (by omega)
          rwa [BitVec.add_zero, ne_comm] at this
        have hk' := hwords k (by omega)
        rw [add_ofNat_succ a 4#32 4 k rfl, reg_succ_add, hkept.wordAt_eq,
          readIsFree_congr (hkept.regs _ hne) hkept.cache hkept.system.prcbBase] at hk'
        exact hk' hfree
    · refine (hkept.mono ?_ (fun _ h => h) fun _ h => h).trans (hrest.mono ?_ (fun _ h => h) fun _ h => h)
      · rintro x rfl
        exact ⟨0, by omega, (BitVec.add_zero _).symm⟩
      · rintro x ⟨k, hk, rfl⟩
        exact ⟨k + 1, by omega, reg_succ_add r k⟩

/-- A load that is carried out: IP goes on, and the registers are loaded. -/
theorem finish_load_of {s : State} {n align : Nat} {m : Addr} {d : Reg}
    (h : DataAllowed s align (4 * n) (effectiveAddr s m)) (hd : align ∣ 0xFF000000) (hn : 4 * n ≤ align) (hpos : 0 < n)
    (h16 : align ≤ 16) (hfp : ∀ k, k + 1 < n → d + BitVec.ofNat 5 k ≠ fpReg) :
    ∃ u, finish s (ruleLoad n align m d s) = .next (ended s.ip u) ∧
      Loaded n (effectiveAddr s m) d (memLength m) s u := by
  refine ⟨_, ?_, loadRegs_loaded (memLength m) n _ d s (by omega) hfp⟩
  unfold ruleLoad
  dsimp only
  rw [checkData_of h hd hn (by omega)]
  rfl

/-- The word `k` places on lies at the address after it: the access does not wrap (R90). -/
theorem Loaded.word {n align : Nat} {a : Word} {r : Reg} {len : Word} {s u : State} (h : Loaded n a r len s u)
    (ha : DataAllowed s align (4 * n) a) (hn : 4 * n ≤ 16) (k : Nat) (hk : k < n)
    (hfree : readIsFree s (a + BitVec.ofNat 32 (4 * k)) = false) :
    getReg u (r + BitVec.ofNat 5 k) = wordAt s (a.toNat + 4 * k) := by
  have := ha.no_wrap hn
  rw [h.words k hk hfree, BitVec.toNat_add, BitVec.toNat_ofNat]
  congr 1
  omega

theorem Loaded.first {n : Nat} {a : Word} {r : Reg} {len : Word} {s u : State} (h : Loaded n a r len s u) (hn : 0 < n)
    (hfree : readIsFree s a = false) : getReg u r = wordAt s a.toNat := by
  have := h.words 0 hn
  rw [Nat.mul_zero, BitVec.add_zero, BitVec.add_zero] at this
  exact this hfree

/-- The frame pointer is no even register, and none of the first two of a triple (R27). -/
theorem isEven_ne_fp {r : Reg} (h : Reg.isEven r = true) : r ≠ fpReg := by
  rintro rfl
  exact absurd h (by decide)

theorem isQuad_ne_fp {r : Reg} (h : Reg.isQuad r = true) : r ≠ fpReg ∧ r + 1#5 ≠ fpReg := by
  revert r
  decide

theorem exec_ld_of {s : State} {m : Addr} (d : Reg) (h : DataAllowed s 4 4 (effectiveAddr s m)) :
    ∃ u, exec (.ld m d) s = .next (ended s.ip u) ∧ Loaded 1 (effectiveAddr s m) d (memLength m) s u :=
  finish_load_of h (by decide) le_rfl (by decide) (by decide) fun k hk => by omega

theorem exec_ldl_of {s : State} {m : Addr} {d : Reg} (h : DataAllowed s 8 8 (effectiveAddr s m))
    (hd : Reg.isEven d = true) :
    ∃ u, exec (.ldl m d) s = .next (ended s.ip u) ∧ Loaded 2 (effectiveAddr s m) d (memLength m) s u := by
  change ∃ u, finish s (requireAligned _ s _) = _ ∧ _
  rw [requireAligned_true hd]
  refine finish_load_of h (by decide) le_rfl (by decide) (by decide) fun k hk => ?_
  obtain rfl : k = 0 := by omega
  rw [BitVec.add_zero]
  exact isEven_ne_fp hd

theorem exec_ldt_of {s : State} {m : Addr} {d : Reg} (h : DataAllowed s 16 12 (effectiveAddr s m))
    (hd : Reg.isQuad d = true) :
    ∃ u, exec (.ldt m d) s = .next (ended s.ip u) ∧ Loaded 3 (effectiveAddr s m) d (memLength m) s u := by
  obtain ⟨h0, h1⟩ := isQuad_ne_fp hd
  change ∃ u, finish s (requireAligned _ s _) = _ ∧ _
  rw [requireAligned_true hd]
  refine finish_load_of h (by decide) (by decide) (by decide) le_rfl fun k hk => ?_
  obtain rfl | rfl : k = 0 ∨ k = 1 := by omega
  · rw [BitVec.add_zero]
    exact h0
  · exact h1

/-- The first one, two and three of the registers from `d` on. -/
theorem only_of_lt {d x : Reg} : (∃ k, k < 1 ∧ x = d + BitVec.ofNat 5 k) → only d x := by
  rintro ⟨k, hk, rfl⟩
  obtain rfl : k = 0 := by omega
  exact BitVec.add_zero d

theorem pairOf_of_lt {d x : Reg} : (∃ k, k < 2 ∧ x = d + BitVec.ofNat 5 k) → pairOf d x := by
  rintro ⟨k, hk, rfl⟩
  obtain rfl | rfl : k = 0 ∨ k = 1 := by omega
  · exact .inl (BitVec.add_zero d)
  · exact .inr rfl

theorem tripleOf_of_lt {d x : Reg} : (∃ k, k < 3 ∧ x = d + BitVec.ofNat 5 k) → tripleOf d x := by
  rintro ⟨k, hk, rfl⟩
  obtain rfl | rfl | rfl : k = 0 ∨ k = 1 ∨ k = 2 := by omega
  · exact .inl (BitVec.add_zero d)
  · exact .inr (.inl rfl)
  · exact .inr (.inr rfl)

/-! ### Stores -/

/-- What a store of the `n` registers from `r` on at `a` leaves, `u`, once IP has gone on (R86). -/
structure Stored (n : Nat) (r : Reg) (a len : Word) (s u : State) : Prop where
  words : ∀ k, k < n → wordAt u (a.toNat + 4 * k) = getReg s (r + BitVec.ofNat 5 k)
  ip : u.ip = s.ip + len
  ac : u.ac = s.ac
  controls : SameControls s u
  kept : Kept nothing nothing (bytesFrom a.toNat (4 * n)) s u

theorem regsFrom_length (s : State) (r : Reg) (n : Nat) : (regsFrom s r n).length = n := by
  simp [regsFrom]

theorem putWords_stored {s : State} {a : Word} (r : Reg) (n : Nat) (len : Word) (hm : Memory.wf s.mem = true)
    (ha : a.toNat + 4 * n ≤ 2 ^ 32) :
    Stored n r a len s
      { putWords s a (regsFrom s r n) with ip := (putWords s a (regsFrom s r n)).ip + len } := by
  have hl := regsFrom_length s r n
  obtain ⟨-, hin, hout⟩ := putWords_ok (regsFrom s r n) (a := a) hm (by omega)
  obtain ⟨mem, stale, he⟩ := putWords_eq (regsFrom s r n) s a
  rw [he] at hin hout ⊢
  rw [hl] at hout
  refine ⟨fun k hk => ?_, rfl, rfl, ⟨rfl, rfl⟩, fun _ _ => rfl, fun _ _ => rfl, fun x hx => hout x ?_, rfl, ?_⟩
  · exact (hin k (by omega)).trans (by simp [regsFrom])
  · unfold bytesFrom at hx
    omega
  · constructor <;> rfl

/-- A store that is carried out: IP goes on, and the words of the registers are written. -/
theorem finish_store_next {s : State} {n align : Nat} {m : Addr} (r : Reg)
    (h : checkData s.params.dataAlign align (4 * n) (effectiveAddr s m) = .ok ()) :
    finish s (ruleStore n align r m s) = .next (ended s.ip
      { putWords s (effectiveAddr s m) (regsFrom s r n) with
        ip := (putWords s (effectiveAddr s m) (regsFrom s r n)).ip + memLength m }) := by
  unfold ruleStore
  dsimp only
  rw [h]
  rfl

theorem finish_store_of {s : State} {n align : Nat} {m : Addr} (r : Reg) (hm : Memory.wf s.mem = true)
    (h : DataAllowed s align (4 * n) (effectiveAddr s m)) (hd : align ∣ 0xFF000000) (hn : 4 * n ≤ align)
    (hpos : 0 < n) (h16 : align ≤ 16) :
    ∃ u, finish s (ruleStore n align r m s) = .next (ended s.ip u) ∧
      Stored n r (effectiveAddr s m) (memLength m) s u :=
  ⟨_, finish_store_next r (checkData_of h hd hn (by omega)),
    putWords_stored r n (memLength m) hm (h.no_wrap (by omega))⟩

theorem Stored.first {n : Nat} {r : Reg} {a len : Word} {s u : State} (h : Stored n r a len s u) (hn : 0 < n) :
    wordAt u a.toNat = getReg s r :=
  (h.words 0 hn).trans (congrArg (getReg s) (BitVec.add_zero r))

theorem exec_st_of {s : State} {m : Addr} (r : Reg) (h : DataAllowed s 4 4 (effectiveAddr s m))
    (hm : Memory.wf s.mem = true) :
    ∃ u, exec (.st r m) s = .next (ended s.ip u) ∧ Stored 1 r (effectiveAddr s m) (memLength m) s u :=
  finish_store_of r hm h (by decide) le_rfl (by decide) (by decide)

theorem exec_stl_of {s : State} {m : Addr} {r : Reg} (h : DataAllowed s 8 8 (effectiveAddr s m))
    (hr : Reg.isEven r = true) (hm : Memory.wf s.mem = true) :
    ∃ u, exec (.stl r m) s = .next (ended s.ip u) ∧ Stored 2 r (effectiveAddr s m) (memLength m) s u := by
  change ∃ u, finish s (requireAligned _ s _) = _ ∧ _
  rw [requireAligned_true hr]
  exact finish_store_of r hm h (by decide) le_rfl (by decide) (by decide)

theorem exec_stt_of {s : State} {m : Addr} {r : Reg} (h : DataAllowed s 16 12 (effectiveAddr s m))
    (hr : Reg.isQuad r = true) (hm : Memory.wf s.mem = true) :
    ∃ u, exec (.stt r m) s = .next (ended s.ip u) ∧ Stored 3 r (effectiveAddr s m) (memLength m) s u := by
  change ∃ u, finish s (requireAligned _ s _) = _ ∧ _
  rw [requireAligned_true hr]
  exact finish_store_of r hm h (by decide) (by decide) (by decide) le_rfl

/-! ### Refused synchronous accesses (R451, R452) -/

theorem wordAligned_reserved {a : Word} (h : isReserved a = true) : isReserved (wordAligned a) = true := by
  rw [isReserved_eq, decide_eq_true_eq] at *
  rw [wordAligned_toNat]
  omega

/-- A synchronous read of the reserved space, but for the interrupt-control register, is refused (R82). -/
theorem syncRead_reserved {s : State} {a : Word} (hr : isReserved a = true) (hne : wordAligned a ≠ icrAddress) :
    syncRead s (wordAligned a) = .error (.refused .reservedSpace) := by
  unfold syncRead
  rw [if_neg hne, checkAccess_reserved (wordAligned_mod a) (wordAligned_reserved hr)]

theorem exec_synld_reserved {s : State} {x : Src} (d : Reg) (hr : isReserved (srcValue s x) = true)
    (hne : wordAligned (srcValue s x) ≠ icrAddress) : exec (.synld x d) s = .refused .reservedSpace := by
  change finish s (ruleSynld x d s) = _
  unfold ruleSynld
  rw [syncRead_reserved hr hne]
  rfl

theorem exec_synmov_source_reserved {s : State} (x : Src) {y : Src} (hr : isReserved (srcValue s y) = true)
    (hne : wordAligned (srcValue s y) ≠ icrAddress) : exec (.synmov x y) s = .refused .reservedSpace := by
  change finish s (ruleSynmov x y s) = _
  unfold ruleSynmov
  dsimp only
  rw [syncRead_reserved hr hne]
  rfl

/-- A synchronous move whose source is read and whose destination is refused. -/
theorem exec_synmov_reserved {s : State} {x y : Src} (hr : isReserved (srcValue s x) = true)
    (hne : wordAligned (srcValue s x) ≠ icrAddress)
    (hy : isReserved (srcValue s y) = false ∨ wordAligned (srcValue s y) = icrAddress) :
    exec (.synmov x y) s = .refused .reservedSpace := by
  obtain ⟨w, k, hread, -⟩ := syncRead_of (s := s) (wordAligned_mod (srcValue s y))
    (hy.symm.imp_right isReserved_wordAligned)
  change finish s (ruleSynmov x y s) = _
  unfold ruleSynmov storeWord
  dsimp only
  rw [hread]
  dsimp only
  rw [if_neg hne, checkAccess_reserved (wordAligned_mod _) (wordAligned_reserved hr)]
  rfl

/-! ### Refused table entries (R90) -/

theorem loadEntry_wraps {base o : Word} (s : State) (h : 2 ^ 32 ≤ base.toNat + o.toNat) :
    loadEntry s base o = .error (.refused .addressWrap) := by
  unfold loadEntry entryAddr
  rw [if_neg (by omega)]

theorem faultOffset_toNat (t : Byte) : (faultOffset t).toNat = 8 * t.toNat := by
  have := t.isLt
  unfold faultOffset
  rw [BitVec.toNat_mul, BitVec.toNat_setWidth, BitVec.toNat_ofNat]
  omega

theorem deliverFault_wraps {f : FaultInfo} {s : State} (h : 2 ^ 32 ≤ s.faultTable.toNat + 8 * f.ftype.toNat) :
    deliverFault f s = .error (.refused .addressWrap) := by
  unfold deliverFault faultHandler
  rw [loadEntry_wraps s (by rwa [faultOffset_toNat])]
  rfl

theorem vectorOffset_toNat {v : Byte} (h : 8 ≤ v.toNat) : (vectorOffset v).toNat = 36 + 4 * (v.toNat - 8) := by
  have := v.isLt
  have hsub : (v.setWidth 32 - 8#32).toNat = v.toNat - 8 := by
    rw [BitVec.toNat_sub, BitVec.toNat_setWidth, BitVec.toNat_ofNat]
    omega
  unfold vectorOffset
  rw [BitVec.toNat_add, BitVec.toNat_mul, hsub, BitVec.toNat_ofNat, BitVec.toNat_ofNat]
  omega

theorem receiveInterrupt_wraps {v : Byte} {s : State} (hv : 8 ≤ v.toNat)
    (hp : (pcPriority s).toNat < v.toNat / 8 ∨ v.toNat / 8 = 31)
    (hroom : recordRoom (interruptStackPointer s) s.params.interruptRecord.size)
    (h : 2 ^ 32 ≤ s.intTable.toNat + 36 + 4 * (v.toNat - 8)) :
    receiveInterrupt v s = .error (.refused .addressWrap) := by
  have hc : (decide ((interruptStackPointer s).toNat + s.params.interruptRecord.size.toNat < 2 ^ 32) &&
      frameFits (interruptStackPointer s + s.params.interruptRecord.size)) = true := by
    rw [Bool.and_eq_true, decide_eq_true_eq, frameFits_iff]
    exact hroom
  unfold receiveInterrupt interruptEntry
  dsimp only
  rw [if_pos ((isServiced_iff s v).mpr hp), if_pos hc, loadEntry_wraps s (by rw [vectorOffset_toNat hv]; omega)]
  rfl

end Sys2Proof.Claims

namespace Sys2Proof.Proofs
open Sys2Proof.Machine Sys2Proof.Claims

/-- Settles O14: each load is a run of reads, and no register it writes before its last read is the frame pointer. -/
theorem loads : Obligations.Loads := by
  unfold Obligations.Loads
  rintro s m d _ rfl
  refine ⟨fun h => ?_, fun h hd => ?_, fun h hd => ?_⟩
  · obtain ⟨u, hu, hl⟩ := exec_ld_of d h
    exact ⟨u, hu, hl.first (by decide), hl.ip, hl.ac, hl.controls,
      hl.kept.mono (fun _ => only_of_lt) (fun _ h => h) fun _ h => h⟩
  · obtain ⟨u, hu, hl⟩ := exec_ldl_of h hd
    exact ⟨u, hu, hl.first (by decide), hl.word h (by decide) 1 (by decide), hl.ip, hl.ac, hl.controls,
      hl.kept.mono (fun _ => pairOf_of_lt) (fun _ h => h) fun _ h => h⟩
  · obtain ⟨u, hu, hl⟩ := exec_ldt_of h hd
    exact ⟨u, hu, hl.first (by decide), hl.word h (by decide) 1 (by decide), hl.word h (by decide) 2 (by decide), hl.ip,
      hl.ac, hl.controls, hl.kept.mono (fun _ => tripleOf_of_lt) (fun _ h => h) fun _ h => h⟩

/-- Settles O16: stores that are split are runs of writes; the check of an access, the synchronous read and the address
of a table entry refuse the rest. -/
theorem splitAndRefusedAccesses : Obligations.SplitAndRefusedAccesses := by
  unfold Obligations.SplitAndRefusedAccesses
  rintro s m r x y _ rfl
  refine ⟨fun _ hm => ⟨fun h => ?_, fun h hr => ?_, fun h hr => ?_⟩, fun hp => ?_, fun n h => ?_, fun hr hne => ?_,
    fun hr hne => exec_synmov_source_reserved x hr hne, fun f h => deliverFault_wraps h, ?_⟩
  · obtain ⟨u, hu, hs⟩ := exec_st_of r h hm
    exact ⟨u, hu, hs.first (by decide), hs.ip, hs.ac, hs.controls, hs.kept⟩
  · obtain ⟨u, hu, hs⟩ := exec_stl_of h hr hm
    exact ⟨u, hu, hs.first (by decide), hs.words 1 (by decide), hs.ip, hs.ac, hs.controls, hs.kept⟩
  · obtain ⟨u, hu, hs⟩ := exec_stt_of h hr hm
    exact ⟨u, hu, hs.first (by decide), hs.words 1 (by decide), hs.words 2 (by decide), hs.ip, hs.ac, hs.controls,
      hs.kept⟩
  · refine ⟨fun h => exec_word_refused r ?_, fun h hr => exec_long_refused hr ?_, fun h hr => exec_triple_refused hr ?_⟩
    all_goals
      rw [hp]
      exact checkData_misaligned h
  · refine ⟨?_, ?_, ?_⟩
    · rintro rfl
      exact exec_word_refused r (checkData_reserved h)
    · rintro rfl hr
      exact exec_long_refused hr (checkData_reserved h)
    · rintro rfl hr
      exact exec_triple_refused hr (checkData_reserved h)
  · exact ⟨exec_synld_reserved r hr hne, exec_synmov_reserved hr hne⟩
  · rintro v _ hv hp rfl hroom h
    exact receiveInterrupt_wraps hv hp hroom h

end Sys2Proof.Proofs
end

section
/-! PROOFS. `flushreg`: the cached sets are written to their frames, one after the other (R404). -/
namespace Sys2Proof.Claims
open Sys2Proof.Machine

/-- The save area of the frame at `a` can be written: it starts at a 64-byte boundary outside the reserved space. -/
def Spillable (a : Word) : Prop := frameAligned a = a ∧ isReserved a = false

theorem Spillable.bounds {a : Word} (h : Spillable a) : a.toNat % 64 = 0 ∧ a.toNat + 64 ≤ 0xFF000000 := by
  have hal := frameAligned_toNat a
  rw [h.1] at hal
  have := (isReserved_false_iff a).mp h.2
  omega

/-- The byte `x` lies in the save area of a set of `l`. -/
def inSavedAreas (l : List RegSet) (x : Nat) : Prop := ∃ e ∈ l, bytesFrom e.addr.toNat 64 x

/-- A set written to its frame's save area (R383): its words are in memory, and no other byte has changed. -/
theorem spillSet_of {s : State} {e : RegSet} (he : Spillable e.addr) (hm : Memory.wf s.mem = true) :
    ∃ mem stale, spillSet s e = .ok { s with mem := mem, stale := stale } ∧ Memory.wf mem = true ∧
      (∀ i : Fin 16, memReadWord s.params.byteOrder mem (e.addr.toNat + 4 * i.val) = e.regs[i]) ∧
      ∀ b, ¬ bytesFrom e.addr.toNat 64 b → memRead mem b = memRead s.mem b := by
  obtain ⟨hal, hend⟩ := he.bounds
  have hl : e.regs.toList.length = 16 := by simp
  obtain ⟨mem, stale, hs, hwf, hin, hout⟩ := storeWords_record s e.regs.toList (a := e.addr) (by omega) (by omega) hm
  rw [hl] at hout
  exact ⟨mem, stale, hs, hwf, fun i => (hin i.val (by omega)).trans (by simp), hout⟩

/-- Two different save areas have no byte in common. -/
theorem Spillable.apart {a b : Word} (ha : Spillable a) (hb : Spillable b) (hne : a ≠ b) {x : Nat}
    (hx : bytesFrom a.toNat 64 x) : ¬ bytesFrom b.toNat 64 x := by
  have hne : a.toNat ≠ b.toNat := fun h => hne (BitVec.eq_of_toNat_eq h)
  have := ha.bounds
  have := hb.bounds
  unfold bytesFrom at *
  omega

/-- Every set of `l` written to its frame's save area (R404). -/
theorem spillAll_of : ∀ {l : List RegSet} {s : State}, (∀ e ∈ l, Spillable e.addr) →
    l.Pairwise (fun e f => e.addr ≠ f.addr) → Memory.wf s.mem = true →
    ∃ mem stale, spillAll l s = .ok { s with mem := mem, stale := stale } ∧
      (∀ e ∈ l, ∀ i : Fin 16, memReadWord s.params.byteOrder mem (e.addr.toNat + 4 * i.val) = e.regs[i]) ∧
      ∀ b, ¬ inSavedAreas l b → memRead mem b = memRead s.mem b
  | [], s, _, _, _ => ⟨s.mem, s.stale, rfl, fun _ he => absurd he List.not_mem_nil, fun _ _ => rfl⟩
  | e :: l, s, hl, hp, hm => by
    have he := hl e List.mem_cons_self
    obtain ⟨hne, hp⟩ := List.pairwise_cons.mp hp
    have hl' : ∀ f ∈ l, Spillable f.addr := fun f hf => hl f (List.mem_cons_of_mem e hf)
    obtain ⟨mem1, stale1, hs1, hwf, hin1, hout1⟩ := spillSet_of he hm
    obtain ⟨mem, stale, hs, hin, hout⟩ := spillAll_of (s := { s with mem := mem1, stale := stale1 }) hl' hp hwf
    refine ⟨mem, stale, ?_, fun f hf i => ?_, fun b hb => ?_⟩
    · unfold spillAll
      rw [hs1]
      exact hs
    · rcases List.mem_cons.mp hf with rfl | hf
      · rw [← hin1 i]
        refine wordAt_of_bytes (u := { s with mem := mem }) rfl fun k hk => hout _ ?_
        rintro ⟨g, hg, hx⟩
        refine (hl' g hg).apart he (hne g hg).symm hx ?_
        unfold bytesFrom
        omega
      · exact hin f hf i
    · have hhere : ¬ bytesFrom e.addr.toNat 64 b := fun hx => hb ⟨e, List.mem_cons_self, hx⟩
      have hlater : ¬ inSavedAreas l b := fun ⟨f, hf, hx⟩ => hb ⟨f, List.mem_cons_of_mem e hf, hx⟩
      exact (hout b hlater).trans (hout1 b hhere)

theorem exec_flushreg {s : State} {mem : Memory} {stale : List Nat}
    (h : spillAll s.older s = .ok { s with mem := mem, stale := stale }) :
    exec .flushreg s =
      .next (ended s.ip { s with mem := mem, stale := stale, older := [], ip := s.ip + 4#32 }) := by
  change finish s (ruleFlushreg s) = _
  unfold ruleFlushreg
  rw [h]
  rfl

end Sys2Proof.Claims

namespace Sys2Proof.Proofs
open Sys2Proof.Machine Sys2Proof.Claims

/-- Settles O22: the cached sets are written in turn to areas that have no byte in common. -/
theorem flushRegisters : Obligations.FlushRegisters := by
  unfold Obligations.FlushRegisters
  intro s hm hold hdist
  obtain ⟨mem, stale, hs, hin, hout⟩ := spillAll_of hold hdist hm
  refine ⟨by decide, _, exec_flushreg hs, rfl, hin, rfl, rfl, ⟨rfl, rfl⟩, fun _ _ => rfl, fun _ _ => rfl, hout, rfl, ?_⟩
  constructor <;> rfl

end Sys2Proof.Proofs
end

section
/-! PROOFS. `calls` with a register set free, and where it faults or is refused (R388, R476). -/
namespace Sys2Proof.Claims
open Sys2Proof.Machine

theorem procedureOffset_toNat {n : Word} (h : n.toNat ≤ 259) : (procedureOffset n).toNat = 48 + 4 * n.toNat := by
  unfold procedureOffset
  rw [BitVec.toNat_add, BitVec.toNat_mul, BitVec.toNat_ofNat, BitVec.toNat_ofNat]
  omega

/-- A procedure number above 259 raises Protection.Length before anything has changed (R388, R476). -/
theorem exec_calls_length {s : State} {x : Src} (h : 259 < (srcValue s x).toNat) :
    exec (.calls x) s = faultsWith (protectionLengthFault s) s := by
  change finish s (ruleCalls x s) = _
  unfold ruleCalls
  dsimp only
  rw [if_pos h]
  rfl

theorem exec_calls_wraps {s : State} {x : Src} (hn : (srcValue s x).toNat ≤ 259)
    (h : 2 ^ 32 ≤ s.sysprocBase.toNat + (48 + 4 * (srcValue s x).toNat)) :
    exec (.calls x) s = .refused .addressWrap := by
  change finish s (ruleCalls x s) = _
  unfold ruleCalls
  dsimp only
  rw [if_neg (by omega), loadEntry_wraps s (by rwa [procedureOffset_toNat hn])]
  rfl

/-- Entry types 01 and 11 of the system-procedure table are reserved (R388). -/
theorem callEntry_reserved {entry : Word} (s : State) (h : entry.setWidth 2 = 1#2 ∨ entry.setWidth 2 = 3#2) :
    callEntry entry s = .error (.refused .reservedEntryType) := by
  unfold callEntry
  rcases h with h | h
  all_goals
    rw [h]
    rfl

theorem exec_calls_reserved {s : State} {x : Src} (hn : (srcValue s x).toNat ≤ 259)
    (hok : okEntry s s.sysprocBase (procedureOffset (srcValue s x)))
    (h : (wordAt s (s.sysprocBase + procedureOffset (srcValue s x)).toNat).setWidth 2 = 1#2 ∨
      (wordAt s (s.sysprocBase + procedureOffset (srcValue s x)).toNat).setWidth 2 = 3#2) :
    exec (.calls x) s = .refused .reservedEntryType := by
  change finish s (ruleCalls x s) = _
  unfold ruleCalls
  dsimp only
  rw [if_neg (by omega), loadEntry_okEntry hok]
  dsimp only [bind, Except.bind]
  rw [callEntry_reserved s h]
  rfl

theorem exec_calls_noRoom {s : State} {x : Src} {entry w b : Word} {status : BitVec 3}
    (h : SystemEntry (srcValue s x) s entry w b status) (hb : ¬ roomAt b) :
    exec (.calls x) s = .refused .frameOverflow := by
  obtain ⟨c, sup, -, hrule, -⟩ := ruleCalls_of h
  change finish s (ruleCalls x s) = _
  rw [hrule, callOp_noRoom hb]
  rfl

/-- The state a system call starts from has of `s` all but PC and the delay of a trace-enable flag. -/
theorem callsStart_eq {s c : State} {te : Bool} (h : c = s ∨ c = inSupervisor te s) :
    ∃ pc teHold, c = { s with pc := pc, teHold := teHold } := by
  rcases h with rfl | rfl
  · exact ⟨c.pc, c.teHold, rfl⟩
  · exact ⟨_, _, rfl⟩

theorem exec_calls_room {s : State} {x : Src} {entry w b : Word} {status : BitVec 3}
    (h : SystemEntry (srcValue s x) s entry w b status) (hb : roomAt b) (ho : s.older.length ≤ 2) :
    ∃ u, exec (.calls x) s = .next (ended s.ip u) ∧ Called entry b status s u ∧
      Pushed (setReg s ripReg (s.ip + 4#32)) u ∧ CallControls entry w s u ∧ u.mem = s.mem ∧ SameSystem s u := by
  obtain ⟨c, sup, hc, hrule, hctl⟩ := ruleCalls_of h
  obtain ⟨pc, teHold, rfl⟩ := callsStart_eq hc
  obtain ⟨u, hu, he, hp, hmem⟩ := callOp_room (target := wordAligned entry) (status := status)
    (c := setReg { s with pc := pc, teHold := teHold } ripReg (s.ip + 4#32)) hb (by simpa using ho)
  have hcalled : Called entry b status s u :=
    (Called.transfer (s := s) he.fromRip.called rfl rfl rfl rfl).unaligned
  have hsys : SameSystem s u := SameSystem.trans (by constructor <;> rfl) he.fromRip.system
  refine ⟨afterCalls sup u, ?_, ?_, ?_, hctl u he.fromRip.event he.fromRip.seen, ?_, ?_⟩
  · change finish s (ruleCalls x s) = _
    rw [hrule, hu]
    exact finish_done s _
  all_goals cases sup
  · exact hcalled
  · exact hcalled.afterEvent .supervisor
  · exact hp
  · exact (signalIfEnabled_older .supervisor u).trans hp
  · exact hmem
  · exact (signalIfEnabled_mem .supervisor u).trans hmem
  · exact hsys
  · exact hsys.trans (sameSystem_signalIfEnabled _ _)

end Sys2Proof.Claims

namespace Sys2Proof.Proofs
open Sys2Proof.Machine Sys2Proof.Claims

/-- Settles O26: a procedure number or a table entry that names no procedure, and the call operation with and without
room for the frame. -/
theorem systemCalls : Obligations.SystemCalls := by
  unfold Obligations.SystemCalls
  rintro s x _ rfl
  refine ⟨exec_calls_length, exec_calls_wraps, ?_,
    fun entry w b status h => ⟨exec_calls_noRoom h, exec_calls_room h⟩⟩
  rintro _ hn hok rfl h
  exact exec_calls_reserved hn hok h

end Sys2Proof.Proofs
end

section
/-! PROOFS. Words that are no instruction: undefined opcodes, unknown opcodes, reserved bits and stale words (R108,
R122, R136, R137). -/
namespace Sys2Proof.Claims
open Sys2Proof.Machine

/-! ### The format of a word, by its opcode byte (R122) -/

section
variable {w : Word} (d : Word)

theorem op8Field_toNat (w : Word) : (w >>> 24).toNat = (op8Field w).toNat := by
  unfold op8Field
  rw [BitVec.toNat_ushiftRight, BitVec.extractLsb'_toNat]
  have : w.toNat >>> 24 < 2 ^ 8 := by
    rw [Nat.shiftRight_eq_div_pow]
    omega
  exact (Nat.mod_eq_of_lt this).symm

theorem decode_ctrl (h : (op8Field w).toNat < 0x20) : decode w d = decodeCtrl w := if_pos h

theorem decode_cobr (h1 : 0x20 ≤ (op8Field w).toNat) (h2 : (op8Field w).toNat < 0x40) :
    decode w d = .refused .unknownOpcode := by
  unfold decode
  dsimp only
  rw [if_neg (by omega), if_pos h2]

theorem decode_unassigned (h : (0x40 ≤ (op8Field w).toNat ∧ (op8Field w).toNat < 0x58) ∨ 0xD0 ≤ (op8Field w).toNat) :
    decode w d = .invalidOpcode := by
  unfold decode
  dsimp only
  rw [if_neg (by omega), if_neg (by omega)]
  rcases h with h | h
  · rw [if_pos h.2]
  · rw [if_neg (by omega), if_neg (by omega), if_neg (by omega)]

theorem decode_reg (h1 : 0x58 ≤ (op8Field w).toNat) (h2 : (op8Field w).toNat < 0x80) : decode w d = decodeReg w := by
  unfold decode
  dsimp only
  rw [if_neg (by omega), if_neg (by omega), if_neg (by omega), if_pos h2]

theorem decode_mem (h1 : 0x80 ≤ (op8Field w).toNat) (h2 : (op8Field w).toNat < 0xD0) :
    decode w d = decodeMemFormat w d := by
  unfold decode
  dsimp only
  rw [if_neg (by omega), if_neg (by omega), if_neg (by omega), if_neg (by omega), if_pos h2]

end

/-! ### Undefined addressing modes (R129, R137) -/

/-- A MEMB word with a scale above 4, or with mode 0110, has no effective address. -/
theorem decodeAddr_invalid {w : Word} (d : Word) (hm : m2Field w = true)
    (h : 5 ≤ (scaleField w).toNat ∨ modeField w = 6#4) : decodeAddr w d = .invalidOpcode := by
  unfold decodeAddr
  rw [if_pos hm]
  rcases h with h | h
  · have hscale : ¬ scaleOk (scaleField w) = true := by
      unfold scaleOk
      rw [BitVec.ult, decide_eq_true_eq]
      exact not_lt.mpr h
    exact if_neg hscale
  · rw [h]
    exact ite_self _

theorem decodeMem_invalid {w d : Word} (mk : Addr → Instr) (h : decodeAddr w d = .invalidOpcode) :
    decodeMem w d mk = .invalidOpcode := by
  unfold decodeMem
  rw [h]

theorem decodeMemBare_invalid {w d : Word} (mk : Addr → Instr) (hr : srcdstField w = 0#5)
    (h : decodeAddr w d = .invalidOpcode) : decodeMemBare w d mk = .invalidOpcode := by
  unfold decodeMemBare
  rw [if_pos hr, decodeMem_invalid mk h]

/-- The opcode bytes of the MEM instructions (R135). -/
def memOpcodes : List (BitVec 8) := [0x84#8, 0x85#8, 0x86#8, 0x90#8, 0x92#8, 0x98#8, 0x9A#8, 0xA0#8, 0xA2#8]

theorem decodeMemFormat_invalid {w d : Word} (hop : op8Field w ∈ memOpcodes)
    (hr : op8Field w = 0x84#8 ∨ op8Field w = 0x86#8 → srcdstField w = 0#5) (h : decodeAddr w d = .invalidOpcode) :
    decodeMemFormat w d = .invalidOpcode := by
  unfold decodeMemFormat
  simp only [memOpcodes, List.mem_cons, List.not_mem_nil, or_false] at hop
  rcases hop with hop | hop | hop | hop | hop | hop | hop | hop | hop
  case inl =>
    rw [hop]
    exact decodeMemBare_invalid _ (hr (.inl hop)) h
  case inr.inr.inl =>
    rw [hop]
    exact decodeMemBare_invalid _ (hr (.inr hop)) h
  all_goals
    rw [hop]
    exact decodeMem_invalid _ h

/-! ### Opcodes as masked words -/

/-- Masked words are equal where the words agree on the bits of the mask. -/
theorem masked_eq_iff (m x y : Word) :
    x &&& m = y &&& m ↔ ∀ i, i < 32 → m.getLsbD i = true → x.getLsbD i = y.getLsbD i := by
  constructor
  · intro h i _ hm
    have := congrArg (·.getLsbD i) h
    simpa [hm] using this
  · intro h
    apply BitVec.eq_of_getLsbD_eq
    intro i hi
    rw [BitVec.getLsbD_and, BitVec.getLsbD_and]
    cases hm : m.getLsbD i
    · simp
    · rw [h i hi hm]

/-- The mask of the opcode byte (R122). -/
def op8Mask : Word := 0xFF000000#32

/-- The mask of a REG opcode: the opcode byte and bits 10:7 (R123). -/
def op12Mask : Word := 0xFF000780#32

theorem op8Mask_bit : ∀ i, i < 32 → (op8Mask.getLsbD i = true ↔ 24 ≤ i) := by decide

theorem op12Mask_bit : ∀ i, i < 32 → (op12Mask.getLsbD i = true ↔ (7 ≤ i ∧ i < 11) ∨ 24 ≤ i) := by decide

theorem masked_op8_iff (x y : Word) : x &&& op8Mask = y &&& op8Mask ↔ op8Field x = op8Field y := by
  rw [masked_eq_iff]
  unfold op8Field
  constructor
  · intro h
    apply BitVec.eq_of_getLsbD_eq
    intro i hi
    rw [BitVec.getLsbD_extractLsb', BitVec.getLsbD_extractLsb',
      h (24 + i) (by omega) ((op8Mask_bit _ (by omega)).mpr (by omega))]
  · intro h i hi hm
    have hge := (op8Mask_bit i hi).mp hm
    have := congrArg (·.getLsbD (i - 24)) h
    simpa [BitVec.getLsbD_extractLsb', show i - 24 < 8 by omega, show 24 + (i - 24) = i by omega] using this

/-- The bits of a REG opcode, in the word (R123). -/
theorem getLsbD_op12Field (w : Word) {j : Nat} (hj : j < 12) :
    (op12Field w).getLsbD j = w.getLsbD (if j < 4 then 7 + j else 20 + j) := by
  unfold op12Field op8Field op4Field
  rw [BitVec.getLsbD_append, BitVec.getLsbD_extractLsb', BitVec.getLsbD_extractLsb']
  by_cases h : j < 4
  · simp [h]
  · simp [h, show j - 4 < 8 by omega, show 24 + (j - 4) = 20 + j by omega]

theorem masked_op12_iff (x y : Word) : x &&& op12Mask = y &&& op12Mask ↔ op12Field x = op12Field y := by
  rw [masked_eq_iff]
  constructor
  · intro h
    apply BitVec.eq_of_getLsbD_eq
    intro j hj
    rw [getLsbD_op12Field x hj, getLsbD_op12Field y hj]
    split
    · exact h (7 + j) (by omega) ((op12Mask_bit _ (by omega)).mpr (by omega))
    · exact h (20 + j) (by omega) ((op12Mask_bit _ (by omega)).mpr (by omega))
  · intro h i hi hm
    rcases (op12Mask_bit i hi).mp hm with hlow | hhigh
    · have := congrArg (·.getLsbD (i - 7)) h
      simp only [getLsbD_op12Field _ (show i - 7 < 12 by omega)] at this
      rwa [if_pos (by omega), show 7 + (i - 7) = i by omega] at this
    · have := congrArg (·.getLsbD (i - 20)) h
      simp only [getLsbD_op12Field _ (show i - 20 < 12 by omega)] at this
      rwa [if_neg (by omega), show 20 + (i - 20) = i by omega] at this

/-- A REG opcode begins with the opcode byte. -/
theorem op8Field_of_op12Field {x y : Word} (h : op12Field x = op12Field y) : op8Field x = op8Field y := by
  rw [← masked_op12_iff, masked_eq_iff] at h
  rw [← masked_op8_iff, masked_eq_iff]
  exact fun i hi hm => h i hi ((op12Mask_bit i hi).mpr (.inr ((op8Mask_bit i hi).mp hm)))

/-! ### The opcode tables -/

/-- An instruction for each opcode of the REG table (R132, R133). -/
def regInstrs : List Instr :=
  [.alterbit (.lit 0) (.lit 0) 0, .addo (.lit 0) (.lit 0) 0, .chkbit (.lit 0) (.lit 0), .mov (.lit 0) 0,
   .movl (.lit 0) 0, .movt (.lit 0) 0, .synmov (.lit 0) (.lit 0), .synld (.lit 0) 0, .modac (.lit 0) (.lit 0) 0,
   .modtc (.lit 0) (.lit 0) 0, .modpc (.lit 0) (.lit 0) 0, .calls (.lit 0), .mark, .fmark, .flushreg, .syncf,
   .ediv (.lit 0) (.lit 0) 0, .cvtir (.lit 0) (.reg 0), .cvtilr (.lit 0) (.reg 0), .scalerl (.lit 0) .zero (.reg 0),
   .scaler (.lit 0) .zero (.reg 0), .atanr .zero .zero (.reg 0), .logepr .zero .zero (.reg 0),
   .logr .zero .zero (.reg 0), .remr .zero .zero (.reg 0), .cmpor .zero .zero, .cmpr .zero .zero,
   .sqrtr .zero (.reg 0), .expr .zero (.reg 0), .logbnr .zero (.reg 0), .roundr .zero (.reg 0),
   .sinr .zero (.reg 0), .cosr .zero (.reg 0), .tanr .zero (.reg 0), .classr .zero, .atanrl .zero .zero (.reg 0),
   .logeprl .zero .zero (.reg 0), .logrl .zero .zero (.reg 0), .remrl .zero .zero (.reg 0), .cmporl .zero .zero,
   .cmprl .zero .zero, .sqrtrl .zero (.reg 0), .exprl .zero (.reg 0), .logbnrl .zero (.reg 0),
   .roundrl .zero (.reg 0), .sinrl .zero (.reg 0), .cosrl .zero (.reg 0), .tanrl .zero (.reg 0), .classrl .zero,
   .cvtri .zero 0, .cvtril .zero 0, .cvtzri .zero 0, .cvtzril .zero 0, .movr .zero (.reg 0), .movrl .zero (.reg 0),
   .movre .zero (.reg 0), .cpysre .zero .zero (.reg 0), .cpyrsre .zero .zero (.reg 0), .divr .zero .zero (.reg 0),
   .mulr .zero .zero (.reg 0), .subr .zero .zero (.reg 0), .addr .zero .zero (.reg 0), .divrl .zero .zero (.reg 0),
   .mulrl .zero .zero (.reg 0), .subrl .zero .zero (.reg 0), .addrl .zero .zero (.reg 0)]

/-- The opcodes of the REG table. -/
def regOpcodes : List (BitVec 12) :=
  [0x58F#12, 0x590#12, 0x5AE#12, 0x5CC#12, 0x5DC#12, 0x5EC#12, 0x600#12, 0x615#12, 0x645#12, 0x654#12, 0x655#12,
   0x660#12, 0x66B#12, 0x66C#12, 0x66D#12, 0x66F#12, 0x671#12, 0x674#12, 0x675#12, 0x676#12, 0x677#12, 0x680#12,
   0x681#12, 0x682#12, 0x683#12, 0x684#12, 0x685#12, 0x688#12, 0x689#12, 0x68A#12, 0x68B#12, 0x68C#12, 0x68D#12,
   0x68E#12, 0x68F#12, 0x690#12, 0x691#12, 0x692#12, 0x693#12, 0x694#12, 0x695#12, 0x698#12, 0x699#12, 0x69A#12,
   0x69B#12, 0x69C#12, 0x69D#12, 0x69E#12, 0x69F#12, 0x6C0#12, 0x6C1#12, 0x6C2#12, 0x6C3#12, 0x6C9#12, 0x6D9#12,
   0x6E1#12, 0x6E2#12, 0x6E3#12, 0x78B#12, 0x78C#12, 0x78D#12, 0x78F#12, 0x79B#12, 0x79C#12, 0x79D#12, 0x79F#12]

theorem regInstrs_opcodes : regInstrs.map (fun i => op12Field (encode i).first) = regOpcodes := by
  decide

/-- Reserved bits refuse a word of any shape (R123). -/
theorem decoded_reserved {clean : Bool} (i : Option Instr) (h : clean = false) :
    decoded clean i = .refused .reservedBits := by
  unfold decoded
  rw [h]
  rfl

theorem mem_regOpcodes {w : Word} {n : Nat} (h : (op12Field w).toNat = n) (hn : BitVec.ofNat 12 n ∈ regOpcodes) :
    op12Field w ∈ regOpcodes := by
  rwa [← h, BitVec.ofNat_toNat, BitVec.setWidth_eq] at hn

/-- The REG format knows the opcodes of its table and no other; a word of the table whose bits 6:5 are not zero is
refused as reserved (R123, R136). -/
theorem decodeReg_cases (w : Word) :
    (op12Field w ∈ regOpcodes ∧ (noRsv w = false → decodeReg w = .refused .reservedBits)) ∨
      (op12Field w ∉ regOpcodes ∧ decodeReg w = .refused .unknownOpcode) := by
  generalize hd : decodeReg w = x
  unfold decodeReg at hd
  split at hd
  case h_67 =>
    have hne : ∀ op ∈ regOpcodes, (op12Field w).toNat ≠ op.toNat := by
      simp only [regOpcodes, List.forall_mem_cons, BitVec.reduceToNat, List.not_mem_nil, false_imp_iff, implies_true,
        and_true]
      and_intros
      all_goals assumption
    exact .inr ⟨fun hmem => hne _ hmem rfl, hd.symm⟩
  all_goals
    rename_i hop
    refine .inl ⟨mem_regOpcodes hop (by decide), fun h => ?_⟩
    rw [← hd]
    simp [decodeInt3, decodeIntSrcs, decodeInt2, decodeInt1, decodeNullary, decodeIntToFp, decodeScale, decodeFpFpFp,
      decodeFpCmp, decodeFpFp, decodeFpClass, decodeFpToInt, decoded, h]

/-- Each opcode of the REG table is that of an instruction. -/
theorem exists_regInstr {op : BitVec 12} (h : op ∈ regOpcodes) : ∃ i, op12Field (encode i).first = op := by
  rw [← regInstrs_opcodes] at h
  obtain ⟨i, -, hi⟩ := List.mem_map.mp h
  exact ⟨i, hi⟩

/-- The opcode of every REG instruction stands in the REG table. -/
theorem op12Field_mem_regOpcodes {i : Instr} (h1 : 0x58 ≤ (op8Field (encode i).first).toNat)
    (h2 : (op8Field (encode i).first).toNat < 0x80) : op12Field (encode i).first ∈ regOpcodes := by
  cases i
  case bx | balx | callx | ld | st | ldl | stl | ldt | stt =>
    simp only [encode, op8Field_encodeMem] at h2
    exact absurd h2 (by decide)
  case b | call | ret | bal | bno | bg | be | bge | bl | bne | ble | bo | faultno | faultg | faulte | faultge | faultl
      | faultne | faultle | faulto =>
    simp only [encode, op8Field_encodeCtrl] at h1
    exact absurd h1 (by decide)
  all_goals
    simp only [encode, encodeInt3, encodeIntSrcs, encodeInt2, encodeInt1, encodeNullary, encodeIntToFp, encodeScale,
      encodeFpFpFp, encodeFpCmp, encodeFpFp, encodeFpClass, encodeFpToInt, op12Field_regWord]
    decide

/-- An instruction for each opcode of the CTRL table (R134). -/
def ctrlInstrs : List Instr :=
  [.b 0, .call 0, .ret, .bal 0, .bno 0, .bg 0, .be 0, .bge 0, .bl 0, .bne 0, .ble 0, .bo 0, .faultno, .faultg, .faulte,
   .faultge, .faultl, .faultne, .faultle, .faulto]

/-- An instruction for each opcode of the MEM table (R135). -/
def memInstrs : List Instr :=
  [.bx (.disp 0), .balx (.disp 0) 0, .callx (.disp 0), .ld (.disp 0) 0, .st 0 (.disp 0), .ldl (.disp 0) 0,
   .stl 0 (.disp 0), .ldt (.disp 0) 0, .stt 0 (.disp 0)]

/-- An opcode byte that no instruction has is none of those of a list of instructions. -/
theorem opcode_known {w : Word} {n : Nat} {l : List Instr} (h : ∀ i, op8Field (encode i).first ≠ op8Field w)
    (hop : (op8Field w).toNat = n) (hl : ∃ i ∈ l, op8Field (encode i).first = BitVec.ofNat 8 n) : False := by
  obtain ⟨i, -, hi⟩ := hl
  exact h i (by rw [hi, ← hop, BitVec.ofNat_toNat, BitVec.setWidth_eq])

/-- A CTRL word whose opcode no instruction has is unknown (R136). -/
theorem decodeCtrl_unknown {w : Word} (h : ∀ i, op8Field (encode i).first ≠ op8Field w) :
    decodeCtrl w = .refused .unknownOpcode := by
  unfold decodeCtrl
  split
  case h_21 => rfl
  all_goals
    rename_i hop
    exact (opcode_known (l := ctrlInstrs) h hop (by decide)).elim

theorem decodeMemFormat_unknown {w : Word} (d : Word) (h : ∀ i, op8Field (encode i).first ≠ op8Field w) :
    decodeMemFormat w d = .refused .unknownOpcode := by
  unfold decodeMemFormat
  split
  case h_10 => rfl
  all_goals
    rename_i hop
    exact (opcode_known (l := memInstrs) h hop (by decide)).elim

theorem decodeReg_unknown {w : Word} (h : ∀ i, op12Field (encode i).first ≠ op12Field w) :
    decodeReg w = .refused .unknownOpcode := by
  rcases decodeReg_cases w with ⟨hmem, -⟩ | ⟨-, hd⟩
  · obtain ⟨i, hi⟩ := exists_regInstr hmem
    exact absurd hi (h i)
  · exact hd

/-- The mask of the opcode of the word `w`, by its format. -/
def opcodeMask (w : Word) : Word :=
  if 0x58 ≤ (op8Field w).toNat ∧ (op8Field w).toNat < 0x80 then op12Mask else op8Mask

/-- A word of an assigned opcode byte whose opcode no instruction has is refused as unknown (R136). -/
theorem decode_unknown {w : Word} (d : Word)
    (hop : (op8Field w).toNat < 0x40 ∨ (0x58 ≤ (op8Field w).toNat ∧ (op8Field w).toNat < 0xD0))
    (h : ∀ i, (encode i).first &&& opcodeMask w ≠ w &&& opcodeMask w) : decode w d = .refused .unknownOpcode := by
  unfold opcodeMask at h
  by_cases hreg : 0x58 ≤ (op8Field w).toNat ∧ (op8Field w).toNat < 0x80
  · simp only [if_pos hreg, ne_eq, masked_op12_iff] at h
    rw [decode_reg d hreg.1 hreg.2, decodeReg_unknown h]
  · simp only [if_neg hreg, ne_eq, masked_op8_iff] at h
    rcases Nat.lt_or_ge (op8Field w).toNat 0x20 with hctrl | hge
    · rw [decode_ctrl d hctrl, decodeCtrl_unknown h]
    rcases Nat.lt_or_ge (op8Field w).toNat 0x40 with hcobr | hge
    · exact decode_cobr d hge hcobr
    · rw [decode_mem d (by omega) (by omega), decodeMemFormat_unknown d h]

/-- A word with the mask of a REG opcode is a REG word. -/
theorem reg_of_opcodeMask {w : Word} (h : opcodeMask w = op12Mask) :
    0x58 ≤ (op8Field w).toNat ∧ (op8Field w).toNat < 0x80 := by
  by_contra hreg
  rw [opcodeMask, if_neg hreg] at h
  exact absurd h (by decide)

/-- A REG word of an instruction's opcode whose bits 6:5 are not zero is refused as reserved (R123). -/
theorem decode_reserved {w : Word} (d : Word) {i : Instr} (h : (encode i).first &&& opcodeMask w = w &&& opcodeMask w)
    (hmask : opcodeMask w = op12Mask) (hr : rsvField w ≠ 0#2) : decode w d = .refused .reservedBits := by
  obtain ⟨h1, h2⟩ := reg_of_opcodeMask hmask
  rw [hmask, masked_op12_iff] at h
  have hop8 := op8Field_of_op12Field h
  have hmem : op12Field w ∈ regOpcodes := by
    rw [← h]
    exact op12Field_mem_regOpcodes (by rwa [hop8]) (by rwa [hop8])
  have hrsv : noRsv w = false := beq_eq_false_iff_ne.mpr hr
  rcases decodeReg_cases w with ⟨-, hd⟩ | ⟨hn, -⟩
  · rw [decode_reg d h1 h2, hd hrsv]
  · exact absurd hmem hn

/-- The row of an instruction with one floating-point source in the REG table (R132). -/
theorem unary_row : ∀ p ∈ unary, ∃ op : BitVec 12,
    (0x58 ≤ (op.extractLsb' 4 8).toNat ∧ (op.extractLsb' 4 8).toNat < 0x80) ∧
      (∀ x y, (encode (p.2 x y)).first = encodeFpFp op x y) ∧
        ∀ w, op12Field w = op → decodeReg w = decodeFpFp w p.2 := by
  simp only [unary, List.forall_mem_cons, List.not_mem_nil, false_imp_iff, implies_true, and_true]
  and_intros
  all_goals
    refine ⟨_, ?_, fun _ _ => rfl, fun w h => ?_⟩
    · decide
    · unfold decodeReg
      rw [h]
      rfl

/-- A word of such an opcode whose unused `src2` field or mode bit is not zero is refused as reserved (R123). -/
theorem decode_unary_reserved {w : Word} (d : Word) {p : Fmt × (FpSrc → FpDst → Instr)} (hp : p ∈ unary) {x : FpSrc}
    {y : FpDst} (h : (encode (p.2 x y)).first &&& opcodeMask w = w &&& opcodeMask w)
    (hu : src2Field w ≠ 0#5 ∨ m2Field w = true) : decode w d = .refused .reservedBits := by
  obtain ⟨op, hrange, henc, hrow⟩ := unary_row p hp
  rw [henc, encodeFpFp] at h
  have hclean : (noRsv w && noSrc2 w) = false := by
    unfold noSrc2
    rcases hu with hu | hu
    · rw [beq_eq_false_iff_ne.mpr hu, Bool.false_and, Bool.and_false]
    · rw [hu, Bool.not_true, Bool.and_false, Bool.and_false]
  by_cases hreg : 0x58 ≤ (op8Field w).toNat ∧ (op8Field w).toNat < 0x80
  · rw [opcodeMask, if_pos hreg, masked_op12_iff, op12Field_regWord] at h
    rw [decode_reg d hreg.1 hreg.2, hrow w h.symm]
    exact decoded_reserved _ hclean
  · rw [opcodeMask, if_neg hreg, masked_op8_iff, op8Field_regWord] at h
    exact absurd (h ▸ hrange) hreg

/-! ### The step that fetches such a word (R108, R552) -/

/-- With no pin latched and no trace fault pending, the stages before the instruction are the fetch (R517, R548). -/
theorem prepare_quiet {s : State} (hpin : s.pinLatch = 0#4) (htfp : pcTfp s = false) : prepare s = fetchStage s := by
  have hskip : servicePins (pinSequence s.params.pinOrder) s = .ok s := by
    rw [← List.append_nil (pinSequence _), servicePins_skip fun j _ => by rw [hpin, BitVec.getLsbD_zero]]
    rfl
  unfold prepare
  rw [hskip]
  change traceStage s = _
  unfold traceStage
  rw [htfp]
  rfl

theorem fetchWord_ip {s : State} {a : Word} {q : Word × State} (e : fetchWord s a = .ok q) : q.2.ip = s.ip := by
  unfold fetchWord at e
  split at e
  · cases e
  · split at e
    · cases e
    · cases e
      obtain ⟨⟨k, hk⟩, -⟩ := readWord_eq (scratchWord s a) (markExecuted s a.toNat) a
      rw [hk]
      rfl

theorem fetchInstr_ip {s : State} {q : Word × Word × State} (e : fetchInstr s = .ok q) : q.2.2.ip = s.ip := by
  obtain ⟨r, hr, e⟩ := result_bind_ok e
  have hip := fetchWord_ip hr
  dsimp only at e
  split at e
  · obtain ⟨r2, hr2, e⟩ := result_bind_ok e
    cases e
    exact (fetchWord_ip hr2).trans hip
  · cases e
    exact hip

/-- What the fetch stage comes to on a word that is no instruction (R137, R472). -/
theorem fetchStage_invalid {s s1 : State} {w d : Word} (hf : fetchInstr s = .ok (w, d, s1))
    (hd : decode w d = .invalidOpcode) :
    fetchStage s = deliverFault (invalidOpcodeFault s1) s1 >>= fun u => .ok (.ended u) := by
  unfold fetchStage
  rw [hf]
  dsimp only [bind, Except.bind]
  rw [hd]
  rfl

/-- What a step refuses a word as that the decoder refuses (R123, R136). -/
def refusalOf (r : DecodeRefusal) : Refusal :=
  match r with
  | .unknownOpcode => .unknownOpcode
  | .reservedBits => .reservedBits

theorem fetchStage_refused {s s1 : State} {w d : Word} {r : DecodeRefusal} (hf : fetchInstr s = .ok (w, d, s1))
    (hd : decode w d = .refused r) : fetchStage s = .error (.refused (refusalOf r)) := by
  unfold fetchStage
  rw [hf]
  dsimp only [bind, Except.bind]
  cases r
  all_goals
    rw [hd]
    rfl

theorem fetchStage_error {s : State} {e : Stop} (hf : fetchInstr s = .error e) : fetchStage s = .error e := by
  unfold fetchStage
  rw [hf]
  rfl

section
variable {s : State} (hrun : isRunningState s) (hpin : s.pinLatch = 0#4) (htfp : pcTfp s = false)
include hrun hpin htfp

theorem step_invalidOpcode {s1 : State} {w d : Word} (hf : fetchInstr s = .ok (w, d, s1))
    (hd : decode w d = .invalidOpcode) :
    step s = faultsWith { ftype := 0x02, subtype := 0x01, afi := some s.ip, sip := none } s1 := by
  have hip : s1.ip = s.ip := fetchInstr_ip hf
  rw [← hip]
  change step s = toOutcome (deliverFault (invalidOpcodeFault s1) s1)
  unfold step
  rw [show s.status = .running from hrun]
  dsimp only
  rw [prepare_quiet hpin htfp, fetchStage_invalid hf hd]
  cases deliverFault (invalidOpcodeFault s1) s1 <;> rfl

theorem step_fetch_error {e : Stop} (h : fetchStage s = .error e) : step s = toOutcome (.error e) :=
  step_prepare_error hrun ((prepare_quiet hpin htfp).trans h)

end

/-- A stale word is refused when it is fetched (R108). -/
theorem fetchWord_stale {s : State} {a : Word} (hal : a.toNat % 4 = 0) (hr : isReserved a = false)
    (h : a.toNat ∈ s.stale) : fetchWord s a = .error (.refused .staleCode) := by
  unfold fetchWord hasAddr
  rw [checkAccess_of hal hr]
  exact if_pos (List.contains_iff_mem.mpr h)

theorem fetchWord_of {s : State} {a : Word} (ha : okWord s a) (h : a.toNat ∉ s.stale) :
    fetchWord s a = .ok (wordAt s a.toNat, markExecuted s a.toNat) := by
  obtain ⟨hal, hr, hscr⟩ := ha
  unfold fetchWord hasAddr
  rw [checkAccess_of hal hr, hscr]
  exact if_neg (mt List.contains_iff_mem.mp h)

theorem fetchInstr_stale {s : State} (hal : s.ip.toNat % 4 = 0) (hr : isReserved s.ip = false)
    (h : s.ip.toNat ∈ s.stale) : fetchInstr s = .error (.refused .staleCode) := by
  unfold fetchInstr
  rw [fetchWord_stale hal hr h]
  rfl

theorem fetchInstr_second_stale {s : State} (hok : okWord s s.ip) (hn : s.ip.toNat ∉ s.stale)
    (h2 : hasSecondWord (wordAt s s.ip.toNat) = true) (hr : isReserved (s.ip + 4#32) = false)
    (h : (s.ip + 4#32).toNat ∈ s.stale) : fetchInstr s = .error (.refused .staleCode) := by
  have hal : (s.ip + 4#32).toNat % 4 = 0 := by
    have := hok.1
    rw [BitVec.toNat_add, BitVec.toNat_ofNat]
    omega
  unfold fetchInstr
  rw [fetchWord_of hok hn]
  dsimp only [bind, Except.bind]
  rw [if_pos h2, fetchWord_stale (s := markExecuted s s.ip.toNat) hal hr h]

/-- A word stored to is stale if it has been executed (R108). -/
theorem mem_putWord_stale {s : State} {a : Word} (v : Word) (hal : a.toNat % 4 = 0) (h : a.toNat ∈ s.executed) :
    a.toNat ∈ (putWord s a v).stale := by
  unfold putWord
  refine (mem_markStale_stale _ _ _).mpr (.inl ((mem_markStale_stale _ _ _).mpr (.inr ⟨?_, h⟩)))
  rw [hal, Nat.sub_zero]

theorem exec_st_stale {s : State} {m : Addr} (r : Reg) (hal : (effectiveAddr s m).toNat % 4 = 0)
    (hr : isReserved (effectiveAddr s m) = false) (h : (effectiveAddr s m).toNat ∈ s.executed) :
    ∃ u, exec (.st r m) s = .next u ∧ (effectiveAddr s m).toNat ∈ u.stale := by
  have hcheck := checkData_of (s := s) (n := 4) ⟨hr, .inl hal⟩ (by decide) le_rfl (by decide)
  refine ⟨_, finish_store_next (n := 1) r hcheck, ?_⟩
  unfold ended
  rw [retire_stale, commonEvents_stale]
  exact mem_putWord_stale (getReg s (r + 0#5)) hal h

end Sys2Proof.Claims

namespace Sys2Proof.Proofs
open Sys2Proof.Machine Sys2Proof.Claims

/-- Settles O5: the decoder by the opcode byte and the opcode, the fetch of what it refuses, and the fetch of a stale
word. -/
theorem undefinedAndRefusedWords : Obligations.UndefinedAndRefusedWords := by
  unfold Obligations.UndefinedAndRefusedWords
  simp only [op8Field_toNat]
  refine ⟨fun w d h => decode_unassigned d h, fun w d hop hr hm h => ?_, fun w d mask hmask hop => ?_,
    fun s w d s1 hrun hpin htfp hf => ⟨step_invalidOpcode hrun hpin htfp hf, fun r hd => ⟨?_, ?_⟩⟩,
    fun s w hrun hpin htfp hal hr => ⟨fun h => ?_, ?_⟩, ?_⟩
  · have hrange : ∀ op ∈ memOpcodes, 0x80 ≤ op.toNat ∧ op.toNat < 0xD0 := by decide
    obtain ⟨h1, h2⟩ := hrange _ hop
    rw [decode_mem d h1 h2]
    exact decodeMemFormat_invalid hop hr (decodeAddr_invalid d hm h)
  · obtain rfl : mask = opcodeMask w := hmask
    exact ⟨decode_unknown d hop, fun i hi hm hrsv => decode_reserved d hi hm hrsv,
      fun p x y hp hi hu => decode_unary_reserved d hp hi hu⟩
  · rintro rfl
    exact step_fetch_error hrun hpin htfp (fetchStage_refused hf hd)
  · rintro rfl
    exact step_fetch_error hrun hpin htfp (fetchStage_refused hf hd)
  · exact step_fetch_error hrun hpin htfp (fetchStage_error (fetchInstr_stale hal hr h))
  · rintro hok hn rfl h2 hr2 h
    exact step_fetch_error hrun hpin htfp (fetchStage_error (fetchInstr_second_stale hok hn h2 hr2 h))
  · rintro s m r _ rfl hal hr h
    exact exec_st_stale r hal hr h

end Sys2Proof.Proofs
end

section
/-! PROOFS. Decoding an encoded instruction gives it back (R121 to R129, R132 to R135). -/
namespace Sys2Proof.Claims

/-! ### The REG format (R123, R132, R133) -/

/-- The row of the REG table at the opcode `op`: the decoder reads its words by the shape `shape`. -/
structure RegRow (op : BitVec 12) (shape : Word → Decoded) : Prop where
  range : 0x58 ≤ (op.extractLsb' 4 8).toNat ∧ (op.extractLsb' 4 8).toNat < 0x80
  row : ∀ w, op12Field w = op → decodeReg w = shape w

theorem RegRow.decode_eq {op : BitVec 12} {shape : Word → Decoded} (h : RegRow op shape) (d s2 s1 : Bool × BitVec 5)
    (w1 : Word) : decode (regWord op d s2 s1) w1 = shape (regWord op d s2 s1) :=
  (decode_regWord op d s2 s1 w1 h.range.1 h.range.2).trans (h.row _ (op12Field_regWord op d s2 s1))

section
variable {op : BitVec 12} (w1 : Word)

theorem decode_encodeInt3 {mk : Src → Src → Reg → Instr} (h : RegRow op (decodeInt3 · mk)) (a b : Src) (d : Reg) :
    decode (encodeInt3 op a b d) w1 = .instr (mk a b d) :=
  (h.decode_eq _ _ _ w1).trans (decodeInt3_encode op a b d mk)

theorem decode_encodeIntSrcs {mk : Src → Src → Instr} (h : RegRow op (decodeIntSrcs · mk)) (a b : Src) :
    decode (encodeIntSrcs op a b) w1 = .instr (mk a b) :=
  (h.decode_eq _ _ _ w1).trans (decodeIntSrcs_encode op a b mk)

theorem decode_encodeInt2 {mk : Src → Reg → Instr} (h : RegRow op (decodeInt2 · mk)) (a : Src) (d : Reg) :
    decode (encodeInt2 op a d) w1 = .instr (mk a d) :=
  (h.decode_eq _ _ _ w1).trans (decodeInt2_encode op a d mk)

theorem decode_encodeInt1 {mk : Src → Instr} (h : RegRow op (decodeInt1 · mk)) (a : Src) :
    decode (encodeInt1 op a) w1 = .instr (mk a) :=
  (h.decode_eq _ _ _ w1).trans (decodeInt1_encode op a mk)

theorem decode_encodeNullary {i : Instr} (h : RegRow op (decodeNullary · i)) :
    decode (encodeNullary op) w1 = .instr i :=
  (h.decode_eq _ _ _ w1).trans (decodeNullary_encode op i)

theorem decode_encodeIntToFp {mk : Src → FpDst → Instr} (h : RegRow op (decodeIntToFp · mk)) (a : Src) (d : FpDst) :
    decode (encodeIntToFp op a d) w1 = .instr (mk a d) :=
  (h.decode_eq _ _ _ w1).trans (decodeIntToFp_encode op a d mk)

theorem decode_encodeFpToInt {mk : FpSrc → Reg → Instr} (h : RegRow op (decodeFpToInt · mk)) (a : FpSrc) (d : Reg) :
    decode (encodeFpToInt op a d) w1 = .instr (mk a d) :=
  (h.decode_eq _ _ _ w1).trans (decodeFpToInt_encode op a d mk)

theorem decode_encodeScale {mk : Src → FpSrc → FpDst → Instr} (h : RegRow op (decodeScale · mk)) (a : Src) (b : FpSrc)
    (d : FpDst) : decode (encodeScale op a b d) w1 = .instr (mk a b d) :=
  (h.decode_eq _ _ _ w1).trans (decodeScale_encode op a b d mk)

theorem decode_encodeFpFpFp {mk : FpSrc → FpSrc → FpDst → Instr} (h : RegRow op (decodeFpFpFp · mk)) (a b : FpSrc)
    (d : FpDst) : decode (encodeFpFpFp op a b d) w1 = .instr (mk a b d) :=
  (h.decode_eq _ _ _ w1).trans (decodeFpFpFp_encode op a b d mk)

theorem decode_encodeFpFp {mk : FpSrc → FpDst → Instr} (h : RegRow op (decodeFpFp · mk)) (a : FpSrc) (d : FpDst) :
    decode (encodeFpFp op a d) w1 = .instr (mk a d) :=
  (h.decode_eq _ _ _ w1).trans (decodeFpFp_encode op a d mk)

theorem decode_encodeFpCmp {mk : FpSrc → FpSrc → Instr} (h : RegRow op (decodeFpCmp · mk)) (a b : FpSrc) :
    decode (encodeFpCmp op a b) w1 = .instr (mk a b) :=
  (h.decode_eq _ _ _ w1).trans (decodeFpCmp_encode op a b mk)

theorem decode_encodeFpClass {mk : FpSrc → Instr} (h : RegRow op (decodeFpClass · mk)) (a : FpSrc) :
    decode (encodeFpClass op a) w1 = .instr (mk a) :=
  (h.decode_eq _ _ _ w1).trans (decodeFpClass_encode op a mk)

end

/-! ### The CTRL and the MEM formats (R127 to R129, R134, R135) -/

section
variable {op : BitVec 8} (w1 : Word)

theorem decode_encodeCtrl {mk : CtrlDisp → Instr} (hop : op.toNat < 0x20)
    (hrow : ∀ w, op8Field w = op → decodeCtrl w = .instr (mk (ctrlField w))) (t : CtrlDisp) :
    decode (encodeCtrl op t) w1 = .instr (mk t) := by
  have hfield := op8Field_encodeCtrl op t
  rw [decode_ctrl w1 (by rwa [hfield]), hrow _ hfield, ctrlField_encodeCtrl]

/-- A MEM instruction that names the register it reads before the address. -/
theorem decode_encodeMem_store {mk : Reg → Addr → Instr} (hop : 0x80 ≤ op.toNat ∧ op.toNat < 0xD0)
    (hrow : ∀ w w1, op8Field w = op → decodeMemFormat w w1 = decodeMem w w1 (mk (srcdstField w))) (r : Reg) (a : Addr)
    (ha : a.encodable = true) :
    decode (encodeMem op r a).first ((encodeMem op r a).second.getD w1) = .instr (mk r a) := by
  rw [decode_encodeMem op r a _ hop.1 hop.2, hrow _ _ (op8Field_encodeMem op r a), srcdstField_encodeMem,
    decodeMem_encode op r a w1 _ ha]

/-- A MEM instruction that names the register it writes after the address. -/
theorem decode_encodeMem_load {mk : Addr → Reg → Instr} (hop : 0x80 ≤ op.toNat ∧ op.toNat < 0xD0)
    (hrow : ∀ w w1, op8Field w = op → decodeMemFormat w w1 = decodeMem w w1 (mk · (srcdstField w))) (a : Addr) (r : Reg)
    (ha : a.encodable = true) :
    decode (encodeMem op r a).first ((encodeMem op r a).second.getD w1) = .instr (mk a r) :=
  decode_encodeMem_store (mk := fun r a => mk a r) w1 hop hrow r a ha

/-- A MEM instruction that leaves `srcdst` unused. -/
theorem decode_encodeMem_bare {mk : Addr → Instr} (hop : 0x80 ≤ op.toNat ∧ op.toNat < 0xD0)
    (hrow : ∀ w w1, op8Field w = op → decodeMemFormat w w1 = decodeMemBare w w1 mk) (a : Addr)
    (ha : a.encodable = true) :
    decode (encodeMem op 0#5 a).first ((encodeMem op 0#5 a).second.getD w1) = .instr (mk a) := by
  rw [decode_encodeMem op 0#5 a _ hop.1 hop.2, hrow _ _ (op8Field_encodeMem op 0#5 a),
    decodeMemBare_encode op a w1 _ ha]

end

/-- The decoder reads an encoded instruction back, each by the row of its opcode. -/
theorem decode_encode (i : Instr) (w1 : Word) (h : i.wellFormed = true) :
    decode (encode i).first ((encode i).second.getD w1) = .instr i := by
  cases i
  case b t | call t | bal t | bno t | bg t | be t | bge t | bl t | bne t | ble t | bo t =>
    exact decode_encodeCtrl _ (by decide) (fun w hop => by unfold decodeCtrl; rw [hop]; rfl) t
  case ret | faultno | faultg | faulte | faultge | faultl | faultne | faultle | faulto =>
    exact decode_encodeCtrl (mk := fun _ => _) _ (by decide) (fun w hop => by unfold decodeCtrl; rw [hop]; rfl) 0#22
  case bx a | callx a =>
    exact decode_encodeMem_bare _ (by decide) (fun w _ hop => by unfold decodeMemFormat; rw [hop]; rfl) a h
  case balx a r | ld a r | ldl a r | ldt a r =>
    exact decode_encodeMem_load _ (by decide) (fun w _ hop => by unfold decodeMemFormat; rw [hop]; rfl) a r h
  case st r a | stl r a | stt r a =>
    exact decode_encodeMem_store _ (by decide) (fun w _ hop => by unfold decodeMemFormat; rw [hop]; rfl) r a h
  case' alterbit a b d | addo a b d | modac a b d | modtc a b d | modpc a b d | ediv a b d =>
    refine decode_encodeInt3 _ ?_ a b d
  case' chkbit a b | synmov a b => refine decode_encodeIntSrcs _ ?_ a b
  case' mov a d | movl a d | movt a d | synld a d => refine decode_encodeInt2 _ ?_ a d
  case' calls a => refine decode_encodeInt1 _ ?_ a
  case' mark | fmark | flushreg | syncf => refine decode_encodeNullary _ ?_
  case' cvtir a d | cvtilr a d => refine decode_encodeIntToFp _ ?_ a d
  case' cvtri a d | cvtril a d | cvtzri a d | cvtzril a d => refine decode_encodeFpToInt _ ?_ a d
  case' scaler a b d | scalerl a b d => refine decode_encodeScale _ ?_ a b d
  case' atanr a b d | logepr a b d | logr a b d | remr a b d | atanrl a b d | logeprl a b d | logrl a b d | remrl a b d
      | cpysre a b d | cpyrsre a b d | divr a b d | mulr a b d | subr a b d | addr a b d | divrl a b d | mulrl a b d
      | subrl a b d | addrl a b d =>
    refine decode_encodeFpFpFp _ ?_ a b d
  case' cmpor a b | cmpr a b | cmporl a b | cmprl a b => refine decode_encodeFpCmp _ ?_ a b
  case' classr a | classrl a => refine decode_encodeFpClass _ ?_ a
  case' sqrtr a d | expr a d | logbnr a d | roundr a d | sinr a d | cosr a d | tanr a d | sqrtrl a d | exprl a d
      | logbnrl a d | roundrl a d | sinrl a d | cosrl a d | tanrl a d | movr a d | movrl a d | movre a d =>
    refine decode_encodeFpFp _ ?_ a d
  all_goals exact ⟨by decide, fun w hop => by unfold decodeReg; rw [hop]; rfl⟩

end Sys2Proof.Claims

namespace Sys2Proof.Proofs
open Sys2Proof.Claims

/-- Settles O3: each format's words are read back by the row of their opcode. -/
theorem decodeEncode : Obligations.DecodeEncode := by
  unfold Obligations.DecodeEncode
  exact fun i d h => decode_encode i d h

end Sys2Proof.Proofs
end

section
/-! PROOFS. Words of the spec's examples, and the effective addresses (R128, R129, R131). -/
namespace Sys2Proof.Claims
open Sys2Proof.Machine

/-! ### Effective addresses, as sums modulo 2^32 (R128, R129) -/

theorem scaled_toNat (s : State) (x : Reg) (c : BitVec 3) :
    (scaled s x c).toNat = (getReg s x).toNat * 2 ^ c.toNat % 2 ^ 32 := by
  rw [scaled, BitVec.toNat_shiftLeft, Nat.shiftLeft_eq]

section
variable (s : State) (b x : Reg) (c : BitVec 3) (o : BitVec 12) (d : Word)

theorem effectiveAddr_offset : (effectiveAddr s (.offset o)).toNat = o.toNat :=
  BitVec.toNat_setWidth_of_le (by decide)

theorem effectiveAddr_baseOffset :
    (effectiveAddr s (.baseOffset b o)).toNat = ((getReg s b).toNat + o.toNat) % 2 ^ 32 := by
  rw [effectiveAddr, BitVec.toNat_add, BitVec.toNat_setWidth_of_le (by decide)]

theorem effectiveAddr_ipDisp :
    (effectiveAddr s (.ipDisp d)).toNat = (s.ip.toNat + 8 + d.toNat) % 2 ^ 32 := by
  rw [effectiveAddr, BitVec.toNat_add, BitVec.toNat_add, Nat.mod_add_mod]
  rfl

theorem effectiveAddr_baseIndex : (effectiveAddr s (.baseIndex b x c)).toNat =
    ((getReg s b).toNat + (getReg s x).toNat * 2 ^ c.toNat) % 2 ^ 32 := by
  rw [effectiveAddr, BitVec.toNat_add, scaled_toNat, Nat.add_mod_mod]

theorem effectiveAddr_baseDisp :
    (effectiveAddr s (.baseDisp b d)).toNat = ((getReg s b).toNat + d.toNat) % 2 ^ 32 :=
  BitVec.toNat_add _ _

theorem effectiveAddr_indexDisp : (effectiveAddr s (.indexDisp x c d)).toNat =
    ((getReg s x).toNat * 2 ^ c.toNat + d.toNat) % 2 ^ 32 := by
  rw [effectiveAddr, BitVec.toNat_add, scaled_toNat, Nat.mod_add_mod]

theorem effectiveAddr_baseIndexDisp : (effectiveAddr s (.baseIndexDisp b x c d)).toNat =
    ((getReg s b).toNat + (getReg s x).toNat * 2 ^ c.toNat + d.toNat) % 2 ^ 32 := by
  rw [effectiveAddr, BitVec.toNat_add, BitVec.toNat_add, scaled_toNat, Nat.add_mod_mod, Nat.mod_add_mod]

end

end Sys2Proof.Claims

namespace Sys2Proof.Proofs
open Sys2Proof.Machine Sys2Proof.Claims

/-- Settles O4: the decoder is run on the example words; each addressing mode is its sum. -/
theorem encodingsAndAddresses : Obligations.EncodingsAndAddresses := by
  unfold Obligations.EncodingsAndAddresses
  refine ⟨by decide, fun s b x c o d => ?_⟩
  exact ⟨effectiveAddr_offset s o, rfl, effectiveAddr_baseOffset s b o, rfl, rfl, rfl, effectiveAddr_ipDisp s d, rfl,
    effectiveAddr_baseIndex s b x c, rfl, rfl, rfl, effectiveAddr_baseDisp s b d, rfl, effectiveAddr_indexDisp s x c d,
    rfl, effectiveAddr_baseIndexDisp s b x c d, rfl⟩

end Sys2Proof.Proofs
end

section
/-! PROOFS. The integer instructions (R455 to R457, R460 to R463): what they write and that they write nothing else. -/
namespace Sys2Proof.Claims
open Sys2Proof.Machine

/-! ### Register writes -/

/-- `t` has of `s` all but the registers `R`, IP among what is kept. -/
structure RegsOnly (R : Reg → Prop) (s t : State) : Prop where
  ip : t.ip = s.ip
  ac : t.ac = s.ac
  controls : SameControls s t
  kept : Kept R nothing nothing s t

theorem RegsOnly.refl (R : Reg → Prop) (s : State) : RegsOnly R s s :=
  ⟨rfl, rfl, ⟨rfl, rfl⟩, Kept.of_fields (fun _ => rfl) (fun _ => rfl) rfl rfl (SameSystem.refl s)⟩

theorem RegsOnly.drawn (R : Reg → Prop) (s : State) (k : Nat) : RegsOnly R s (drawn s k) :=
  ⟨rfl, rfl, ⟨rfl, rfl⟩, kept_drawn s k⟩

theorem RegsOnly.setReg {R : Reg → Prop} {s t : State} (h : RegsOnly R s t) {d : Reg} (hd : R d) (v : Word) :
    RegsOnly R s (setReg t d v) where
  ip := (setReg_ip t d v).trans h.ip
  ac := (setReg_ac t d v).trans h.ac
  controls := ⟨(setReg_pc t d v).trans h.controls.1, (setReg_tc t d v).trans h.controls.2⟩
  kept := h.kept.trans ((kept_setReg t d v).mono (fun _ hr => hr ▸ hd) (fun _ hf => hf) fun _ hb => hb)

theorem RegsOnly.trans {R : Reg → Prop} {s t u : State} (h : RegsOnly R s t) (k : RegsOnly R t u) : RegsOnly R s u where
  ip := k.ip.trans h.ip
  ac := k.ac.trans h.ac
  controls := ⟨k.controls.1.trans h.controls.1, k.controls.2.trans h.controls.2⟩
  kept := h.kept.trans k.kept

theorem RegsOnly.mono {R R' : Reg → Prop} {s t : State} (h : RegsOnly R s t) (hR : ∀ r, R r → R' r) : RegsOnly R' s t :=
  ⟨h.ip, h.ac, h.controls, h.kept.mono hR (fun _ hf => hf) fun _ hb => hb⟩

/-- An instruction of one word has completed, and of the rest only the registers `R` are written. -/
def WritesOnly (R : Reg → Prop) (s u : State) : Prop :=
  u.ip = s.ip + 4#32 ∧ u.ac = s.ac ∧ SameControls s u ∧ Kept R nothing nothing s u

theorem WritesOnly.mono {R R' : Reg → Prop} {s u : State} (h : WritesOnly R s u) (hR : ∀ r, R r → R' r) :
    WritesOnly R' s u := by
  obtain ⟨hip, hac, hctl, hkept⟩ := h
  exact ⟨hip, hac, hctl, hkept.mono hR (fun _ hf => hf) fun _ hb => hb⟩

/-- An instruction of one word that has written the registers `R` completes: IP goes on, and nothing else changes. -/
theorem RegsOnly.finish {R : Reg → Prop} {s t : State} (h : RegsOnly R s t) :
    ∃ u, Machine.finish s (.ok (next4 t)) = .next (ended s.ip u) ∧ (∀ r, getReg u r = getReg t r) ∧
      WritesOnly R s u :=
  ⟨_, finish_next4 s t, fun _ => rfl, congrArg (· + 4#32) h.ip, h.ac, h.controls, h.kept.trans (kept_withIp t _)⟩

/-- An instruction of one word whose result is one register. -/
theorem finish_setReg (s : State) (d : Reg) (v : Word) :
    ∃ u, finish s (.ok (next4 (setReg s d v))) = .next (ended s.ip u) ∧ getReg u d = v ∧ WritesOnly (only d) s u := by
  obtain ⟨u, hu, hreg, hrest⟩ := ((RegsOnly.refl (only d) s).setReg rfl v).finish
  exact ⟨u, hu, (hreg d).trans (getReg_setReg_same _ d v), hrest⟩

/-! ### `mov`, `addo`, `alterbit` and `chkbit` (R455, R460 to R462) -/

section
variable (s : State) (a b : Src) (d : Reg)

theorem exec_mov :
    ∃ u, exec (.mov a d) s = .next (ended s.ip u) ∧ getReg u d = srcValue s a ∧ WritesOnly (only d) s u :=
  finish_setReg s d _

theorem exec_addo : ∃ u, exec (.addo a b d) s = .next (ended s.ip u) ∧
    (getReg u d).toNat = ((srcValue s b).toNat + (srcValue s a).toNat) % 2 ^ 32 ∧ WritesOnly (only d) s u := by
  obtain ⟨u, hu, hd, hrest⟩ := finish_setReg s d (srcValue s b + srcValue s a)
  exact ⟨u, hu, by rw [hd, BitVec.toNat_add], hrest⟩

/-- The bits of the result of `alterbit`. -/
theorem getBit_alterbit {i : Nat} (hi : i < 32) :
    getBit (setBit (srcValue s b) (bitPosition s a) ((acCc s).getLsbD 1)) i =
      if i = (srcValue s a).toNat % 32 then getBit s.ac 1 else getBit (srcValue s b) i := by
  have hcc : (acCc s).getLsbD 1 = getBit s.ac 1 := by simp [acCc, getBit]
  rw [getBit_setBit, hcc]
  simp only [bitPosition, hi, and_true]

theorem exec_alterbit : ∃ u, exec (.alterbit a b d) s = .next (ended s.ip u) ∧
    (∀ i, i < 32 → getBit (getReg u d) i =
      if i = (srcValue s a).toNat % 32 then getBit s.ac 1 else getBit (srcValue s b) i) ∧ WritesOnly (only d) s u := by
  obtain ⟨u, hu, hd, hrest⟩ := finish_setReg s d _
  exact ⟨u, hu, fun i hi => hd ▸ getBit_alterbit s a b hi, hrest⟩

theorem exec_chkbit : ∃ u, exec (.chkbit a b) s = .next (ended s.ip u) ∧
    OnlyCc (if getBit (srcValue s b) ((srcValue s a).toNat % 32) = true then 0b010#3 else 0b000#3) s u ∧
    u.ip = s.ip + 4#32 ∧ SameControls s u ∧ Kept nothing nothing nothing s u :=
  ⟨_, finish_next4 s _, onlyCc_of rfl, rfl, ⟨rfl, rfl⟩, (kept_withAc s _).trans (kept_withIp _ _)⟩

end

/-! ### `movl` and `movt` (R456, R457) -/

theorem srcWord_zero (s : State) (a : Src) : srcWord s a 0 = srcValue s a := by
  cases a with
  | reg n => exact congrArg (getReg s) (BitVec.add_zero n)
  | lit v => rfl

/-- The registers up to 31 places after a register are different ones. -/
theorem reg_add_ne (d : Reg) {j k : Nat} (hjk : j < k) (hk : k < 32) : d + BitVec.ofNat 5 j ≠ d + BitVec.ofNat 5 k := by
  intro h
  have hmod := congrArg BitVec.toNat ((BitVec.add_right_inj d).mp h)
  rw [BitVec.toNat_ofNat, BitVec.toNat_ofNat] at hmod
  omega

/-- Words of `s` written one after the other into the registers from `d` on. -/
def moved (s : State) (a : Src) (d : Reg) (t : State) (n : Nat) : State :=
  (List.range n).foldl (fun t k => setReg t (d + BitVec.ofNat 5 k) (srcWord s a k)) t

theorem moveWords_eq (s : State) (a : Src) (d : Reg) (n : Nat) :
    moveWords s a d n = moved s a d (drawn s (srcDraws a (n - 1))) n := rfl

section
variable (s : State) (a : Src) (d : Reg) (t : State)

theorem moved_succ (n : Nat) :
    moved s a d t (n + 1) = setReg (moved s a d t n) (d + BitVec.ofNat 5 n) (srcWord s a n) := by
  unfold moved
  rw [List.range_succ, List.foldl_append]
  rfl

theorem getReg_moved : ∀ n k : Nat, n ≤ 32 → k < n →
    getReg (moved s a d t n) (d + BitVec.ofNat 5 k) = srcWord s a k
  | n + 1, k, hn, hk => by
    rw [moved_succ, getReg_setReg]
    rcases Nat.lt_succ_iff_lt_or_eq.mp hk with hlt | rfl
    · rw [if_neg (reg_add_ne d hlt hn), getReg_moved n k (by omega) hlt]
    · exact if_pos rfl

theorem regsOnly_moved : ∀ n : Nat, RegsOnly (fun r => ∃ k, k < n ∧ r = d + BitVec.ofNat 5 k) t (moved s a d t n)
  | 0 => RegsOnly.refl _ t
  | n + 1 => by
    rw [moved_succ]
    refine ((regsOnly_moved n).mono fun r => ?_).setReg ⟨n, n.lt_succ_self, rfl⟩ _
    exact fun ⟨k, hk, hr⟩ => ⟨k, hk.trans n.lt_succ_self, hr⟩

end

/-- A move of `n` words completes: each register from `d` on holds its word of the source as it was before (R456,
R457). -/
theorem finish_moveWords (s : State) (a : Src) (d : Reg) {n : Nat} (hn : n ≤ 32) :
    ∃ u, finish s (.ok (next4 (moveWords s a d n))) = .next (ended s.ip u) ∧
      (∀ k, k < n → getReg u (d + BitVec.ofNat 5 k) = srcWord s a k) ∧
      WritesOnly (fun r => ∃ k, k < n ∧ r = d + BitVec.ofNat 5 k) s u := by
  rw [moveWords_eq]
  obtain ⟨u, hu, hreg, hrest⟩ := ((RegsOnly.drawn _ s _).trans (regsOnly_moved s a d _ n)).finish
  exact ⟨u, hu, fun k hk => (hreg _).trans (getReg_moved s a d _ n k hn hk), hrest⟩

theorem exec_movl {s : State} {a : Src} {d : Reg} (ha : a.isEven = true) (hd : Reg.isEven d = true) :
    ∃ u, exec (.movl a d) s = .next (ended s.ip u) ∧ getReg u d = srcValue s a ∧
      (∀ n, a = .reg n → getReg u (d + 1#5) = getReg s (n + 1#5)) ∧ WritesOnly (pairOf d) s u := by
  obtain ⟨u, hu, hreg, hrest⟩ := finish_moveWords s a d (n := 2) (by decide)
  refine ⟨u, ?_, ?_, ?_, hrest.mono fun _ => pairOf_of_lt⟩
  · change finish s (requireAligned _ s _) = _
    rwa [requireAligned_true (by rw [ha, hd]; rfl)]
  · rw [← srcWord_zero, ← hreg 0 (by decide), BitVec.add_zero]
  · rintro n rfl
    exact hreg 1 (by decide)

theorem exec_movt {s : State} {a : Src} {d : Reg} (ha : a.isQuad = true) (hd : Reg.isQuad d = true) :
    ∃ u, exec (.movt a d) s = .next (ended s.ip u) ∧ getReg u d = srcValue s a ∧
      (∀ n, a = .reg n → getReg u (d + 1#5) = getReg s (n + 1#5) ∧ getReg u (d + 2#5) = getReg s (n + 2#5)) ∧
      WritesOnly (tripleOf d) s u := by
  obtain ⟨u, hu, hreg, hrest⟩ := finish_moveWords s a d (n := 3) (by decide)
  refine ⟨u, ?_, ?_, ?_, hrest.mono fun _ => tripleOf_of_lt⟩
  · change finish s (requireAligned _ s _) = _
    rwa [requireAligned_true (by rw [ha, hd]; rfl)]
  · rw [← srcWord_zero, ← hreg 0 (by decide), BitVec.add_zero]
  · rintro n rfl
    exact ⟨hreg 1 (by decide), hreg 2 (by decide)⟩

/-! ### `ediv` (R463) -/

theorem srcLong_toNat (s : State) (a : Src) :
    (srcLong s a).toNat = (srcWord s a 1).toNat * 2 ^ 32 + (srcValue s a).toNat := by
  unfold srcLong
  rw [srcWord_zero, BitVec.toNat_append, ← Nat.shiftLeft_add_eq_or_of_lt (srcValue s a).isLt, Nat.shiftLeft_eq]

section
variable {s : State} {a b : Src} {d : Reg} (hb : b.isEven = true) (hd : Reg.isEven d = true)
include hb hd

theorem exec_ediv : exec (.ediv a b d) s = finish s (ruleEdiv a b d s) := by
  change finish s (requireAligned _ s _) = _
  rw [requireAligned_true (by rw [hb, hd]; rfl)]

/-- A zero divisor takes Arithmetic.ZeroDivide in the state before the instruction (R463, R473). -/
theorem exec_ediv_zero (h : srcValue s a = 0#32) : exec (.ediv a b d) s =
    faultsWith { ftype := 0x03, subtype := 0x02, afi := some s.ip, sip := some (s.ip + 4#32) } s := by
  rw [exec_ediv hb hd]
  unfold ruleEdiv
  dsimp only
  rw [if_pos (by rw [h]; rfl)]
  rfl

theorem exec_ediv_nonzero (h : srcValue s a ≠ 0#32) :
    ∃ u, exec (.ediv a b d) s = .next (ended s.ip u) ∧
      (getReg u d).toNat = (srcLong s b).toNat % (srcValue s a).toNat ∧
      (getReg u (d + 1#5)).toNat = (srcLong s b).toNat / (srcValue s a).toNat % 2 ^ 32 ∧ WritesOnly (pairOf d) s u := by
  have hpos : 0 < (srcValue s a).toNat := Nat.pos_of_ne_zero fun h0 => h (BitVec.eq_of_toNat_eq h0)
  have hrem : (srcLong s b).toNat % (srcValue s a).toNat < 2 ^ 32 := (Nat.mod_lt _ hpos).trans (srcValue s a).isLt
  rw [exec_ediv hb hd]
  unfold ruleEdiv
  dsimp only
  rw [if_neg hpos.ne']
  obtain ⟨u, hu, hreg, hrest⟩ :=
    (((RegsOnly.drawn (pairOf d) s (srcDraws b 1)).setReg (d := d) (.inl rfl)
      (BitVec.ofNat 32 ((srcLong s b).toNat % (srcValue s a).toNat))).setReg (d := d + 1#5) (.inr rfl)
        (BitVec.ofNat 32 ((srcLong s b).toNat / (srcValue s a).toNat))).finish
  refine ⟨u, hu, ?_, ?_, hrest⟩
  · rw [hreg, getReg_setReg, if_neg (reg_succ_ne d).symm, getReg_setReg_same, BitVec.toNat_ofNat,
      Nat.mod_eq_of_lt hrem]
  · rw [hreg, getReg_setReg_same, BitVec.toNat_ofNat]

end

end Sys2Proof.Claims

namespace Sys2Proof.Proofs
open Sys2Proof.Machine Sys2Proof.Claims

/-- Settles O12: each instruction's result and frame, and the decoder on the example words. -/
theorem integerResults : Obligations.IntegerResults := by
  unfold Obligations.IntegerResults
  refine ⟨fun s a b d => ⟨exec_mov s a d, exec_addo s a b d, exec_alterbit s a b d, exec_chkbit s a b, by decide⟩,
    fun s a d => ⟨exec_movl, exec_movt⟩, fun s a b d hb hd => ⟨fun h => ?_, exec_ediv_zero hb hd⟩⟩
  obtain ⟨u, hu, hrem, hquot, hrest⟩ := exec_ediv_nonzero hb hd h
  rw [srcLong_toNat] at hrem hquot
  refine ⟨u, srcWord s b 1, ?_, hu, hrem, hquot, hrest⟩
  rintro n rfl
  rfl

end Sys2Proof.Proofs
end

section
/-! PROOFS. What rounding to a grid gives, mode by mode (R178, R179). -/
namespace Sys2Proof.Claims
open Sys2Proof.Machine

/-- The multiple `q * n` is the number `v` rounded by the mode `m` to the grid of `q`: less than one unit away, on the
side the mode selects, and of two nearest multiples the even one (R179). -/
structure RoundedOn (m : RoundMode) (v q : Rat) (n : Int) : Prop where
  near : |q * n - v| < q
  up : m = .up → v ≤ q * n
  down : m = .down → q * n ≤ v
  zero : m = .zero → |q * n| ≤ |v|
  nearest : m = .nearest → 2 * |q * n - v| ≤ q ∧ (2 * |q * n - v| = q → n % 2 = 0)

theorem roundedOn_self (m : RoundMode) {q : Rat} (hq : 0 < q) (n : Int) : RoundedOn m (q * n) q n where
  near := by rwa [sub_self, abs_zero]
  up := fun _ => le_rfl
  down := fun _ => le_rfl
  zero := fun _ => le_rfl
  nearest := fun _ => by
    rw [sub_self, abs_zero, mul_zero]
    exact ⟨hq.le, fun h => absurd h hq.ne⟩

/-- The lower neighbour is the rounded number, where the mode takes it. -/
theorem roundedOn_lower {m : RoundMode} {v q : Rat} {n : Int} (h1 : q * n < v) (h2 : v < q * n + q) (hu : m ≠ .up)
    (hz : m = .zero → 0 ≤ q * n) (hn : m = .nearest → 2 * (v - q * n) ≤ q ∧ (2 * (v - q * n) = q → n % 2 = 0)) :
    RoundedOn m v q n := by
  have habs : |q * n - v| = v - q * n := by rw [abs_sub_comm, abs_of_pos (by linarith)]
  refine ⟨by rw [habs]; linarith, fun h => absurd h hu, fun _ => h1.le, fun h => ?_, fun h => by rw [habs]; exact hn h⟩
  have h0 := hz h
  rw [abs_of_nonneg h0, abs_of_nonneg (h0.trans h1.le)]
  exact h1.le

/-- The upper neighbour is the rounded number, where the mode takes it. -/
theorem roundedOn_upper {m : RoundMode} {v q : Rat} {n : Int} (h1 : q * n - q < v) (h2 : v < q * n) (hd : m ≠ .down)
    (hz : m = .zero → q * n ≤ 0) (hn : m = .nearest → 2 * (q * n - v) ≤ q ∧ (2 * (q * n - v) = q → n % 2 = 0)) :
    RoundedOn m v q n := by
  have habs : |q * n - v| = q * n - v := abs_of_pos (by linarith)
  refine ⟨by rw [habs]; linarith, fun _ => h2.le, fun h => absurd h hd, fun h => ?_, fun h => by rw [habs]; exact hn h⟩
  have h0 := hz h
  rw [abs_of_nonpos h0, abs_of_nonpos (h2.le.trans h0)]
  linarith

/-- Rounding to a grid gives the multiple that the rounding rule describes (R179). -/
theorem roundGrid_roundedOn (m : RoundMode) (v : Rat) {q : Rat} (hq : 0 < q) :
    ∃ n : Int, roundGrid m v q = q * n ∧ RoundedOn m v q n := by
  obtain ⟨h1, h2⟩ := roundGrid_down (v := v) hq
  set k := (v / q).floor with hk
  have hstep : q * ((k + 1 : Int) : Rat) = q * k + q := by push_cast; ring
  unfold roundGrid
  dsimp only
  rw [← hk]
  split
  · next he => exact ⟨k, he, he ▸ roundedOn_self m hq k⟩
  · next he =>
    have hlt : q * (k : Rat) < v := lt_of_le_of_ne h1 (Ne.symm he)
    have lower := roundedOn_lower (m := m) hlt h2
    have upper := roundedOn_upper (m := m) (n := k + 1) (by linarith) (by linarith : v < q * ((k + 1 : Int) : Rat))
    rw [hstep] at upper
    have low : ∀ {x y : Int}, q * (x : Rat) < q * y → x < y := fun h => by
      exact_mod_cast lt_of_mul_lt_mul_left h hq.le
    cases m with
    | up => exact ⟨k + 1, hstep.symm, upper (by decide) (by simp) (by simp)⟩
    | down => exact ⟨k, rfl, lower (by decide) (by simp) (by simp)⟩
    | zero =>
      dsimp only
      split
      · next hv =>
        have h0 : (-1 : Int) < k := low (by push_cast; linarith)
        exact ⟨k, rfl, lower (by decide) (fun _ => mul_nonneg hq.le (by exact_mod_cast (by omega : 0 ≤ k))) (by simp)⟩
      · next hv =>
        have h0 : k < 0 := low (by push_cast; linarith)
        have h1 : ((k + 1 : Int) : Rat) ≤ 0 := by exact_mod_cast (by omega : k + 1 ≤ 0)
        exact ⟨k + 1, hstep.symm,
          upper (by decide) (fun _ => hstep ▸ mul_nonpos_of_nonneg_of_nonpos hq.le h1) (by simp)⟩
    | nearest =>
      dsimp only
      split
      · exact ⟨k, rfl, lower (by decide) (by simp) fun _ => ⟨by linarith, fun h => by linarith⟩⟩
      · split
        · exact ⟨k + 1, hstep.symm, upper (by decide) (by simp) fun _ => ⟨by linarith, fun h => by linarith⟩⟩
        · split
          · next hk => exact ⟨k, rfl, lower (by decide) (by simp) fun _ => ⟨by linarith, fun _ => hk⟩⟩
          · exact ⟨k + 1, hstep.symm, upper (by decide) (by simp) fun _ => ⟨by linarith, fun _ => by omega⟩⟩

end Sys2Proof.Claims

namespace Sys2Proof.Proofs
open Sys2Proof.Machine Sys2Proof.Claims

/-- Settles O40: the rounded number is the multiple of the unit in the last place that the rule describes. -/
theorem roundingRule : Obligations.RoundingRule := by
  unfold Obligations.RoundingRule
  intro m v p hv _
  obtain ⟨n, hn, h⟩ := roundGrid_roundedOn m v (pow2_pos (floorLog2 v - p + 1))
  obtain ⟨e1, e2⟩ := floorLog2_spec hv
  rw [← roundP_eq] at hn
  obtain ⟨near, up, down, zero, nearest⟩ := h
  rw [← hn] at near up down zero nearest
  refine ⟨n, hn, e1, e2, near, up, down, zero, nearest, fun k hk => ?_⟩
  calc roundP m v p = roundGrid m (pow2 (floorLog2 v - p + 1) * k) (pow2 (floorLog2 v - p + 1)) := by
        rw [← hk]; rfl
    _ = v := (roundGrid_self m (pow2_pos _) k).trans hk.symm

end Sys2Proof.Proofs
end

section
/-! PROOFS. Numbers that a format represents, and the results of overflow and underflow (R165, R180, R181, R202,
R204). -/
namespace Sys2Proof.Claims
open Sys2Proof.Machine

/-! ### Exponents -/

theorem pow2_zero : pow2 0 = 1 := rfl

theorem pow2_ne_zero (k : Int) : pow2 k ≠ 0 := (pow2_pos k).ne'

theorem floorLog2_le_iff {v : Rat} (hv : v ≠ 0) (k : Int) : floorLog2 v < k ↔ |v| < pow2 k := by
  obtain ⟨h1, h2⟩ := floorLog2_spec hv
  exact ⟨fun h => h2.trans_le (pow2_le.mpr h), fun h => pow2_lt.mp (h1.trans_lt h)⟩

theorem le_floorLog2_iff {v : Rat} (hv : v ≠ 0) (k : Int) : k ≤ floorLog2 v ↔ pow2 k ≤ |v| := by
  rw [← not_lt, floorLog2_le_iff hv, not_lt]

theorem floorLog2_mul_pow2 {v : Rat} (hv : v ≠ 0) (k : Int) : floorLog2 (v * pow2 k) = floorLog2 v + k := by
  obtain ⟨h1, h2⟩ := floorLog2_spec hv
  have hk := pow2_pos k
  apply floorLog2_unique
  · rw [abs_mul, abs_of_pos hk, pow2_add]
    exact mul_le_mul_of_nonneg_right h1 hk.le
  · rw [abs_mul, abs_of_pos hk, show floorLog2 v + k + 1 = floorLog2 v + 1 + k by ring, pow2_add]
    exact mul_lt_mul_of_pos_right h2 hk

/-- A multiple of a power of two is one of every smaller power of two. -/
theorem exists_pow2_mul {a b : Int} (h : b ≤ a) (n : Int) : ∃ n' : Int, pow2 a * n = pow2 b * n' := by
  refine ⟨2 ^ (a - b).toNat * n, ?_⟩
  rw [show a = b + ((a - b).toNat : Int) by omega, pow2_add, pow2_nat]
  push_cast
  rw [show b + ((a - b).toNat : Int) - b = ((a - b).toNat : Int) by ring, Int.toNat_natCast]
  ring

/-! ### Numbers on the grid of their own exponent (R165) -/

/-- The number has no more significant bits than the format (R160). -/
def OnGrid (f : Fmt) (v : Rat) : Prop := ∃ n : Int, v = pow2 (floorLog2 v - fracBits f) * n

theorem fracBits_le (f : Fmt) : fracBits f ≤ fracBits .ext := by cases f <;> decide

theorem OnGrid.ext {f : Fmt} {v : Rat} (h : OnGrid f v) : OnGrid .ext v := by
  obtain ⟨n, hn⟩ := h
  have := fracBits_le f
  obtain ⟨n', hn'⟩ := exists_pow2_mul (a := floorLog2 v - fracBits f) (b := floorLog2 v - fracBits .ext) (by omega) n
  exact ⟨n', hn.trans hn'⟩

theorem OnGrid.mul_pow2 {f : Fmt} {v : Rat} (h : OnGrid f v) (hv : v ≠ 0) (k : Int) : OnGrid f (v * pow2 k) := by
  obtain ⟨n, hn⟩ := h
  refine ⟨n, ?_⟩
  rw [floorLog2_mul_pow2 hv, show floorLog2 v + k - fracBits f = floorLog2 v - fracBits f + k by ring, pow2_add]
  calc v * pow2 k = pow2 (floorLog2 v - fracBits f) * n * pow2 k := by rw [← hn]
    _ = pow2 (floorLog2 v - fracBits f) * pow2 k * n := by ring

theorem ulp_eq (f : Fmt) (e : Int) : e - precision f + 1 = e - fracBits f := by
  unfold precision
  push_cast
  ring

theorem onGrid_roundP (f : Fmt) (m : RoundMode) {v : Rat} (hv : v ≠ 0) : OnGrid f (roundP m v (precision f)) := by
  obtain ⟨-, n, hn⟩ := roundP_fits m hv (p := precision f) (Nat.succ_pos _)
  rw [ulp_eq f] at hn
  exact ⟨n, hn⟩

theorem roundP_ne_zero (f : Fmt) (m : RoundMode) {v : Rat} (hv : v ≠ 0) : roundP m v (precision f) ≠ 0 :=
  (roundP_fits m hv (Nat.succ_pos (fracBits f))).1

theorem roundP_neg_iff (f : Fmt) (m : RoundMode) {v : Rat} (hv : v ≠ 0) : roundP m v (precision f) < 0 ↔ v < 0 :=
  (roundP_bounds m hv (Nat.succ_pos (fracBits f))).2.2.1

/-- A number with the significant bits of its format and with an exponent in range reads back as itself (R165). -/
theorem decodeBits_of_onGrid {f : Fmt} {v : Rat} (hv : v ≠ 0) (h : OnGrid f v) (hlo : pow2 (eMin f) ≤ |v|)
    (hhi : |v| < pow2 (eMax f + 1)) : decodeBits f (encodeNum f v) = .norm (decide (v < 0)) v := by
  obtain ⟨n, hn⟩ := h
  exact decodeBits_encodeNum f hv hn ((le_floorLog2_iff hv _).mpr hlo)
    (Int.lt_add_one_iff.mp ((floorLog2_le_iff hv _).mpr hhi))

/-- A number of any format is read back from extended real (R202, R204). -/
theorem decodeExt_of_onGrid {f : Fmt} {v : Rat} (hv : v ≠ 0) (h : OnGrid f v) (hlo : pow2 (-16382) ≤ |v|)
    (hhi : |v| < pow2 16384) : decodeExt (encodeNum .ext v) = .norm (decide (v < 0)) v :=
  decodeBits_of_onGrid hv h.ext hlo hhi

/-- A multiple of the least denormalized number up to `2 ^ emin` has the format's significant bits. -/
theorem onGrid_of_small {f : Fmt} {v : Rat} {n : Int} (hv : v ≠ 0) (hn : v = pow2 (eMin f - fracBits f) * n)
    (h : |v| ≤ pow2 (eMin f)) : OnGrid f v := by
  have hle : floorLog2 v ≤ eMin f := pow2_le.mp ((floorLog2_spec hv).1.trans h)
  obtain ⟨n', hn'⟩ := exists_pow2_mul (a := eMin f - fracBits f) (b := floorLog2 v - fracBits f) (by omega) n
  exact ⟨n', hn.trans hn'⟩

theorem isValue_neg {f : Fmt} {neg : Bool} {r : Rat} {x : FVal} (h : r ≠ 0 → neg = decide (r < 0))
    (h0 : r = 0 → x = .zero neg) (hd : r ≠ 0 → |r| < pow2 (eMin f) → x = .denorm (decide (r < 0)) r)
    (hn : r ≠ 0 → pow2 (eMin f) ≤ |r| → x = .norm (decide (r < 0)) r) : IsValue f neg r x := by
  unfold IsValue
  split
  · next hr => exact h0 hr
  · next hr =>
    rw [h hr]
    split
    · next hlt => exact hd hr hlt
    · next hlt => exact hn hr (not_lt.mp hlt)

/-- A multiple of the least denormalized number of a format up to its `2 ^ emin` is read back from that format, and from
extended real, as a zero, a denormalized or a normalized number (R165, R180, R204). -/
theorem isValue_encodeValue {f g : Fmt} (hg : g = f ∨ g = .ext) {neg : Bool} {r : Rat} {n : Int}
    (h : r ≠ 0 → neg = decide (r < 0)) (hn : r = pow2 (eMin f - fracBits f) * n) (hle : |r| ≤ pow2 (eMin f)) :
    IsValue g neg r (decodeBits g (encodeValue g neg r)) := by
  have hmin : eMin g - fracBits g ≤ eMin f - fracBits f := by
    rcases hg with rfl | rfl
    · exact le_rfl
    · cases f <;> decide
  have hmax : eMin f < eMax g + 1 := by
    rcases hg with rfl | rfl
    · cases g <;> decide
    · cases f <;> decide
  have hgrid : r ≠ 0 → OnGrid g r := fun hr => by
    rcases hg with rfl | rfl
    · exact onGrid_of_small hr hn hle
    · exact (onGrid_of_small hr hn hle).ext
  obtain ⟨n', hn'⟩ := exists_pow2_mul hmin n
  unfold encodeValue
  refine isValue_neg h (fun h0 => ?_) (fun h0 hlt => ?_) fun h0 hge => ?_
  · rw [if_pos h0]
    exact decodeBits_encodeZero g neg
  · rw [if_neg h0]
    exact decodeBits_encodeDenorm g h0 (hn.trans hn') hlt
  · rw [if_neg h0]
    exact decodeBits_of_onGrid h0 (hgrid h0) hge (hle.trans_lt (pow2_lt.mpr hmax))

/-! ### Overflow (R181, R202) -/

theorem largest_eq (f : Fmt) : largest f = maxFinite f := by
  unfold largest maxFinite precision
  push_cast
  rw [show (1 : Int) - (fracBits f + 1) = -(fracBits f : Int) by ring]

theorem signed_largest (f : Fmt) (neg : Bool) : signed neg (maxFinite f) = (if neg = true then -1 else 1) * largest f := by
  rw [largest_eq]
  cases neg <;> simp [signed]

/-- A masked overflow of sign `neg` gives an infinity (R181). -/
def overflowsToInf (m : RoundMode) (neg : Bool) : Bool :=
  match m with
  | .up => !neg
  | .down => neg
  | .zero => false
  | .nearest => true

theorem overflowResult_eq (f : Fmt) (m : RoundMode) (neg : Bool) : overflowResult f m neg =
    if overflowsToInf m neg then encodeInf f neg else encodeNum f (signed neg (maxFinite f)) := rfl

theorem overflowValue_of {f : Fmt} {m : RoundMode} {neg : Bool} {x : FVal}
    (h : x = if overflowsToInf m neg then .inf neg else .norm neg (signed neg (maxFinite f))) :
    OverflowValue f m neg x := by
  rw [signed_largest] at h
  subst h
  constructor <;> cases m <;> cases neg <;> simp [overflowsToInf]

theorem overflowValue_overflowResult (f : Fmt) (m : RoundMode) (neg : Bool) :
    OverflowValue f m neg (decodeBits f (overflowResult f m neg)) := by
  apply overflowValue_of
  rw [overflowResult_eq]
  split
  · exact decodeBits_encodeInf f neg
  · exact decodeBits_encodeMax f neg

theorem overflowResult_eq_inf_iff (f : Fmt) (m : RoundMode) (neg : Bool) :
    overflowResult f m neg = encodeInf f neg ↔ overflowsToInf m neg = true := by
  rw [overflowResult_eq]
  refine ⟨fun h => ?_, fun h => if_pos h⟩
  by_contra hn
  rw [if_neg hn] at h
  have := decodeBits_encodeMax f neg
  rw [h, decodeBits_encodeInf] at this
  exact absurd this (by simp)

theorem signed_neg_iff {neg : Bool} {v : Rat} (hv : 0 < v) : signed neg v < 0 ↔ neg = true := by
  cases neg <;> simp [signed, hv, hv.le]

theorem abs_signed (neg : Bool) (v : Rat) : |signed neg v| = |v| := by cases neg <;> simp [signed]

theorem onGrid_signed_maxFinite (f : Fmt) (neg : Bool) : OnGrid f (signed neg (maxFinite f)) := by
  obtain ⟨h1, h2⟩ := maxFinite_bounds f
  have hpos : 0 < maxFinite f := (pow2_pos _).trans_le h1
  have habs : |signed neg (maxFinite f)| = maxFinite f := by rw [abs_signed, abs_of_pos hpos]
  unfold OnGrid
  rw [floorLog2_unique (h1.trans_eq habs.symm) (habs.trans_lt h2), maxFinite_eq]
  cases neg
  · exact ⟨_, rfl⟩
  · exact ⟨-(2 ^ precision f - 1), by unfold signed; push_cast; rw [if_pos rfl]; ring⟩

theorem eMax_le (f : Fmt) : eMax f ≤ 16383 := by cases f <;> decide

/-- The largest finite number of a format is read back from extended real (R202). -/
theorem decodeExt_maxFinite (f : Fmt) (neg : Bool) :
    decodeExt (encodeNum .ext (signed neg (maxFinite f))) = .norm neg (signed neg (maxFinite f)) := by
  obtain ⟨h1, h2⟩ := maxFinite_bounds f
  have hpos : 0 < maxFinite f := (pow2_pos _).trans_le h1
  have habs : |signed neg (maxFinite f)| = maxFinite f := by rw [abs_signed, abs_of_pos hpos]
  have hmax := eMax_le f
  have h0 : 0 ≤ eMax f := by cases f <;> decide
  rw [decodeExt_of_onGrid (fun h => by rw [h, abs_zero] at habs; exact hpos.ne habs) (onGrid_signed_maxFinite f neg)
    (((pow2_le.mpr (by omega)).trans h1).trans_eq habs.symm)
    (habs.trans_lt (h2.trans_le (pow2_le.mpr (by omega))))]
  congr 1
  exact Bool.eq_iff_iff.mpr (by rw [decide_eq_true_iff, signed_neg_iff hpos])

end Sys2Proof.Claims
end

section
/-! PROOFS. Operands as the rules of the floating-point instructions see them, and what the store of an outcome comes
to (R169, R194 to R207, R272). -/
namespace Sys2Proof.Claims
open Sys2Proof.Machine

/-! ### Operands that are not NaNs -/

/-- The operand passes the checks (R194), is no NaN, and is `x` to the instruction's rule. -/
structure Operand (f : Fmt) (s : State) (a : FpSrc) (x : Arg) : Prop where
  usable : Usable f s a
  notNan : isNan (fetch f s a) = false
  arg : toArg (fetch f s a) = x

section
variable {f : Fmt} {s : State} {a : FpSrc}

theorem operand_zero {neg : Bool} (h : fetch f s a = .zero neg) : Operand f s a (.zero neg) := by
  constructor <;> simp [Usable, h, isUnnamed, isReservedOperand, isNan, nanPart, toArg]

theorem operand_inf {neg : Bool} (h : fetch f s a = .inf neg) : Operand f s a (.inf neg) := by
  constructor <;> simp [Usable, h, isUnnamed, isReservedOperand, isNan, nanPart, toArg]

theorem Number.operand {v : Rat} (h : Number f s a v) : Operand f s a (.num v) := by
  rcases h with ⟨neg, h⟩ | ⟨hnm, neg, h⟩
  · constructor <;> simp [Usable, h, isUnnamed, isReservedOperand, isNan, nanPart, toArg]
  · constructor <;> simp [Usable, h, isUnnamed, isReservedOperand, isNan, nanPart, toArg, hnm]

/-- An operand that passes the checks and is no NaN is a zero, a number or an infinity. -/
theorem operand_of_usable (hu : Usable f s a) (hn : isNan (fetch f s a) = false) :
    ∃ x, Operand f s a x ∧ x ≠ .nan := by
  refine ⟨_, ⟨hu, hn, rfl⟩, ?_⟩
  obtain ⟨hun, hres⟩ := hu
  cases hf : fetch f s a <;> rw [hf] at hun hres hn <;> simp_all [toArg, isUnnamed, isReservedOperand, isNan, nanPart]

/-- What the rule sees of a value. -/
def argOf (x : Config.FpValue) : Arg :=
  match x with
  | .zero neg => .zero neg
  | .num v => .num v
  | .inf neg => .inf neg

theorem HasValue.operand {x : Config.FpValue} (h : HasValue f s a x) : Operand f s a (argOf x) := by
  cases x with
  | zero neg => exact operand_zero h
  | num v => exact Number.operand h
  | inf neg => exact operand_inf h

theorem Operand.quiet {x : Arg} (h : Operand f s a x) : isQuiet s (fetch f s a) := by
  refine ⟨h.usable.1, h.usable.2, ?_⟩
  have := h.notNan
  cases hf : fetch f s a <;> rw [hf] at this <;> simp_all [isSnan, isNan, nanPart]

/-- A finite operand is a zero of its sign or a number with that sign. -/
theorem FiniteSign.operand {neg : Bool} (h : FiniteSign f s a neg) :
    Operand f s a (.zero neg) ∨ ∃ v, Operand f s a (.num v) ∧ isNeg v = neg := by
  rcases h with h | ⟨v, h, rfl⟩
  · exact .inl (operand_zero h)
  · exact .inr ⟨v, h.operand, rfl⟩

theorem NonzeroSign.operand {neg : Bool} (h : NonzeroSign f s a neg) :
    Operand f s a (.inf neg) ∨ ∃ v, Operand f s a (.num v) ∧ isNeg v = neg := by
  rcases h with h | ⟨v, h, rfl⟩
  · exact .inl (operand_inf h)
  · exact .inr ⟨v, h.operand, rfl⟩

end

/-! ### Instructions by the outcome of their rule -/

/-- The effect with the arithmetic status written, where an instruction writes one (R286). -/
def statused (st : Option (BitVec 4)) (e : Effect) : Effect :=
  match st with
  | some v => withStatus v e
  | none => e

/-- AC with the arithmetic status written, where an instruction writes one. -/
def statusAc (st : Option (BitVec 4)) (ac : Word) : Word :=
  match st with
  | some v => setField ac 3 4 v
  | none => ac

/-- The instruction goes by the outcome `o`, no operand being a NaN, and writes the arithmetic status `st`. -/
def Comes (i : Instr) (f : Fmt) (d : FpDst) (st : Option (BitVec 4)) (o : FpOutcome) (s : State) : Prop :=
  ∃ ops, (∀ a ∈ ops, isNan a = false) ∧
    exec i s = finish s (.ok (statused st (storeOutcome (destFmt f d) d ops o s)))

section
variable {i : Instr} {f : Fmt} {s : State} {a b : FpSrc} {d : FpDst} {x y : Arg}

theorem comes_arith1 {o : Fmt → Arg → FpOutcome} (h : exec i s = finish s (arith1 f o a d s))
    (hal : (a.fits f && d.fits f) = true) (ha : Operand f s a x) : Comes i f d none (o (destFmt f d) x) s := by
  refine ⟨[fetch f s a], List.forall_mem_singleton.mpr ha.notNan, h.trans (congrArg (finish s) ?_)⟩
  rw [← ha.arg]
  exact (if_pos hal).trans (arith_quiet (List.forall_mem_singleton.mpr ha.quiet))

theorem arith2_operands (o : Arg → Arg → FpOutcome) (hal : (a.fits f && b.fits f && d.fits f) = true)
    (ha : Operand f s a x) (hb : Operand f s b y) :
    arith2 f o a b d s = .ok (storeOutcome (destFmt f d) d [fetch f s a, fetch f s b] (o x y) s) := by
  rw [← ha.arg, ← hb.arg]
  exact (if_pos hal).trans (arith_quiet (List.forall_mem_cons.mpr ⟨ha.quiet, List.forall_mem_singleton.mpr hb.quiet⟩))

theorem comes_arith2 {o : Arg → Arg → FpOutcome} (h : exec i s = finish s (arith2 f o a b d s))
    (hal : (a.fits f && b.fits f && d.fits f) = true) (ha : Operand f s a x) (hb : Operand f s b y) :
    Comes i f d none (o x y) s :=
  ⟨_, List.forall_mem_cons.mpr ⟨ha.notNan, List.forall_mem_singleton.mpr hb.notNan⟩,
    h.trans (congrArg (finish s) (arith2_operands o hal ha hb))⟩

/-- The remainder instructions go by their rule, and write the arithmetic status (R286). -/
theorem comes_ruleRem (h : exec i s = finish s (ruleRem f a b d s))
    (hal : (a.fits f && b.fits f && d.fits f) = true) (ha : Operand f s a x) (hb : Operand f s b y) :
    Comes i f d (remStatusOf s.params.remIsIeee x y) (remOutcome s.params.remIsIeee x y) s := by
  refine ⟨_, List.forall_mem_cons.mpr ⟨ha.notNan, List.forall_mem_singleton.mpr hb.notNan⟩,
    h.trans (congrArg (finish s) ?_)⟩
  unfold ruleRem
  rw [arith2_operands _ hal ha hb, ha.arg, hb.arg]
  cases remStatusOf s.params.remIsIeee x y <;> rfl

end

/-! ### The state with a result stored -/

/-- The state after a result is stored, the arithmetic status is written and IP has gone on (R169, R286). -/
def resultState (st : Option (BitVec 4)) (f : Fmt) (d : FpDst) (bits : Ext) (t : State) : State :=
  { storedFp f d bits t with ac := statusAc st (storedFp f d bits t).ac }

section
variable (st : Option (BitVec 4)) (f : Fmt) (d : FpDst) (bits : Ext) (t : State)

theorem resultState_ac : (resultState st f d bits t).ac = statusAc st t.ac :=
  congrArg (statusAc st) (storedFp_ac f d bits t)

theorem finish_statused_done (s : State) :
    finish s (.ok (statused st (storeDone (destFmt f d) d bits t))) = .next (ended s.ip (resultState st f d bits t)) := by
  cases st <;> rfl

/-- The three words of an extended real in integer registers read back as its 80 bits (R163, R169). -/
theorem getRegExt_storeFp (n : Reg) : getRegExt (storeFp .ext (.reg n) bits t) n = bits := by
  have h2 : n + 2#5 ≠ n + 1#5 := by revert n; decide
  have h3 : n + 2#5 ≠ n := by revert n; decide
  unfold getRegExt storeFp
  simp only [getReg_setReg, getReg_setRegLong, if_neg h2.symm, if_neg h3.symm, if_neg (reg_succ_ne n).symm, if_true]
  apply BitVec.eq_of_getLsbD_eq
  intro k hk
  simp only [BitVec.getLsbD_append, BitVec.getLsbD_extractLsb', BitVec.getLsbD_setWidth]
  by_cases h32 : k < 32
  · simp [h32, show k < 64 by omega]
  · by_cases h64 : k < 64
    · simp [h32, show k - 32 < 32 by omega, show 32 + (k - 32) = k by omega, h64]
    · simp [h32, show ¬ k - 32 < 32 by omega, show k - 32 - 32 = k - 64 by omega, show k - 64 < 16 by omega,
        show k - 64 < 32 by omega, show 64 + (k - 64) = k by omega]

/-- The result in the destination, read as a source, is what its pattern decodes to (R167, R169). -/
theorem fetch_resultState :
    fetch f (resultState st f d bits t) (FpDst.asSrc d) = decodeBits (destFmt f d) bits := by
  by_cases h : f = .ext
  · subst h
    cases d with
    | fpr k =>
      change decodeExt (getFp (setFp t k bits) k) = decodeExt bits
      rw [getFp_setFp, if_pos rfl]
    | reg n => exact congrArg decodeExt (getRegExt_storeFp bits t n)
  · have key := fetch_storeFp f d bits t h
    cases d
    · cases f <;> exact key
    · exact key

theorem fpKept_resultState {s : State} (h : Flagged s t) : FpKept f d s (resultState st f d bits t) :=
  (fpKept_storedFp f d bits h).withAc _

end

/-! ### Exception flags and the arithmetic status in AC -/

theorem fpFlag_bounds {i : Nat} (h : isFpFlag i) : 16 ≤ i ∧ i < 21 := by
  rcases h with rfl | rfl | rfl | rfl | rfl <;> decide

/-- The arithmetic status and an exception flag are different bits of AC (R29). -/
theorem getBit_statusAc_setBit (st : Option (BitVec 4)) (ac : Word) {i : Nat} (hi : isFpFlag i) (k : Nat) :
    getBit (statusAc st (setBit ac i true)) k = (getBit (statusAc st ac) k || k == i) := by
  obtain ⟨h1, h2⟩ := fpFlag_bounds hi
  cases st with
  | none =>
    change getBit (setBit ac i true) k = (getBit ac k || k == i)
    rw [getBit_setBit]
    by_cases hk : k = i
    · rw [if_pos ⟨hk, by omega⟩]; simp [hk]
    · simp [hk]
  | some v =>
    change getBit (setField (setBit ac i true) 3 4 v) k = (getBit (setField ac 3 4 v) k || k == i)
    rw [getBit_setField, getBit_setField, getBit_setBit]
    by_cases hk : k = i
    · rw [if_neg (by omega), if_pos ⟨hk, by omega⟩]; simp [hk]
    · simp [hk]

/-- Setting exception flags leaves the masks (R34). -/
theorem Flagged.acBit {s t : State} (h : Flagged s t) {i : Nat} (hi : 21 ≤ i) : acBit t i = acBit s i :=
  (h.flags i).resolve_right fun ⟨hf, _⟩ => by have := fpFlag_bounds hf; omega

theorem isFpFlag_fvf : isFpFlag fvfBit := .inr (.inr (.inl rfl))
theorem isFpFlag_fzf : isFpFlag fzfBit := .inr (.inr (.inr (.inl rfl)))
theorem isFpFlag_fxf : isFpFlag fxfBit := .inr (.inr (.inr (.inr rfl)))

/-! ### Stores that complete (R169, R205) -/

/-- The instruction completes with `r` in its destination and AC `ac`. -/
def Completes (i : Instr) (f : Fmt) (d : FpDst) (ac : Word) (r : FVal) (s : State) : Prop :=
  ∃ u, exec i s = .next (ended s.ip u) ∧ fetch f u (FpDst.asSrc d) = r ∧ u.ac = ac ∧ FpKept f d s u

section
variable {i : Instr} {f : Fmt} {d : FpDst} {st : Option (BitVec 4)} {s : State}

theorem completes_storeDone {bits : Ext}
    (h : exec i s = finish s (.ok (statused st (storeDone (destFmt f d) d bits s)))) :
    Completes i f d (statusAc st s.ac) (decodeBits (destFmt f d) bits) s :=
  ⟨resultState st f d bits s, h.trans (finish_statused_done st f d bits s s), fetch_resultState st f d bits s,
    resultState_ac st f d bits s, fpKept_resultState st f d bits s (Flagged.refl s)⟩

theorem Comes.zero {neg : Bool} (h : Comes i f d st (.zero neg) s) : Completes i f d (statusAc st s.ac) (.zero neg) s := by
  obtain ⟨ops, -, h⟩ := h
  rw [← decodeBits_encodeZero (destFmt f d) neg]
  exact completes_storeDone h

theorem Comes.inf {neg : Bool} (h : Comes i f d st (.inf neg) s) : Completes i f d (statusAc st s.ac) (.inf neg) s := by
  obtain ⟨ops, -, h⟩ := h
  rw [← decodeBits_encodeInf (destFmt f d) neg]
  exact completes_storeDone h

/-- A number that the destination represents is stored as it is. -/
theorem Comes.exact {v : Rat} (h : Comes i f d st (.exact v) s) (hv : v ≠ 0) (hg : OnGrid (destFmt f d) v)
    (hlo : pow2 (eMin (destFmt f d)) ≤ |v|) (hhi : |v| < pow2 (eMax (destFmt f d) + 1)) :
    Completes i f d (statusAc st s.ac) (.norm (decide (v < 0)) v) s := by
  obtain ⟨ops, -, h⟩ := h
  rw [← decodeBits_of_onGrid hv hg hlo hhi]
  exact completes_storeDone h

/-- A result stored with the exception flag `fl` set. -/
theorem completes_flag {bits : Ext} {fl : Nat} (hfl : isFpFlag fl)
    (h : exec i s = finish s (.ok (storeDone (destFmt f d) d bits (setAcFlag s fl)))) :
    ∃ u, exec i s = .next (ended s.ip u) ∧ fetch f u (FpDst.asSrc d) = decodeBits (destFmt f d) bits ∧
      (∀ k, getBit u.ac k = (getBit s.ac k || k == fl)) ∧ FpKept f d s u := by
  refine ⟨resultState none f d bits (setAcFlag s fl), h.trans (finish_statused_done none f d bits _ s),
    fetch_resultState _ _ _ _ _, fun k => ?_, fpKept_resultState _ _ _ _ _ ((Flagged.refl s).setAcFlag hfl)⟩
  rw [resultState_ac]
  exact getBit_statusAc_setBit none s.ac hfl k

/-- What an inexact store comes to, by the inexact mask: the flag, or the fault after the store (R205). -/
theorem storeInexact_ends {t : State} (ht : Flagged s t) (hip : t.ip = s.ip) {bits : Ext}
    (h : exec i s = finish s (.ok (statused st (storeInexact (destFmt f d) d bits t)))) :
    ∃ u, fetch f u (FpDst.asSrc d) = decodeBits (destFmt f d) bits ∧ FpKept f d s u ∧
      (acBit s fxmBit = true →
        exec i s = .next (ended s.ip u) ∧ ∀ k, getBit u.ac k = (getBit (statusAc st t.ac) k || k == fxfBit)) ∧
      (acBit s fxmBit = false → exec i s = faultsWith (floating 0x10 s) (ended s.ip u) ∧ u.ac = statusAc st t.ac) := by
  have hm : acBit t fxmBit = acBit s fxmBit := ht.acBit (by decide)
  unfold storeInexact at h
  rw [hm] at h
  by_cases hx : acBit s fxmBit = true
  · rw [if_pos hx] at h
    refine ⟨resultState st f d bits (setAcFlag t fxfBit), fetch_resultState _ _ _ _ _,
      fpKept_resultState _ _ _ _ _ (ht.setAcFlag isFpFlag_fxf),
      fun _ => ⟨h.trans (finish_statused_done st f d bits _ s), fun k => ?_⟩, fun hf => by rw [hx] at hf; cases hf⟩
    rw [resultState_ac]
    exact getBit_statusAc_setBit st t.ac isFpFlag_fxf k
  · rw [if_neg hx] at h
    refine ⟨resultState st f d bits t, fetch_resultState _ _ _ _ _, fpKept_resultState _ _ _ _ _ ht,
      fun ht => absurd ht hx, fun _ => ⟨h.trans ?_, resultState_ac _ _ _ _ _⟩⟩
    unfold floatingFault
    rw [hip]
    cases st <;> rfl

/-- An inexact store ends as the claims say of a changed result (R205). -/
theorem endsInexact_storeInexact {bits : Ext} {P : Prop} (hP : P)
    (h : exec i s = finish s (.ok (statused st (storeInexact (destFmt f d) d bits s)))) :
    ∃ u, EndsInexact i s (statusAc st s.ac) u P ∧ fetch f u (FpDst.asSrc d) = decodeBits (destFmt f d) bits ∧
      FpKept f d s u := by
  obtain ⟨u, hu, hk, hmask, hfault⟩ := storeInexact_ends (Flagged.refl s) rfl h
  exact ⟨u, ⟨fun hn => absurd hP hn, fun _ => hmask, fun _ => hfault⟩, hu, hk⟩

theorem Completes.endsInexact {ac : Word} {r : FVal} {P : Prop} (hP : ¬ P) (h : Completes i f d ac r s) :
    ∃ u, EndsInexact i s ac u P ∧ fetch f u (FpDst.asSrc d) = r ∧ FpKept f d s u := by
  obtain ⟨u, hu, hr, hac, hk⟩ := h
  exact ⟨u, ⟨fun _ => ⟨hu, hac⟩, fun h => absurd h hP, fun h => absurd h hP⟩, hr, hk⟩

/-- An inexact store after the exception flag `fl` has been set (R201, R203, R205). -/
theorem endsWithFlag_storeInexact {bits : Ext} {fl : Nat} (hfl : isFpFlag fl)
    (h : exec i s = finish s (.ok (statused st (storeInexact (destFmt f d) d bits (setAcFlag s fl))))) :
    ∃ u, EndsWithFlag i s (statusAc st s.ac) u fl ∧ fetch f u (FpDst.asSrc d) = decodeBits (destFmt f d) bits ∧
      FpKept f d s u := by
  obtain ⟨u, hu, hk, hmask, hfault⟩ := storeInexact_ends ((Flagged.refl s).setAcFlag hfl) rfl h
  refine ⟨u, ⟨fun hx => ?_, fun hx => ?_⟩, hu, hk⟩
  · obtain ⟨hn, hac⟩ := hmask hx
    exact ⟨hn, fun k => by rw [hac, setAcFlag_ac, getBit_statusAc_setBit st s.ac hfl]⟩
  · obtain ⟨hn, hac⟩ := hfault hx
    exact ⟨hn, fun k => by rw [hac, setAcFlag_ac, getBit_statusAc_setBit st s.ac hfl]⟩

end

end Sys2Proof.Claims
end

section
/-! PROOFS. The delivery of an exact result: in range, overflow and underflow, masked and unmasked (R200 to R207). -/
namespace Sys2Proof.Claims
open Sys2Proof.Machine

section
variable {f : Fmt} {d : FpDst} {s : State} {e : Rat}

/-! ### The three cases of a result (R180, R181) -/

theorem overflows_iff : overflows s.params (destFmt f d) e (rounded f d s e) = true ↔ Overflow f d s e := by
  unfold overflows Overflow
  rw [ratAbs_eq, ratAbs_eq, largest_eq]
  split <;> exact decide_eq_true_iff

theorem isTiny_iff : isTiny (destFmt f d) (rounded f d s e) = true ↔
    |rounded f d s e| < pow2 (eMin (destFmt f d)) := by
  unfold isTiny
  rw [ratAbs_eq, decide_eq_true_iff]

/-- What overflows has a large exponent (R180, R181). -/
theorem eMax_le_of_overflow (he : e ≠ 0) (h : Overflow f d s e) : pow2 (eMax (destFmt f d)) ≤ |rounded f d s e| := by
  unfold Overflow at h
  split at h
  · exact (pow2_le.mpr (by omega)).trans h
  · rw [largest_eq] at h
    have hexp := (le_floorLog2_iff he _).mpr ((maxFinite_bounds _).1.trans h.le)
    exact (pow2_le.mpr hexp).trans (roundP_bounds (roundMode s) he (p := precision (destFmt f d)) (Nat.succ_pos _)).1

theorem not_overflow_of_tiny (he : e ≠ 0) (h : |rounded f d s e| < pow2 (eMin (destFmt f d))) : ¬ Overflow f d s e := by
  intro ho
  have hlt := (eMax_le_of_overflow he ho).trans_lt h
  exact absurd (pow2_lt.mp hlt) (by cases destFmt f d <;> decide)

/-- A result in range reads back as its rounded number (R180). -/
theorem InRange.decode (h : InRange f d s e) : decodeBits (destFmt f d) (encodeNum (destFmt f d) (rounded f d s e)) =
    .norm (decide (e < 0)) (rounded f d s e) := by
  obtain ⟨he, hlo, hov⟩ := h
  refine decodeBits_encodeNum_roundP (destFmt f d) (roundMode s) he hlo ?_
  unfold Overflow at hov
  split at hov
  · exact not_le.mp hov
  · exact roundP_finite _ _ he (largest_eq (destFmt f d) ▸ not_lt.mp hov)

theorem deliver_of_inRange (h : InRange f d s e) : deliver (destFmt f d) d e s =
    if rounded f d s e = e then storeDone (destFmt f d) d (encodeNum (destFmt f d) (rounded f d s e)) s
    else storeInexact (destFmt f d) d (encodeNum (destFmt f d) (rounded f d s e)) s := by
  obtain ⟨he, hlo, hov⟩ := h
  change (if overflows s.params (destFmt f d) e (rounded f d s e) = true then _ else
    if isTiny (destFmt f d) (rounded f d s e) = true then _ else _) = _
  rw [if_neg (mt overflows_iff.mp hov), if_neg (mt isTiny_iff.mp hlo.not_gt)]
  rfl

theorem deliver_of_overflow (h : Overflow f d s e) : deliver (destFmt f d) d e s =
    if acBit s fomBit = true then
      storeInexact (destFmt f d) d (overflowResult (destFmt f d) (roundMode s) (decide (e < 0))) (setAcFlag s fofBit)
    else rangeFault subOverflow e (rounded f d s e)
      (overflowData (destFmt f d) (roundMode s) (decide (e < 0)) (rounded f d s e)) s := by
  change (if overflows s.params (destFmt f d) e (rounded f d s e) = true then _ else _) = _
  rw [if_pos (overflows_iff.mpr h)]
  rfl

/-- The exact result rounded to a multiple of the least denormalized number (R180). -/
def denormal (f : Fmt) (d : FpDst) (s : State) (e : Rat) : Rat := denormalize (destFmt f d) (roundMode s) e

theorem deliver_of_tiny (he : e ≠ 0) (h : |rounded f d s e| < pow2 (eMin (destFmt f d))) :
    deliver (destFmt f d) d e s =
      if acBit s fumBit = true then
        if denormal f d s e = e then
          storeDone (destFmt f d) d (encodeValue (destFmt f d) (decide (e < 0)) (denormal f d s e)) s
        else storeInexact (destFmt f d) d (encodeValue (destFmt f d) (decide (e < 0)) (denormal f d s e))
          (setAcFlag s fufBit)
      else rangeFault subUnderflow e (rounded f d s e)
        (underflowData (destFmt f d) (roundMode s) e (rounded f d s e)) s := by
  change (if overflows s.params (destFmt f d) e (rounded f d s e) = true then _ else
    if isTiny (destFmt f d) (rounded f d s e) = true then _ else _) = _
  rw [if_neg (mt overflows_iff.mp (not_overflow_of_tiny he h)), if_pos (isTiny_iff.mpr h)]
  rfl

/-! ### Denormalized results (R179, R180) -/

/-- What denormalizing a tiny result gives: the multiple of the least denormalized number that the rounding rule
describes, up to `2 ^ emin` in magnitude. -/
theorem denormal_spec (he : e ≠ 0) (h : |rounded f d s e| < pow2 (eMin (destFmt f d))) :
    ∃ n : Int, denormal f d s e = pow2 (eMin (destFmt f d) - fracBits (destFmt f d)) * n ∧
      RoundedOn (roundMode s) e (pow2 (eMin (destFmt f d) - fracBits (destFmt f d))) n ∧
      |denormal f d s e| ≤ pow2 (eMin (destFmt f d)) ∧ (denormal f d s e ≠ 0 → (denormal f d s e < 0 ↔ e < 0)) := by
  set F := destFmt f d
  have hq := pow2_pos (eMin F - fracBits F)
  have hdef : denormal f d s e = roundGrid (roundMode s) e (pow2 (eMin F - fracBits F)) := by
    unfold denormal denormalize
    rw [ulp_eq]
  have hexp : |e| < pow2 (eMin F) := by
    have h1 := (roundP_bounds (roundMode s) he (p := precision F) (Nat.succ_pos _)).1
    exact (floorLog2_le_iff he _).mp (pow2_lt.mp (h1.trans_lt h))
  have htop : pow2 (eMin F) = pow2 (eMin F - fracBits F) * ((2 ^ fracBits F : Nat) : Int) := by
    rw [Int.cast_natCast, ← pow2_nat, ← pow2_add]
    congr 1
    ring
  obtain ⟨n, hn, hr⟩ := roundGrid_roundedOn (roundMode s) e hq
  rw [← hdef] at hn
  rw [abs_lt] at hexp
  have between : ∀ {a b : Int}, pow2 (eMin F - fracBits F) * a ≤ e → e ≤ pow2 (eMin F - fracBits F) * b →
      pow2 (eMin F - fracBits F) * a ≤ denormal f d s e ∧ denormal f d s e ≤ pow2 (eMin F - fracBits F) * b := by
    intro a b ha hb
    rw [hdef]
    exact roundGrid_between (roundMode s) hq ha hb
  have hbounds := between (a := -((2 ^ fracBits F : Nat) : Int)) (b := ((2 ^ fracBits F : Nat) : Int))
    (by push_cast at htop ⊢; linarith) (by rw [← htop]; exact hexp.2.le)
  refine ⟨n, hn, hr, abs_le.mpr ⟨?_, hbounds.2.trans_eq htop.symm⟩, fun h0 => ⟨fun hneg => ?_, fun hneg => ?_⟩⟩
  · have := hbounds.1
    push_cast at this htop
    linarith
  · by_contra hpos
    have := (between (a := 0) (b := ((2 ^ fracBits F : Nat) : Int)) (by simpa using hpos)
      (by rw [← htop]; exact hexp.2.le)).1
    simp at this
    linarith
  · have := (between (a := -((2 ^ fracBits F : Nat) : Int)) (b := 0) (by push_cast at htop ⊢; linarith)
      (by simpa using hneg.le)).2
    simp at this
    exact lt_of_le_of_ne this h0

theorem denormalizedTo_denormal (he : e ≠ 0) (h : |rounded f d s e| < pow2 (eMin (destFmt f d))) :
    DenormalizedTo (destFmt f d) (roundMode s) e (denormal f d s e) := by
  obtain ⟨n, hn, ⟨near, up, down, zero, nearest⟩, -⟩ := denormal_spec he h
  rw [← hn] at near up down zero nearest
  exact ⟨_, n, rfl, hn, near, up, down, zero, nearest⟩

/-- The denormalized result is read back from its format, and from extended real (R180, R204). -/
theorem isValue_denormal (he : e ≠ 0) (h : |rounded f d s e| < pow2 (eMin (destFmt f d))) {g : Fmt}
    (hg : g = destFmt f d ∨ g = .ext) : IsValue g (decide (e < 0)) (denormal f d s e)
      (decodeBits g (encodeValue g (decide (e < 0)) (denormal f d s e))) := by
  obtain ⟨n, hn, -, hle, hsign⟩ := denormal_spec he h
  exact isValue_encodeValue hg (fun h0 => decide_eq_decide.mpr (hsign h0).symm) hn hle

/-! ### The fault data of an unmasked overflow or underflow (R202, R204, R374) -/

theorem rounded_ne_zero (he : e ≠ 0) : rounded f d s e ≠ 0 := roundP_ne_zero _ _ he

theorem onGrid_rounded (he : e ≠ 0) : OnGrid (destFmt f d) (rounded f d s e) := onGrid_roundP _ _ he

theorem rounded_neg_iff (he : e ≠ 0) : rounded f d s e < 0 ↔ e < 0 := roundP_neg_iff _ _ he

/-- The rounded result, scaled by a power of two into the extended range, is read back from extended real. -/
theorem decodeExt_scaled (he : e ≠ 0) {k : Int} (hlo : pow2 (-16382) ≤ |rounded f d s e * pow2 k|)
    (hhi : |rounded f d s e * pow2 k| < pow2 16384) :
    decodeExt (encodeNum .ext (rounded f d s e * pow2 k)) = .norm (decide (e < 0)) (rounded f d s e * pow2 k) := by
  have hne := rounded_ne_zero (f := f) (d := d) (s := s) he
  rw [decodeExt_of_onGrid (mul_ne_zero hne (pow2_ne_zero k)) ((onGrid_rounded he).mul_pow2 hne k) hlo hhi]
  congr 1
  have hk := pow2_pos k
  rw [decide_eq_decide, ← rounded_neg_iff (f := f) (d := d) (s := s) he]
  exact ⟨fun h => neg_of_mul_neg_left h hk.le, fun h => mul_neg_of_neg_of_pos h hk⟩

theorem decodeExt_rounded (he : e ≠ 0) (hlo : pow2 (-16382) ≤ |rounded f d s e|)
    (hhi : |rounded f d s e| < pow2 16384) :
    decodeExt (encodeNum .ext (rounded f d s e)) = .norm (decide (e < 0)) (rounded f d s e) := by
  have h := decodeExt_scaled (f := f) (d := d) (s := s) (k := 0) he
  rw [pow2_zero, mul_one] at h
  exact h hlo hhi

theorem abs_mul_pow2 (v : Rat) (k : Int) : |v * pow2 k| = |v| * pow2 k := by
  rw [abs_mul, abs_of_pos (pow2_pos k)]

theorem div_pow2 (v : Rat) (k : Int) : v / pow2 k = v * pow2 (-k) := by
  have h : pow2 k * pow2 (-k) = 1 := by rw [← pow2_add, add_neg_cancel, pow2_zero]
  rw [div_eq_iff (pow2_ne_zero k), mul_assoc, mul_comm (pow2 (-k)), h, mul_one]

/-- Below the massive range the data of an overflow is the rounded result, in the extended range or divided into it. -/
theorem overflowData_spec (he : e ≠ 0) (h : Overflow f d s e) {x : Ext × Option Bool}
    (hx : x = overflowData (destFmt f d) (roundMode s) (decide (e < 0)) (rounded f d s e)) :
    (|rounded f d s e| < pow2 16384 →
      x.2 = some false ∧ decodeExt x.1 = .norm (decide (e < 0)) (rounded f d s e)) ∧
    (pow2 16384 ≤ |rounded f d s e| → |rounded f d s e| < pow2 40960 →
      x.2 = some true ∧ decodeExt x.1 = .norm (decide (e < 0)) (rounded f d s e / pow2 24576)) ∧
    (pow2 40960 ≤ |rounded f d s e| →
      x.2 = none ∧ OverflowValue (destFmt f d) (roundMode s) (decide (e < 0)) (decodeExt x.1)) := by
  have hne := rounded_ne_zero (f := f) (d := d) (s := s) he
  have hbig := eMax_le_of_overflow he h
  have hmax : 0 ≤ eMax (destFmt f d) := by cases destFmt f d <;> decide
  set u := rounded f d s e with hu
  have above {k : Int} (hk : pow2 k ≤ |u|) : k ≤ floorLog2 u := (le_floorLog2_iff hne k).mpr hk
  have below {k : Int} (hk : |u| < pow2 k) : floorLog2 u < k := (floorLog2_le_iff hne k).mpr hk
  subst hx
  unfold overflowData
  refine ⟨fun h1 => ?_, fun h1 h2 => ?_, fun h1 => ?_⟩
  · have := below h1
    rw [if_pos (by omega)]
    exact ⟨rfl, decodeExt_rounded he ((pow2_le.mpr (by omega)).trans hbig) h1⟩
  · have h3 := above h1
    have h4 := below h2
    rw [if_neg (by omega), if_pos (by omega), div_pow2]
    refine ⟨rfl, decodeExt_scaled he ?_ ?_⟩
    · rw [← hu, ← le_floorLog2_iff (mul_ne_zero hne (pow2_ne_zero _)), floorLog2_mul_pow2 hne]
      omega
    · rw [← hu, ← floorLog2_le_iff (mul_ne_zero hne (pow2_ne_zero _)), floorLog2_mul_pow2 hne]
      omega
  · have := above h1
    rw [if_neg (by omega), if_neg (by omega)]
    refine ⟨rfl, overflowValue_of ?_⟩
    dsimp only
    simp only [overflowResult_eq_inf_iff]
    split
    · exact decodeBits_encodeInf .ext _
    · exact decodeExt_maxFinite _ _

/-- Above the massive range the data of an underflow is the rounded result, in the extended range or multiplied into
it. -/
theorem underflowData_spec (he : e ≠ 0) (h : |rounded f d s e| < pow2 (eMin (destFmt f d))) {x : Ext × Option Bool}
    (hx : x = underflowData (destFmt f d) (roundMode s) e (rounded f d s e)) :
    (pow2 (-16382) ≤ |rounded f d s e| →
      x.2 = some false ∧ decodeExt x.1 = .norm (decide (e < 0)) (rounded f d s e)) ∧
    (|rounded f d s e| < pow2 (-16382) → pow2 (-40958) ≤ |rounded f d s e| →
      x.2 = some true ∧ decodeExt x.1 = .norm (decide (e < 0)) (rounded f d s e * pow2 24576)) ∧
    (|rounded f d s e| < pow2 (-40958) → x.2 = none ∧ ∃ r, DenormalizedTo (destFmt f d) (roundMode s) e r ∧
      IsValue .ext (decide (e < 0)) r (decodeExt x.1)) := by
  have hne := rounded_ne_zero (f := f) (d := d) (s := s) he
  have hmin : eMin (destFmt f d) ≤ 0 := by cases destFmt f d <;> decide
  set u := rounded f d s e with hu
  have above {k : Int} (hk : pow2 k ≤ |u|) : k ≤ floorLog2 u := (le_floorLog2_iff hne k).mpr hk
  have below {k : Int} (hk : |u| < pow2 k) : floorLog2 u < k := (floorLog2_le_iff hne k).mpr hk
  subst hx
  unfold underflowData
  refine ⟨fun h1 => ?_, fun h1 h2 => ?_, fun h1 => ?_⟩
  · have := above h1
    rw [if_pos (by omega)]
    exact ⟨rfl, decodeExt_rounded he h1 (h.trans (pow2_lt.mpr (by omega)))⟩
  · have h3 := below h1
    have h4 := above h2
    rw [if_neg (by omega), if_pos (by omega)]
    refine ⟨rfl, decodeExt_scaled he ?_ ?_⟩
    · rw [← hu, ← le_floorLog2_iff (mul_ne_zero hne (pow2_ne_zero _)), floorLog2_mul_pow2 hne]
      omega
    · rw [← hu, ← floorLog2_le_iff (mul_ne_zero hne (pow2_ne_zero _)), floorLog2_mul_pow2 hne]
      omega
  · have := below h1
    rw [if_neg (by omega), if_neg (by omega)]
    exact ⟨rfl, _, denormalizedTo_denormal he h, isValue_denormal he h (.inr rfl)⟩

end

/-! ### Instructions that deliver a result -/

section
variable {i : Instr} {f : Fmt} {d : FpDst} {st : Option (BitVec 4)} {s : State} {e : Rat}

theorem Comes.deliver (h : Comes i f d st (.value e) s) :
    exec i s = finish s (.ok (statused st (deliver (destFmt f d) d e s))) := by
  obtain ⟨ops, -, h⟩ := h
  exact h

/-- A result in range is stored, with the inexact flag or fault if rounding changed it (R200, R205). -/
theorem Comes.endsRounded (h : Comes i f d st (.value e) s) (hr : InRange f d s e) :
    EndsRounded i f d s (statusAc st s.ac) e := by
  have h := h.deliver
  rw [deliver_of_inRange hr] at h
  unfold EndsRounded
  rw [← hr.decode]
  by_cases hx : rounded f d s e = e
  · rw [if_pos hx] at h
    exact (completes_storeDone h).endsInexact (not_not_intro hx)
  · rw [if_neg hx] at h
    exact endsInexact_storeInexact hx h

/-- A masked overflow (R201). -/
theorem Comes.overflow (h : Comes i f d st (.value e) s) (ho : Overflow f d s e) (hm : acBit s fomBit = true) :
    ∃ u, EndsWithFlag i s (statusAc st s.ac) u fofBit ∧ FpKept f d s u ∧
      OverflowValue (destFmt f d) (roundMode s) (decide (e < 0)) (fetch f u (FpDst.asSrc d)) := by
  have h := h.deliver
  rw [deliver_of_overflow ho, if_pos hm] at h
  obtain ⟨u, hu, hr, hk⟩ := endsWithFlag_storeInexact (.inl rfl) h
  exact ⟨u, hu, hk, hr ▸ overflowValue_overflowResult _ _ _⟩

/-- A masked underflow (R203). -/
theorem Comes.underflow (h : Comes i f d st (.value e) s) (he : e ≠ 0)
    (ht : |rounded f d s e| < pow2 (eMin (destFmt f d))) (hm : acBit s fumBit = true) :
    ∃ (r : Rat) (u : State), DenormalizedTo (destFmt f d) (roundMode s) e r ∧ FpKept f d s u ∧
      IsValue (destFmt f d) (decide (e < 0)) r (fetch f u (FpDst.asSrc d)) ∧
      (r = e → exec i s = .next (ended s.ip u) ∧ u.ac = statusAc st s.ac) ∧
      (r ≠ e → EndsWithFlag i s (statusAc st s.ac) u fufBit) := by
  have hval := isValue_denormal he ht (.inl rfl)
  have h := h.deliver
  rw [deliver_of_tiny he ht, if_pos hm] at h
  refine ⟨denormal f d s e, ?_⟩
  by_cases hx : denormal f d s e = e
  · rw [if_pos hx] at h
    obtain ⟨u, hu, hr, hac, hk⟩ := completes_storeDone h
    exact ⟨u, denormalizedTo_denormal he ht, hk, hr ▸ hval, fun _ => ⟨hu, hac⟩, fun hn => absurd hx hn⟩
  · rw [if_neg hx] at h
    obtain ⟨u, hu, hr, hk⟩ := endsWithFlag_storeInexact (.inr (.inl rfl)) h
    exact ⟨u, denormalizedTo_denormal he ht, hk, hr ▸ hval, fun h => absurd h hx, fun _ => hu⟩

/-- An unmasked overflow or underflow fault comes after the instruction, with nothing written (R200, R202, R204). -/
theorem finish_rangeFault {code : Byte} (hc : code = subOverflow ∨ code = subUnderflow) {v u : Rat}
    {x : Ext × Option Bool} (h : exec i s = finish s (.ok (statused st (rangeFault code v u x s)))) :
    ∃ g : FaultInfo, exec i s = faultsWith g (ended s.ip { s with ip := s.ip + 4#32 }) ∧
      RangeFault g s code (u ≠ v) (v < u) ∧ g.f1 = x.2 ∧ g.data = some x.1 := by
  set sub := if (decide (u ≠ v) && !acBit s fxmBit) = true then code ||| subInexact else code with hsub
  have hne : sub ≠ subInexact := by
    rw [hsub]
    split <;> rcases hc with rfl | rfl <;> decide
  refine ⟨{ floatingFault sub s with
      f0 := if decide (u ≠ v) = true then some (decide (v < u)) else none, f1 := x.2, data := some x.1 }, ?_, ?_, rfl, rfl⟩
  · rw [h]
    cases st with
    | none => rfl
    | some st =>
      change finish s (.ok (.late (if sub = subInexact then setAs (advance s) st else advance s) _)) = _
      rw [if_neg hne]
      rfl
  · refine ⟨rfl, rfl, rfl, fun hx => ?_, fun hx hm => ?_, fun hx => ⟨decide (v < u), ?_, decide_eq_true_iff⟩⟩
    · refine if_neg fun hb => ?_
      rw [Bool.and_eq_true, decide_eq_true_iff, Bool.not_eq_true'] at hb
      rcases hx with hx | hx
      · exact hx hb.1
      · rw [hx] at hb
        cases hb.2
    · refine if_pos ?_
      rw [hm, decide_eq_true hx]
      rfl
    · exact if_pos (decide_eq_true hx)

theorem Comes.overflowFault (h : Comes i f d st (.value e) s) (he : e ≠ 0) (ho : Overflow f d s e)
    (hm : acBit s fomBit = false) :
    ∃ (g : FaultInfo) (x : Ext), exec i s = faultsWith g (ended s.ip { s with ip := s.ip + 4#32 }) ∧
      RangeFault g s 0x01 (rounded f d s e ≠ e) (e < rounded f d s e) ∧ g.data = some x ∧
      (|rounded f d s e| < pow2 16384 →
        g.f1 = some false ∧ decodeExt x = .norm (decide (e < 0)) (rounded f d s e)) ∧
      (pow2 16384 ≤ |rounded f d s e| → |rounded f d s e| < pow2 40960 →
        g.f1 = some true ∧ decodeExt x = .norm (decide (e < 0)) (rounded f d s e / pow2 24576)) ∧
      (pow2 40960 ≤ |rounded f d s e| → g.f1 = none ∧
        OverflowValue (destFmt f d) (roundMode s) (decide (e < 0)) (decodeExt x)) := by
  have h := h.deliver
  rw [deliver_of_overflow ho, if_neg (by simp [hm])] at h
  obtain ⟨g, hg, hr, h1, hd⟩ := finish_rangeFault (.inl rfl) h
  exact ⟨g, _, hg, hr, hd, by rw [h1]; exact overflowData_spec he ho rfl⟩

theorem Comes.underflowFault (h : Comes i f d st (.value e) s) (he : e ≠ 0)
    (ht : |rounded f d s e| < pow2 (eMin (destFmt f d))) (hm : acBit s fumBit = false) :
    ∃ (g : FaultInfo) (x : Ext), exec i s = faultsWith g (ended s.ip { s with ip := s.ip + 4#32 }) ∧
      RangeFault g s 0x02 (rounded f d s e ≠ e) (e < rounded f d s e) ∧ g.data = some x ∧
      (pow2 (-16382) ≤ |rounded f d s e| →
        g.f1 = some false ∧ decodeExt x = .norm (decide (e < 0)) (rounded f d s e)) ∧
      (|rounded f d s e| < pow2 (-16382) → pow2 (-40958) ≤ |rounded f d s e| →
        g.f1 = some true ∧ decodeExt x = .norm (decide (e < 0)) (rounded f d s e * pow2 24576)) ∧
      (|rounded f d s e| < pow2 (-40958) → g.f1 = none ∧ ∃ r, DenormalizedTo (destFmt f d) (roundMode s) e r ∧
        IsValue .ext (decide (e < 0)) r (decodeExt x)) := by
  have h := h.deliver
  rw [deliver_of_tiny he ht, if_neg (by simp [hm])] at h
  obtain ⟨g, hg, hr, h1, hd⟩ := finish_rangeFault (.inr rfl) h
  exact ⟨g, _, hg, hr, hd, by rw [h1]; exact underflowData_spec he ht rfl⟩

/-- An inexact result in range with the inexact mask clear faults after the store (R205). -/
theorem EndsRounded.inexactFault {ac : Word} (h : EndsRounded i f d s ac e) (hx : rounded f d s e ≠ e)
    (hm : acBit s fxmBit = false) :
    ∃ t, exec i s = faultsWith (floating 0x10 s) (ended s.ip t) ∧ t.ac = ac ∧
      fetch f t (FpDst.asSrc d) = .norm (decide (e < 0)) (rounded f d s e) ∧ FpKept f d s t := by
  obtain ⟨t, ⟨-, -, hfault⟩, hr, hk⟩ := h
  obtain ⟨ht, hac⟩ := hfault hx hm
  exact ⟨t, ht, hac, hr, hk⟩

/-- A result in range, inexactness masked or absent, is stored with at most the inexact flag set. -/
theorem EndsRounded.stored (h : EndsRounded i f d s s.ac e) (hq : InexactQuiet f d s e) :
    ∃ u, exec i s = .next (ended s.ip u) ∧ Rounded f d s u e ∧ FpKept f d s u := by
  obtain ⟨u, ⟨hsame, hflag, -⟩, hr, hk⟩ := h
  by_cases hx : rounded f d s e = e
  · obtain ⟨hu, hac⟩ := hsame (not_not_intro hx)
    exact ⟨u, hu, ⟨hr, fun k => by rw [hac, decide_eq_false (not_not_intro hx), Bool.false_and, Bool.or_false]⟩, hk⟩
  · obtain ⟨hu, hac⟩ := hflag hx (hq.resolve_right hx)
    exact ⟨u, hu, ⟨hr, fun k => by rw [hac, decide_eq_true hx, Bool.true_and]⟩, hk⟩

theorem Comes.stored (h : Comes i f d none (.value e) s) (hr : InRange f d s e) (hq : InexactQuiet f d s e) :
    ∃ u, exec i s = .next (ended s.ip u) ∧ Rounded f d s u e ∧ FpKept f d s u :=
  (h.endsRounded hr).stored hq

end

end Sys2Proof.Claims
end

section
/-! PROOFS. The reserved-encoding fault (R194, R199). -/
namespace Sys2Proof.Claims
open Sys2Proof.Machine

section
variable {f : Fmt} {s : State} {a b : FpSrc}

theorem finish_reservedFault (s : State) : finish s (.ok (reservedFault s)) = faultsWith (floating 0x20 s) s := rfl

theorem arith1_reserved {d : FpDst} (o : Fmt → Arg → FpOutcome) (hal : (a.fits f && d.fits f) = true)
    (hu : isUnnamed (fetch f s a) = false) (hr : isReservedOperand s (fetch f s a) = true) :
    arith1 f o a d s = .ok (reservedFault s) :=
  (if_pos hal).trans (arith_reserved (List.forall_mem_singleton.mpr hu) ⟨_, List.mem_singleton_self _, hr⟩)

theorem exists_reserved_of_or
    (h : isReservedOperand s (fetch f s a) = true ∨ isReservedOperand s (fetch f s b) = true) :
    ∃ x ∈ [fetch f s a, fetch f s b], isReservedOperand s x = true := by
  rcases h with h | h
  · exact ⟨_, List.mem_cons_self, h⟩
  · exact ⟨_, List.mem_cons_of_mem _ (List.mem_singleton_self _), h⟩

theorem arith2_reserved {d : FpDst} (o : Arg → Arg → FpOutcome) (hal : (a.fits f && b.fits f && d.fits f) = true)
    (hua : isUnnamed (fetch f s a) = false) (hub : isUnnamed (fetch f s b) = false)
    (hr : isReservedOperand s (fetch f s a) = true ∨ isReservedOperand s (fetch f s b) = true) :
    arith2 f o a b d s = .ok (reservedFault s) :=
  (if_pos hal).trans (arith_reserved (List.forall_mem_cons.mpr ⟨hua, List.forall_mem_singleton.mpr hub⟩)
    (exists_reserved_of_or hr))

theorem ruleRem_reserved {d : FpDst} (hal : (a.fits f && b.fits f && d.fits f) = true)
    (hua : isUnnamed (fetch f s a) = false) (hub : isUnnamed (fetch f s b) = false)
    (hr : isReservedOperand s (fetch f s a) = true ∨ isReservedOperand s (fetch f s b) = true) :
    ruleRem f a b d s = .ok (reservedFault s) := by
  unfold ruleRem
  rw [arith2_reserved _ hal hua hub hr]
  cases remStatusOf s.params.remIsIeee (toArg (fetch f s a)) (toArg (fetch f s b)) <;> rfl

theorem checkOperands_reserved {ops : List FVal} {r : Result Effect} (h1 : ∀ a ∈ ops, isUnnamed a = false)
    (h2 : ∃ a ∈ ops, isReservedOperand s a = true) : checkOperands ops s r = .ok (reservedFault s) := by
  unfold checkOperands
  rw [List.any_eq_false.mpr fun a ha => by rw [h1 a ha]; decide, List.any_eq_true.mpr h2]
  rfl

theorem ruleCompare_reserved {ordered : Bool} (hal : (a.fits f && b.fits f) = true)
    (hua : isUnnamed (fetch f s a) = false) (hub : isUnnamed (fetch f s b) = false)
    (hr : isReservedOperand s (fetch f s a) = true ∨ isReservedOperand s (fetch f s b) = true) :
    ruleCompare f ordered a b s = .ok (reservedFault s) :=
  (if_pos hal).trans (checkOperands_reserved
    (List.forall_mem_cons.mpr ⟨hua, List.forall_mem_singleton.mpr hub⟩) (exists_reserved_of_or hr))

theorem ruleCvt_reserved {wide : Bool} {m : RoundMode} {n : Reg} (hu : isUnnamed (fetch .real s a) = false)
    (hr : isReservedOperand s (fetch .real s a) = true) : ruleCvt wide m a n s = .ok (reservedFault s) :=
  checkOperands_reserved (List.forall_mem_singleton.mpr hu) ⟨_, List.mem_singleton_self _, hr⟩

/-- The conversions to integers whose destination is aligned are those of `toIntegers`. -/
theorem exec_conversion_reserved {n : Reg} {i : Instr}
    (hi : i ∈ [Instr.cvtri a n, .cvtzri a n] ++
      (if Reg.isEven n = true then [Instr.cvtril a n, .cvtzril a n] else []))
    (hu : isUnnamed (fetch .real s a) = false) (hr : isReservedOperand s (fetch .real s a) = true) :
    exec i s = faultsWith (floating 0x20 s) s := by
  have key : ∀ p ∈ toIntegers, (p.1 = true → Reg.isEven n = true) →
      exec (p.2 a n) s = faultsWith (floating 0x20 s) s := fun p hp hn => by
    obtain ⟨m, hm⟩ := exec_toIntegers p hp a n s hn
    rw [hm, ruleCvt_reserved hu hr, finish_reservedFault]
  rcases List.mem_append.mp hi with hi | hi
  · rcases List.mem_cons.mp hi with rfl | hi
    · exact key (false, .cvtri) (by simp [toIntegers]) (by simp)
    · cases List.mem_singleton.mp hi
      exact key (false, .cvtzri) (by simp [toIntegers]) (by simp)
  · split at hi
    · next hn =>
      rcases List.mem_cons.mp hi with rfl | hi
      · exact key (true, .cvtril) (by simp [toIntegers]) fun _ => hn
      · cases List.mem_singleton.mp hi
        exact key (true, .cvtzril) (by simp [toIntegers]) fun _ => hn
    · cases hi

end

end Sys2Proof.Claims

namespace Sys2Proof.Proofs
open Sys2Proof.Machine Sys2Proof.Claims

/-- Settles O42: each family checks its operands before its own rule. -/
theorem reservedEncodingFaults : Obligations.ReservedEncodingFaults := by
  unfold Obligations.ReservedEncodingFaults
  intro s a b d x n
  refine ⟨fun p hp hal hu hr => ?_, fun p hp hal hua hub hr => ?_, fun p hp hal hu hr => ?_,
    fun p hp hal hua hub hr => ?_, fun i hi hu hr => exec_conversion_reserved hi hu hr⟩
  · obtain ⟨o, h⟩ := exec_unary p hp a d s
    rw [h, arith1_reserved o hal hu hr, finish_reservedFault]
  · rcases List.mem_append.mp hp with hp | hp
    · obtain ⟨o, h⟩ := exec_binary p hp a b d s
      rw [h, arith2_reserved o hal hua hub hr, finish_reservedFault]
    · rw [exec_remainders p hp, ruleRem_reserved hal hua hub hr, finish_reservedFault]
  · obtain ⟨o, h⟩ := exec_scales p hp x b d s
    rw [h, arith1_reserved o hal hu hr, finish_reservedFault]
  · rw [exec_compares p hp, ruleCompare_reserved hal hua hub hr, finish_reservedFault]

end Sys2Proof.Proofs
end

section
/-! PROOFS. The basic operations on numbers, zeros and infinities (R271 to R281). -/
namespace Sys2Proof.Claims
open Sys2Proof.Machine

section
variable {s : State} {a b : FpSrc} {d : FpDst} {x y : Arg}

/-! ### Two numbers -/

theorem addOutcome_num {m : RoundMode} {v w : Rat} (h : w + v ≠ 0) :
    addOutcome m (.num v) (.num w) = .value (w + v) := by
  rw [add_comm] at h ⊢
  exact if_neg h

theorem subOutcome_num {m : RoundMode} {v w : Rat} (h : w - v ≠ 0) :
    subOutcome m (.num v) (.num w) = .value (w - v) := by
  rw [sub_eq_add_neg] at h ⊢
  exact addOutcome_num h

theorem mulOutcome_num (v w : Rat) : mulOutcome (.num v) (.num w) = .value (w * v) := by
  rw [mul_comm]
  rfl

/-- The basic operations go by `arith2`, and two numbers give the exact result where it is not zero (R271). -/
theorem exec_basic : ∀ p ∈ basic, ∃ o : RoundMode → Arg → Arg → FpOutcome,
    (∀ a b d s, exec (p.2.1 a b d) s = finish s (arith2 p.1 (o (roundMode s)) a b d s)) ∧
      ∀ m v w, p.2.2 v w ≠ 0 → o m (.num v) (.num w) = .value (p.2.2 v w) := by
  simp only [basic, List.forall_mem_cons, List.not_mem_nil, false_imp_iff, implies_true, and_true]
  exact ⟨⟨addOutcome, fun _ _ _ _ => rfl, fun _ _ _ => addOutcome_num⟩,
    ⟨addOutcome, fun _ _ _ _ => rfl, fun _ _ _ => addOutcome_num⟩,
    ⟨subOutcome, fun _ _ _ _ => rfl, fun _ _ _ => subOutcome_num⟩,
    ⟨subOutcome, fun _ _ _ _ => rfl, fun _ _ _ => subOutcome_num⟩,
    ⟨fun _ => mulOutcome, fun _ _ _ _ => rfl, fun _ _ _ _ => mulOutcome_num _ _⟩,
    ⟨fun _ => mulOutcome, fun _ _ _ _ => rfl, fun _ _ _ _ => mulOutcome_num _ _⟩,
    ⟨fun _ => divOutcome, fun _ _ _ _ => rfl, fun _ _ _ _ => rfl⟩,
    ⟨fun _ => divOutcome, fun _ _ _ _ => rfl, fun _ _ _ _ => rfl⟩⟩

theorem comes_basic {p : Fmt × (FpSrc → FpSrc → FpDst → Instr) × (Rat → Rat → Rat)} (hp : p ∈ basic) {v w : Rat}
    (ha : Number p.1 s a v) (hb : Number p.1 s b w) (hal : (a.fits p.1 && b.fits p.1 && d.fits p.1) = true)
    (h : p.2.2 v w ≠ 0) : Comes (p.2.1 a b d) p.1 d none (.value (p.2.2 v w)) s := by
  obtain ⟨o, hexec, hnum⟩ := exec_basic p hp
  rw [← hnum (roundMode s) v w h]
  exact comes_arith2 (hexec a b d s) hal ha.operand hb.operand

/-! ### Sums and differences -/

/-- The first operand of a sum, its sign reversed in a subtraction (R273, R276). -/
def sumArg (r : Bool) (x : Arg) : Arg := if r = true then negArg x else x

theorem sumArg_zero (r x : Bool) : sumArg r (.zero x) = .zero (x ^^ r) := by cases r <;> simp [sumArg, negArg]
theorem sumArg_inf (r x : Bool) : sumArg r (.inf x) = .inf (x ^^ r) := by cases r <;> simp [sumArg, negArg]
theorem sumArg_num (r : Bool) (v : Rat) : sumArg r (.num v) = .num (if r = true then -v else v) := by
  cases r <;> rfl

theorem comes_sum : ∀ p ∈ [(Fmt.real, Instr.addr, false), (.long, .addrl, false), (.real, .subr, true),
      (.long, .subrl, true)],
    (a.fits p.1 && b.fits p.1 && d.fits p.1) = true → Operand p.1 s a x → Operand p.1 s b y →
    Comes (p.2.1 a b d) p.1 d none (addOutcome (roundMode s) (sumArg p.2.2 x) y) s := by
  simp only [List.forall_mem_cons, List.not_mem_nil, false_imp_iff, implies_true, and_true]
  exact ⟨comes_arith2 rfl, comes_arith2 rfl, comes_arith2 (o := subOutcome (roundMode s)) rfl,
    comes_arith2 (o := subOutcome (roundMode s)) rfl⟩

theorem addOutcome_inf_finite (m : RoundMode) (p : Bool) {y : Arg} (h : (∃ q, y = .zero q) ∨ ∃ w, y = .num w) :
    addOutcome m (.inf p) y = .inf p := by
  rcases h with ⟨q, rfl⟩ | ⟨w, rfl⟩ <;> rfl

theorem addOutcome_finite_inf (m : RoundMode) (q : Bool) {x : Arg} (h : (∃ p, x = .zero p) ∨ ∃ v, x = .num v) :
    addOutcome m x (.inf q) = .inf q := by
  rcases h with ⟨q, rfl⟩ | ⟨w, rfl⟩ <;> rfl

theorem addOutcome_zeros (m : RoundMode) (p q : Bool) :
    addOutcome m (.zero p) (.zero q) = .zero (if p = q then q else decide (m = .down)) := by
  change (if p = q then FpOutcome.zero p else .zero (m == .down)) = _
  split
  · next h => rw [h]
  · rfl

theorem addOutcome_cancel (m : RoundMode) {v w : Rat} (h : w + v = 0) :
    addOutcome m (.num v) (.num w) = .zero (decide (m = .down)) := by
  rw [add_comm] at h
  exact if_pos h

theorem sums_special {x y : Bool} : ∀ p ∈ [(Fmt.real, Instr.addr, false), (.long, .addrl, false), (.real, .subr, true),
      (.long, .subrl, true)], (a.fits p.1 && b.fits p.1 && d.fits p.1) = true →
    (fetch p.1 s a = .inf x → FiniteSign p.1 s b y → Leaves (p.2.1 a b d) p.1 d (.inf (x ^^ p.2.2)) s) ∧
    (FiniteSign p.1 s a x → fetch p.1 s b = .inf y → Leaves (p.2.1 a b d) p.1 d (.inf y) s) ∧
    (fetch p.1 s a = .inf x → fetch p.1 s b = .inf y → (x ^^ p.2.2) = y →
      Leaves (p.2.1 a b d) p.1 d (.inf y) s) ∧
    (fetch p.1 s a = .zero x → fetch p.1 s b = .zero y →
      Leaves (p.2.1 a b d) p.1 d (.zero (if (x ^^ p.2.2) = y then y else decide (roundMode s = .down))) s) ∧
    (∀ v w, Number p.1 s a v → Number p.1 s b w → w + (if p.2.2 = true then -v else v) = 0 →
      Leaves (p.2.1 a b d) p.1 d (.zero (decide (roundMode s = .down))) s) ∧
    (∀ v e, e = (if p.2.2 = true then -v else v) → Number p.1 s a v → fetch p.1 s b = .zero y →
      InRange p.1 d s e → InexactQuiet p.1 d s e →
      ∃ u, exec (p.2.1 a b d) s = .next (ended s.ip u) ∧ Rounded p.1 d s u e ∧ FpKept p.1 d s u) ∧
    (∀ w, fetch p.1 s a = .zero x → Number p.1 s b w → InRange p.1 d s w → InexactQuiet p.1 d s w →
      ∃ u, exec (p.2.1 a b d) s = .next (ended s.ip u) ∧ Rounded p.1 d s u w ∧ FpKept p.1 d s u) := by
  intro p hp hal
  have sum {x y : Arg} := comes_sum (a := a) (b := b) (d := d) (s := s) (x := x) (y := y) p hp hal
  refine ⟨fun ha hb => ?_, fun ha hb => ?_, fun ha hb hxy => ?_, fun ha hb => ?_, fun v w ha hb h0 => ?_,
    fun v e he ha hb hr hq => ?_, fun w ha hb hr hq => ?_⟩
  · refine Comes.inf (st := none) ?_
    rcases hb.operand with hb | ⟨w, hb, -⟩
    · rw [← addOutcome_inf_finite (roundMode s) _ (.inl ⟨y, rfl⟩), ← sumArg_inf]
      exact sum (operand_inf ha) hb
    · rw [← addOutcome_inf_finite (roundMode s) _ (.inr ⟨w, rfl⟩), ← sumArg_inf]
      exact sum (operand_inf ha) hb
  · refine Comes.inf (st := none) ?_
    rcases ha.operand with ha | ⟨v, ha, -⟩
    · rw [← addOutcome_finite_inf (roundMode s) _ (.inl ⟨_, sumArg_zero p.2.2 x⟩)]
      exact sum ha (operand_inf hb)
    · rw [← addOutcome_finite_inf (roundMode s) _ (.inr ⟨_, sumArg_num p.2.2 v⟩)]
      exact sum ha (operand_inf hb)
  · have h := sum (operand_inf ha) (operand_inf hb)
    rw [sumArg_inf, hxy, show addOutcome (roundMode s) (.inf y) (.inf y) = .inf y from if_pos rfl] at h
    exact h.inf
  · have h := sum (operand_zero ha) (operand_zero hb)
    rw [sumArg_zero, addOutcome_zeros] at h
    exact h.zero
  · have h := sum ha.operand hb.operand
    rw [sumArg_num, addOutcome_cancel _ h0] at h
    exact h.zero
  · have h := sum ha.operand (operand_zero hb)
    rw [sumArg_num, ← he] at h
    exact h.stored hr hq
  · have h := sum (operand_zero ha) hb.operand
    rw [sumArg_zero] at h
    exact h.stored hr hq

/-! ### Products and quotients -/

theorem comes_mul : ∀ p ∈ [(Fmt.real, Instr.mulr), (.long, .mulrl)],
    (a.fits p.1 && b.fits p.1 && d.fits p.1) = true → Operand p.1 s a x → Operand p.1 s b y →
    Comes (p.2 a b d) p.1 d none (mulOutcome x y) s := by
  simp only [List.forall_mem_cons, List.not_mem_nil, false_imp_iff, implies_true, and_true]
  exact ⟨comes_arith2 rfl, comes_arith2 rfl⟩

theorem comes_div : ∀ p ∈ [(Fmt.real, Instr.divr), (.long, .divrl)],
    (a.fits p.1 && b.fits p.1 && d.fits p.1) = true → Operand p.1 s a x → Operand p.1 s b y →
    Comes (p.2 a b d) p.1 d none (divOutcome x y) s := by
  simp only [List.forall_mem_cons, List.not_mem_nil, false_imp_iff, implies_true, and_true]
  exact ⟨comes_arith2 rfl, comes_arith2 rfl⟩

theorem products_special {x y : Bool} : ∀ p ∈ [(Fmt.real, Instr.mulr), (.long, .mulrl)],
    (a.fits p.1 && b.fits p.1 && d.fits p.1) = true →
    ((fetch p.1 s a = .inf x ∧ NonzeroSign p.1 s b y) ∨ (NonzeroSign p.1 s a x ∧ fetch p.1 s b = .inf y) →
      Leaves (p.2 a b d) p.1 d (.inf (x ^^ y)) s) ∧
    ((fetch p.1 s a = .zero x ∧ FiniteSign p.1 s b y) ∨ (FiniteSign p.1 s a x ∧ fetch p.1 s b = .zero y) →
      Leaves (p.2 a b d) p.1 d (.zero (x ^^ y)) s) := by
  intro p hp hal
  have mul {x y : Arg} := comes_mul (a := a) (b := b) (d := d) (s := s) (x := x) (y := y) p hp hal
  constructor
  · rintro (⟨ha, hb⟩ | ⟨ha, hb⟩)
    · rcases hb.operand with hy | ⟨w, hw, rfl⟩
      · exact (mul (operand_inf ha) hy).inf
      · exact (mul (operand_inf ha) hw).inf
    · rcases ha.operand with hx | ⟨v, hv, rfl⟩
      · exact (mul hx (operand_inf hb)).inf
      · exact (mul hv (operand_inf hb)).inf
  · rintro (⟨ha, hb⟩ | ⟨ha, hb⟩)
    · rcases hb.operand with hy | ⟨w, hw, rfl⟩
      · exact (mul (operand_zero ha) hy).zero
      · exact (mul (operand_zero ha) hw).zero
    · rcases ha.operand with hx | ⟨v, hv, rfl⟩
      · exact (mul hx (operand_zero hb)).zero
      · exact (mul hv (operand_zero hb)).zero

theorem quotients_special {x y : Bool} : ∀ p ∈ [(Fmt.real, Instr.divr), (.long, .divrl)],
    (a.fits p.1 && b.fits p.1 && d.fits p.1) = true →
    (FiniteSign p.1 s a x → fetch p.1 s b = .inf y → Leaves (p.2 a b d) p.1 d (.inf (x ^^ y)) s) ∧
    (fetch p.1 s a = .inf x → FiniteSign p.1 s b y → Leaves (p.2 a b d) p.1 d (.zero (x ^^ y)) s) ∧
    ((∃ v, Number p.1 s a v ∧ x = decide (v < 0)) → fetch p.1 s b = .zero y →
      Leaves (p.2 a b d) p.1 d (.zero (x ^^ y)) s) := by
  intro p hp hal
  have div {x y : Arg} := comes_div (a := a) (b := b) (d := d) (s := s) (x := x) (y := y) p hp hal
  refine ⟨fun ha hb => ?_, fun ha hb => ?_, ?_⟩
  · rcases ha.operand with hx | ⟨v, hv, rfl⟩
    · exact (div hx (operand_inf hb)).inf
    · exact (div hv (operand_inf hb)).inf
  · rcases hb.operand with hy | ⟨w, hw, rfl⟩
    · exact (div (operand_inf ha) hy).zero
    · exact (div (operand_inf ha) hw).zero
  · rintro ⟨v, ha, rfl⟩ hb
    exact (div ha.operand (operand_zero hb)).zero

end

end Sys2Proof.Claims

namespace Sys2Proof.Proofs
open Sys2Proof.Machine Sys2Proof.Claims

/-- Settles O43: the exact result is delivered, and a result in range is stored rounded. -/
theorem basicOperations : Obligations.BasicOperations := by
  unfold Obligations.BasicOperations
  intro s a b d v w p hp ha hb hal hr hq
  exact (comes_basic hp ha hb hal hr.1).stored hr hq

/-- Settles O44: the rows of the table of R273, one operand class at a time. -/
theorem zerosAndInfinities : Obligations.ZerosAndInfinities := by
  unfold Obligations.ZerosAndInfinities
  exact fun s a b d x y => ⟨sums_special, products_special, quotients_special⟩

end Sys2Proof.Proofs
end

section
/-! PROOFS. NaN results, invalid operations and zero divides of operands that are not NaNs (R172 to R175, R196 to
R198). -/
namespace Sys2Proof.Claims
open Sys2Proof.Machine

/-! ### The patterns of quiet NaNs (R174, R175) -/

theorem fracBits_bounds (f : Fmt) : 0 < fracBits f ∧ fracBits f ≤ 63 := by cases f <;> decide

theorem qnanFrac_lt (f : Fmt) (fr : BitVec 63) :
    fr.toNat / 2 ^ (63 - fracBits f) ||| 2 ^ (fracBits f - 1) < 2 ^ fracBits f := by
  obtain ⟨h1, h2⟩ := fracBits_bounds f
  refine Nat.or_lt_two_pow ?_ (Nat.pow_lt_pow_right (by decide) (by omega))
  rw [Nat.div_lt_iff_lt_mul (by positivity), ← pow_add, Nat.add_sub_cancel' h2]
  exact fr.isLt

/-- The bits of the left-aligned fraction of the quiet NaN that is stored: those of the source that fit, the top one
set. -/
theorem getLsbD_qnanFrac (f : Fmt) (fr : BitVec 63) {i : Nat} (hi : i < 63) :
    (BitVec.ofNat 63 ((fr.toNat / 2 ^ (63 - fracBits f) ||| 2 ^ (fracBits f - 1)) * 2 ^ (63 - fracBits f))).getLsbD i =
      (i == 62 || (fr.getLsbD i && decide (63 - fracBits f ≤ i))) := by
  obtain ⟨h1, h2⟩ := fracBits_bounds f
  rw [BitVec.getLsbD_ofNat, Nat.testBit_mul_two_pow, Nat.testBit_or, Nat.testBit_div_two_pow, Nat.testBit_two_pow,
    decide_eq_true hi, Bool.true_and]
  by_cases hk : 63 - fracBits f ≤ i
  · have h62 : (fracBits f - 1 = i - (63 - fracBits f)) ↔ i = 62 := by omega
    rw [Nat.sub_add_cancel hk, decide_eq_true hk, decide_eq_decide.mpr h62, Bool.true_and, Bool.and_true, Bool.or_comm]
    rfl
  · rw [decide_eq_false hk, Bool.false_and, Bool.and_false, beq_eq_false_iff_ne.mpr (by omega), Bool.or_false]

/-- A stored NaN reads back as a quiet NaN of its sign (R174). -/
theorem decodeBits_encodeQnan (f : Fmt) (neg : Bool) (fr : BitVec 63) :
    ∃ fr', decodeBits f (encodeQnan f neg fr) = .qnan neg fr' ∧
      ∀ i, i < 63 → fr'.getLsbD i = (i == 62 || (fr.getLsbD i && decide (63 - fracBits f ≤ i))) := by
  have hlt := qnanFrac_lt f fr
  refine ⟨_, ?_, fun i hi => getLsbD_qnanFrac f fr hi⟩
  have h62 := getLsbD_qnanFrac f fr (i := 62) (by decide)
  rw [show ((62 : Nat) == 62) = true from rfl, Bool.true_or] at h62
  unfold encodeQnan
  set x := fr.toNat / 2 ^ (63 - fracBits f) ||| 2 ^ (fracBits f - 1) with hx
  have hx0 : x ≠ 0 := by
    intro h
    rw [h] at h62
    simp at h62
  have he : expMax f < 2 ^ expBits f ∧ expMax f ≠ 0 := by cases f <;> decide
  have hj : (!(if f = .ext then true else expMax f != 0)) = false := by cases f <;> decide
  rw [decodeBits_packFields f neg true he.1 hlt]
  unfold classify
  dsimp only
  rw [if_neg he.2, hj, if_neg (by decide), if_pos rfl, if_neg hx0, if_pos h62]

/-- The standard QNaN has the top fraction bit only (R175). -/
theorem decodeBits_stdQnan (p : Params) (f : Fmt) : decodeBits f (stdQnan p f) = .qnan p.stdQnanSign (1#63 <<< 62) := by
  obtain ⟨fr, h, hbits⟩ := decodeBits_encodeQnan f p.stdQnanSign 0#63
  unfold stdQnan
  rw [h]
  congr 1
  apply BitVec.eq_of_getLsbD_eq
  intro i hi
  rw [hbits i hi, BitVec.getLsbD_zero, Bool.false_and, Bool.or_false]
  revert i
  decide

/-- Where no operand is a NaN none is chosen (R174). -/
theorem chosenNan_none (t : Bool) : ∀ {ops : List FVal}, (∀ a ∈ ops, isNan a = false) → chosenNan t ops = none
  | [], _ => rfl
  | a :: rest, h => by
    have ha : nanPart a = none := Option.isSome_eq_false_iff.mp (h a List.mem_cons_self) |> Option.isNone_iff_eq_none.mp
    unfold chosenNan
    rw [ha, chosenNan_none t fun x hx => h x (List.mem_cons_of_mem a hx)]

/-! ### The two mask outcomes of an invalid operation and of a zero divide (R197, R198) -/

section
variable {i : Instr} {f : Fmt} {d : FpDst} {s : State}

/-- The masked invalid operation stores the result chosen for it and sets the flag; unmasked it faults (R197). -/
theorem invalidResult_ends {ops : List FVal}
    (h : exec i s = finish s (.ok (invalidResult (destFmt f d) d ops s))) :
    (acBit s fvmBit = true →
      ∃ u, exec i s = .next (ended s.ip u) ∧
        fetch f u (FpDst.asSrc d) = decodeBits (destFmt f d) (nanResult s.params (destFmt f d) ops) ∧
        (∀ k, getBit u.ac k = (getBit s.ac k || k == fvfBit)) ∧ FpKept f d s u) ∧
    (acBit s fvmBit = false → exec i s = faultsWith (floating 0x04 s) s) := by
  unfold invalidResult at h
  refine ⟨fun hm => ?_, fun hm => ?_⟩
  · rw [if_pos hm] at h
    exact completes_flag isFpFlag_fvf h
  · rw [if_neg (by simp [hm])] at h
    exact h

/-- An invalid operation of operands that are not NaNs (R197). -/
theorem Comes.invalid (h : Comes i f d none .invalid s) :
    (acBit s fvmBit = true →
      ∃ u, exec i s = .next (ended s.ip u) ∧ fetch f u (FpDst.asSrc d) = .qnan s.params.stdQnanSign (1#63 <<< 62) ∧
        (∀ k, getBit u.ac k = (getBit s.ac k || k == fvfBit)) ∧ FpKept f d s u) ∧
    (acBit s fvmBit = false → exec i s = faultsWith (floating 0x04 s) s) := by
  obtain ⟨ops, hops, h⟩ := h
  have hnan : nanResult s.params (destFmt f d) ops = stdQnan s.params (destFmt f d) := by
    unfold nanResult
    rw [chosenNan_none _ hops]
  rw [← decodeBits_stdQnan s.params (destFmt f d), ← hnan]
  exact invalidResult_ends h

theorem Comes.zeroDivide {neg : Bool} (h : Comes i f d none (.zeroDivide neg) s) :
    (acBit s fzmBit = true →
      ∃ u, exec i s = .next (ended s.ip u) ∧ fetch f u (FpDst.asSrc d) = .inf neg ∧
        (∀ k, getBit u.ac k = (getBit s.ac k || k == fzfBit)) ∧ FpKept f d s u) ∧
    (acBit s fzmBit = false → exec i s = faultsWith (floating 0x08 s) s) := by
  obtain ⟨ops, -, h⟩ := h
  change exec i s = finish s (.ok (zeroDivideResult (destFmt f d) d neg s)) at h
  unfold zeroDivideResult at h
  refine ⟨fun hm => ?_, fun hm => ?_⟩
  · rw [if_pos hm] at h
    rw [← decodeBits_encodeInf (destFmt f d) neg]
    exact completes_flag isFpFlag_fzf h
  · rw [if_neg (by simp [hm])] at h
    exact h

end

/-! ### The rule of each family -/

section
variable {s : State} {a b : FpSrc} {d : FpDst} {x y : Arg}

theorem comes_add : ∀ p ∈ [(Fmt.real, Instr.addr), (.long, .addrl)],
    (a.fits p.1 && b.fits p.1 && d.fits p.1) = true → Operand p.1 s a x → Operand p.1 s b y →
    Comes (p.2 a b d) p.1 d none (addOutcome (roundMode s) x y) s := by
  simp only [List.forall_mem_cons, List.not_mem_nil, false_imp_iff, implies_true, and_true]
  exact ⟨comes_arith2 rfl, comes_arith2 rfl⟩

theorem comes_sub : ∀ p ∈ [(Fmt.real, Instr.subr), (.long, .subrl)],
    (a.fits p.1 && b.fits p.1 && d.fits p.1) = true → Operand p.1 s a x → Operand p.1 s b y →
    Comes (p.2 a b d) p.1 d none (subOutcome (roundMode s) x y) s := by
  simp only [List.forall_mem_cons, List.not_mem_nil, false_imp_iff, implies_true, and_true]
  exact ⟨comes_arith2 rfl, comes_arith2 rfl⟩

theorem comes_log : ∀ p ∈ logs,
    (a.fits p.1 && b.fits p.1 && d.fits p.1) = true → Operand p.1 s a x → Operand p.1 s b y →
    Comes (p.2 a b d) p.1 d none (logOutcome x y) s := by
  simp only [logs, List.forall_mem_cons, List.not_mem_nil, false_imp_iff, implies_true, and_true]
  exact ⟨comes_arith2 rfl, comes_arith2 rfl⟩

theorem comes_logep : ∀ p ∈ logEpsilons,
    (a.fits p.1 && b.fits p.1 && d.fits p.1) = true → Operand p.1 s a x → Operand p.1 s b y →
    Comes (p.2 a b d) p.1 d none (logepOutcome x y) s := by
  simp only [logEpsilons, List.forall_mem_cons, List.not_mem_nil, false_imp_iff, implies_true, and_true]
  exact ⟨comes_arith2 rfl, comes_arith2 rfl⟩

theorem comes_rem : ∀ p ∈ remainders,
    (a.fits p.1 && b.fits p.1 && d.fits p.1) = true → Operand p.1 s a x → Operand p.1 s b y →
    Comes (p.2 a b d) p.1 d (remStatusOf s.params.remIsIeee x y) (remOutcome s.params.remIsIeee x y) s :=
  fun p hp hal ha hb => comes_ruleRem (exec_remainders p hp a b d s) hal ha hb

theorem comes_sqrt : ∀ p ∈ [(Fmt.real, Instr.sqrtr), (.long, .sqrtrl)],
    (a.fits p.1 && d.fits p.1) = true → Operand p.1 s a x →
    Comes (p.2 a d) p.1 d none (sqrtOutcome (destFmt p.1 d) x) s := by
  simp only [List.forall_mem_cons, List.not_mem_nil, false_imp_iff, implies_true, and_true]
  exact ⟨comes_arith1 rfl, comes_arith1 rfl⟩

theorem comes_logbn : ∀ p ∈ [(Fmt.real, Instr.logbnr), (.long, .logbnrl)],
    (a.fits p.1 && d.fits p.1) = true → Operand p.1 s a x →
    Comes (p.2 a d) p.1 d none (logbnOutcome (destFmt p.1 d) x) s := by
  simp only [List.forall_mem_cons, List.not_mem_nil, false_imp_iff, implies_true, and_true]
  exact ⟨comes_arith1 rfl, comes_arith1 rfl⟩

/-- Sine, cosine and tangent of an infinity are invalid (R333). -/
theorem comes_trig_inf {neg : Bool} : ∀ p ∈ [(Fmt.real, Instr.sinr), (.long, .sinrl), (.real, .cosr), (.long, .cosrl),
      (.real, .tanr), (.long, .tanrl)], (a.fits p.1 && d.fits p.1) = true → Operand p.1 s a (.inf neg) →
    Comes (p.2 a d) p.1 d none .invalid s := by
  simp only [List.forall_mem_cons, List.not_mem_nil, false_imp_iff, implies_true, and_true]
  exact ⟨comes_arith1 (o := sinOutcome) rfl, comes_arith1 (o := sinOutcome) rfl, comes_arith1 (o := cosOutcome) rfl,
    comes_arith1 (o := cosOutcome) rfl, comes_arith1 (o := tanOutcome) rfl, comes_arith1 (o := tanOutcome) rfl⟩

/-! ### The invalid conditions of the rules (R196) -/

theorem addOutcome_inf_ne (m : RoundMode) {p q : Bool} (h : p ≠ q) : addOutcome m (.inf p) (.inf q) = .invalid :=
  if_neg h

theorem subOutcome_inf (m : RoundMode) (p : Bool) : subOutcome m (.inf p) (.inf p) = .invalid :=
  addOutcome_inf_ne m (Bool.not_ne_self p)

theorem remOutcome_inf (ieee : Bool) (y : Arg) (q : Bool) : remOutcome ieee y (.inf q) = .invalid := by
  cases y <;> rfl

/-- An invalid remainder writes no arithmetic status (D36). -/
theorem remStatusOf_invalid {ieee : Bool} {y x : Arg} (h : remOutcome ieee y x = .invalid) :
    remStatusOf ieee y x = none := by
  unfold remStatusOf
  rw [h]

theorem comes_rem_invalid {p : Fmt × (FpSrc → FpSrc → FpDst → Instr)} (hp : p ∈ remainders)
    (hal : (a.fits p.1 && b.fits p.1 && d.fits p.1) = true) (ha : Operand p.1 s a x) (hb : Operand p.1 s b y)
    (h : remOutcome s.params.remIsIeee x y = .invalid) : Comes (p.2 a b d) p.1 d none .invalid s := by
  have key := comes_rem p hp hal ha hb
  rwa [remStatusOf_invalid h, h] at key

/-- The logarithm of minus infinity or of a negative number (R358, D7). -/
theorem logOutcome_below {x : Arg} (hx : x = .inf true ∨ ∃ v, v < 0 ∧ x = .num v) (y : Arg) :
    logOutcome x y = .invalid := by
  rcases hx with rfl | ⟨v, hv, rfl⟩
  · rfl
  · cases y with
    | nan => exact if_pos hv
    | zero q => exact if_pos hv
    | inf q => exact if_pos (.inl hv)
    | num w => exact if_pos hv

/-- The logarithm of x + 1 with x minus infinity or below -1 (R362, D37). -/
theorem logepOutcome_below {x : Arg} (hx : x = .inf true ∨ ∃ v, v < -1 ∧ x = .num v) (y : Arg) :
    logepOutcome x y = .invalid := by
  rcases hx with rfl | ⟨v, hv, rfl⟩
  · rfl
  · cases y with
    | nan => exact if_pos hv
    | zero q => exact if_pos hv.le
    | inf q => exact if_pos hv
    | num w => exact if_pos hv

theorem logOutcome_one_inf {v : Rat} (hv : v = 1) (y : Bool) : logOutcome (.num v) (.inf y) = .invalid :=
  if_pos (.inr hv)

theorem logepOutcome_zero {v : Rat} (hv : v ≤ -1) (z : Bool) : logepOutcome (.num v) (.zero z) = .invalid := if_pos hv

theorem logepOutcome_zeroDivide {v : Rat} (hv : v = -1) (w : Rat) :
    logepOutcome (.num v) (.num w) = .zeroDivide (!isNeg w) :=
  (if_neg hv.not_lt).trans (if_pos hv)

end

end Sys2Proof.Claims

namespace Sys2Proof.Proofs
open Sys2Proof.Machine Sys2Proof.Claims

/-- Settles O46: each of these operand pairs and operands gives the outcome `invalid`. -/
theorem invalidOperations : Obligations.InvalidOperations := by
  unfold Obligations.InvalidOperations
  refine ⟨fun s a b d i f h hal => Comes.invalid ?_, fun s a d i f h hal => Comes.invalid ?_⟩
  · rcases h with ⟨p, hp, rfl, rfl, neg, ha, hb⟩ | ⟨p, hp, rfl, rfl, neg, ha, hb⟩ |
      ⟨p, hp, rfl, rfl, x, y, ⟨ha, hb⟩ | ⟨ha, hb⟩⟩ | ⟨p, hp, rfl, rfl, x, y, ⟨ha, hb⟩ | ⟨ha, hb⟩⟩ |
      ⟨p, hp, rfl, rfl, x, ⟨ha, hn, hu⟩ | ⟨hb, hn, hu⟩⟩ |
      ⟨p, hp, rfl, rfl, ⟨ha, hn, hu⟩ | ⟨z, hb, ha | ⟨y, ha⟩⟩ | ⟨ha, y, hb⟩⟩ |
      ⟨p, hp, rfl, rfl, ⟨ha, hn, hu⟩ | ⟨z, hb, ha | ha⟩ | ⟨y, z, ha, hb⟩⟩
    · rw [← addOutcome_inf_ne (roundMode s) (Bool.not_ne_self neg).symm]
      exact comes_add p hp hal (operand_inf ha) (operand_inf hb)
    · rw [← subOutcome_inf (roundMode s) neg]
      exact comes_sub p hp hal (operand_inf ha) (operand_inf hb)
    · exact comes_mul p hp hal (operand_zero ha) (operand_inf hb)
    · exact comes_mul p hp hal (operand_inf ha) (operand_zero hb)
    · exact comes_div p hp hal (operand_zero ha) (operand_zero hb)
    · exact comes_div p hp hal (operand_inf ha) (operand_inf hb)
    · obtain ⟨y, hy, -⟩ := operand_of_usable hu hn
      exact comes_rem_invalid hp hal (operand_zero ha) hy rfl
    · obtain ⟨y, hy, -⟩ := operand_of_usable hu hn
      exact comes_rem_invalid hp hal hy (operand_inf hb) (remOutcome_inf _ _ _)
    · obtain ⟨y, hy, -⟩ := operand_of_usable hu hn
      rcases ha with ha | ⟨v, hv, ha⟩
      · rw [← logOutcome_below (.inl rfl) y]
        exact comes_log p hp hal (operand_inf ha) hy
      · rw [← logOutcome_below (.inr ⟨v, hv, rfl⟩) y]
        exact comes_log p hp hal ha.operand hy
    · exact comes_log p hp hal (operand_inf ha) (operand_zero hb)
    · exact comes_log p hp hal (operand_zero ha) (operand_zero hb)
    · rw [← logOutcome_one_inf rfl y]
      exact comes_log p hp hal ha.operand (operand_inf hb)
    · obtain ⟨y, hy, -⟩ := operand_of_usable hu hn
      rcases ha with ha | ⟨v, hv, ha⟩
      · rw [← logepOutcome_below (.inl rfl) y]
        exact comes_logep p hp hal (operand_inf ha) hy
      · rw [← logepOutcome_below (.inr ⟨v, hv, rfl⟩) y]
        exact comes_logep p hp hal ha.operand hy
    · exact comes_logep p hp hal (operand_inf ha) (operand_zero hb)
    · rw [← logepOutcome_zero le_rfl z]
      exact comes_logep p hp hal ha.operand (operand_zero hb)
    · exact comes_logep p hp hal (operand_zero ha) (operand_inf hb)
  · rcases h with ⟨p, hp, rfl, rfl, ha | ⟨v, hv, ha⟩⟩ | ⟨p, hp, rfl, rfl, neg, ha⟩
    · exact comes_sqrt p hp hal (operand_inf ha)
    · rw [← show sqrtOutcome (destFmt p.1 d) (.num v) = .invalid from if_pos hv]
      exact comes_sqrt p hp hal ha.operand
    · exact comes_trig_inf p hp hal (operand_inf ha)

/-- Settles O47: each of these operand pairs and operands gives a zero divide of the sign stated. -/
theorem zeroDivides : Obligations.ZeroDivides := by
  unfold Obligations.ZeroDivides
  intro s a b d i f neg h hal
  have hal2 (hb : b.fits f = true) : (a.fits f && b.fits f && d.fits f) = true := by
    rw [Bool.and_eq_true] at hal
    rw [hal.1, hb, hal.2]
    rfl
  refine Comes.zeroDivide ?_
  rcases h with ⟨p, hp, rfl, rfl, z, w, ha, hb, rfl, hf⟩ | ⟨p, hp, rfl, rfl, z, w, ha, hb, rfl, hf⟩ |
    ⟨p, hp, rfl, rfl, w, ha, hb, rfl, hf⟩ | ⟨p, hp, rfl, rfl, ⟨z, ha⟩, rfl⟩
  · exact comes_div p hp (hal2 hf) (operand_zero ha) hb.operand
  · exact comes_log p hp (hal2 hf) (operand_zero ha) hb.operand
  · change Comes _ _ _ _ (.zeroDivide (!isNeg w)) s
    rw [← logepOutcome_zeroDivide rfl w]
    exact comes_logep p hp (hal2 hf) ha.operand hb.operand
  · exact comes_logbn p hp hal (operand_zero ha)

end Sys2Proof.Proofs
end

section
/-! PROOFS. NaN operands: which NaN is chosen, and what is stored (R171 to R174, R197, R199). -/
namespace Sys2Proof.Claims
open Sys2Proof.Machine

/-! ### The NaN chosen (R174) -/

theorem nanOf_eq (x : FVal) : nanOf x = nanPart x := by cases x <;> rfl

theorem chosenNan_one {t : Bool} {x : FVal} {c : Bool × BitVec 63} (h : nanOf x = some c) :
    chosenNan t [x] = some c := by
  rw [nanOf_eq] at h
  unfold chosenNan
  rw [h]
  rfl

theorem chooseNan_eq (t : Bool) (m n : Bool × BitVec 63) : chooseNan t m n =
    if n.2.toNat < m.2.toNat then m else if m.2.toNat < n.2.toNat then n else if t = true then m else n := by
  unfold chooseNan BitVec.ult
  simp only [decide_eq_true_eq]

/-- Of two operands the NaN is chosen that the claims describe. -/
theorem chosenNan_two {t : Bool} {x y : FVal} {c : Bool × BitVec 63} (h : Chosen t (nanOf x) (nanOf y) c) :
    chosenNan t [x, y] = some c := by
  rw [nanOf_eq, nanOf_eq] at h
  simp only [chosenNan]
  rcases h with ⟨hx, hy⟩ | ⟨hx, hy⟩ | ⟨m, n, hx, hy, hc⟩ <;> rw [hx, hy]
  rw [hc, ← chooseNan_eq]

theorem toArg_nan {x : FVal} {c : Bool × BitVec 63} (h : nanOf x = some c) : toArg x = .nan := by
  cases x with
  | snan _ _ => rfl
  | qnan _ _ => rfl
  | _ => cases h

theorem Chosen.nan_or_nan {t : Bool} {x y : FVal} {c : Bool × BitVec 63} (h : Chosen t (nanOf x) (nanOf y) c) :
    toArg x = .nan ∨ toArg y = .nan := by
  rcases h with ⟨hx, -⟩ | ⟨-, hy⟩ | ⟨m, n, hx, -, -⟩
  · exact .inl (toArg_nan hx)
  · exact .inr (toArg_nan hy)
  · exact .inl (toArg_nan hx)

theorem usable_of_nan {f : Fmt} {s : State} {a : FpSrc} {c : Bool × BitVec 63} (h : nanOf (fetch f s a) = some c) :
    Usable f s a := by
  unfold Usable
  cases hf : fetch f s a with
  | snan _ _ => exact ⟨rfl, rfl⟩
  | qnan _ _ => exact ⟨rfl, rfl⟩
  | _ => rw [hf] at h; cases h

/-! ### What is stored -/

section
variable {i : Instr} {f : Fmt} {d : FpDst} {s : State} {ops : List FVal} {o : FpOutcome} {neg : Bool} {fr : BitVec 63}

theorem nanResult_chosen {p : Params} {F : Fmt} (h : chosenNan p.nanTieFirst ops = some (neg, fr)) :
    nanResult p F ops = encodeQnan F neg fr := by
  unfold nanResult
  rw [h]

theorem holdsNan_of {u : State} (h : fetch f u (FpDst.asSrc d) = decodeBits (destFmt f d) (encodeQnan (destFmt f d) neg fr)) :
    HoldsNan f d neg fr u := by
  obtain ⟨fr', hdec, hbits⟩ := decodeBits_encodeQnan (destFmt f d) neg fr
  exact ⟨fr', h.trans hdec, hbits⟩

theorem storesNan_of (h : exec i s = finish s (arith (destFmt f d) d ops .nan s)) (hq : ∀ a ∈ ops, isQuiet s a)
    (hc : chosenNan s.params.nanTieFirst ops = some (neg, fr)) : StoresNan i f d neg fr s := by
  rw [arith_quiet hq] at h
  obtain ⟨u, hu, hr, hac, hk⟩ := completes_storeDone (st := none) h
  exact ⟨u, hu, holdsNan_of (by rw [hr, nanResult_chosen hc]), hac, hk⟩

theorem invalidNan_of_result (h : exec i s = finish s (.ok (invalidResult (destFmt f d) d ops s)))
    (hc : chosenNan s.params.nanTieFirst ops = some (neg, fr)) : InvalidNan i f d neg fr s := by
  obtain ⟨hmask, hfault⟩ := invalidResult_ends h
  refine ⟨fun hm => ?_, hfault⟩
  obtain ⟨u, hu, hr, hac, hk⟩ := hmask hm
  exact ⟨u, hu, holdsNan_of (by rw [hr, nanResult_chosen hc]), hac, hk⟩

/-- A signaling NaN among usable operands (R196). -/
theorem invalidNan_of_signaling (h : exec i s = finish s (arith (destFmt f d) d ops o s))
    (hu : ∀ a ∈ ops, isUnnamed a = false ∧ isReservedOperand s a = false) (hs : ∃ a ∈ ops, isSnan a = true)
    (hc : chosenNan s.params.nanTieFirst ops = some (neg, fr)) : InvalidNan i f d neg fr s := by
  rw [arith_signaling (fun a ha => (hu a ha).1) (fun a ha => (hu a ha).2) hs] at h
  exact invalidNan_of_result h hc

/-- The instruction's invalid condition beside a quiet NaN (R199, D7). -/
theorem invalidNan_of_outcome (h : exec i s = finish s (arith (destFmt f d) d ops .invalid s))
    (hq : ∀ a ∈ ops, isQuiet s a) (hc : chosenNan s.params.nanTieFirst ops = some (neg, fr)) :
    InvalidNan i f d neg fr s := by
  rw [arith_quiet hq] at h
  exact invalidNan_of_result h hc

end

/-! ### One source -/

/-- The instructions with one floating-point source have the outcome `nan` of a NaN. -/
theorem exec_unary_nan : ∀ p ∈ unary, ∀ a d s, ∃ o : Fmt → Arg → FpOutcome,
    exec (p.2 a d) s = finish s (arith1 p.1 o a d s) ∧ ∀ F, o F .nan = .nan := by
  simp only [unary, List.forall_mem_cons, List.not_mem_nil, false_imp_iff, implies_true, and_true]
  and_intros
  all_goals exact fun _ _ _ => ⟨_, rfl, fun _ => rfl⟩

theorem exec_scales_nan : ∀ p ∈ scales, ∀ x a d s, ∃ o : Fmt → Arg → FpOutcome,
    exec (p.2 x a d) s = finish s (arith1 p.1 o a d s) ∧ ∀ F, o F .nan = .nan := by
  simp only [scales, List.forall_mem_cons, List.not_mem_nil, false_imp_iff, implies_true, and_true]
  exact ⟨fun _ _ _ _ => ⟨_, rfl, fun _ => rfl⟩, fun _ _ _ _ => ⟨_, rfl, fun _ => rfl⟩⟩

section
variable {i : Instr} {f : Fmt} {d : FpDst} {s : State} {a b : FpSrc} {neg : Bool} {fr : BitVec 63}

theorem nan_of_arith1 {o : Fmt → Arg → FpOutcome} (h : exec i s = finish s (arith1 f o a d s))
    (ho : ∀ F, o F .nan = .nan) (hal : (a.fits f && d.fits f) = true) (hn : nanOf (fetch f s a) = some (neg, fr)) :
    (isSnan (fetch f s a) = false → StoresNan i f d neg fr s) ∧
      (isSnan (fetch f s a) = true → InvalidNan i f d neg fr s) := by
  have hu := usable_of_nan hn
  have harith : exec i s = finish s (arith (destFmt f d) d [fetch f s a] .nan s) := by
    rw [← ho (destFmt f d), ← toArg_nan hn]
    exact h.trans (congrArg (finish s) (if_pos hal))
  exact ⟨fun hs => storesNan_of harith (List.forall_mem_singleton.mpr ⟨hu.1, hu.2, hs⟩) (chosenNan_one hn),
    fun hs => invalidNan_of_signaling harith (List.forall_mem_singleton.mpr hu) ⟨_, List.mem_singleton_self _, hs⟩
      (chosenNan_one hn)⟩

/-! ### Two sources -/

theorem exec_arith2_aligned {o : Arg → Arg → FpOutcome} (h : exec i s = finish s (arith2 f o a b d s))
    (hal : (a.fits f && b.fits f && d.fits f) = true) : exec i s = finish s
      (arith (destFmt f d) d [fetch f s a, fetch f s b] (o (toArg (fetch f s a)) (toArg (fetch f s b))) s) :=
  h.trans (congrArg (finish s) (if_pos hal))

/-- The remainder of operands among which there is a NaN writes no arithmetic status (R286). -/
theorem ruleRem_nan (h : toArg (fetch f s a) = .nan ∨ toArg (fetch f s b) = .nan) :
    ruleRem f a b d s = arith2 f (remOutcome s.params.remIsIeee) a b d s := by
  have hst : remStatusOf s.params.remIsIeee (toArg (fetch f s a)) (toArg (fetch f s b)) = none := by
    unfold remStatusOf
    rcases h with h | h <;> rw [h] <;> split <;> simp_all [argValue]
  unfold ruleRem
  rw [hst]
  cases arith2 f (remOutcome s.params.remIsIeee) a b d s <;> rfl

variable (h : NanAmong f a b d neg fr s)
include h

theorem NanAmong.nan_or_nan : toArg (fetch f s a) = .nan ∨ toArg (fetch f s b) = .nan := by
  obtain ⟨-, -, -, hc⟩ := h
  exact hc.nan_or_nan

theorem exec_remainder_nan {p : Fmt × (FpSrc → FpSrc → FpDst → Instr)} (hp : p ∈ remainders) (hf : p.1 = f) :
    exec (p.2 a b d) s = finish s (arith2 f (remOutcome s.params.remIsIeee) a b d s) := by
  rw [exec_remainders p hp, hf, ruleRem_nan h.nan_or_nan]

theorem NanAmong.quiet (ha : isSnan (fetch f s a) = false) (hb : isSnan (fetch f s b) = false) :
    ∀ x ∈ [fetch f s a, fetch f s b], isQuiet s x := by
  obtain ⟨-, hua, hub, -⟩ := h
  exact List.forall_mem_cons.mpr ⟨⟨hua.1, hua.2, ha⟩, List.forall_mem_singleton.mpr ⟨hub.1, hub.2, hb⟩⟩

theorem NanAmong.storesNan {o : Arg → Arg → FpOutcome} (he : exec i s = finish s (arith2 f o a b d s))
    (ho : o (toArg (fetch f s a)) (toArg (fetch f s b)) = .nan)
    (ha : isSnan (fetch f s a) = false) (hb : isSnan (fetch f s b) = false) : StoresNan i f d neg fr s := by
  have hq := h.quiet ha hb
  obtain ⟨hal, -, -, hc⟩ := h
  have he := exec_arith2_aligned he hal
  rw [ho] at he
  exact storesNan_of he hq (chosenNan_two hc)

theorem NanAmong.invalidNan {o : Arg → Arg → FpOutcome} (he : exec i s = finish s (arith2 f o a b d s))
    (ho : o (toArg (fetch f s a)) (toArg (fetch f s b)) = .invalid)
    (ha : isSnan (fetch f s a) = false) (hb : isSnan (fetch f s b) = false) : InvalidNan i f d neg fr s := by
  have hq := h.quiet ha hb
  obtain ⟨hal, -, -, hc⟩ := h
  have he := exec_arith2_aligned he hal
  rw [ho] at he
  exact invalidNan_of_outcome he hq (chosenNan_two hc)

theorem NanAmong.signaling {o : Arg → Arg → FpOutcome} (he : exec i s = finish s (arith2 f o a b d s))
    (hs : isSnan (fetch f s a) = true ∨ isSnan (fetch f s b) = true) : InvalidNan i f d neg fr s := by
  obtain ⟨hal, hua, hub, hc⟩ := h
  refine invalidNan_of_signaling (exec_arith2_aligned he hal)
    (List.forall_mem_cons.mpr ⟨hua, List.forall_mem_singleton.mpr hub⟩) ?_ (chosenNan_two hc)
  rcases hs with hs | hs
  · exact ⟨_, List.mem_cons_self, hs⟩
  · exact ⟨_, List.mem_cons_of_mem _ (List.mem_singleton_self _), hs⟩

end

/-! ### The outcomes of the rules beside a NaN -/

theorem addOutcome_nan (m : RoundMode) (x : Arg) : addOutcome m x .nan = .nan := by cases x <;> rfl
theorem mulOutcome_nan (x : Arg) : mulOutcome x .nan = .nan := by cases x <;> rfl
theorem divOutcome_nan (x : Arg) : divOutcome x .nan = .nan := by cases x <;> rfl
theorem atanOutcome_nan (x : Arg) : atanOutcome x .nan = .nan := by cases x <;> rfl

/-- The basic operations and the arctangent have the outcome `nan` beside any NaN. -/
theorem exec_binary_nan : ∀ p ∈ binary.take 10, ∀ a b d s, ∃ o : Arg → Arg → FpOutcome,
    exec (p.2 a b d) s = finish s (arith2 p.1 o a b d s) ∧ ∀ x, o .nan x = .nan ∧ o x .nan = .nan := by
  simp only [binary, List.take_succ_cons, List.take_zero, List.forall_mem_cons, List.not_mem_nil, false_imp_iff,
    implies_true, and_true]
  have add (s : State) (x : Arg) : addOutcome (roundMode s) .nan x = .nan ∧ addOutcome (roundMode s) x .nan = .nan :=
    ⟨rfl, addOutcome_nan _ x⟩
  have sub (s : State) (x : Arg) : subOutcome (roundMode s) .nan x = .nan ∧ subOutcome (roundMode s) x .nan = .nan :=
    ⟨rfl, addOutcome_nan _ _⟩
  exact ⟨fun _ _ _ s => ⟨_, rfl, add s⟩, fun _ _ _ s => ⟨_, rfl, add s⟩, fun _ _ _ s => ⟨_, rfl, sub s⟩,
    fun _ _ _ s => ⟨_, rfl, sub s⟩, fun _ _ _ _ => ⟨_, rfl, fun x => ⟨rfl, mulOutcome_nan x⟩⟩,
    fun _ _ _ _ => ⟨_, rfl, fun x => ⟨rfl, mulOutcome_nan x⟩⟩, fun _ _ _ _ => ⟨_, rfl, fun x => ⟨rfl, divOutcome_nan x⟩⟩,
    fun _ _ _ _ => ⟨_, rfl, fun x => ⟨rfl, divOutcome_nan x⟩⟩, fun _ _ _ _ => ⟨_, rfl, fun x => ⟨rfl, atanOutcome_nan x⟩⟩,
    fun _ _ _ _ => ⟨_, rfl, fun x => ⟨rfl, atanOutcome_nan x⟩⟩⟩

/-- The remainder beside a NaN is a NaN but for a zero divisor and an infinite dividend (R286). -/
theorem remOutcome_nan {ieee : Bool} {y x : Arg} (h : y = .nan ∨ x = .nan) (hy : ∀ z, y ≠ .zero z)
    (hx : ∀ z, x ≠ .inf z) : remOutcome ieee y x = .nan := by
  cases y with
  | zero z => exact absurd rfl (hy z)
  | nan =>
    cases x with
    | inf z => exact absurd rfl (hx z)
    | _ => rfl
  | num w => rw [h.resolve_left (by simp)]; rfl
  | inf q => rw [h.resolve_left (by simp)]; rfl

theorem logOutcome_nan {x y : Arg} (h : x = .nan ∨ y = .nan) (hi : x ≠ .inf true)
    (hv : ∀ v, x = .num v → 0 ≤ v) : logOutcome x y = .nan := by
  rcases h with rfl | rfl
  · rfl
  · cases x with
    | num v => exact if_neg (hv v rfl).not_gt
    | inf p =>
      cases p with
      | false => rfl
      | true => exact absurd rfl hi
    | zero p => rfl
    | nan => rfl

theorem logepOutcome_nan {x y : Arg} (h : x = .nan ∨ y = .nan) (hi : x ≠ .inf true)
    (hv : ∀ v, x = .num v → -1 ≤ v) : logepOutcome x y = .nan := by
  rcases h with rfl | rfl
  · rfl
  · cases x with
    | num v => exact if_neg (hv v rfl).not_gt
    | inf p =>
      cases p with
      | false => rfl
      | true => exact absurd rfl hi
    | zero p => rfl
    | nan => rfl

/-- The logarithms are invalid below their domain, and else a NaN beside a NaN (R358, R362). -/
theorem exec_logs_nan : ∀ q ∈ [(Fmt.real, Instr.logr, (0 : Rat)), (.long, .logrl, 0), (.real, .logepr, -1),
      (.long, .logeprl, -1)], ∃ o : Arg → Arg → FpOutcome,
    (∀ a b d s, exec (q.2.1 a b d) s = finish s (arith2 q.1 o a b d s)) ∧
    (∀ x y, (x = .inf true ∨ ∃ v, v < q.2.2 ∧ x = .num v) → o x y = .invalid) ∧
    (∀ x y, x = .nan ∨ y = .nan → x ≠ .inf true → (∀ v, x = .num v → q.2.2 ≤ v) → o x y = .nan) := by
  simp only [List.forall_mem_cons, List.not_mem_nil, false_imp_iff, implies_true, and_true]
  exact ⟨⟨logOutcome, fun _ _ _ _ => rfl, fun _ y h => logOutcome_below h y, fun _ _ => logOutcome_nan⟩,
    ⟨logOutcome, fun _ _ _ _ => rfl, fun _ y h => logOutcome_below h y, fun _ _ => logOutcome_nan⟩,
    ⟨logepOutcome, fun _ _ _ _ => rfl, fun _ y h => logepOutcome_below h y, fun _ _ => logepOutcome_nan⟩,
    ⟨logepOutcome, fun _ _ _ _ => rfl, fun _ y h => logepOutcome_below h y, fun _ _ => logepOutcome_nan⟩⟩

/-! ### What the argument of a rule says of the operand -/

theorem toArg_inf_iff {x : FVal} {p : Bool} : toArg x = .inf p ↔ x = .inf p := by cases x <;> simp [toArg]

theorem toArg_zero_iff {x : FVal} {p : Bool} : toArg x = .zero p ↔ x = .zero p := by cases x <;> simp [toArg]

theorem number_of_toArg {f : Fmt} {s : State} {a : FpSrc} {v : Rat} (hu : Usable f s a)
    (h : toArg (fetch f s a) = .num v) : Number f s a v := by
  obtain ⟨-, hr⟩ := hu
  unfold Number
  cases hf : fetch f s a <;> rw [hf] at h hr <;> cases h
  · exact .inr ⟨by simpa [isReservedOperand] using hr, _, rfl⟩
  · exact .inl ⟨_, rfl⟩

end Sys2Proof.Claims

namespace Sys2Proof.Proofs
open Sys2Proof.Machine Sys2Proof.Claims

/-- Settles O48: the outcome of each rule beside a NaN, and the NaN that the store of it chooses. -/
theorem nanOperands : Obligations.NanOperands := by
  unfold Obligations.NanOperands
  refine fun s a b d x => ⟨fun i f neg fr hi hal hn => ?_, fun neg fr => ⟨fun p hp h hs => ?_,
    fun p hp h ha hb => ?_, fun p hp h ha hb => ⟨fun hinv => ?_, fun hz hi => ?_⟩,
    fun q hq h ha hb => ?_⟩⟩
  · rcases hi with ⟨p, hp, rfl, rfl⟩ | ⟨p, hp, rfl, rfl⟩
    · obtain ⟨o, he, ho⟩ := exec_unary_nan p hp a d s
      exact nan_of_arith1 he ho hal hn
    · obtain ⟨o, he, ho⟩ := exec_scales_nan p hp x a d s
      exact nan_of_arith1 he ho hal hn
  · rcases List.mem_append.mp hp with hp | hp
    · obtain ⟨o, he⟩ := exec_binary p hp a b d s
      exact h.signaling he hs
    · exact h.signaling (exec_remainder_nan h hp rfl) hs
  · obtain ⟨o, he, ho⟩ := exec_binary_nan p hp a b d s
    refine h.storesNan he ?_ ha hb
    rcases h.nan_or_nan with hn | hn <;> rw [hn]
    · exact (ho _).1
    · exact (ho _).2
  · refine h.invalidNan (exec_remainder_nan h hp rfl) ?_ ha hb
    rcases hinv with ⟨z, hz⟩ | ⟨z, hz⟩ <;> rw [hz]
    · rfl
    · exact remOutcome_inf _ _ z
  · exact h.storesNan (exec_remainder_nan h hp rfl)
      (remOutcome_nan h.nan_or_nan (fun z hy => hz z (toArg_zero_iff.mp hy)) fun z hx => hi z (toArg_inf_iff.mp hx)) ha hb
  · obtain ⟨o, he, hbelow, hnan⟩ := exec_logs_nan q hq
    refine ⟨fun hx => h.invalidNan (he a b d s) (hbelow _ _ ?_) ha hb, fun hi hv =>
      h.storesNan (he a b d s) (hnan _ _ h.nan_or_nan (fun hx => hi (toArg_inf_iff.mp hx)) fun v hx =>
        hv v (number_of_toArg h.2.1 hx)) ha hb⟩
    rcases hx with hx | ⟨v, hlt, hx⟩
    · exact .inl (toArg_inf_iff.mpr hx)
    · exact .inr ⟨v, hlt, hx.operand.arg⟩

end Sys2Proof.Proofs
end

section
/-! PROOFS. Moves, conversions of integers, and classification (R232 to R239, R249 to R251, R318 to R320). -/
namespace Sys2Proof.Claims
open Sys2Proof.Machine

/-! ### Results in range -/

/-- A number whose exponent lies below the largest of the format and not below its least is in range (R180). -/
theorem inRange_of_exponent {f : Fmt} {d : FpDst} {s : State} {e : Rat} (he : e ≠ 0)
    (hlo : eMin (destFmt f d) ≤ floorLog2 e) (hhi : floorLog2 e < eMax (destFmt f d)) : InRange f d s e := by
  obtain ⟨h1, h2, -⟩ := roundP_bounds (roundMode s) he (p := precision (destFmt f d)) (Nat.succ_pos _)
  have htop : pow2 (floorLog2 e + 1) ≤ pow2 (eMax (destFmt f d)) := pow2_le.mpr hhi
  refine ⟨he, (pow2_le.mpr hlo).trans h1, fun ho => ?_⟩
  unfold Overflow at ho
  split at ho
  · exact absurd (pow2_le.mp ((ho.trans h2).trans htop)) (by omega)
  · rw [largest_eq] at ho
    exact absurd (((floorLog2_spec he).2.trans_le htop).trans_le (maxFinite_bounds _).1) ho.not_gt

theorem inRange_int {f : Fmt} {d : FpDst} {s : State} {n : Int} (hn : n ≠ 0) (h : |n| ≤ 2 ^ 63) :
    InRange f d s (n : Rat) := by
  have hne : (n : Rat) ≠ 0 := by exact_mod_cast hn
  have hmin : eMin (destFmt f d) ≤ 0 := by cases destFmt f d <;> decide
  have hmax : 64 < eMax (destFmt f d) := by cases destFmt f d <;> decide
  have h0 : (0 : Int) ≤ floorLog2 (n : Rat) := by
    rw [le_floorLog2_iff hne, pow2_zero]
    exact_mod_cast Int.one_le_abs hn
  have h64 : floorLog2 (n : Rat) < 64 := by
    rw [floorLog2_le_iff hne, show pow2 64 = ((2 ^ 64 : Int) : Rat) by rw [pow2_eq]; norm_num]
    exact_mod_cast h.trans_lt (by norm_num)
  exact inRange_of_exponent hne (by omega) (by omega)

/-! ### `movr` and `movrl` (R232, R233) -/

section
variable {s : State} {a b : FpSrc} {d : FpDst} {x : Arg}

theorem comes_move : ∀ p ∈ [(Fmt.real, Instr.movr), (.long, .movrl)],
    (a.fits p.1 && d.fits p.1) = true → Operand p.1 s a x →
    Comes (p.2 a d) p.1 d none (moveOutcome (destFmt p.1 d) x) s := by
  simp only [List.forall_mem_cons, List.not_mem_nil, false_imp_iff, implies_true, and_true]
  exact ⟨comes_arith1 rfl, comes_arith1 rfl⟩

/-! ### `movre`, `cpysre` and `cpyrsre` (R236 to R239) -/

/-- The 80 bits stored in the destination are what it holds, the upper half of a third register being zero (D13). -/
theorem stores_bits80 {i : Instr} {bits : Ext} (h : exec i s = finish s (.ok (storeDone .ext d bits s))) :
    ∃ u, exec i s = .next (ended s.ip u) ∧ bits80 u (FpDst.asSrc d) = bits ∧ UpperZero d u ∧ u.ac = s.ac ∧
      FpKept .ext d s u := by
  have hd : destFmt .ext d = .ext := by cases d <;> rfl
  have hbits : bits80 (storeFp .ext d bits s) (FpDst.asSrc d) = bits := by
    cases d with
    | fpr k => exact (getFp_setFp s k k bits).trans (if_pos rfl)
    | reg n => exact getRegExt_storeFp bits s n
  have hupper : UpperZero d (storeFp .ext d bits s) := by
    rintro n rfl
    change (getReg (setReg _ (n + 2#5) _) (n + 2#5)).extractLsb' 16 16 = _
    rw [getReg_setReg_same]
    apply BitVec.eq_of_getLsbD_eq
    intro k hk
    simp [BitVec.getLsbD_extractLsb', BitVec.getLsbD_setWidth]
  have hu : storedFp .ext d bits s = { storeFp .ext d bits s with ip := (storeFp .ext d bits s).ip + 4#32 } := by
    unfold storedFp
    rw [hd]
  refine ⟨storedFp .ext d bits s, ?_, ?_, ?_, storedFp_ac _ _ _ _, fpKept_storedFp _ _ _ (Flagged.refl s)⟩
  · rw [h, hu]
    rfl
  · rw [hu]
    cases d <;> exact hbits
  · rw [hu]
    exact hupper

theorem exec_movre (hal : (a.fits .ext && d.fits .ext) = true) :
    exec (.movre a d) s = finish s (.ok (storeDone .ext d (bits80 s a) s)) :=
  congrArg (finish s) (if_pos hal)

theorem exec_cpysre (hal : (a.fits .ext && b.fits .ext && d.fits .ext) = true) : exec (.cpysre a b d) s =
    finish s (.ok (storeDone .ext d (withSign ((bits80 s b).getLsbD 79) (bits80 s a)) s)) :=
  congrArg (finish s) (if_pos hal)

theorem exec_cpyrsre (hal : (a.fits .ext && b.fits .ext && d.fits .ext) = true) : exec (.cpyrsre a b d) s =
    finish s (.ok (storeDone .ext d (withSign (!(bits80 s b).getLsbD 79) (bits80 s a)) s)) :=
  congrArg (finish s) (if_pos hal)

theorem getLsbD_withSign (neg : Bool) (x : Ext) {k : Nat} (hk : k < 79) : (withSign neg x).getLsbD k = x.getLsbD k := by
  unfold withSign
  rw [BitVec.getLsbD_append, BitVec.getLsbD_extractLsb']
  simp [hk]

theorem getLsbD_withSign_sign (neg : Bool) (x : Ext) : (withSign neg x).getLsbD 79 = neg := by
  unfold withSign
  rw [BitVec.getLsbD_append]
  simp

end

/-! ### Conversions of integers (R250, R251) -/

theorem comes_integer {i : Instr} {f : Fmt} {d : FpDst} {s : State} {n : Int}
    (h : exec i s = finish s (.ok (storeOutcome (destFmt f d) d [] (integerOutcome n) s))) :
    Comes i f d none (integerOutcome n) s :=
  ⟨[], List.forall_mem_nil _, h⟩

theorem integerOutcome_value {n : Int} (h : n ≠ 0) : integerOutcome n = .value n := if_neg h

theorem exec_cvtilr {x : Src} {d : FpDst} {s : State} (hal : (x.isEven && d.fits .long) = true) :
    exec (.cvtilr x d) s =
      finish s (.ok (storeOutcome (destFmt .long d) d [] (integerOutcome (Machine.longInteger s x)) s)) :=
  congrArg (finish s) (if_pos hal)

theorem toInt_abs_le {w : Nat} (hw : 0 < w) (hle : w ≤ 64) (v : BitVec w) : |v.toInt| ≤ 2 ^ 63 := by
  have h1 := BitVec.le_toInt v
  have h2 := BitVec.toInt_lt (x := v)
  have h3 : (2 : Int) ^ (w - 1) ≤ 2 ^ 63 := by exact_mod_cast Nat.pow_le_pow_right (by decide) (by omega : w - 1 ≤ 63)
  rw [abs_le]
  constructor <;> linarith

/-- An integer that is converted, with the rule it goes by (R250, R251). -/
theorem comes_convert {s : State} {x : Src} {d : FpDst} {n : Int} {i : Instr} {f : Fmt}
    (h : (i = .cvtir x d ∧ f = .real ∧ n = (srcValue s x).toInt) ∨
      (i = .cvtilr x d ∧ f = .long ∧ (x.isEven && d.fits .long) = true ∧
        ((∃ r, x = .reg r ∧ n = (getReg s (r + 1#5) ++ getReg s r).toInt) ∨ (∃ l, x = .lit l ∧ n = l.toNat)))) :
    Comes i f d none (integerOutcome n) s ∧ |n| ≤ 2 ^ 63 := by
  rcases h with ⟨rfl, rfl, rfl⟩ | ⟨rfl, rfl, hal, ⟨r, rfl, rfl⟩ | ⟨l, rfl, rfl⟩⟩
  · exact ⟨comes_integer rfl, toInt_abs_le (by decide) (by decide) _⟩
  · exact ⟨comes_integer (exec_cvtilr hal), toInt_abs_le (by decide) (by decide) _⟩
  · refine ⟨comes_integer (exec_cvtilr hal), ?_⟩
    have := l.isLt
    rw [abs_of_nonneg (by positivity)]
    omega

/-! ### Classification (R318 to R320) -/

/-- The sign of a value, where its pattern shows it. -/
def signOf (x : FVal) : Option Bool :=
  match x with
  | .zero neg => some neg
  | .denorm neg _ => some neg
  | .norm neg _ => some neg
  | .inf neg => some neg
  | .snan neg _ => some neg
  | .qnan neg _ => some neg
  | .reserved | .unnamed _ => none

theorem signOf_classify {f : Fmt} {neg : Bool} {e : Nat} {j : Bool} {frac : Nat} {n : Bool}
    (h : signOf (classify f neg e j frac) = some n) : neg = n := by
  unfold classify at h
  dsimp only at h
  split_ifs at h <;> simp only [signOf, Option.some.injEq, reduceCtorEq] at h <;> exact h

/-- The sign that a fetch shows is the sign bit of the operand's pattern (R166, R318). -/
theorem signBit_eq {f : Fmt} {s : State} {a : FpSrc} {n : Bool} (h : signOf (fetch f s a) = some n) :
    signBit f s a = n := by
  cases a with
  | reg r => cases f <;> exact signOf_classify h
  | fpr k => exact signOf_classify h
  | zero => exact Option.some.inj h
  | one => exact Option.some.inj h

theorem acAs_of {u : State} {ac : Word} {x : BitVec 4} (h : u.ac = setField ac 3 4 x) : acAs u = x := by
  refine extractLsb'_of_bits fun i hi => ?_
  rw [h, getBit_setField, if_pos (by omega)]
  congr 1
  omega

/-- A classification writes the sign bit and the code of the class, which is free for the pattern without a meaning
(R319). -/
theorem finish_ruleClass {f : Fmt} {s : State} {a : FpSrc} (hal : a.fits f = true) :
    ∃ (u : State) (c : BitVec 3), finish s (ruleClass f a s) = .next (ended s.ip u) ∧
      u.ac = setField s.ac 3 4 (BitVec.ofBool (signBit f s a) ++ c) ∧
      (∀ k, classCode s.params.classCodes (fetch f s a) = some k → c = k) ∧
      u.ip = s.ip + 4#32 ∧ SameControls s u ∧ Kept nothing nothing nothing s u := by
  unfold ruleClass
  rw [hal]
  cases classCode s.params.classCodes (fetch f s a) with
  | some c =>
    exact ⟨_, c, finish_next4 s _, rfl, fun k h => Option.some.inj h, rfl, ⟨rfl, rfl⟩,
      (kept_withAc s _).trans (kept_withIp _ _)⟩
  | none =>
    exact ⟨_, _, finish_next4 s _, rfl, (fun k h => nomatch h), rfl, ⟨rfl, rfl⟩,
      ((kept_withAc s _).trans (kept_drawn _ 1)).trans (kept_withIp _ _)⟩

theorem exec_class {s : State} {a : FpSrc} {f : Fmt} {i : Instr}
    (h : (i = .classr a ∧ f = .real) ∨ (i = .classrl a ∧ f = .long ∧ a.fits .long = true)) :
    exec i s = finish s (ruleClass f a s) ∧ a.fits f = true := by
  rcases h with ⟨rfl, rfl⟩ | ⟨rfl, rfl, hal⟩
  · exact ⟨rfl, by cases a <;> rfl⟩
  · exact ⟨rfl, hal⟩

theorem getRegLong_sign (s : State) (n : Reg) : (getRegLong s n).getLsbD 63 = getBit (getReg s (n + 1#5)) 31 := by
  unfold getRegLong getBit
  rw [BitVec.getLsbD_append]
  simp

end Sys2Proof.Claims

namespace Sys2Proof.Proofs
open Sys2Proof.Machine Sys2Proof.Claims

/-- Settles O45: the short moves deliver their operand, and the 80-bit moves store a pattern. -/
theorem realMoves : Obligations.RealMoves := by
  unfold Obligations.RealMoves
  refine ⟨fun s a d p hp hal => ⟨fun v ha hr hq => ?_, fun neg ha => ?_, fun neg ha => ?_⟩,
    fun s a b d hal => ⟨stores_bits80 (exec_movre hal), fun hb => ?_⟩⟩
  · exact (comes_move p hp hal ha.operand).stored hr hq
  · exact (comes_move p hp hal (operand_zero ha)).zero
  · exact (comes_move p hp hal (operand_inf ha)).inf
  · have hal3 : (a.fits .ext && b.fits .ext && d.fits .ext) = true := by
      rw [Bool.and_eq_true] at hal
      rw [hal.1, hb, hal.2]
      rfl
    obtain ⟨u, hu, hbits, hrest⟩ := stores_bits80 (exec_cpysre (s := s) hal3)
    obtain ⟨t, ht, tbits, trest⟩ := stores_bits80 (exec_cpyrsre (s := s) hal3)
    exact ⟨⟨u, hu, fun k hk => hbits ▸ getLsbD_withSign _ _ hk, hbits ▸ getLsbD_withSign_sign _ _, hrest⟩,
      ⟨t, ht, fun k hk => tbits ▸ getLsbD_withSign _ _ hk, tbits ▸ getLsbD_withSign_sign _ _, trest⟩⟩

/-- Settles O54: the integer is delivered, and it lies in the range of every format. -/
theorem integerToReal : Obligations.IntegerToReal := by
  unfold Obligations.IntegerToReal
  intro s x d n i f h
  obtain ⟨hc, hn⟩ := comes_convert h
  constructor
  · rintro rfl
    exact hc.zero
  · intro h0
    rw [integerOutcome_value h0] at hc
    exact hc.endsRounded (inRange_int h0 hn)

/-- Settles O57: the sign bit is that of the pattern, and the code that of the class. -/
theorem classification : Obligations.Classification := by
  unfold Obligations.Classification
  intro s a f i hi
  obtain ⟨hexec, hal⟩ := exec_class (s := s) hi
  obtain ⟨u, c, hu, hac, hcode, hip, hctl, hkept⟩ := finish_ruleClass (s := s) hal
  have has := acAs_of hac
  have shown {n : Bool} {k : BitVec 3} (hs : signOf (fetch f s a) = some n)
      (hk : classCode s.params.classCodes (fetch f s a) = some k) : acAs u = BitVec.ofBool n ++ k := by
    rw [has, signBit_eq hs, hcode k hk]
  have hsign : getBit u.ac 6 = signBit f s a := by
    rw [hac, getBit_setField, if_pos (by decide), BitVec.getLsbD_append]
    simp
  refine ⟨rfl, u, hexec.trans hu, hip, hctl, hkept, fun k hk => ?_, fun n h => ?_, fun n v h => ?_, fun n v h => ?_,
    fun n h => ?_, fun n x h => ?_, fun n x h => ?_, fun h => ?_, ?_, ?_⟩
  · rw [hac, getBit_setField, if_neg (by omega)]
  · exact shown (by rw [h]; rfl) (by rw [h]; rfl)
  · exact shown (by rw [h]; rfl) (by rw [h]; rfl)
  · exact shown (by rw [h]; rfl) (by rw [h]; rfl)
  · exact shown (by rw [h]; rfl) (by rw [h]; rfl)
  · exact shown (by rw [h]; rfl) (by rw [h]; rfl)
  · exact shown (by rw [h]; rfl) (by rw [h]; rfl)
  · rw [has, hcode _ (by rw [h]; rfl)]
    apply BitVec.eq_of_getLsbD_eq
    intro k hk
    rw [BitVec.getLsbD_setWidth, BitVec.getLsbD_append]
    simp [hk]
  · rintro n rfl
    rw [hsign]
    rcases hi with ⟨-, rfl⟩ | ⟨-, rfl, -⟩
    · rfl
    · exact getRegLong_sign s n
  · rintro k rfl
    exact hsign

end Sys2Proof.Proofs
end

section
/-! PROOFS. Conversions of reals to integers (R252 to R256). -/
namespace Sys2Proof.Claims
open Sys2Proof.Machine

/-! ### Rounding to an integer -/

theorem RoundedOn.roundsTo {m : RoundMode} {v : Rat} {n : Int} (h : RoundedOn m v 1 n) : RoundsTo m v n := by
  obtain ⟨near, up, down, zero, nearest⟩ := h
  rw [one_mul] at near up down zero nearest
  exact ⟨near, up, down, zero, nearest⟩

/-- Rounding to the grid of 1 gives the integer that the rule describes (R179). -/
theorem roundGrid_one (m : RoundMode) (v : Rat) :
    ∃ n : Int, roundGrid m v 1 = n ∧ RoundedOn m v 1 n := by
  obtain ⟨n, hn, h⟩ := roundGrid_roundedOn m v one_pos
  exact ⟨n, hn.trans (one_mul _), h⟩

/-! ### The integer in the destination -/

/-- The destination holds the integer `n` in two's complement of `w` bits (R252). -/
def IntegerAt (w : Nat) (n : Int) (u : State) (d : Reg) : Prop :=
  if w = 32 then getReg u d = BitVec.ofInt 32 n else getReg u (d + 1#5) ++ getReg u d = BitVec.ofInt 64 n

/-- The integer lies in the range of `w` bits. -/
def Fits (w : Nat) (n : Int) : Prop := -(2 ^ (w - 1)) ≤ n ∧ n < 2 ^ (w - 1)

theorem low_ofInt (n : Int) : (BitVec.ofInt 64 n).extractLsb' 0 32 = BitVec.ofInt 32 n := by
  apply BitVec.eq_of_toNat_eq
  rw [BitVec.extractLsb'_toNat, BitVec.toNat_ofInt, BitVec.toNat_ofInt, Nat.shiftRight_zero]
  omega

theorem low_setWidth_ofInt (n : Int) : ((BitVec.ofInt 32 n).setWidth 64).extractLsb' 0 32 = BitVec.ofInt 32 n := by
  apply BitVec.eq_of_toNat_eq
  rw [BitVec.extractLsb'_toNat, BitVec.toNat_setWidth, Nat.shiftRight_zero]
  have := (BitVec.ofInt 32 n).isLt
  omega

section
variable (wide : Bool) (d : Reg) (s : State)

theorem getReg_setInteger_wide (v : BitVec 64) :
    getReg (setInteger true d v s) (d + 1#5) ++ getReg (setInteger true d v s) d = v := by
  unfold setInteger
  rw [if_pos rfl, getReg_setRegLong, getReg_setRegLong, if_pos rfl, if_neg (reg_succ_ne d).symm, if_pos rfl]
  apply BitVec.eq_of_getLsbD_eq
  intro k hk
  simp only [BitVec.getLsbD_append, BitVec.getLsbD_extractLsb']
  by_cases h32 : k < 32
  · simp [h32]
  · simp [h32, show k - 32 < 32 by omega, show 32 + (k - 32) = k by omega]

theorem getReg_setInteger_short (v : BitVec 64) : getReg (setInteger false d v s) d = v.extractLsb' 0 32 :=
  getReg_setReg_same s d _

theorem integerAt_setInteger (n : Int) :
    IntegerAt (intWidth wide) n (setInteger wide d (BitVec.ofInt 64 n) s) d := by
  cases wide with
  | false => exact (getReg_setInteger_short d s _).trans (low_ofInt n)
  | true => exact getReg_setInteger_wide d s _

/-- By default the low bits of an integer that does not fit are stored (R256, D25). -/
theorem integerAt_overflow {p : Params} (hp : p.intOverflow = .lowBits) (n : Int) :
    IntegerAt (intWidth wide) n (setInteger wide d (intOverflowResult p wide n) s) d := by
  unfold intOverflowResult
  rw [hp]
  cases wide with
  | false => exact (getReg_setInteger_short d s _).trans (low_setWidth_ofInt n)
  | true => exact (getReg_setInteger_wide d s _).trans (BitVec.setWidth_eq _)

theorem setInteger_ac (v : BitVec 64) : (setInteger wide d v s).ac = s.ac := by
  cases wide <;> simp [setInteger, setRegLong]

end

/-! ### What a conversion leaves -/

theorem isCvtFlag_iof : isCvtFlag iofBit := .inr (.inr rfl)
theorem isCvtFlag_fxf : isCvtFlag fxfBit := .inr (.inl rfl)
theorem isCvtFlag_fvf : isCvtFlag fvfBit := .inl rfl

theorem getBit_setAcFlag_ac {t : State} {ac : Word} (h : t.ac = ac) {i : Nat} (hi : i < 32) (k : Nat) :
    getBit (advance (setAcFlag t i)).ac k = (getBit ac k || k == i) := by
  change getBit (setBit t.ac i true) k = _
  rw [getBit_setBit, h]
  by_cases hk : k = i
  · rw [if_pos ⟨hk, by omega⟩]; simp [hk]
  · simp [hk]

section
variable {wide : Bool} {d : Reg} {s : State} {i : Instr}

/-- What a conversion leaves of the state when IP has gone on. -/
theorem Converted.frame {t : State} (h : Converted wide d s t) :
    (advance t).ip = s.ip + 4#32 ∧ SameControls s (advance t) ∧
      Kept (if intWidth wide = 32 then only d else pairOf d) nothing nothing s (advance t) := by
  have hregs : inInteger wide d = if intWidth wide = 32 then only d else pairOf d := by cases wide <;> rfl
  rw [← hregs]
  exact ⟨congrArg (· + 4#32) h.ip, h.controls, h.kept.trans (kept_withIp t _)⟩

theorem converted_refl (wide : Bool) (d : Reg) (s : State) : Converted wide d s s :=
  ⟨SetsOnly.refl _ s, rfl, ⟨rfl, rfl⟩, kept_withAc s s.ac⟩

/-- An integer overflow: a result is stored, the low bits of a finite integer by default; then the flag or the fault
(R256). -/
theorem intOverflow_ends {x : Option Int} (h : exec i s = finish s (.ok (intOverflow wide d x s))) :
    ∃ t, Converted wide d s t ∧ IntegerOverflows i s (advance t) ∧
      ∀ n, x = some n → s.params.intOverflow = .lowBits → IntegerAt (intWidth wide) n t d := by
  obtain ⟨t, ht, hac, hat, hdef⟩ : ∃ t, Converted wide d s t ∧ t.ac = s.ac ∧
      (∀ n, x = some n → s.params.intOverflow = .lowBits → IntegerAt (intWidth wide) n t d) ∧
      intOverflow wide d x s = if acBit s iomBit = true then next4 (setAcFlag t iofBit)
        else .late (advance t) (integerOverflowFault s) := by
    cases x with
    | none => exact ⟨_, (converted_setInteger ..).drawn 2, setInteger_ac wide d s _, (fun n hn => nomatch hn), rfl⟩
    | some n =>
      refine ⟨_, converted_setInteger .., setInteger_ac wide d s _, fun k hk hp => ?_, rfl⟩
      cases hk
      exact integerAt_overflow wide d s hp n
  rw [hdef] at h
  by_cases hm : acBit s iomBit = true
  · rw [if_pos hm] at h
    refine ⟨setAcFlag t iofBit, ht.setAcFlag isCvtFlag_iof, ⟨fun _ => ⟨h, ?_⟩, fun hf => ?_⟩, hat⟩
    · exact getBit_setAcFlag_ac hac (by decide)
    · rw [hm] at hf
      cases hf
  · rw [if_neg hm] at h
    exact ⟨t, ht, ⟨fun hf => absurd hf hm, fun _ => ⟨h, hac⟩⟩, hat⟩

/-- An integer that fits is stored, and a changed one is inexact (R252, R205). -/
theorem convertNumber_fits {v : Rat} {n : Int} (hf : Fits (intWidth wide) n)
    (h : exec i s = finish s (.ok (convertNumber wide d v n s))) :
    ∃ t, Converted wide d s t ∧ IntegerAt (intWidth wide) n t d ∧
      EndsInexact i s s.ac (advance t) ((n : Rat) ≠ v) := by
  set t := setInteger wide d (BitVec.ofInt 64 n) s with ht
  have hc : Converted wide d s t := converted_setInteger ..
  have hat : IntegerAt (intWidth wide) n t d := integerAt_setInteger wide d s n
  have hac : t.ac = s.ac := setInteger_ac wide d s _
  have hdef : convertNumber wide d v n s = if v = n then next4 t else
      if acBit s fxmBit = true then next4 (setAcFlag t fxfBit) else .late (advance t) (floatingFault subInexact s) := by
    refine if_pos ?_
    obtain ⟨h1, h2⟩ := hf
    push_cast
    exact ⟨h1, by omega⟩
  rw [hdef] at h
  by_cases hv : v = n
  · rw [if_pos hv] at h
    exact ⟨t, hc, hat, fun _ => ⟨h, hac⟩, fun hn => absurd hv.symm hn, fun hn => absurd hv.symm hn⟩
  · rw [if_neg hv] at h
    by_cases hm : acBit s fxmBit = true
    · rw [if_pos hm] at h
      refine ⟨setAcFlag t fxfBit, hc.setAcFlag isCvtFlag_fxf, hat, fun hn => absurd (Ne.symm hv) hn,
        fun _ _ => ⟨h, getBit_setAcFlag_ac hac (by decide)⟩, fun _ hf => ?_⟩
      rw [hm] at hf
      cases hf
    · rw [if_neg hm] at h
      exact ⟨t, hc, hat, fun hn => absurd (Ne.symm hv) hn, fun _ hf => absurd hf hm, fun _ _ => ⟨h, hac⟩⟩

theorem convertNumber_overflow {v : Rat} {n : Int} (hf : ¬ Fits (intWidth wide) n) :
    convertNumber wide d v n s = intOverflow wide d (some n) s := by
  refine if_neg fun h => hf ?_
  obtain ⟨h1, h2⟩ := h
  push_cast at h1 h2
  exact ⟨h1, by omega⟩

/-- A number: the integer selected by the rounding mode is stored if it fits, and else the overflow is signaled. -/
theorem number_ends {m : RoundMode} {v : Rat}
    (h : exec i s = finish s (.ok (convertNumber wide d v (roundGrid m v 1).floor s))) :
    ∃ (t : State) (n : Int), Converted wide d s t ∧ RoundsTo m v n ∧
      (Fits (intWidth wide) n ∨ s.params.intOverflow = .lowBits → IntegerAt (intWidth wide) n t d) ∧
      (Fits (intWidth wide) n → EndsInexact i s s.ac (advance t) ((n : Rat) ≠ v)) ∧
      (¬ Fits (intWidth wide) n → IntegerOverflows i s (advance t)) := by
  obtain ⟨n, hn, hr⟩ := roundGrid_one m v
  rw [hn, show ((n : Rat)).floor = n from Rat.floor_intCast n] at h
  by_cases hf : Fits (intWidth wide) n
  · obtain ⟨t, hc, hat, hends⟩ := convertNumber_fits hf h
    exact ⟨t, n, hc, hr.roundsTo, fun _ => hat, fun _ => hends, fun hn => absurd hf hn⟩
  · rw [convertNumber_overflow hf] at h
    obtain ⟨t, hc, hov, hat⟩ := intOverflow_ends h
    exact ⟨t, n, hc, hr.roundsTo, fun hl => hat n rfl (hl.resolve_left hf), fun h => absurd h hf, fun _ => hov⟩

/-- A NaN: the most negative integer and the flag, or the fault (R197). -/
theorem nan_ends (h : exec i s = finish s (.ok (if acBit s fvmBit = true then
      next4 (setAcFlag (setInteger wide d (minInteger wide) s) fvfBit) else .early (floatingFault subInvalid s)))) :
    ∃ t, Converted wide d s t ∧
      (acBit s fvmBit = true → exec i s = .next (ended s.ip (advance t)) ∧
        (if intWidth wide = 32 then getReg (advance t) d = 0x80000000#32
          else getReg (advance t) (d + 1#5) ++ getReg (advance t) d = 0x8000000000000000#64) ∧
        ∀ k, getBit (advance t).ac k = (getBit s.ac k || k == fvfBit)) ∧
      (acBit s fvmBit = false → exec i s = faultsWith (floating 0x04 s) s) := by
  by_cases hm : acBit s fvmBit = true
  · rw [if_pos hm] at h
    refine ⟨_, (converted_setInteger ..).setAcFlag isCvtFlag_fvf, fun _ => ⟨h, ?_,
      getBit_setAcFlag_ac (setInteger_ac wide d s _) (by decide)⟩, fun hf => ?_⟩
    · cases wide with
      | false => exact getReg_setInteger_short d s _
      | true => exact getReg_setInteger_wide d s _
    · rw [hm] at hf
      cases hf
  · rw [if_neg hm] at h
    exact ⟨s, converted_refl wide d s, fun hf => absurd hf hm, fun _ => h⟩

/-- A zero gives zero (R252). -/
theorem zero_ends (h : exec i s = finish s (.ok (next4 (setInteger wide d 0#64 s)))) :
    ∃ t, Converted wide d s t ∧ exec i s = .next (ended s.ip (advance t)) ∧ (advance t).ac = s.ac ∧
      getReg (advance t) d = 0#32 ∧ (intWidth wide = 64 → getReg (advance t) (d + 1#5) = 0#32) := by
  refine ⟨_, converted_setInteger .., h, setInteger_ac wide d s _, ?_, fun hw => ?_⟩
  · cases wide with
    | false => exact getReg_setInteger_short d s _
    | true => exact (getReg_setRegLong s d d _).trans ((if_neg (reg_succ_ne d).symm).trans (if_pos rfl))
  · cases wide with
    | false => cases hw
    | true => exact (getReg_setRegLong s d _ _).trans (if_pos rfl)

end

/-- The four conversions, their width and rounding mode (R252 to R255). -/
theorem exec_conversion {s : State} {a : FpSrc} {d : Reg} {i : Instr} {w : Nat} {m : RoundMode}
    (h : (i = .cvtri a d ∧ w = 32 ∧ m = roundMode s) ∨ (i = .cvtzri a d ∧ w = 32 ∧ m = .zero) ∨
      (i = .cvtril a d ∧ w = 64 ∧ m = roundMode s ∧ Reg.isEven d = true) ∨
      (i = .cvtzril a d ∧ w = 64 ∧ m = .zero ∧ Reg.isEven d = true)) :
    ∃ wide, w = intWidth wide ∧ exec i s = finish s (ruleCvt wide m a d s) := by
  rcases h with ⟨rfl, rfl, rfl⟩ | ⟨rfl, rfl, rfl⟩ | ⟨rfl, rfl, rfl, hd⟩ | ⟨rfl, rfl, rfl, hd⟩
  · exact ⟨false, rfl, rfl⟩
  · exact ⟨false, rfl, rfl⟩
  · exact ⟨true, rfl, congrArg (finish s) (if_pos hd)⟩
  · exact ⟨true, rfl, congrArg (finish s) (if_pos hd)⟩

end Sys2Proof.Claims

namespace Sys2Proof.Proofs
open Sys2Proof.Machine Sys2Proof.Claims

/-- Settles O55: one class of operands at a time. -/
theorem realToInteger : Obligations.RealToInteger := by
  unfold Obligations.RealToInteger
  intro s a d i w m hi hu
  obtain ⟨wide, rfl, hexec⟩ := exec_conversion hi
  unfold ruleCvt at hexec
  dsimp only at hexec
  rw [checkOperands_of (List.forall_mem_singleton.mpr hu)] at hexec
  have hnum : ∀ v, Number .real s a v → toArg (fetch .real s a) = .num v := fun v h => h.operand.arg
  cases harg : toArg (fetch .real s a) with
  | nan =>
    rw [harg] at hexec
    obtain ⟨t, hc, hmask, hfault⟩ := nan_ends hexec
    obtain ⟨hip, hctl, hkept⟩ := hc.frame
    refine ⟨advance t, hip, hctl, hkept, fun v hv => ?_, fun neg h => ?_, fun _ => ⟨hmask, hfault⟩, fun neg h => ?_⟩
    · exact absurd (hnum v hv) (by simp [harg])
    · rw [h] at harg; cases harg
    · rw [h] at harg; cases harg
  | zero z =>
    rw [harg] at hexec
    obtain ⟨t, hc, hends⟩ := zero_ends hexec
    obtain ⟨hip, hctl, hkept⟩ := hc.frame
    refine ⟨advance t, hip, hctl, hkept, fun v hv => ?_, fun neg h => ?_, fun h => ?_, fun _ _ => hends⟩
    · exact absurd (hnum v hv) (by simp [harg])
    · rw [h] at harg; cases harg
    · rw [toArg_zero_iff.mp harg] at h; cases h
  | inf p =>
    rw [harg] at hexec
    obtain ⟨t, hc, hov, -⟩ := intOverflow_ends hexec
    obtain ⟨hip, hctl, hkept⟩ := hc.frame
    refine ⟨advance t, hip, hctl, hkept, fun v hv => ?_, fun _ _ => hov, fun h => ?_, fun neg h => ?_⟩
    · exact absurd (hnum v hv) (by simp [harg])
    · rw [toArg_inf_iff.mp harg] at h; cases h
    · rw [h] at harg; cases harg
  | num v =>
    rw [harg] at hexec
    obtain ⟨t, n, hc, hr, hat, hfit, hov⟩ := number_ends hexec
    obtain ⟨hip, hctl, hkept⟩ := hc.frame
    refine ⟨advance t, hip, hctl, hkept, fun v' hv => ?_, fun neg h => ?_, fun h => ?_, fun neg h => ?_⟩
    · cases harg.symm.trans (hnum v' hv)
      exact ⟨n, hr, hat, hfit, hov⟩
    · rw [h] at harg; cases harg
    · cases hf : fetch .real s a <;> rw [hf] at harg h <;> cases harg <;> cases h
    · rw [h] at harg; cases harg

end Sys2Proof.Proofs
end

section
/-! PROOFS. Remainders, and rounding to an integral value (R285 to R288, R292, R293). -/
namespace Sys2Proof.Claims
open Sys2Proof.Machine

/-! ### The remainder (R285, R286) -/

/-- What the claims say of a remainder determines it: the quotient is the one the instruction rounds. -/
theorem remainder_eq {s : State} {x y r : Rat} (hy : y ≠ 0) (h : RemainderIs s x y r) :
    r = x - remQuotient s.params.remIsIeee x y * y := by
  obtain ⟨n, hr, hn⟩ := h
  have hy0 : 0 < |y| := abs_pos.mpr hy
  have hdiff : (n : Rat) - x / y = -(r / y) := by
    rw [hr]
    field_simp
    ring
  have habs : |(n : Rat) - x / y| = |r| / |y| := by rw [hdiff, abs_neg, abs_div]
  have hquot : remQuotient s.params.remIsIeee x y = n := by
    unfold remQuotient
    have hone : ((1 : Rat) * (n : Rat)).floor = n := by rw [one_mul]; exact Rat.floor_intCast n
    cases hi : s.params.remIsIeee <;> rw [hi] at hn
    · obtain ⟨hlt, -, hle⟩ := hn
      rw [if_neg (by decide), roundGrid_unique .zero one_pos (n := n) _ (by simp) (by simp) _ (by simp), hone]
      · rwa [one_mul, habs, div_lt_one hy0]
      · intro _
        rw [one_mul, abs_div, le_div_iff₀ hy0, ← abs_mul]
        exact hle
    · obtain ⟨hle, htie⟩ := hn
      have h1 : 2 * (|r| / |y|) ≤ 1 := by rw [mul_div_assoc', div_le_one hy0]; exact hle
      rw [if_pos rfl, roundGrid_unique .nearest one_pos (n := n) _ (by simp) (by simp) (by simp) _, hone]
      · rw [one_mul, habs]
        linarith
      · intro _
        rw [one_mul, habs]
        refine ⟨h1, fun he => htie ?_⟩
        rwa [mul_div_assoc', div_eq_one_iff_eq hy0.ne'] at he
  rw [hquot, hr]

theorem remStatusOf_some {ieee : Bool} {y x : Arg} {p q : Config.FpValue} (h : remOutcome ieee y x ≠ .invalid)
    (hx : argValue x = some p) (hy : argValue y = some q) :
    remStatusOf ieee y x = some (Config.remStatus p q) := by
  unfold remStatusOf
  rw [hx, hy]
  cases ho : remOutcome ieee y x with
  | invalid => exact absurd ho h
  | _ => rfl

theorem argValue_argOf (x : Config.FpValue) : argValue (argOf x) = some x := by cases x <;> rfl

section
variable {s : State} {a b : FpSrc} {d : FpDst} {p : Fmt × (FpSrc → FpSrc → FpDst → Instr)}

/-- A remainder of two values that is not invalid goes by its outcome, with the status of the two values (R286). -/
theorem comes_rem_values (hp : p ∈ remainders) (hal : (a.fits p.1 && b.fits p.1 && d.fits p.1) = true)
    {x y : Config.FpValue} (ha : HasValue p.1 s a y) (hb : HasValue p.1 s b x) {o : FpOutcome}
    (ho : remOutcome s.params.remIsIeee (argOf y) (argOf x) = o) (hn : o ≠ .invalid) :
    Comes (p.2 a b d) p.1 d (some (Config.remStatus x y)) o s := by
  have h := comes_rem p hp (d := d) hal ha.operand hb.operand
  rwa [remStatusOf_some (ho ▸ hn) (argValue_argOf x) (argValue_argOf y), ho] at h

theorem remOutcome_num {s : State} {x y r : Rat} (hy : y ≠ 0) (h : RemainderIs s x y r) :
    remOutcome s.params.remIsIeee (.num y) (.num x) = if r = 0 then .zero (isNeg x) else .value r := by
  rw [remainder_eq hy h]
  rfl

theorem comes_remainder_zero (hp : p ∈ remainders) (hal : (a.fits p.1 && b.fits p.1 && d.fits p.1) = true) {x y r : Rat}
    (ha : Number p.1 s a y) (hb : Number p.1 s b x) (hy : y ≠ 0) (h : RemainderIs s x y r) (hr : r = 0) :
    Comes (p.2 a b d) p.1 d (some (Config.remStatus (.num x) (.num y))) (.zero (isNeg x)) s :=
  comes_rem_values (x := .num x) (y := .num y) hp hal ha hb ((remOutcome_num hy h).trans (if_pos hr)) (by simp)

theorem comes_remainder (hp : p ∈ remainders) (hal : (a.fits p.1 && b.fits p.1 && d.fits p.1) = true) {x y r : Rat}
    (ha : Number p.1 s a y) (hb : Number p.1 s b x) (hy : y ≠ 0) (h : RemainderIs s x y r) (hr : r ≠ 0) :
    Comes (p.2 a b d) p.1 d (some (Config.remStatus (.num x) (.num y))) (.value r) s :=
  comes_rem_values (x := .num x) (y := .num y) hp hal ha hb ((remOutcome_num hy h).trans (if_neg hr)) (by simp)

theorem comes_unreduced (hp : p ∈ remainders) (hal : (a.fits p.1 && b.fits p.1 && d.fits p.1) = true) {neg : Bool}
    {x : Rat} (ha : fetch p.1 s a = .inf neg) (hb : Number p.1 s b x) :
    Comes (p.2 a b d) p.1 d (some (Config.remStatus (.num x) (.inf neg))) (.value x) s :=
  comes_rem_values (x := .num x) (y := .inf neg) hp hal ha hb rfl (by simp)

theorem comes_rem_zero_dividend (hp : p ∈ remainders) (hal : (a.fits p.1 && b.fits p.1 && d.fits p.1) = true)
    {z : Bool} {y : Config.FpValue} (ha : HasValue p.1 s a y) (hy : ∀ neg, y ≠ .zero neg)
    (hb : fetch p.1 s b = .zero z) :
    Comes (p.2 a b d) p.1 d (some (Config.remStatus (.zero z) y)) (.zero z) s := by
  refine comes_rem_values (x := .zero z) (y := y) hp hal ha hb ?_ (by simp)
  cases y with
  | zero neg => exact absurd rfl (hy neg)
  | num w => rfl
  | inf neg => rfl

end

/-! ### Rounding to an integral value (R292) -/

theorem comes_round {s : State} {a : FpSrc} {d : FpDst} {x : Arg} : ∀ p ∈ [(Fmt.real, Instr.roundr), (.long, .roundrl)],
    (a.fits p.1 && d.fits p.1) = true → Operand p.1 s a x →
    Comes (p.2 a d) p.1 d none (roundOutcome (roundMode s) (destFmt p.1 d) x) s := by
  simp only [List.forall_mem_cons, List.not_mem_nil, false_imp_iff, implies_true, and_true]
  exact ⟨comes_arith1 rfl, comes_arith1 rfl⟩

theorem precision_sub_one (f : Fmt) : (precision f : Int) - 1 = fracBits f := by
  unfold precision
  push_cast
  ring

theorem roundOutcome_large {m : RoundMode} {f : Fmt} {v : Rat} (h : pow2 (precision f - 1) ≤ |v|) :
    roundOutcome m f (.num v) = .value v :=
  if_pos (by rwa [ratAbs_eq])

theorem roundOutcome_small {m : RoundMode} {f : Fmt} {v : Rat} (h : |v| < pow2 (precision f - 1)) :
    roundOutcome m f (.num v) =
      if roundGrid m v 1 = v then .exact v else .rounded (isNeg v) (roundGrid m v 1) :=
  if_neg (by rw [ratAbs_eq]; exact h.not_ge)

/-- A nonzero integer of at most the format's significant bits is represented (R165). -/
theorem represented_int {f : Fmt} {n : Int} (hn : n ≠ 0) (h : |(n : Rat)| ≤ pow2 (fracBits f)) :
    OnGrid f (n : Rat) ∧ pow2 (eMin f) ≤ |(n : Rat)| ∧ |(n : Rat)| < pow2 (eMax f + 1) := by
  have hne : (n : Rat) ≠ 0 := by exact_mod_cast hn
  have h1 : pow2 0 ≤ |(n : Rat)| := by rw [pow2_zero]; exact_mod_cast Int.one_le_abs hn
  have hexp : floorLog2 (n : Rat) ≤ fracBits f := pow2_le.mp ((floorLog2_spec hne).1.trans h)
  obtain ⟨n', hn'⟩ := exists_pow2_mul (a := 0) (b := floorLog2 (n : Rat) - fracBits f) (by omega) n
  rw [pow2_zero, one_mul] at hn'
  exact ⟨⟨n', hn'⟩, (pow2_le.mpr (by cases f <;> decide)).trans h1,
    h.trans_lt (pow2_lt.mpr (by cases f <;> decide))⟩

/-- A number rounded to an integer keeps its sign, or becomes zero, and does not pass a power of two. -/
theorem roundGrid_one_bounds {m : RoundMode} {v : Rat} {n : Int} (hn : roundGrid m v 1 = n) {k : Nat}
    (h : |v| < pow2 k) : |(n : Rat)| ≤ pow2 k ∧ (n ≠ 0 → ((n : Rat) < 0 ↔ v < 0)) := by
  have between : ∀ {x y : Int}, (x : Rat) ≤ v → v ≤ y → (x : Rat) ≤ n ∧ (n : Rat) ≤ y := by
    intro x y hx hy
    have := roundGrid_between m one_pos (v := v) (a := x) (b := y) (by rwa [one_mul]) (by rwa [one_mul])
    rwa [one_mul, one_mul, hn] at this
  rw [pow2_nat, abs_lt] at h
  rw [pow2_nat]
  obtain ⟨hlo, hhi⟩ := between (x := -((2 ^ k : Nat) : Int)) (y := ((2 ^ k : Nat) : Int))
    (by push_cast at h ⊢; exact h.1.le) (by push_cast at h ⊢; exact h.2.le)
  push_cast at hlo hhi ⊢
  refine ⟨abs_le.mpr ⟨hlo, hhi⟩, fun h0 => ⟨fun hneg => ?_, fun hneg => ?_⟩⟩
  · by_contra hpos
    have := (between (x := 0) (y := ((2 ^ k : Nat) : Int)) (by simpa using hpos) (by push_cast at h ⊢; exact h.2.le)).1
    rw [Int.cast_zero] at this
    exact absurd hneg this.not_gt
  · have := (between (x := -((2 ^ k : Nat) : Int)) (y := 0) (by push_cast at h ⊢; exact h.1.le) (by simpa using hneg.le)).2
    exact lt_of_le_of_ne this (by exact_mod_cast h0)

/-- A small number is rounded to an integer, which is stored with the inexact flag or fault if it differs (R292). -/
theorem Comes.roundedSmall {i : Instr} {f : Fmt} {d : FpDst} {s : State} {v : Rat} (hv : v ≠ 0)
    (hlt : |v| < pow2 (precision (destFmt f d) - 1))
    (h : Comes i f d none (roundOutcome (roundMode s) (destFmt f d) (.num v)) s) :
    ∃ (u : State) (n : Int), RoundsTo (roundMode s) v n ∧ EndsInexact i s s.ac u ((n : Rat) ≠ v) ∧
      (if n = 0 then fetch f u (FpDst.asSrc d) = .zero (decide (v < 0))
        else fetch f u (FpDst.asSrc d) = .norm (decide (v < 0)) n) ∧ FpKept f d s u := by
  rw [roundOutcome_small hlt] at h
  rw [precision_sub_one] at hlt
  obtain ⟨n, hn, hr⟩ := roundGrid_one (roundMode s) v
  obtain ⟨hle, hsign⟩ := roundGrid_one_bounds hn hlt
  rw [hn] at h
  by_cases hx : (n : Rat) = v
  · rw [if_pos hx] at h
    have hn0 : n ≠ 0 := by
      rintro rfl
      exact hv (by rw [← hx, Int.cast_zero])
    obtain ⟨hg, hlo, hhi⟩ := represented_int hn0 hle
    rw [hx] at hg hlo hhi
    obtain ⟨u, hu, hres, hk⟩ := (h.exact hv hg hlo hhi).endsInexact (P := (n : Rat) ≠ v) (not_not_intro hx)
    exact ⟨u, n, hr.roundsTo, hu, by rw [if_neg hn0, hx]; exact hres, hk⟩
  · rw [if_neg hx] at h
    obtain ⟨ops, -, h⟩ := h
    obtain ⟨u, hu, hres, hk⟩ := endsInexact_storeInexact (st := none) (P := (n : Rat) ≠ v) hx h
    refine ⟨u, n, hr.roundsTo, hu, ?_, hk⟩
    rw [hres]
    unfold encodeValue
    split
    · next hn0 =>
      rw [if_pos (by exact_mod_cast hn0)]
      exact decodeBits_encodeZero _ _
    · next hn0 =>
      have hne : (n : Rat) ≠ 0 := by exact_mod_cast hn0
      obtain ⟨hg, hlo, hhi⟩ := represented_int hn0 hle
      rw [if_neg hne, decodeBits_of_onGrid hne hg hlo hhi, decide_eq_decide.mpr (hsign hn0)]

end Sys2Proof.Claims

namespace Sys2Proof.Proofs
open Sys2Proof.Machine Sys2Proof.Claims

/-- Settles O51: the remainder described is the one computed; it is delivered with the arithmetic status. -/
theorem remainders : Obligations.Remainders := by
  unfold Obligations.Remainders
  refine fun s a b d p hp hal => ⟨fun y x r ha hb hy _ h => ⟨fun hr => ?_, fun hr hin => ?_⟩,
    fun x neg ha hb hin => ?_, fun z y ha hy hb => ?_⟩
  · exact (comes_remainder_zero hp hal ha hb hy h hr).zero
  · exact (comes_remainder hp hal ha hb hy h hr).endsRounded hin
  · exact (comes_unreduced hp hal ha hb).endsRounded hin
  · exact (comes_rem_zero_dividend hp hal ha hy hb).zero

/-- Settles O52: small numbers are rounded on the grid of 1, large ones delivered. -/
theorem roundsToIntegral : Obligations.RoundsToIntegral := by
  unfold Obligations.RoundsToIntegral
  refine fun s a d p hp hal => ⟨fun v ha hv hlt => ?_, fun v ha hge hr hq => ?_, fun neg => ⟨fun ha => ?_, fun ha => ?_⟩⟩
  · exact (comes_round p hp hal ha.operand).roundedSmall hv hlt
  · have h := comes_round p hp hal ha.operand
    rw [roundOutcome_large hge] at h
    exact h.stored hr hq
  · exact (comes_round p hp hal (operand_zero ha)).zero
  · exact (comes_round p hp hal (operand_inf ha)).inf

end Sys2Proof.Proofs
end

section
/-! PROOFS. The numbers an operand can be (R165, R166), and exact results that are delivered alike (R179 to R207). -/
namespace Sys2Proof.Claims
open Sys2Proof.Machine

/-! ### Operands are nonzero numbers of at most 64 significant bits -/

theorem floorLog2_neg (v : Rat) (hv : v ≠ 0) : floorLog2 (-v) = floorLog2 v := by
  obtain ⟨h1, h2⟩ := floorLog2_spec hv
  exact floorLog2_unique (by rwa [abs_neg]) (by rwa [abs_neg])

theorem OnGrid.neg {f : Fmt} {v : Rat} (h : OnGrid f v) (hv : v ≠ 0) : OnGrid f (-v) := by
  obtain ⟨n, hn⟩ := h
  refine ⟨-n, ?_⟩
  rw [floorLog2_neg v hv]
  push_cast
  rw [mul_neg, ← hn]

theorem signed_cases (neg : Bool) (v : Rat) : signed neg v = v ∨ signed neg v = -v := by
  cases neg
  · exact .inl rfl
  · exact .inr rfl

theorem OnGrid.signed {f : Fmt} {v : Rat} (h : OnGrid f v) (hv : v ≠ 0) (neg : Bool) :
    signed neg v ≠ 0 ∧ OnGrid f (signed neg v) := by
  rcases signed_cases neg v with e | e <;> rw [e]
  · exact ⟨hv, h⟩
  · exact ⟨neg_ne_zero.mpr hv, h.neg hv⟩

/-- A normalized number has the significant bits of its format (R165). -/
theorem onGrid_normal (f : Fmt) {frac : Nat} (hf : frac < 2 ^ fracBits f) (c : Int) :
    ((2 ^ fracBits f + frac : Nat) : Rat) * pow2 c ≠ 0 ∧ OnGrid f (((2 ^ fracBits f + frac : Nat) : Rat) * pow2 c) := by
  set N : Nat := 2 ^ fracBits f + frac with hN
  have hN0 : (N : Rat) ≠ 0 := by
    have : 0 < 2 ^ fracBits f := by positivity
    exact_mod_cast (by omega : N ≠ 0)
  have hexp : floorLog2 (N : Rat) = fracBits f := by
    apply floorLog2_unique
    · rw [Nat.abs_cast, pow2_nat]
      exact_mod_cast Nat.le_add_right _ _
    · rw [Nat.abs_cast, show (fracBits f : Int) + 1 = ((fracBits f + 1 : Nat) : Int) by push_cast; rfl, pow2_nat]
      exact_mod_cast (by rw [pow_succ]; omega : N < 2 ^ (fracBits f + 1))
  have hgrid : OnGrid f (N : Rat) := ⟨(N : Int), by rw [hexp, sub_self, pow2_zero, one_mul, Int.cast_natCast]⟩
  exact ⟨mul_ne_zero hN0 (pow2_ne_zero c), hgrid.mul_pow2 hN0 c⟩

/-- A denormalized number has the significant bits of its format (R165). -/
theorem onGrid_denormal (f : Fmt) {frac : Nat} (hf : frac < 2 ^ fracBits f) (h0 : frac ≠ 0) :
    (frac : Rat) * pow2 (eMin f - fracBits f) ≠ 0 ∧ OnGrid f ((frac : Rat) * pow2 (eMin f - fracBits f)) := by
  have hne : (frac : Rat) * pow2 (eMin f - fracBits f) ≠ 0 :=
    mul_ne_zero (by exact_mod_cast h0) (pow2_ne_zero _)
  refine ⟨hne, onGrid_of_small (n := (frac : Int)) hne (by rw [Int.cast_natCast, mul_comm]) ?_⟩
  rw [abs_mul_pow2, Nat.abs_cast, show eMin f = (fracBits f : Int) + (eMin f - fracBits f) by ring, pow2_add, pow2_nat,
    show (fracBits f : Int) + (eMin f - fracBits f) - fracBits f = eMin f - fracBits f by ring]
  exact mul_le_mul_of_nonneg_right (by exact_mod_cast hf.le) (pow2_pos _).le

theorem classify_number {f : Fmt} {neg : Bool} {e : Nat} {j : Bool} {frac : Nat} (hf : frac < 2 ^ fracBits f) {n : Bool}
    {v : Rat} (h : classify f neg e j frac = .norm n v ∨ classify f neg e j frac = .denorm n v) :
    v ≠ 0 ∧ OnGrid f v := by
  unfold classify at h
  dsimp only at h
  split_ifs at h with _ _ h0
  · rcases h with h | h <;> cases h
  · rcases h with h | h <;> cases h
  · cases h.resolve_left (by simp)
    have key := onGrid_denormal f hf h0
    exact key.2.signed key.1 neg
  · rcases h with h | h <;> cases h
  · rcases h with h | h <;> cases h
  · rcases h with h | h <;> cases h
  · rcases h with h | h <;> cases h
  · cases h.resolve_right (by simp)
    have key := onGrid_normal f hf ((e : Int) - expBias f - fracBits f)
    exact key.2.signed key.1 neg

theorem fetch_number {f : Fmt} {s : State} {a : FpSrc} {n : Bool} {v : Rat}
    (h : fetch f s a = .norm n v ∨ fetch f s a = .denorm n v) : v ≠ 0 ∧ OnGrid .ext v := by
  have bits {g : Fmt} {w : Nat} (x : BitVec w) (hw : w = fracBits g) : x.toNat < 2 ^ fracBits g := hw ▸ x.isLt
  cases a with
  | zero => rcases h with h | h <;> cases h
  | one =>
    rcases h with h | h
    · cases h
      have h1 := represented_int (f := .ext) (n := 1) (by decide)
        (by rw [Int.cast_one, abs_one, ← pow2_zero, pow2_le]; decide)
      exact ⟨one_ne_zero, by simpa using h1.1⟩
    · cases h
  | fpr k => exact classify_number (f := .ext) (bits _ rfl) h
  | reg r =>
    cases f with
    | real =>
      obtain ⟨h0, hg⟩ := classify_number (f := .real) (bits _ rfl) h
      exact ⟨h0, hg.ext⟩
    | long =>
      obtain ⟨h0, hg⟩ := classify_number (f := .long) (bits _ rfl) h
      exact ⟨h0, hg.ext⟩
    | ext => exact classify_number (f := .ext) (bits _ rfl) h

theorem Number.spec {f : Fmt} {s : State} {a : FpSrc} {v : Rat} (h : Number f s a v) : v ≠ 0 ∧ OnGrid .ext v := by
  rcases h with ⟨n, h⟩ | ⟨-, n, h⟩
  · exact fetch_number (.inl h)
  · exact fetch_number (.inr h)

theorem Number.ne_zero {f : Fmt} {s : State} {a : FpSrc} {v : Rat} (h : Number f s a v) : v ≠ 0 := h.spec.1

/-! ### Numbers next to the same multiple of the unit in the last place round alike (R179) -/

section
variable {m : RoundMode} {v q : Rat} {k : Int}

theorem floor_div_eq (hq : 0 < q) (h1 : q * k ≤ v) (h2 : v < q * k + q) : (v / q).floor = k := by
  change ⌊v / q⌋ = k
  rw [Int.floor_eq_iff, le_div_iff₀ hq, div_lt_iff₀ hq]
  constructor <;> linarith

/-- A number less than half a unit above a multiple. -/
theorem roundGrid_lowerHalf (hq : 0 < q) (h0 : v ≠ 0) (h1 : q * k < v) (h2 : 2 * (v - q * k) < q) :
    roundGrid m v q = if m = .up ∨ (m = .zero ∧ v < 0) then q * k + q else q * k := by
  unfold roundGrid
  dsimp only
  rw [floor_div_eq hq h1.le (by linarith), if_neg h1.ne']
  cases m with
  | up => simp
  | down => simp
  | zero =>
    rcases lt_or_gt_of_ne h0 with hv | hv
    · simp [hv, hv.not_gt]
    · simp [hv, hv.not_gt]
  | nearest =>
    dsimp only
    rw [if_pos (by linarith)]
    simp

/-- A number less than half a unit below a multiple. -/
theorem roundGrid_upperHalf (hq : 0 < q) (h0 : v ≠ 0) (h1 : v < q * k) (h2 : 2 * (q * k - v) < q) :
    roundGrid m v q = if m = .down ∨ (m = .zero ∧ 0 < v) then q * k - q else q * k := by
  have hk : q * ((k - 1 : Int) : Rat) = q * k - q := by push_cast; ring
  unfold roundGrid
  dsimp only
  rw [floor_div_eq (k := k - 1) hq (by linarith) (by linarith), hk, sub_add_cancel, if_neg (by linarith)]
  cases m with
  | up => simp
  | down => simp
  | zero =>
    rcases lt_or_gt_of_ne h0 with hv | hv
    · simp [hv.not_gt]
    · simp [hv]
  | nearest =>
    dsimp only
    rw [if_neg (by linarith), if_pos (by linarith)]
    simp

end

/-- The numbers lie less than half a unit in the last place above the same multiple of it, or both below. -/
structure RoundAlike (p : Nat) (v w : Rat) : Prop where
  ne : v ≠ 0
  ne' : w ≠ 0
  sign : v < 0 ↔ w < 0
  exp : floorLog2 w = floorLog2 v
  near : ∃ k : Int,
    (pow2 (floorLog2 v - p + 1) * k < v ∧ 2 * (v - pow2 (floorLog2 v - p + 1) * k) < pow2 (floorLog2 v - p + 1) ∧
      pow2 (floorLog2 v - p + 1) * k < w ∧ 2 * (w - pow2 (floorLog2 v - p + 1) * k) < pow2 (floorLog2 v - p + 1)) ∨
    (v < pow2 (floorLog2 v - p + 1) * k ∧ 2 * (pow2 (floorLog2 v - p + 1) * k - v) < pow2 (floorLog2 v - p + 1) ∧
      w < pow2 (floorLog2 v - p + 1) * k ∧ 2 * (pow2 (floorLog2 v - p + 1) * k - w) < pow2 (floorLog2 v - p + 1))

/-- Numbers that round alike have one rounded number, which is neither of them, on one side of both. -/
theorem RoundAlike.round {p : Nat} {v w : Rat} (h : RoundAlike p v w) (m : RoundMode) :
    roundP m w p = roundP m v p ∧ roundP m v p ≠ v ∧ roundP m v p ≠ w ∧ (v < roundP m v p ↔ w < roundP m v p) := by
  obtain ⟨hv, hw, hsign, hexp, k, hk⟩ := h
  have hpos : 0 < v ↔ 0 < w := by
    rw [← not_iff_not, not_lt, not_lt, le_iff_lt_or_eq, le_iff_lt_or_eq]
    simp [hsign, hv, hw]
  rw [roundP_eq, roundP_eq, hexp]
  have hq := pow2_pos (floorLog2 v - p + 1)
  set q := pow2 (floorLog2 v - p + 1)
  rcases hk with ⟨h1, h2, h3, h4⟩ | ⟨h1, h2, h3, h4⟩
  · rw [roundGrid_lowerHalf hq hv h1 h2, roundGrid_lowerHalf hq hw h3 h4]
    simp only [hsign, true_and]
    split
    · exact ⟨by linarith, by linarith, ⟨fun _ => by linarith, fun _ => by linarith⟩⟩
    · exact ⟨h1.ne, h3.ne, ⟨fun h => absurd h h1.not_gt, fun h => absurd h h3.not_gt⟩⟩
  · rw [roundGrid_upperHalf hq hv h1 h2, roundGrid_upperHalf hq hw h3 h4]
    simp only [hpos, true_and]
    split
    · exact ⟨by linarith, by linarith, ⟨fun _ => by linarith, fun _ => by linarith⟩⟩
    · exact ⟨h1.ne', h3.ne', ⟨fun _ => h3, fun _ => h1⟩⟩

/-- Results that round alike, and overflow alike before rounding, are delivered alike where they are not tiny (R200). -/
theorem deliver_congr {F : Fmt} {d : FpDst} {v w : Rat} {s : State} (h : RoundAlike (precision F) v w)
    (hmax : maxFinite F < |v| ↔ maxFinite F < |w|) (hlo : eMin F ≤ floorLog2 v) :
    deliver F d v s = deliver F d w s := by
  obtain ⟨hround, hv, hw, hdir⟩ := h.round (roundMode s)
  have hbig := (roundP_bounds (roundMode s) h.ne (p := precision F) (Nat.succ_pos _)).1
  set u := roundP (roundMode s) v (precision F) with hu
  have htiny : isTiny F u = false := by
    unfold isTiny
    rw [ratAbs_eq]
    exact decide_eq_false ((pow2_le.mpr hlo).trans hbig).not_gt
  have hover : overflows s.params F v u = overflows s.params F w u := by
    unfold overflows
    rw [ratAbs_eq, ratAbs_eq, ratAbs_eq, decide_eq_decide.mpr hmax]
  have hfault (x : Ext × Option Bool) : rangeFault subOverflow v u x s = rangeFault subOverflow w u x s := by
    unfold rangeFault
    rw [decide_eq_true hv, decide_eq_true hw, decide_eq_decide.mpr hdir]
  have hneg : decide (v < 0) = decide (w < 0) := decide_eq_decide.mpr h.sign
  unfold deliver
  dsimp only
  rw [hround, ← hu, htiny, hover, hneg, hfault, if_neg Bool.false_ne_true, if_neg Bool.false_ne_true, if_neg hv,
    if_neg hw]

theorem Comes.congr {i : Instr} {f : Fmt} {d : FpDst} {st : Option (BitVec 4)} {s : State} {v w : Rat}
    (h : Comes i f d st (.value v) s) (hd : Machine.deliver (destFmt f d) d v s = Machine.deliver (destFmt f d) d w s) :
    Comes i f d st (.value w) s := by
  obtain ⟨ops, hops, h⟩ := h
  exact ⟨ops, hops, h.trans (congrArg (fun e => finish s (.ok (statused st e))) hd)⟩

end Sys2Proof.Claims
end

section
/-! PROOFS. The exponent instructions (R366, R367): the values that stand for 2^k - 1 round as it does, and the inexact
ones need more bits than the destination has. -/
namespace Sys2Proof.Claims
open Sys2Proof.Machine

/-! ### Numbers just below a power of two -/

theorem pow2_succ (k : Int) : pow2 (k + 1) = 2 * pow2 k := by
  rw [pow2_add, show pow2 1 = 2 from rfl, mul_comm]

theorem pow2_quarter (k : Int) : pow2 k = 4 * pow2 (k - 2) := by
  conv_lhs => rw [show k = k - 2 + 1 + 1 by ring, pow2_succ, pow2_succ]
  ring

section
variable {p : Nat} {c : Int} {t : Rat}

theorem floorLog2_below (hp : 0 < p) (ht : 0 < t) (hle : t ≤ pow2 (c - p - 2)) :
    0 < pow2 c - t ∧ floorLog2 (pow2 c - t) = c - 1 := by
  have hhalf : pow2 c = 2 * pow2 (c - 1) := by rw [← pow2_succ, sub_add_cancel]
  have hsmall : pow2 (c - p - 2) ≤ pow2 (c - 1) := pow2_le.mpr (by omega)
  have hpos := pow2_pos (c - 1)
  have h0 : 0 < pow2 c - t := by linarith
  refine ⟨h0, floorLog2_unique ?_ ?_⟩ <;> rw [abs_of_pos h0]
  · linarith
  · rw [sub_add_cancel]
    linarith

/-- Less than a quarter of a unit below a power of two all numbers round alike. -/
theorem roundAlike_below (hp : 0 < p) {t' : Rat} (ht : 0 < t) (hle : t ≤ pow2 (c - p - 2)) (ht' : 0 < t')
    (hle' : t' ≤ pow2 (c - p - 2)) : RoundAlike p (pow2 c - t) (pow2 c - t') := by
  obtain ⟨h0, hexp⟩ := floorLog2_below hp ht hle
  obtain ⟨h0', hexp'⟩ := floorLog2_below hp ht' hle'
  refine ⟨h0.ne', h0'.ne', iff_of_false h0.not_gt h0'.not_gt, hexp'.trans hexp.symm, ((2 ^ p : Nat) : Int), .inr ?_⟩
  have hq := pow2_pos (c - p - 2)
  have hmul : pow2 (c - p) * (((2 ^ p : Nat) : Int) : Rat) = pow2 c := by
    rw [Int.cast_natCast, ← pow2_nat, ← pow2_add, sub_add_cancel]
  rw [hexp, show c - 1 - p + 1 = c - p by ring, hmul, pow2_quarter (c - p)]
  exact ⟨by linarith, by linarith, by linarith, by linarith⟩

theorem RoundAlike.neg {v w : Rat} (h : RoundAlike p v w) : RoundAlike p (-v) (-w) := by
  obtain ⟨hv, hw, hsign, hexp, k, hk⟩ := h
  have hpos : 0 < v ↔ 0 < w := by
    rw [← not_iff_not, not_lt, not_lt, le_iff_lt_or_eq, le_iff_lt_or_eq]
    simp [hsign, hv, hw]
  refine ⟨neg_ne_zero.mpr hv, neg_ne_zero.mpr hw, by simpa using hpos, ?_, -k, ?_⟩
  · rw [floorLog2_neg w hw, floorLog2_neg v hv, hexp]
  · rw [floorLog2_neg v hv]
    push_cast
    rcases hk with ⟨h1, h2, h3, h4⟩ | ⟨h1, h2, h3, h4⟩
    · exact .inr ⟨by linarith, by linarith, by linarith, by linarith⟩
    · exact .inl ⟨by linarith, by linarith, by linarith, by linarith⟩

/-- A quarter of a unit below a power of two is not on the grid. -/
theorem not_onGrid_below (F : Fmt) (c : Int) : ¬ OnGrid F (pow2 c - pow2 (c - precision F - 2)) := by
  rintro ⟨n, hn⟩
  rw [(floorLog2_below (p := precision F) (Nat.succ_pos _) (pow2_pos _) le_rfl).2, ← ulp_eq,
    show c - 1 - precision F + 1 = c - precision F by ring] at hn
  have hc : pow2 c = pow2 (c - precision F - 2) * ((2 ^ (precision F + 2) : Nat) : Rat) := by
    rw [← pow2_nat, ← pow2_add]
    congr 1
    push_cast
    ring
  have hpos := pow2_pos (c - precision F - 2)
  have hint : ((2 ^ (precision F + 2) : Nat) : Rat) - 1 = 4 * (n : Rat) := by
    apply mul_left_cancel₀ hpos.ne'
    rw [pow2_quarter (c - precision F), hc] at hn
    linarith
  have hint' : ((2 ^ (precision F + 2) : Nat) : Int) - 1 = 4 * n := by exact_mod_cast hint
  rw [pow_add] at hint'
  push_cast at hint'
  omega

/-- Whether a number just below a power of two exceeds the largest finite number. -/
theorem maxFinite_lt_below {F : Fmt} (ht : 0 < t) (hle : t ≤ pow2 (c - precision F - 2)) :
    maxFinite F < pow2 c - t ↔ eMax F < c := by
  obtain ⟨hmax, -⟩ := maxFinite_bounds F
  constructor
  · intro h
    by_contra hc
    have := pow2_le.mpr (not_lt.mp hc)
    linarith
  · intro h
    have hp : (0 : Rat) ≤ ((2 ^ precision F - 1 : Int) : Rat) := by
      have : (1 : Int) ≤ 2 ^ precision F := one_le_pow₀ (by norm_num)
      exact_mod_cast (by omega : (0 : Int) ≤ 2 ^ precision F - 1)
    have hpow : pow2 c = pow2 (c - precision F) * ((2 ^ precision F : Int) : Rat) := by
      rw [show ((2 ^ precision F : Int) : Rat) = pow2 (precision F) by rw [pow2_nat]; push_cast; rfl, ← pow2_add,
        sub_add_cancel]
    have hquarter := pow2_quarter (c - precision F)
    have hpos := pow2_pos (c - precision F - 2)
    calc maxFinite F = pow2 (eMax F - fracBits F) * ((2 ^ precision F - 1 : Int) : Rat) := maxFinite_eq F
      _ ≤ pow2 (c - precision F) * ((2 ^ precision F - 1 : Int) : Rat) := by
        refine mul_le_mul_of_nonneg_right (pow2_le.mpr ?_) hp
        unfold precision
        push_cast
        omega
      _ = pow2 c - pow2 (c - precision F) := by rw [hpow]; push_cast; ring
      _ < pow2 c - t := by linarith

/-- Results just below a power of two are delivered alike. -/
theorem deliver_below {F : Fmt} {d : FpDst} {s : State} {t' : Rat} (ht : 0 < t)
    (hle : t ≤ pow2 (c - precision F - 2)) (ht' : 0 < t') (hle' : t' ≤ pow2 (c - precision F - 2)) (hc : -1 < c) :
    deliver F d (pow2 c - t) s = deliver F d (pow2 c - t') s ∧
      deliver F d (-(pow2 c - t)) s = deliver F d (-(pow2 c - t')) s := by
  have hp : 0 < precision F := Nat.succ_pos _
  have halike := roundAlike_below hp ht hle ht' hle'
  obtain ⟨h0, hexp⟩ := floorLog2_below hp ht hle
  obtain ⟨h0', -⟩ := floorLog2_below hp ht' hle'
  have hmax : maxFinite F < |pow2 c - t| ↔ maxFinite F < |pow2 c - t'| := by
    rw [abs_of_pos h0, abs_of_pos h0', maxFinite_lt_below ht hle, maxFinite_lt_below ht' hle']
  have hmin : eMin F ≤ -1 := by cases F <;> decide
  refine ⟨deliver_congr halike hmax (by omega), deliver_congr halike.neg ?_ ?_⟩
  · rwa [abs_neg, abs_neg]
  · rw [floorLog2_neg _ h0.ne']
    omega

end

/-! ### The outcomes of the exponent instructions -/

section
variable {s : State} {a : FpSrc} {d : FpDst} {p : Fmt × (FpSrc → FpDst → Instr)}

theorem comes_exp {x : Arg} : ∀ p ∈ exponents, (a.fits p.1 && d.fits p.1) = true → Operand p.1 s a x →
    Comes (p.2 a d) p.1 d none (expOutcome (destFmt p.1 d) x) s := by
  simp only [exponents, List.forall_mem_cons, List.not_mem_nil, false_imp_iff, implies_true, and_true]
  exact ⟨comes_arith1 rfl, comes_arith1 rfl⟩

theorem expOutcome_low {F : Fmt} {v : Rat} (h : v ≤ -((precision F : Rat) + 2)) :
    expOutcome F (.num v) = .value (-1 + pow2 (-((precision F : Int) + 2))) :=
  if_pos (by push_cast; exact h)

theorem expOutcome_integer {F : Fmt} {k : Int} (h : -((precision F : Int) + 2) < k) :
    expOutcome F (.num (k : Rat)) = .value (exp2m1Int (precision F) k) := by
  have hfloor : ((k : Rat)).floor = k := Rat.floor_intCast k
  refine (if_neg (by exact_mod_cast h.not_ge)).trans ?_
  rw [hfloor]
  exact if_pos rfl

theorem expOutcome_other {F : Fmt} {v : Rat} (h : -((precision F : Rat) + 2) < v) (hv : ∀ k : Int, v ≠ k) :
    expOutcome F (.num v) = .value (exp2m1Fn v) :=
  (if_neg (by push_cast; exact h.not_ge)).trans (if_neg (hv _))

/-- 2^k - 1 is delivered: where the model shortens the value, one that rounds as it does (R366; log 32). -/
theorem comes_power (hp : p ∈ exponents) {k : Int} (ha : Number p.1 s a (k : Rat))
    (hal : (a.fits p.1 && d.fits p.1) = true) (hk : k < 40962) :
    Comes (p.2 a d) p.1 d none (.value (pow2 k - 1)) s := by
  have h := comes_exp p hp (d := d) hal ha.operand
  have hpos := pow2_pos
  by_cases hlow : k ≤ -((precision (destFmt p.1 d) : Int) + 2)
  · rw [expOutcome_low (by exact_mod_cast hlow)] at h
    have key := (deliver_below (F := destFmt p.1 d) (d := d) (s := s) (c := 0)
      (hpos (0 - precision (destFmt p.1 d) - 2)) le_rfl (hpos k) (pow2_le.mpr (by omega)) (by decide)).2
    refine h.congr ?_
    rw [pow2_zero, neg_sub, neg_sub, show (0 : Int) - precision (destFmt p.1 d) - 2 =
      -((precision (destFmt p.1 d) : Int) + 2) by ring] at key
    rw [neg_add_eq_sub]
    exact key
  · rw [expOutcome_integer (not_le.mp hlow)] at h
    unfold exp2m1Int at h
    split at h
    · exact h
    · next hbig =>
      have hmin : min k expMassive = k := min_eq_left (by unfold expMassive; omega)
      rw [hmin] at h
      refine h.congr (deliver_below (hpos _) le_rfl one_pos ?_ (by omega)).1
      rw [← pow2_zero, pow2_le]
      omega

theorem comes_exponent (hp : p ∈ exponents) {v : Rat} (ha : Number p.1 s a v)
    (hal : (a.fits p.1 && d.fits p.1) = true) (hv : ∀ k : Int, v ≠ k)
    (h : -((precision (destFmt p.1 d) : Rat) + 2) < v) :
    Comes (p.2 a d) p.1 d none (.value (exp2m1Fn v)) s :=
  expOutcome_other h hv ▸ comes_exp p hp hal ha.operand

theorem comes_lowExponent (hp : p ∈ exponents) {v : Rat} (ha : Number p.1 s a v)
    (hal : (a.fits p.1 && d.fits p.1) = true) (h : v ≤ -((precision (destFmt p.1 d) : Rat) + 2)) :
    Comes (p.2 a d) p.1 d none (.value (-1 + pow2 (-((precision (destFmt p.1 d) : Int) + 2)))) s :=
  expOutcome_low h ▸ comes_exp p hp hal ha.operand

end

end Sys2Proof.Claims
end

section
/-! PROOFS. Every instruction that delivers an exact result, and its overflow, underflow and inexactness (R200 to
R207). -/
namespace Sys2Proof.Claims
open Sys2Proof.Machine

section
variable {s : State} {a b : FpSrc} {d : FpDst}

/-! ### One source -/

theorem comes_function {v : Rat} : ∀ p ∈ functions, Number p.1 s a v → (a.fits p.1 && d.fits p.1) = true →
    Comes (p.2.1 a d) p.1 d none (.value (p.2.2 v)) s := by
  have move {f : Fmt} {i : Instr} (h : exec i s = finish s (arith1 f moveOutcome a d s)) (ha : Number f s a v)
      (hal : (a.fits f && d.fits f) = true) : Comes i f d none (.value v) s := comes_arith1 h hal ha.operand
  have sin {f : Fmt} {i : Instr} (h : exec i s = finish s (arith1 f sinOutcome a d s)) (ha : Number f s a v)
      (hal : (a.fits f && d.fits f) = true) : Comes i f d none (.value (sinFn v)) s := comes_arith1 h hal ha.operand
  have cos {f : Fmt} {i : Instr} (h : exec i s = finish s (arith1 f cosOutcome a d s)) (ha : Number f s a v)
      (hal : (a.fits f && d.fits f) = true) : Comes i f d none (.value (cosFn v)) s := comes_arith1 h hal ha.operand
  have tan {f : Fmt} {i : Instr} (h : exec i s = finish s (arith1 f tanOutcome a d s)) (ha : Number f s a v)
      (hal : (a.fits f && d.fits f) = true) : Comes i f d none (.value (tanFn v)) s := comes_arith1 h hal ha.operand
  simp only [functions, List.forall_mem_cons, List.not_mem_nil, false_imp_iff, implies_true, and_true]
  exact ⟨move rfl, move rfl, sin rfl, sin rfl, cos rfl, cos rfl, tan rfl, tan rfl⟩

theorem comes_scale {x : Src} {y : Arg} : ∀ p ∈ scales, (a.fits p.1 && d.fits p.1) = true → Operand p.1 s a y →
    Comes (p.2 x a d) p.1 d none (scaleOutcome (srcValue s x).toInt (destFmt p.1 d) y) s := by
  simp only [scales, List.forall_mem_cons, List.not_mem_nil, false_imp_iff, implies_true, and_true]
  exact ⟨comes_arith1 rfl, comes_arith1 rfl⟩

theorem sqrtOutcome_pos {F : Fmt} {v : Rat} (h : 0 < v) : sqrtOutcome F (.num v) = .value (sqrtValue v) :=
  if_neg h.not_gt

/-! ### Logarithms -/

theorem floorLog2_pow2 (k : Int) : floorLog2 (pow2 k) = k :=
  floorLog2_unique (abs_of_pos (pow2_pos k)).ge (by rw [abs_of_pos (pow2_pos k)]; exact pow2_lt.mpr (by omega))

theorem exactLog2_pow2 (k : Int) : exactLog2 (pow2 k) = some k := by
  unfold exactLog2
  rw [floorLog2_pow2, if_pos rfl]

theorem exactLog2_none {v : Rat} (h : ∀ k, v ≠ pow2 k) : exactLog2 v = none := if_neg (h _)

theorem pow2_ne_one {k : Int} (h : k ≠ 0) : pow2 k ≠ 1 := by
  intro he
  have := floorLog2_pow2 k
  rw [he, ← pow2_zero, floorLog2_pow2] at this
  exact h this.symm

theorem logOutcome_num {v w : Rat} (h0 : 0 < v) (h1 : v ≠ 1) : logOutcome (.num v) (.num w) =
    match exactLog2 v with
    | some k => .value (w * k)
    | none => .value (ylog2xFn v w) :=
  (if_neg h0.not_gt).trans (if_neg h1)

theorem logepOutcome_num {v w : Rat} (h : -1 < v) : logepOutcome (.num v) (.num w) =
    match exactLog2 (v + 1) with
    | some k => .value (w * k)
    | none => .value (ylog2xp1Fn v w) :=
  (if_neg h.not_gt).trans (if_neg h.ne')

theorem logOutcome_power {k : Int} (h : k ≠ 0) (w : Rat) : logOutcome (.num (pow2 k)) (.num w) = .value (w * k) := by
  rw [logOutcome_num (pow2_pos k) (pow2_ne_one h), exactLog2_pow2]

theorem logOutcome_other {v : Rat} (h0 : 0 < v) (h : ∀ k, v ≠ pow2 k) (w : Rat) :
    logOutcome (.num v) (.num w) = .value (ylog2xFn v w) := by
  rw [logOutcome_num h0 (h 0), exactLog2_none h]

theorem logepOutcome_power (k : Int) (w : Rat) :
    logepOutcome (.num (pow2 k - 1)) (.num w) = .value (w * k) := by
  rw [logepOutcome_num (by linarith [pow2_pos k]), sub_add_cancel, exactLog2_pow2]

theorem logepOutcome_other {v : Rat} (h1 : -1 < v) (h : ∀ k, v + 1 ≠ pow2 k) (w : Rat) :
    logepOutcome (.num v) (.num w) = .value (ylog2xp1Fn v w) := by
  rw [logepOutcome_num h1, exactLog2_none h]

/-! ### Arctangent -/

theorem comes_atan {x y : Arg} : ∀ p ∈ [(Fmt.real, Instr.atanr), (.long, .atanrl)],
    (a.fits p.1 && b.fits p.1 && d.fits p.1) = true → Operand p.1 s a x → Operand p.1 s b y →
    Comes (p.2 a b d) p.1 d none (atanOutcome x y) s := by
  simp only [List.forall_mem_cons, List.not_mem_nil, false_imp_iff, implies_true, and_true]
  exact ⟨comes_arith2 rfl, comes_arith2 rfl⟩

theorem atanOutcome_value {y x : Config.FpValue} (h : HasArc y x) :
    atanOutcome (argOf x) (argOf y) = .value (atan2Fn y x) := by
  cases y with
  | zero q =>
    rcases h with rfl | rfl | ⟨v, hv, rfl⟩
    · rfl
    · rfl
    · exact if_pos hv
  | num w =>
    cases x with
    | zero p => rfl
    | num v => rfl
    | inf p =>
      cases p with
      | false => exact absurd rfl h
      | true => rfl
  | inf q => cases x <;> rfl

end

/-! ### Every instruction that delivers a result -/

theorem comes_longInteger {s : State} {d : FpDst} {n : Reg} (hal : ((Src.reg n).isEven && d.fits .long) = true) :
    Comes (.cvtilr (.reg n) d) .long d none (integerOutcome (getReg s (n + 1#5) ++ getReg s n).toInt) s :=
  comes_integer (exec_cvtilr hal)

/-- An instruction that delivers a nonzero result goes by the outcome `value`, with the arithmetic status it writes. -/
theorem Delivers.comes {f : Fmt} {d : FpDst} {s : State} {i : Instr} {ac : Word} {e : Rat}
    (h : Delivers f d s i ac e) (he : e ≠ 0) : ∃ st, Comes i f d st (.value e) s ∧ ac = statusAc st s.ac := by
  have value {n : Int} (hn : (n : Rat) ≠ 0) : integerOutcome n = .value n :=
    integerOutcome_value (by exact_mod_cast hn)
  cases h with
  | basic hp ha hb hal => exact ⟨none, comes_basic hp ha hb hal he, rfl⟩
  | scale hp ha hal => exact ⟨none, comes_scale _ hp hal ha.operand, rfl⟩
  | function hp ha hal => exact ⟨none, comes_function _ hp ha hal, rfl⟩
  | integer hf =>
    subst hf
    exact ⟨none, value he ▸ comes_integer rfl, rfl⟩
  | longInteger hf hal =>
    subst hf
    exact ⟨none, value he ▸ comes_longInteger hal, rfl⟩
  | round hp ha hal hge => exact ⟨none, roundOutcome_large hge ▸ comes_round _ hp hal ha.operand, rfl⟩
  | root hp ha hal h0 =>
    exact ⟨none, sqrtOutcome_pos h0 ▸ comes_sqrt _ hp hal ha.operand, rfl⟩
  | remainder hp ha hb hal hr => exact ⟨_, comes_remainder hp hal ha hb ha.ne_zero hr he, rfl⟩
  | unreduced hp ha hb hal => exact ⟨_, comes_unreduced hp hal ha hb, rfl⟩
  | power hp ha hal hk => exact ⟨none, comes_power hp ha hal hk, rfl⟩
  | exponent hp ha hal hv hlow => exact ⟨none, comes_exponent hp ha hal hv hlow, rfl⟩
  | lowExponent hp ha hal hlow => exact ⟨none, comes_lowExponent hp ha hal hlow, rfl⟩
  | powerLog hp ha hb hal hk => exact ⟨none, logOutcome_power hk _ ▸ comes_log _ hp hal ha.operand hb.operand, rfl⟩
  | log hp ha hb hal h0 hk => exact ⟨none, logOutcome_other h0 hk _ ▸ comes_log _ hp hal ha.operand hb.operand, rfl⟩
  | powerLogEpsilon hp ha hb hal =>
    exact ⟨none, logepOutcome_power _ _ ▸ comes_logep _ hp hal ha.operand hb.operand, rfl⟩
  | logEpsilon hp ha hb hal h1 hk =>
    exact ⟨none, logepOutcome_other h1 hk _ ▸ comes_logep _ hp hal ha.operand hb.operand, rfl⟩
  | arctangent hp ha hb hal harc =>
    exact ⟨none, atanOutcome_value harc ▸ comes_atan _ hp hal ha.operand hb.operand, rfl⟩

end Sys2Proof.Claims

namespace Sys2Proof.Proofs
open Sys2Proof.Machine Sys2Proof.Claims

/-- Settles O49: each instruction that delivers a result goes by the rule of `deliver`. -/
theorem maskedOverflowAndUnderflow : Obligations.MaskedOverflowAndUnderflow := by
  unfold Obligations.MaskedOverflowAndUnderflow
  intro f d s i ac e h he
  obtain ⟨st, hc, rfl⟩ := h.comes he
  exact ⟨hc.endsRounded, hc.overflow, hc.underflow he⟩

/-- Settles O50: the same delivery with the masks clear. -/
theorem unmaskedFpFaults : Obligations.UnmaskedFpFaults := by
  unfold Obligations.UnmaskedFpFaults
  rintro f d s i ac e _ h he rfl
  obtain ⟨st, hc, rfl⟩ := h.comes he
  exact ⟨hc.overflowFault he, hc.underflowFault he, fun hr => (hc.endsRounded hr).inexactFault⟩

end Sys2Proof.Proofs
end

section
/-! PROOFS. Exponents and scaling: results that no destination represents, and massive overflow (R332, R366 to R374). -/
namespace Sys2Proof.Claims
open Sys2Proof.Machine

/-! ### Results of more significant bits than the destination has -/

theorem roundP_of_onGrid {f : Fmt} {m : RoundMode} {v : Rat} (h : OnGrid f v) : roundP m v (precision f) = v := by
  obtain ⟨n, hn⟩ := h
  rw [← ulp_eq] at hn
  rw [roundP_eq]
  calc roundGrid m v (pow2 (floorLog2 v - precision f + 1))
      = roundGrid m (pow2 (floorLog2 v - precision f + 1) * n) (pow2 (floorLog2 v - precision f + 1)) := by rw [← hn]
    _ = v := (roundGrid_self m (pow2_pos _) n).trans hn.symm

theorem isWide_iff {v : Rat} : isWide v = true ↔ v ≠ 0 ∧ ¬ OnGrid .ext v := by
  unfold isWide
  rw [Bool.and_eq_true, decide_eq_true_iff, decide_eq_true_iff]
  refine and_congr_right fun hv => not_congr ⟨fun h => ?_, roundP_of_onGrid⟩
  rw [← h]
  exact onGrid_roundP .ext .zero hv

theorem not_onGrid_signed {f : Fmt} {v : Rat} (hv : v ≠ 0) (h : ¬ OnGrid f v) (neg : Bool) : ¬ OnGrid f (signed neg v) := by
  rcases signed_cases neg v with e | e <;> rw [e]
  · exact h
  · intro hn
    exact h (by simpa using hn.neg (neg_ne_zero.mpr hv))

/-- A value of an uninterpreted function is represented in no format, if the one that stands in for it is not. -/
theorem constrained_wide {neg : Bool} {ok : Rat → Bool} {alt raw : Rat} (halt : isWide alt = true) (f : Fmt) :
    constrained neg ok alt raw ≠ 0 ∧ ¬ OnGrid f (constrained neg ok alt raw) := by
  have key {v : Rat} (h : isWide v = true) (n : Bool) : signed n v ≠ 0 ∧ ¬ OnGrid f (signed n v) := by
    obtain ⟨h0, hg⟩ := isWide_iff.mp h
    refine ⟨?_, fun hn => not_onGrid_signed h0 hg n hn.ext⟩
    rcases signed_cases n v with e | e <;> rw [e]
    · exact h0
    · exact neg_ne_zero.mpr h0
  unfold constrained
  split
  · next h =>
    rw [Bool.and_eq_true] at h
    have habs : isWide (ratAbs raw) = true := by
      obtain ⟨h0, hg⟩ := isWide_iff.mp h.1
      rw [ratAbs_eq, isWide_iff]
      refine ⟨abs_ne_zero.mpr h0, ?_⟩
      rcases abs_choice raw with e | e <;> rw [e]
      · exact hg
      · exact not_onGrid_signed h0 hg true
    exact key habs neg
  · exact key halt neg

theorem isWide_mul_pow2 {v : Rat} (h : isWide v = true) (k : Int) : isWide (v * pow2 k) = true := by
  obtain ⟨h0, hg⟩ := isWide_iff.mp h
  have hne := mul_ne_zero h0 (pow2_ne_zero k)
  refine isWide_iff.mpr ⟨hne, fun hk => hg ?_⟩
  have hback := hk.mul_pow2 hne (-k)
  rwa [mul_assoc, ← pow2_add, add_neg_cancel, pow2_zero, mul_one] at hback

/-- One and a bit more than 63 places below it. -/
theorem isWide_one_add {j : Nat} (hj : 64 ≤ j) : isWide (1 + pow2 (-(j : Int))) = true := by
  have hpos := pow2_pos (-(j : Int))
  have hlt : pow2 (-(j : Int)) < 1 := by rw [← pow2_zero, pow2_lt]; omega
  have h0 : (0 : Rat) < 1 + pow2 (-(j : Int)) := by linarith
  have hexp : floorLog2 (1 + pow2 (-(j : Int))) = 0 := by
    apply floorLog2_unique <;> rw [abs_of_pos h0]
    · rw [pow2_zero]; linarith
    · rw [pow2_succ, pow2_zero]; linarith
  refine isWide_iff.mpr ⟨h0.ne', ?_⟩
  rintro ⟨n, hn⟩
  rw [hexp] at hn
  have hodd : ((2 ^ j : Nat) : Rat) + 1 = ((2 ^ (j - 63) : Nat) : Rat) * n := by
    have h1 := congrArg (pow2 (j : Int) * ·) hn
    simp only [mul_add, mul_one, ← mul_assoc, ← pow2_add, add_neg_cancel, pow2_zero] at h1
    rwa [show (j : Int) + (0 - fracBits .ext) = ((j - 63 : Nat) : Int) by
      change (j : Int) + (0 - 63) = _
      omega, pow2_nat, pow2_nat] at h1
  have hint : ((2 ^ j : Nat) : Int) + 1 = ((2 ^ (j - 63) : Nat) : Int) * n := by exact_mod_cast hodd
  rw [show j = (j - 1) + 1 by omega, show j - 1 + 1 - 63 = (j - 64) + 1 by omega, pow_succ, pow_succ] at hint
  push_cast at hint
  have h2 : (2 : Int) ∣ 1 := by
    refine (Int.dvd_add_right (Dvd.intro_left ((2 : Int) ^ (j - 1)) rfl)).mp ?_
    rw [hint]
    exact ⟨2 ^ (j - 64) * n, by ring⟩
  exact absurd h2 (by decide)

theorem isWide_wideHalf : isWide wideHalf = true := by
  have h : wideHalf = (1 + pow2 (-((79 : Nat) : Int))) * pow2 (-1) := by
    rw [add_mul, one_mul, ← pow2_add]
    rfl
  rw [h]
  exact isWide_mul_pow2 (isWide_one_add (by decide)) _

/-- 2^x - 1 for a number that is not an integer is represented in no format (R332). -/
theorem exp2m1Fn_wide (x : Rat) (f : Fmt) : exp2m1Fn x ≠ 0 ∧ ¬ OnGrid f (exp2m1Fn x) := by
  unfold exp2m1Fn
  split
  · exact constrained_wide isWide_wideHalf f
  · refine constrained_wide ?_ f
    rw [mul_comm]
    exact isWide_mul_pow2 (isWide_one_add (j := 80) (by decide)) _

/-- A lower bound that is asked of the value, and that the value standing in for it meets, holds. -/
theorem le_constrained {b alt raw : Rat} (halt : b ≤ alt) :
    b ≤ constrained false (fun r => decide (b ≤ r)) alt raw := by
  have hdef : constrained false (fun r => decide (b ≤ r)) alt raw =
      if (isWide raw && decide (b ≤ ratAbs raw)) = true then ratAbs raw else alt := rfl
  rw [hdef]
  split
  · next hok =>
    rw [Bool.and_eq_true, decide_eq_true_iff] at hok
    exact hok.2
  · exact halt

theorem exp2m1Fn_massive {x : Rat} (h : 40962 ≤ x) : pow2 40962 ≤ exp2m1Fn x := by
  have hx : ¬ x < (expMassive : Rat) := by
    unfold expMassive
    push_cast
    exact h.not_gt
  unfold exp2m1Fn
  rw [if_neg hx]
  have hbit := pow2_pos (-80)
  exact le_constrained (le_mul_of_one_le_right (pow2_pos _).le (le_add_of_nonneg_right hbit.le))

section
variable {i : Instr} {f : Fmt} {d : FpDst} {s : State} {e : Rat}

theorem abs_lt_of_tiny (he : e ≠ 0) (h : |rounded f d s e| < pow2 (eMin (destFmt f d))) :
    |e| < pow2 (eMin (destFmt f d)) := by
  have h1 := (roundP_bounds (roundMode s) he (p := precision (destFmt f d)) (Nat.succ_pos _)).1
  exact (floorLog2_le_iff he _).mp (pow2_lt.mp (h1.trans_lt h))

theorem rounded_ne_of_not_onGrid (he : e ≠ 0) (h : ¬ OnGrid (destFmt f d) e) : rounded f d s e ≠ e := fun heq =>
  h (heq ▸ onGrid_rounded (s := s) he)

/-- With every exception masked a result that the destination does not represent sets the inexact flag. -/
theorem Comes.inexactFlag (h : Comes i f d none (.value e) s) (he : e ≠ 0) (hm : AllMasked s)
    (hx : ¬ OnGrid (destFmt f d) e) :
    ∃ u, exec i s = .next (ended s.ip u) ∧ getBit u.ac fxfBit = true ∧ FpKept f d s u := by
  obtain ⟨hom, hum, -, -, hxm⟩ := hm
  have flagged {fl : Nat} {u : State} (hu : EndsWithFlag i s s.ac u fl) :
      exec i s = .next (ended s.ip u) ∧ getBit u.ac fxfBit = true := by
    obtain ⟨hnext, hac⟩ := hu.1 hxm
    exact ⟨hnext, by rw [hac, beq_self_eq_true, Bool.or_true]⟩
  by_cases ho : Overflow f d s e
  · obtain ⟨u, hu, hk, -⟩ := h.overflow ho hom
    exact ⟨u, (flagged hu).1, (flagged hu).2, hk⟩
  by_cases ht : |rounded f d s e| < pow2 (eMin (destFmt f d))
  · obtain ⟨r, u, ⟨q, n, hq, hr, -⟩, hk, -, -, hflag⟩ := h.underflow he ht hum
    have hne : r ≠ e := by
      rintro rfl
      exact hx (onGrid_of_small he (hq ▸ hr) (abs_lt_of_tiny he ht).le)
    exact ⟨u, (flagged (hflag hne)).1, (flagged (hflag hne)).2, hk⟩
  · obtain ⟨u, hu, hround, hk⟩ := h.stored ⟨he, not_lt.mp ht, ho⟩ (.inl hxm)
    obtain ⟨-, hac⟩ := hround
    refine ⟨u, hu, ?_, hk⟩
    rw [hac, decide_eq_true (rounded_ne_of_not_onGrid he hx), beq_self_eq_true, Bool.and_true, Bool.or_true]

/-- A massive result overflows every format. -/
theorem overflow_of_massive (h : pow2 40961 ≤ e) :
    Overflow f d s e ∧ pow2 40960 ≤ |rounded f d s e| := by
  have he : 0 < e := (pow2_pos _).trans_le h
  have hmax : eMax (destFmt f d) + 1 ≤ 40961 := by cases destFmt f d <;> decide
  have habs : pow2 40961 ≤ |e| := by rwa [abs_of_pos he]
  have hr : pow2 40961 ≤ |rounded f d s e| := by
    have hexp := (le_floorLog2_iff he.ne' _).mpr habs
    exact (pow2_le.mpr hexp).trans (roundP_bounds (roundMode s) he.ne' (p := precision (destFmt f d)) (Nat.succ_pos _)).1
  refine ⟨?_, (pow2_le.mpr (by decide)).trans hr⟩
  unfold Overflow
  split
  · exact (pow2_le.mpr hmax).trans hr
  · rw [largest_eq]
    exact ((maxFinite_bounds _).2.trans_le (pow2_le.mpr hmax)).trans_le habs

end

/-! ### The exponent of a massive argument (R366, D38) -/

section
variable {s : State} {a : FpSrc} {d : FpDst} {p : Fmt × (FpSrc → FpDst → Instr)}

/-- From 40962 up the result is massive and inexact. -/
theorem comes_exp_massive (hp : p ∈ exponents) {v : Rat} (ha : Number p.1 s a v)
    (hal : (a.fits p.1 && d.fits p.1) = true) (hv : 40962 ≤ v) :
    ∃ e, Comes (p.2 a d) p.1 d none (.value e) s ∧ pow2 40961 ≤ e ∧ ¬ OnGrid (destFmt p.1 d) e := by
  have hprec : (precision (destFmt p.1 d) : Int) ≤ 64 := by cases destFmt p.1 d <;> decide
  have hlow : -((precision (destFmt p.1 d) : Rat) + 2) < v := by
    have : (0 : Rat) ≤ precision (destFmt p.1 d) := Nat.cast_nonneg _
    linarith
  by_cases hint : ∃ k : Int, v = k
  · obtain ⟨k, rfl⟩ := hint
    have hk : (40962 : Int) ≤ k := by exact_mod_cast hv
    have h := comes_exp p hp (d := d) hal ha.operand
    rw [expOutcome_integer (by omega)] at h
    have hdef : exp2m1Int (precision (destFmt p.1 d)) k =
        pow2 40962 - pow2 (40962 - precision (destFmt p.1 d) - 2) := by
      unfold exp2m1Int
      rw [if_neg (by omega), min_eq_right (show expMassive ≤ k from hk)]
      rfl
    rw [hdef] at h
    refine ⟨_, h, ?_, not_onGrid_below _ _⟩
    have hhalf : pow2 40962 = 2 * pow2 40961 := pow2_succ 40961
    have hsmall : pow2 (40962 - precision (destFmt p.1 d) - 2) ≤ pow2 40961 := pow2_le.mpr (by omega)
    linarith
  · have h := comes_exponent hp (d := d) ha hal (fun k hk => hint ⟨k, hk⟩) hlow
    exact ⟨_, h, (pow2_le.mpr (by decide)).trans (exp2m1Fn_massive hv), (exp2m1Fn_wide v _).2⟩

/-- A massive overflow with the overflow mask clear: the fault with the result of a masked overflow as its data. -/
theorem Comes.massiveFault {i : Instr} {f : Fmt} {e : Rat} (h : Comes i f d none (.value e) s) (he : pow2 40961 ≤ e)
    (hx : ¬ OnGrid (destFmt f d) e) (hm : acBit s fomBit = false) :
    ∃ (g : FaultInfo) (y : Ext),
      exec i s = faultsWith g (ended s.ip { s with ip := s.ip + 4#32 }) ∧
      g.ftype = 0x04 ∧ g.subtype = (if acBit s fxmBit = true then 0x01 else 0x11) ∧ g.afi = some s.ip ∧
      g.sip = some (s.ip + 4#32) ∧ g.f1 = none ∧ g.data = some y ∧
      OverflowValue (destFmt f d) (roundMode s) false (decodeExt y) := by
  have hpos : 0 < e := (pow2_pos _).trans_le he
  obtain ⟨ho, hbig⟩ := overflow_of_massive (f := f) (d := d) (s := s) he
  obtain ⟨g, y, hg, hr, hd, -, -, hmassive⟩ := h.overflowFault hpos.ne' ho hm
  obtain ⟨h1, hval⟩ := hmassive hbig
  rw [decide_eq_false hpos.not_gt] at hval
  refine ⟨g, y, hg, hr.ftype, ?_, hr.afi, hr.sip, h1, hd, hval⟩
  split
  · next hxm => exact hr.exactBits (.inr hxm)
  · next hxm => exact hr.inexactBits (rounded_ne_of_not_onGrid hpos.ne' hx) (by simpa using hxm)

end

end Sys2Proof.Claims

namespace Sys2Proof.Proofs
open Sys2Proof.Machine Sys2Proof.Claims

/-- Settles O60: the outcome of each operand class; massive arguments give results above 2^40961. -/
theorem exponentAndScale : Obligations.ExponentAndScale := by
  unfold Obligations.ExponentAndScale
  intro s a x d
  refine ⟨fun p hp hal => ⟨fun k e ha hk he hr hq => ?_, fun v ha hv hm => ?_, fun neg ha => ?_, fun ha => ?_,
    fun ha => ?_, fun v ha hv => ?_⟩, fun p hp hal => ⟨fun v e ha he hr hq => ?_, fun neg => ⟨fun ha => ?_, fun ha => ?_⟩⟩⟩
  · subst he
    exact (comes_power hp ha hal hk).stored hr hq
  · rcases le_or_gt v (-((precision (destFmt p.1 d) : Rat) + 2)) with hlow | hlow
    · have h := comes_lowExponent hp ha hal hlow
      have hx := not_onGrid_below (destFmt p.1 d) 0
      have h0 := (floorLog2_below (p := precision (destFmt p.1 d)) (c := 0) (Nat.succ_pos _) (pow2_pos _) le_rfl).1
      rw [pow2_zero, show (0 : Int) - precision (destFmt p.1 d) - 2 = -((precision (destFmt p.1 d) : Int) + 2) by ring]
        at hx h0
      rw [neg_add_eq_sub, ← neg_sub] at h
      exact h.inexactFlag (neg_ne_zero.mpr h0.ne') hm (not_onGrid_signed h0.ne' hx true)
    · obtain ⟨h0, hx⟩ := exp2m1Fn_wide v (destFmt p.1 d)
      exact (comes_exponent hp ha hal hv hlow).inexactFlag h0 hm hx
  · exact (comes_exp p hp hal (operand_zero ha)).zero
  · exact (comes_exp p hp hal (operand_inf ha)).inf
  · have h : Comes (p.2 a d) p.1 d none (.exact (-1)) s := comes_exp p hp hal (operand_inf ha)
    obtain ⟨hg, hlo, hhi⟩ := represented_int (f := destFmt p.1 d) (n := -1) (by decide)
      (by rw [Int.cast_neg, Int.cast_one, abs_neg, abs_one, ← pow2_zero, pow2_le]; exact Int.natCast_nonneg _)
    rw [Int.cast_neg, Int.cast_one] at hg hlo hhi
    exact h.exact (by norm_num) hg hlo hhi
  · obtain ⟨e, h, he, hx⟩ := comes_exp_massive hp (d := d) ha hal hv
    have hpos : 0 < e := (pow2_pos _).trans_le he
    refine ⟨fun hm => ?_, h.massiveFault he hx⟩
    obtain ⟨u, hu, hk, hval⟩ := h.overflow (overflow_of_massive he).1 hm
    rw [decide_eq_false hpos.not_gt] at hval
    exact ⟨u, hu, hk, hval⟩
  · subst he
    exact (comes_scale (x := x) p hp hal ha.operand).stored hr hq
  · exact (comes_scale (x := x) p hp hal (operand_zero ha)).zero
  · exact (comes_scale (x := x) p hp hal (operand_inf ha)).inf

end Sys2Proof.Proofs
end

section
/-! PROOFS. Square roots: the number delivered compares with every multiple of its last place as the root does (R296,
R300). -/
namespace Sys2Proof.Claims
open Sys2Proof.Machine

/-! ### The integer square root -/

/-- Bit by bit the root below `r + 2 ^ k` is found. -/
theorem isqrtFrom_spec {m : Nat} : ∀ {k r : Nat}, r * r ≤ m → m < (r + 2 ^ k) * (r + 2 ^ k) →
    isqrtFrom m k r * isqrtFrom m k r ≤ m ∧ m < (isqrtFrom m k r + 1) * (isqrtFrom m k r + 1)
  | 0, _, hlo, hhi => ⟨hlo, hhi⟩
  | k + 1, r, hlo, hhi => by
    unfold isqrtFrom
    split
    · next hle =>
      refine isqrtFrom_spec hle ?_
      rwa [add_assoc, ← two_mul, ← pow_succ']
    · next hlt => exact isqrtFrom_spec hlo (not_le.mp hlt)

/-! ### The number that stands in for the root -/

/-- `w` is the root of `v` and the multiple `r` of `q`, or both `w` and the root lie strictly between that multiple and
the next. -/
def StandsForRoot (v w q : Rat) (r : Nat) : Prop :=
  (w = r * q ∧ v = r * q * (r * q)) ∨
    (r * q < w ∧ w < (r + 1) * q ∧ r * q * (r * q) < v ∧ v < (r + 1) * q * ((r + 1) * q))

section
variable {v w q : Rat} {r : Nat}

/-- It lies below and above the same multiples of `q` as the root. -/
theorem StandsForRoot.compare (h : StandsForRoot v w q r) (hq : 0 < q) (j : Nat) :
    (j * q < w ↔ j * q * (j * q) < v) ∧ (w < j * q ↔ v < j * q * (j * q)) := by
  have nonneg (n : Nat) : 0 ≤ (n : Rat) * q := mul_nonneg n.cast_nonneg hq.le
  have mono {i n : Nat} (hin : i ≤ n) : (i : Rat) * q ≤ n * q ∧ (i : Rat) * q * (i * q) ≤ n * q * (n * q) := by
    have hle : (i : Rat) * q ≤ n * q := mul_le_mul_of_nonneg_right (by exact_mod_cast hin) hq.le
    exact ⟨hle, mul_self_le_mul_self (nonneg i) hle⟩
  rcases h with ⟨rfl, rfl⟩ | ⟨h1, h2, h3, h4⟩
  · exact ⟨mul_self_lt_mul_self_iff (nonneg j) (nonneg r), mul_self_lt_mul_self_iff (nonneg r) (nonneg j)⟩
  · rcases Nat.lt_or_ge r j with hj | hj
    · obtain ⟨hle, hsq⟩ := mono hj
      push_cast at hle hsq
      exact ⟨iff_of_false (h2.trans_le hle).not_gt (h4.trans_le hsq).not_gt,
        iff_of_true (h2.trans_le hle) (h4.trans_le hsq)⟩
    · obtain ⟨hle, hsq⟩ := mono hj
      exact ⟨iff_of_true (hle.trans_lt h1) (hsq.trans_lt h3),
        iff_of_false (hle.trans_lt h1).not_gt (hsq.trans_lt h3).not_gt⟩

theorem StandsForRoot.eq_iff (h : StandsForRoot v w q r) (hq : 0 < q) (j : Nat) :
    j * q = w ↔ j * q * (j * q) = v := by
  obtain ⟨hlo, hhi⟩ := h.compare hq j
  rw [eq_iff_le_not_lt, eq_iff_le_not_lt, ← not_lt, ← not_lt, hlo, hhi]

end

/-- A number of 64 bits, scaled to 140 or 141 bits, is an integer. -/
theorem scaled_integer {v : Rat} (hv : 0 < v) (hg : OnGrid .ext v) :
    ∃ m : Nat, v * pow2 (2 * (70 - floorLog2 v / 2)) = m ∧ m < 2 ^ 142 := by
  obtain ⟨n, hn⟩ := hg
  obtain ⟨-, hlt⟩ := floorLog2_spec hv.ne'
  rw [abs_of_pos hv] at hlt
  generalize floorLog2 v = L at hn hlt ⊢
  obtain ⟨n', hn'⟩ := exists_pow2_mul (a := L - fracBits .ext + 2 * (70 - L / 2)) (b := 0)
    (by change 0 ≤ L - 63 + 2 * (70 - L / 2); omega) n
  have hint : v * pow2 (2 * (70 - L / 2)) = n' := by
    rw [pow2_zero, one_mul] at hn'
    rw [← hn', pow2_add, hn]
    ring
  have hpos : (0 : Rat) ≤ n' := hint ▸ (mul_pos hv (pow2_pos _)).le
  lift n' to Nat using by exact_mod_cast hpos
  refine ⟨n', hint, ?_⟩
  have h142 : v * pow2 (2 * (70 - L / 2)) < pow2 (142 : Nat) :=
    calc v * pow2 (2 * (70 - L / 2)) < pow2 (L + 1) * pow2 (2 * (70 - L / 2)) :=
          mul_lt_mul_of_pos_right hlt (pow2_pos _)
      _ ≤ pow2 (142 : Nat) := by rw [← pow2_add, pow2_le]; push_cast; omega
  rw [hint, pow2_nat] at h142
  exact_mod_cast h142

/-- The value delivered for a root stands for it at 70 places below its leading bit (R296, log 33). -/
theorem sqrtValue_standsForRoot {v : Rat} (hv : 0 < v) (hg : OnGrid .ext v) :
    ∃ r : Nat, StandsForRoot v (sqrtValue v) (pow2 (floorLog2 v / 2 - 70)) r := by
  obtain ⟨m, hm, hlt⟩ := scaled_integer hv hg
  have hdef : sqrtValue v = if isqrtFrom m 72 0 * isqrtFrom m 72 0 = m
      then (isqrtFrom m 72 0 : Rat) * pow2 (floorLog2 v / 2 - 70)
      else ((isqrtFrom m 72 0 : Rat) + mkRat 1 2) * pow2 (floorLog2 v / 2 - 70) := by
    unfold sqrtValue
    dsimp only
    rw [hm, ← Int.cast_natCast, Rat.floor_intCast, Int.toNat_natCast, neg_sub]
  obtain ⟨hlo, hhi⟩ := isqrtFrom_spec (m := m) (k := 72) (r := 0) (Nat.zero_le m) (hlt.trans (by decide))
  set r := isqrtFrom m 72 0
  set q := pow2 (floorLog2 v / 2 - 70) with hqdef
  have hq : 0 < q := pow2_pos _
  have hvm : v = m * (q * q) := by
    rw [← hm, hqdef, mul_assoc, ← pow2_add, ← pow2_add, show 2 * (70 - floorLog2 v / 2) +
      (floorLog2 v / 2 - 70 + (floorLog2 v / 2 - 70)) = 0 by ring, pow2_zero, mul_one]
  have square (x : Rat) : x * q * (x * q) = x * x * (q * q) := by ring
  have hqq : 0 < q * q := mul_pos hq hq
  refine ⟨r, ?_⟩
  unfold StandsForRoot
  rw [hdef, square, square, hvm]
  split
  · next heq => exact .inl ⟨rfl, by rw [← heq]; push_cast; rfl⟩
  · next hne =>
    have hhalf : (mkRat 1 2 : Rat) = 1 / 2 := by norm_num [Rat.mkRat_eq_div]
    have hlt' : ((r : Rat) * r) < m := by exact_mod_cast lt_of_le_of_ne hlo hne
    have hhi' : (m : Rat) < ((r : Rat) + 1) * (r + 1) := by exact_mod_cast hhi
    rw [hhalf]
    exact .inr ⟨mul_lt_mul_of_pos_right (by linarith) hq, mul_lt_mul_of_pos_right (by linarith) hq,
      mul_lt_mul_of_pos_right hlt' hqq, mul_lt_mul_of_pos_right hhi' hqq⟩

/-- The exponent of the root is half that of the number. -/
theorem floorLog2_sqrtValue {v : Rat} (hv : 0 < v) (hg : OnGrid .ext v) :
    0 < sqrtValue v ∧ floorLog2 (sqrtValue v) = floorLog2 v / 2 := by
  obtain ⟨r, hr⟩ := sqrtValue_standsForRoot hv hg
  obtain ⟨h1, h2⟩ := floorLog2_spec hv.ne'
  rw [abs_of_pos hv] at h1 h2
  have multiple (j : Nat) : ((2 ^ j : Nat) : Rat) * pow2 (floorLog2 v / 2 - 70) = pow2 (j + (floorLog2 v / 2 - 70)) := by
    rw [← pow2_nat, ← pow2_add]
  have hlo := (hr.compare (pow2_pos _) (2 ^ 70)).2
  have hhi := (hr.compare (pow2_pos _) (2 ^ 71)).2
  rw [multiple, ← pow2_add] at hlo hhi
  have hle : pow2 (floorLog2 v / 2) ≤ sqrtValue v := by
    rw [show floorLog2 v / 2 = ((70 : Nat) : Int) + (floorLog2 v / 2 - 70) by push_cast; ring, ← not_lt, hlo, not_lt]
    exact (pow2_le.mpr (by push_cast; omega)).trans h1
  have hlt : sqrtValue v < pow2 (floorLog2 v / 2 + 1) := by
    rw [show floorLog2 v / 2 + 1 = ((71 : Nat) : Int) + (floorLog2 v / 2 - 70) by push_cast; ring, hhi]
    exact h2.trans_le (pow2_le.mpr (by push_cast; omega))
  have hpos : 0 < sqrtValue v := (pow2_pos _).trans_le hle
  exact ⟨hpos, floorLog2_unique (hle.trans_eq (abs_of_pos hpos).symm) ((abs_of_pos hpos).trans_lt hlt)⟩

/-! ### Rounding the root (R179, R300) -/

/-- Every even multiple of `q`, and the point halfway to the next, compares with the root as with the number that stands
in for it; so rounding the one to a grid of such multiples is rounding the other. -/
theorem StandsForRoot.rounds {v w q : Rat} {r : Nat} (h : StandsForRoot v w q r) (hq : 0 < q) (hw : 0 < w)
    {m : RoundMode} {c n : Nat} {x y : Rat} (hy : y = 2 * c * q) (hx : x = y * ((n + 1 : Nat) : Int))
    (hr : RoundedOn m w y ((n + 1 : Nat) : Int)) :
    (x = w ↔ x * x = v) ∧ (m = .down ∨ m = .zero → x * x ≤ v ∧ v < (x + y) * (x + y)) ∧
      (m = .up → (x - y) * (x - y) < v ∧ v ≤ x * x) ∧
      (m = .nearest → (x - y / 2) * (x - y / 2) ≤ v ∧ v ≤ (x + y / 2) * (x + y / 2)) := by
  have atMultiple (j : Nat) {z : Rat} (hz : z = j * q) :
      (z = w ↔ z * z = v) ∧ (z < w ↔ z * z < v) ∧ (w < z ↔ v < z * z) :=
    hz ▸ ⟨h.eq_iff hq j, h.compare hq j⟩
  obtain ⟨near, up, down, zero, nearest⟩ := hr
  rw [← hx] at near up down zero nearest
  push_cast at hx
  obtain ⟨heq, hlo, hhi⟩ := atMultiple (2 * c * (n + 1)) (z := x) (by rw [hx, hy]; push_cast; ring)
  obtain ⟨-, -, hnext⟩ := atMultiple (2 * c * (n + 2)) (z := x + y) (by rw [hx, hy]; push_cast; ring)
  obtain ⟨-, hprev, -⟩ := atMultiple (2 * c * n) (z := x - y) (by rw [hx, hy]; push_cast; ring)
  obtain ⟨-, hupper, -⟩ := atMultiple (2 * c * (n + 1) + c) (z := x + y / 2) (by rw [hx, hy]; push_cast; ring)
  obtain ⟨-, -, hlower⟩ := atMultiple (2 * c * n + c) (z := x - y / 2) (by rw [hx, hy]; push_cast; ring)
  obtain ⟨hnear1, hnear2⟩ := abs_lt.mp near
  refine ⟨heq, fun hm => ?_, fun hm => ?_, fun hm => ?_⟩
  · have hle : x ≤ w := by
      rcases hm with hm | hm
      · exact down hm
      · exact (le_abs_self x).trans ((zero hm).trans_eq (abs_of_pos hw))
    exact ⟨not_lt.mp (hhi.not.mp hle.not_gt), hnext.mp (by linarith)⟩
  · exact ⟨hprev.mp (by linarith), not_lt.mp (hlo.not.mp (up hm).not_gt)⟩
  · obtain ⟨h1, h2⟩ := abs_le.mp (show |x - w| ≤ y / 2 by linarith [(nearest hm).1])
    exact ⟨not_lt.mp (hlower.not.mp (by linarith)), not_lt.mp (hupper.not.mp (by linarith))⟩

section
variable {s : State} {a : FpSrc} {d : FpDst} {p : Fmt × (FpSrc → FpDst → Instr)}

/-- The root of a positive number is delivered in range, rounded to the grid of its unit in the last place. -/
theorem endsRounded_sqrt (hp : p ∈ [(Fmt.real, Instr.sqrtr), (.long, .sqrtrl)])
    (hal : (a.fits p.1 && d.fits p.1) = true) {v : Rat} (ha : Number p.1 s a v) (hv : 0 < v)
    (hlo : eMin (destFmt p.1 d) ≤ floorLog2 v / 2) (hhi : floorLog2 v / 2 < eMax (destFmt p.1 d)) :
    EndsRounded (p.2 a d) p.1 d s s.ac (sqrtValue v) := by
  obtain ⟨hpos, hexp⟩ := floorLog2_sqrtValue hv ha.spec.2
  have h := comes_sqrt p hp (d := d) hal ha.operand
  rw [sqrtOutcome_pos hv] at h
  exact h.endsRounded (inRange_of_exponent hpos.ne' (hexp ▸ hlo) (hexp ▸ hhi))

/-- The rounded root is a positive multiple of the unit in the last place. -/
theorem rounded_sqrtValue (f : Fmt) {v : Rat} (hv : 0 < v) (hg : OnGrid .ext v) :
    0 < rounded f d s (sqrtValue v) ∧ ∃ n : Nat,
      rounded f d s (sqrtValue v) = pow2 (floorLog2 v / 2 - fracBits (destFmt f d)) * ((n + 1 : Nat) : Int) ∧
      RoundedOn (roundMode s) (sqrtValue v) (pow2 (floorLog2 v / 2 - fracBits (destFmt f d))) ((n + 1 : Nat) : Int) := by
  obtain ⟨hw, hexp⟩ := floorLog2_sqrtValue hv hg
  have hpos : 0 < rounded f d s (sqrtValue v) :=
    lt_of_le_of_ne (not_lt.mp (mt (rounded_neg_iff hw.ne').mp hw.not_gt)) (rounded_ne_zero hw.ne').symm
  have hq := pow2_pos (floorLog2 v / 2 - fracBits (destFmt f d))
  obtain ⟨n, hn, hr⟩ := roundGrid_roundedOn (roundMode s) (sqrtValue v) hq
  have heq : rounded f d s (sqrtValue v) = pow2 (floorLog2 v / 2 - fracBits (destFmt f d)) * n := by
    rw [← hn, ← hexp, ← ulp_eq]
    exact roundP_eq _ _ _
  refine ⟨hpos, ?_⟩
  rw [heq] at hpos
  have h0 : 0 < n := by exact_mod_cast pos_of_mul_pos_right hpos hq.le
  obtain ⟨k, rfl⟩ := Int.eq_succ_of_zero_lt h0
  exact ⟨k, heq, hr⟩

end

end Sys2Proof.Claims

namespace Sys2Proof.Proofs
open Sys2Proof.Machine Sys2Proof.Claims

/-- Settles O53: the number delivered compares with the points that decide the rounding as the root does. -/
theorem squareRoots : Obligations.SquareRoots := by
  unfold Obligations.SquareRoots
  refine fun s a d p hp hal => ⟨fun v ha hv hlo hhi => ?_, fun v q ha hv hq => ?_, fun neg ha => ?_, fun ha => ?_⟩
  · have hg := ha.spec.2
    obtain ⟨hw, -⟩ := floorLog2_sqrtValue hv hg
    obtain ⟨r, hr⟩ := sqrtValue_standsForRoot hv hg
    obtain ⟨u, hu, hres, hk⟩ := endsRounded_sqrt hp hal ha hv hlo hhi
    obtain ⟨hpos, n, hx, hround⟩ := rounded_sqrtValue (s := s) (d := d) p.1 hv hg
    have hunit : pow2 (floorLog2 v / 2 - fracBits (destFmt p.1 d)) =
        2 * (2 ^ (69 - fracBits (destFmt p.1 d)) : Nat) * pow2 (floorLog2 v / 2 - 70) := by
      have hbits : fracBits (destFmt p.1 d) ≤ 63 := fracBits_le _
      rw [← pow2_nat, ← pow2_succ, ← pow2_add]
      congr 1
      omega
    obtain ⟨heq, hdown, hup, hnearest⟩ := hr.rounds (pow2_pos _) hw hunit hx hround
    rw [propext heq.ne] at hu
    rw [decide_eq_false hw.not_gt] at hres
    exact ⟨u, _, _, hu, rfl, hres, hpos, hdown, hup, hnearest, hk⟩
  · subst hq
    obtain ⟨r, hr⟩ := sqrtValue_standsForRoot hv ha.spec.2
    refine ⟨(floorLog2_sqrtValue hv ha.spec.2).1, ?_⟩
    rcases hr with ⟨hw, hroot⟩ | hbetween
    · exact .inl (by rw [hw, ← hroot])
    · exact .inr ⟨r, hbetween⟩
  · exact (comes_sqrt p hp hal (operand_zero ha)).zero
  · exact (comes_sqrt p hp hal (operand_inf ha)).inf

end Sys2Proof.Proofs
end

section
/-! PROOFS. Branches (R321 to R324, R393, R394, R541). -/
namespace Sys2Proof.Claims
open Sys2Proof.Machine

/-- A branch that branches leaves its target in IP and the branch event. -/
theorem finish_branchTo (s : State) (target : Word) :
    ∃ u, finish s (.ok (branchTo target s)) = .next (ended s.ip u) ∧ u.ip = target ∧ EventOnly .branch s u ∧
      u.ac = s.ac ∧ Kept nothing nothing nothing s u := by
  refine ⟨_, finish_done s _, by simp, ?_, by simp, (kept_withIp s target).trans ?_⟩
  · exact (eventOnly_signalIfEnabled .branch { s with ip := target }).congr rfl rfl rfl rfl
  · exact Kept.of_fields (by simp) (fun k => by simp [getFp]) (by simp) (by simp) (sameSystem_signalIfEnabled _ _)

/-- An instruction that only goes on to the next one changes nothing but IP. -/
theorem finish_next4_same (s : State) :
    ∃ u, finish s (.ok (next4 s)) = .next (ended s.ip u) ∧ u.ip = s.ip + 4#32 ∧ SameControls s u ∧ u.ac = s.ac ∧
      Kept nothing nothing nothing s u :=
  ⟨_, finish_next4 s s, rfl, ⟨rfl, rfl⟩, rfl, kept_withIp s _⟩

theorem conditionHolds_iff (m cc : BitVec 3) : conditionHolds m cc = true ↔ Holds m cc := by
  simp [conditionHolds, Holds]

theorem exec_condBranches : ∀ p ∈ condBranches, ∀ t s, exec (p.2 t) s = finish s (ruleBranchIf p.1 t s) := by
  simp only [condBranches, List.forall_mem_cons, List.not_mem_nil, false_imp_iff, implies_true, and_true]
  and_intros
  all_goals exact fun _ _ => rfl

section
variable {m : BitVec 3} {t : CtrlDisp} {s : State}

theorem ruleBranchIf_taken (h : Holds m (acCc s)) : ruleBranchIf m t s = .ok (branchTo (ctrlTarget s t) s) :=
  congrArg Except.ok (if_pos ((conditionHolds_iff m _).mpr h))

theorem ruleBranchIf_notTaken (h : ¬ Holds m (acCc s)) : ruleBranchIf m t s = .ok (next4 s) :=
  congrArg Except.ok (if_neg (mt (conditionHolds_iff m _).mp h))

end

end Sys2Proof.Claims

namespace Sys2Proof.Proofs
open Sys2Proof.Machine Sys2Proof.Claims

/-- Settles O23: an unconditional branch branches, a conditional one does so or goes on, by its condition. -/
theorem branches : Obligations.Branches := by
  unfold Obligations.Branches
  refine fun s => ⟨fun t => ?_, fun m => finish_branchTo s _, fun p hp t => ⟨fun h => ?_, fun h => ?_⟩,
    by decide, by decide, by decide⟩
  · rw [← ctrlTarget_eq]
    exact finish_branchTo s _
  · rw [exec_condBranches p hp, ruleBranchIf_taken h, ← ctrlTarget_eq]
    exact finish_branchTo s _
  · rw [exec_condBranches p hp, ruleBranchIf_notTaken h]
    exact finish_next4_same s

end Sys2Proof.Proofs
end

section
/-! PROOFS. Floating-point comparisons (R310 to R315). -/
namespace Sys2Proof.Claims
open Sys2Proof.Machine

/-! ### Places on the extended real line (R311) -/

/-- The place of an operand as its rule sees it. -/
def placeOf (x : Arg) : Option (Int × Rat) :=
  match x with
  | .zero _ => some (0, 0)
  | .num v => some (0, v)
  | .inf neg => some (if neg then -1 else 1, 0)
  | .nan => none

theorem placeOf_toArg (x : FVal) : placeOf (toArg x) = onLine x := by
  cases x <;> rfl

/-- The ordering of two places: by side, then by value. -/
def placeOrd (p q : Int × Rat) : Ordering := (compare p.1 q.1).then (ratOrd p.2 q.2)

theorem ratOrd_self (v : Rat) : ratOrd v v = .eq := by
  simp [ratOrd]

theorem placeOrd_self (p : Int × Rat) : placeOrd p p = .eq := by
  simp [placeOrd, ratOrd_self]

theorem lineOrd_eq_placeOrd {x y : Arg} {p q : Int × Rat} (hx : placeOf x = some p) (hy : placeOf y = some q) :
    lineOrd x y = placeOrd p q := by
  cases x with
  | nan => cases hx
  | zero _ =>
    cases hx
    cases y with
    | nan => cases hy
    | zero _ => cases hy; exact (placeOrd_self _).symm
    | num _ => cases hy; rfl
    | inf neg => cases hy; cases neg <;> rfl
  | num _ =>
    cases hx
    cases y with
    | nan => cases hy
    | zero _ | num _ => cases hy; rfl
    | inf neg => cases hy; cases neg <;> rfl
  | inf side =>
    cases hx
    cases y with
    | nan => cases hy
    | zero _ | num _ => cases hy; cases side <;> rfl
    | inf neg => cases hy; cases side <;> cases neg <;> rfl

theorem placeOrd_of_above {p q : Int × Rat} (h : Above p q) : placeOrd p q = .gt := by
  rcases h with h | ⟨h, hv⟩
  · rw [placeOrd, compare_gt_iff_gt.mpr h]
    rfl
  · rw [placeOrd, h, compare_eq_iff_eq.mpr rfl]
    simp [ratOrd, hv.not_gt, hv.ne']

theorem placeOrd_of_below {p q : Int × Rat} (h : Above q p) : placeOrd p q = .lt := by
  rcases h with h | ⟨h, hv⟩
  · rw [placeOrd, compare_lt_iff_lt.mpr h]
    rfl
  · rw [placeOrd, h, compare_eq_iff_eq.mpr rfl]
    simp [ratOrd, hv]

/-! ### The rule of the comparisons -/

section
variable {f : Fmt} {ordered : Bool} {s : State} {a b : FpSrc}

theorem isNan_of_onLine {x : FVal} {p : Int × Rat} (h : onLine x = some p) : isNan x = false := by
  cases x <;> simp [onLine, isNan, nanPart] at h ⊢

theorem ruleCompare_usable (hal : (a.fits f && b.fits f) = true) (ha : Usable f s a) (hb : Usable f s b) :
    ruleCompare f ordered a b s = .ok (if isNan (fetch f s a) || isNan (fetch f s b) then
      unordered (ordered || isSnan (fetch f s a) || isSnan (fetch f s b)) s
      else next4 (setCc s (ordCc (lineOrd (toArg (fetch f s a)) (toArg (fetch f s b)))))) :=
  (if_pos hal).trans (checkOperands_of (List.forall_mem_cons.mpr ⟨ha, List.forall_mem_singleton.mpr hb⟩))

/-- Two operands that are not NaNs are ordered by their places (R311). -/
theorem ruleCompare_onLine {v w : Int × Rat} (hal : (a.fits f && b.fits f) = true) (ha : Usable f s a)
    (hb : Usable f s b) (hv : onLine (fetch f s a) = some v) (hw : onLine (fetch f s b) = some w) :
    ruleCompare f ordered a b s = .ok (next4 (setCc s (ordCc (placeOrd v w)))) := by
  rw [ruleCompare_usable hal ha hb, isNan_of_onLine hv, isNan_of_onLine hw,
    lineOrd_eq_placeOrd ((placeOf_toArg _).trans hv) ((placeOf_toArg _).trans hw)]
  rfl

theorem ruleCompare_unordered (hal : (a.fits f && b.fits f) = true) (ha : Usable f s a) (hb : Usable f s b)
    (h : isNan (fetch f s a) = true ∨ isNan (fetch f s b) = true) :
    ruleCompare f ordered a b s =
      .ok (unordered (ordered || isSnan (fetch f s a) || isSnan (fetch f s b)) s) := by
  rw [ruleCompare_usable hal ha hb, if_pos (Bool.or_eq_true_iff.mpr h)]

end

/-! ### What a comparison leaves -/

theorem finish_setCc (s : State) (cc : BitVec 3) :
    ∃ u, finish s (.ok (next4 (setCc s cc))) = .next (ended s.ip u) ∧ OnlyCc cc s u ∧ u.ip = s.ip + 4#32 ∧
      SameControls s u ∧ Kept nothing nothing nothing s u :=
  ⟨_, finish_next4 s _, onlyCc_of rfl, rfl, ⟨rfl, rfl⟩, (kept_withAc s _).trans (kept_withIp _ _)⟩

/-- An unordered pair that signals, the mask set: the flag is set (R197, R314). -/
theorem finish_unordered_masked {s : State} (hm : acBit s fvmBit = true) :
    ∃ u, finish s (.ok (unordered true s)) = .next (ended s.ip u) ∧ acCc u = 0b000#3 ∧ getBit u.ac fvfBit = true ∧
      (∀ k, 3 ≤ k → k ≠ fvfBit → getBit u.ac k = getBit s.ac k) ∧
      u.ip = s.ip + 4#32 ∧ SameControls s u ∧ Kept nothing nothing nothing s u := by
  have hrule : unordered true s = next4 (setCc (setAcFlag s fvfBit) 0b000#3) := if_pos hm
  obtain ⟨hcc, hbits⟩ := onlyCc_of (s := setAcFlag s fvfBit) (u := setCc (setAcFlag s fvfBit) 0b000#3) rfl
  rw [hrule]
  refine ⟨_, finish_next4 s _, hcc, (hbits _ (by decide)).trans ?_, fun k hk hne => (hbits k hk).trans ?_, rfl,
    ⟨rfl, rfl⟩, (kept_withAc s _).trans (kept_withIp _ _)⟩
  · rw [setAcFlag_ac, getBit_setBit, if_pos ⟨rfl, by decide⟩]
  · rw [setAcFlag_ac, getBit_setBit, if_neg fun h => hne h.1]

/-- An unordered pair that signals, the mask clear: the fault is taken and nothing is written (R199, R314). -/
theorem finish_unordered_unmasked {s : State} (hm : acBit s fvmBit = false) :
    finish s (.ok (unordered true s)) = faultsWith (floating 0x04 s) s := by
  unfold unordered
  rw [if_pos rfl, hm]
  rfl

end Sys2Proof.Claims

namespace Sys2Proof.Proofs
open Sys2Proof.Machine Sys2Proof.Claims

/-- Settles O56: the condition code is that of the operands' places, or of an unordered pair, which may signal. -/
theorem comparisons : Obligations.Comparisons := by
  unfold Obligations.Comparisons
  refine fun s a b p hp hal ha hb => ⟨fun v w hv hw => ?_, fun hn hq => ?_, fun hn hs => ?_⟩
  · rw [exec_compares p hp, ruleCompare_onLine hal ha hb hv hw]
    obtain ⟨u, hu, hcc, hrest⟩ := finish_setCc s (ordCc (placeOrd v w))
    refine ⟨u, hu, fun h => ?_, fun h => ?_, fun h => ?_, hrest⟩
    · rwa [placeOrd_of_above h] at hcc
    · rwa [h, placeOrd_self] at hcc
    · rwa [placeOrd_of_below h] at hcc
  · rw [exec_compares p hp, ruleCompare_unordered hal ha hb hn, hq]
    exact finish_setCc s _
  · rw [exec_compares p hp, ruleCompare_unordered hal ha hb hn, hs]
    exact ⟨finish_unordered_masked, finish_unordered_unmasked⟩

end Sys2Proof.Proofs
end

section
/-! PROOFS. The trigonometric functions: symmetry, bounds and signs of the values before rounding, and the outcomes of
zeros and of numbers (R332 to R345). -/
namespace Sys2Proof.Claims
open Sys2Proof.Machine

/-! ### Values that meet the constraints of R332 -/

theorem signed_not (neg : Bool) (v : Rat) : signed (!neg) v = -signed neg v := by cases neg <;> simp [signed]

theorem signed_pos_iff {neg : Bool} {v : Rat} (hv : 0 < v) : 0 < signed neg v ↔ neg = false := by
  cases neg <;> simp [signed, hv, hv.le]

theorem isNeg_neg {v : Rat} (hv : v ≠ 0) : isNeg (-v) = !isNeg v := by
  unfold isNeg
  rcases lt_or_gt_of_ne hv with h | h
  · simp [h, h.le]
  · simp [h, h.le]

theorem isNeg_of_pos {v : Rat} (hv : 0 < v) : isNeg v = false := decide_eq_false hv.not_gt

theorem isNeg_eq_false_iff {v : Rat} (hv : v ≠ 0) : isNeg v = false ↔ 0 < v := by
  unfold isNeg
  rw [decide_eq_false_iff_not, not_lt, hv.symm.le_iff_lt]

theorem ratAbs_neg (v : Rat) : ratAbs (-v) = ratAbs v := by rw [ratAbs_eq, ratAbs_eq, abs_neg]

section
variable {neg : Bool} {ok : Rat → Bool} {alt raw : Rat}

theorem constrained_not : constrained (!neg) ok alt raw = -constrained neg ok alt raw := signed_not _ _

/-- The sign asked of the value is its sign. -/
theorem constrained_pos_iff (halt : 0 < alt) : 0 < constrained neg ok alt raw ↔ neg = false := by
  unfold constrained
  refine signed_pos_iff ?_
  split
  · next h =>
    rw [Bool.and_eq_true] at h
    rw [ratAbs_eq]
    exact abs_pos.mpr (isWide_iff.mp h.1).1
  · exact halt

/-- An upper bound that is asked of the magnitude, and that the value standing in for it meets, holds. -/
theorem abs_constrained_le {b : Rat} (h0 : 0 ≤ alt) (halt : alt ≤ b) :
    |constrained neg (fun r => decide (r ≤ b)) alt raw| ≤ b := by
  unfold constrained
  rw [abs_signed]
  split
  · next h =>
    rw [Bool.and_eq_true, decide_eq_true_iff] at h
    rw [ratAbs_eq, abs_abs, ← ratAbs_eq]
    exact h.2
  · rwa [abs_of_nonneg h0]

end

theorem wideHalf_bounds : 0 < wideHalf ∧ wideHalf ≤ 1 ∧ wideHalf ≤ pi66 := by
  have hdef : wideHalf = pow2 (-1) + pow2 (-80) := rfl
  have hone : 1 = 2 * pow2 (-1) := by rw [← pow2_succ, neg_add_cancel, pow2_zero]
  have hpos := pow2_pos (-80)
  have hle : pow2 (-80) ≤ pow2 (-1) := pow2_le.mpr (by decide)
  have hpi : 1 ≤ pi66 := by norm_num [pi66, Rat.mkRat_eq_div]
  rw [hdef]
  exact ⟨by linarith, by linarith, by linarith⟩

theorem pi66_pos : 0 < pi66 := wideHalf_bounds.1.trans_le wideHalf_bounds.2.2

/-! ### The signs of sine, cosine and tangent (R332 items 4 and 5) -/

theorem halfTurns_neg (n d v : Rat) : halfTurns n d (-v) = halfTurns n d v := by
  unfold halfTurns
  rw [ratAbs_neg]

/-- Before the first half turn ends none is counted. -/
theorem halfTurns_eq_zero {n d v : Rat} (hn : 0 ≤ n) (hd : 0 ≤ d) (hv : 0 < v) (h : n * v < (1 - d) * pi66) :
    halfTurns n d v = 0 := by
  unfold halfTurns
  rw [ratAbs_eq, abs_of_pos hv]
  have hlt : n * v / pi66 < 1 - d := (div_lt_iff₀ pi66_pos).mpr h
  have hnonneg : 0 ≤ n * v / pi66 := div_nonneg (mul_nonneg hn hv.le) pi66_pos.le
  exact Int.floor_eq_zero_iff.mpr ⟨add_nonneg hnonneg hd, by linarith⟩

section
variable {v : Rat}

theorem sinFn_neg (hv : v ≠ 0) : sinFn (-v) = -sinFn v := by
  have hsign : sinSign (-v) = !sinSign v := by
    unfold sinSign
    rw [halfTurns_neg, isNeg_neg hv, Bool.not_xor]
  unfold sinFn
  rw [hsign, ratAbs_neg, constrained_not]

theorem cosFn_neg (v : Rat) : cosFn (-v) = cosFn v := by
  unfold cosFn cosSign
  rw [halfTurns_neg, ratAbs_neg]

theorem tanFn_neg (hv : v ≠ 0) : tanFn (-v) = -tanFn v := by
  have hsign : tanSign (-v) = !tanSign v := by
    unfold tanSign
    rw [halfTurns_neg, isNeg_neg hv, Bool.not_xor]
  unfold tanFn
  rw [hsign, ratAbs_neg, constrained_not]

theorem abs_sinFn_le (v : Rat) : |sinFn v| ≤ 1 := abs_constrained_le wideHalf_bounds.1.le wideHalf_bounds.2.1

theorem abs_cosFn_le (v : Rat) : |cosFn v| ≤ 1 := abs_constrained_le wideHalf_bounds.1.le wideHalf_bounds.2.1

theorem sinFn_pos (h0 : 0 < v) (h : v < pi66) : 0 < sinFn v := by
  refine (constrained_pos_iff wideHalf_bounds.1).mpr ?_
  unfold sinSign
  rw [halfTurns_eq_zero zero_le_one le_rfl h0 (by linarith), isNeg_of_pos h0]
  rfl

theorem cosFn_pos (h0 : 0 < v) (h : v < pi66 / 2) : 0 < cosFn v := by
  have half : (mkRat 1 2 : Rat) = 1 / 2 := by norm_num [Rat.mkRat_eq_div]
  refine (constrained_pos_iff wideHalf_bounds.1).mpr ?_
  unfold cosSign
  rw [half, halfTurns_eq_zero zero_le_one (by norm_num) h0 (by linarith)]
  rfl

theorem tanFn_pos (h0 : 0 < v) (h : v < pi66 / 2) : 0 < tanFn v := by
  refine (constrained_pos_iff wideHalf_bounds.1).mpr ?_
  unfold tanSign
  rw [halfTurns_eq_zero zero_le_two le_rfl h0 (by linarith), isNeg_of_pos h0]
  rfl

theorem sinFn_wide (v : Rat) (f : Fmt) : sinFn v ≠ 0 ∧ ¬ OnGrid f (sinFn v) := constrained_wide isWide_wideHalf f

theorem cosFn_wide (v : Rat) (f : Fmt) : cosFn v ≠ 0 ∧ ¬ OnGrid f (cosFn v) := constrained_wide isWide_wideHalf f

theorem tanFn_wide (v : Rat) (f : Fmt) : tanFn v ≠ 0 ∧ ¬ OnGrid f (tanFn v) := constrained_wide isWide_wideHalf f

end

/-! ### The arctangent (R342) -/

theorem abs_atan2Fn_le (y x : Config.FpValue) : |atan2Fn y x| ≤ pi66 :=
  abs_constrained_le wideHalf_bounds.1.le wideHalf_bounds.2.2

theorem atan2Fn_wide (y x : Config.FpValue) (f : Fmt) : atan2Fn y x ≠ 0 ∧ ¬ OnGrid f (atan2Fn y x) :=
  constrained_wide isWide_wideHalf f

theorem atan2Fn_pos_iff (y x : Config.FpValue) : 0 < atan2Fn y x ↔ arcSign y = false :=
  constrained_pos_iff wideHalf_bounds.1

theorem atan2Fn_neg {v : Rat} (hv : v ≠ 0) (x : Config.FpValue) : atan2Fn (.num (-v)) x = -atan2Fn (.num v) x := by
  unfold atan2Fn arcSign arcAbs
  dsimp only
  rw [isNeg_neg hv, ratAbs_neg, constrained_not]

/-! ### The instructions -/

section
variable {s : State} {a b : FpSrc} {d : FpDst}

theorem comes_sin_or_tan_zero {neg : Bool} : ∀ p ∈ [(Fmt.real, Instr.sinr), (.long, .sinrl), (.real, .tanr),
      (.long, .tanrl)], (a.fits p.1 && d.fits p.1) = true → Operand p.1 s a (.zero neg) →
    Comes (p.2 a d) p.1 d none (.zero neg) s := by
  simp only [List.forall_mem_cons, List.not_mem_nil, false_imp_iff, implies_true, and_true]
  exact ⟨comes_arith1 (o := sinOutcome) rfl, comes_arith1 (o := sinOutcome) rfl, comes_arith1 (o := tanOutcome) rfl,
    comes_arith1 (o := tanOutcome) rfl⟩

theorem comes_cos_zero {neg : Bool} : ∀ p ∈ [(Fmt.real, Instr.cosr), (.long, .cosrl)],
    (a.fits p.1 && d.fits p.1) = true → Operand p.1 s a (.zero neg) → Comes (p.2 a d) p.1 d none (.exact 1) s := by
  simp only [List.forall_mem_cons, List.not_mem_nil, false_imp_iff, implies_true, and_true]
  exact ⟨comes_arith1 (o := cosOutcome) rfl, comes_arith1 (o := cosOutcome) rfl⟩

/-- Sine, cosine and tangent deliver a value that no format represents (R332, R333). -/
theorem trig_functions : ∀ p ∈ [(Fmt.real, Instr.sinr), (.long, .sinrl), (.real, .cosr), (.long, .cosrl),
      (.real, .tanr), (.long, .tanrl)],
    ∃ g : Rat → Rat, (p.1, p.2, g) ∈ functions ∧ ∀ v f, g v ≠ 0 ∧ ¬ OnGrid f (g v) := by
  simp only [List.forall_mem_cons, List.not_mem_nil, false_imp_iff, implies_true, and_true]
  exact ⟨⟨sinFn, by simp [functions], sinFn_wide⟩, ⟨sinFn, by simp [functions], sinFn_wide⟩,
    ⟨cosFn, by simp [functions], cosFn_wide⟩, ⟨cosFn, by simp [functions], cosFn_wide⟩,
    ⟨tanFn, by simp [functions], tanFn_wide⟩, ⟨tanFn, by simp [functions], tanFn_wide⟩⟩

theorem FiniteSign.hasValue {f : Fmt} {neg : Bool} (h : FiniteSign f s a neg) :
    ∃ x, HasValue f s a x ∧ ∀ n, x ≠ .inf n := by
  rcases h with h | ⟨v, h, -⟩
  · exact ⟨.zero neg, h, by simp⟩
  · exact ⟨.num v, h, by simp⟩

/-- An arctangent that is delivered is inexact in every destination. -/
theorem atan_inexact {p : Fmt × (FpSrc → FpSrc → FpDst → Instr)} (hp : p ∈ [(Fmt.real, Instr.atanr), (.long, .atanrl)])
    (hal : (a.fits p.1 && b.fits p.1 && d.fits p.1) = true) (hm : AllMasked s) {y x : Config.FpValue}
    (ha : HasValue p.1 s a x) (hb : HasValue p.1 s b y) (h : HasArc y x) :
    ∃ u, exec (p.2 a b d) s = .next (ended s.ip u) ∧ getBit u.ac fxfBit = true ∧ FpKept p.1 d s u := by
  have hc := comes_atan p hp hal ha.operand hb.operand
  rw [atanOutcome_value h] at hc
  obtain ⟨h0, hx⟩ := atan2Fn_wide y x (destFmt p.1 d)
  exact hc.inexactFlag h0 hm hx

theorem atanOutcome_zero_pos {v : Rat} (hv : 0 < v) (y : Bool) : atanOutcome (.num v) (.zero y) = .zero y :=
  if_neg hv.not_gt

end

theorem one_represented (f : Fmt) : OnGrid f 1 ∧ pow2 (eMin f) ≤ |(1 : Rat)| ∧ |(1 : Rat)| < pow2 (eMax f + 1) := by
  have h := represented_int (f := f) (n := 1) one_ne_zero
    (by rw [Int.cast_one, abs_one, ← pow2_zero, pow2_le]; exact Int.natCast_nonneg _)
  rwa [Int.cast_one] at h

end Sys2Proof.Claims

namespace Sys2Proof.Proofs
open Sys2Proof.Machine Sys2Proof.Claims

/-- Settles O58: the constraints hold of each function's value, which is therefore delivered inexact. -/
theorem trigonometry : Obligations.Trigonometry := by
  unfold Obligations.Trigonometry
  refine ⟨fun v hv => ⟨sinFn_neg hv, cosFn_neg v, tanFn_neg hv, abs_sinFn_le v, abs_cosFn_le v,
    fun h0 h => ⟨sinFn_pos h0 h, fun h => ⟨cosFn_pos h0 h, tanFn_pos h0 h⟩⟩, (sinFn_wide v .ext).1,
    (cosFn_wide v .ext).1, (tanFn_wide v .ext).1⟩, fun y x hy => ⟨abs_atan2Fn_le y x, (atan2Fn_wide y x .ext).1,
    ?_, ?_⟩, fun s a b d => ⟨fun p hp neg ha hal => ?_, fun p hp neg ha hal => ?_, fun p hp v hm ha hal => ?_,
    fun p hp hal => ⟨fun y hb ha => ?_, fun w hb ha => ?_, fun hm h => ?_⟩⟩⟩
  · rintro v rfl
    have hv : v ≠ 0 := fun h => hy (h ▸ rfl)
    exact ⟨(atan2Fn_pos_iff _ x).trans (isNeg_eq_false_iff hv), atan2Fn_neg hv x⟩
  · rintro n (rfl | rfl) <;> exact atan2Fn_pos_iff _ x
  · exact (comes_sin_or_tan_zero p hp hal (operand_zero ha)).zero
  · obtain ⟨hg, hlo, hhi⟩ := one_represented (destFmt p.1 d)
    exact (comes_cos_zero p hp hal (operand_zero ha)).exact one_ne_zero hg hlo hhi
  · obtain ⟨g, hg, hwide⟩ := trig_functions p hp
    obtain ⟨h0, hx⟩ := hwide v (destFmt p.1 d)
    exact (comes_function _ hg ha hal).inexactFlag h0 hm hx
  · refine Comes.zero (st := none) ?_
    rcases ha with ha | ha | ⟨v, hv, ha⟩
    · exact comes_atan p hp hal (operand_zero ha) (operand_zero hb)
    · exact comes_atan p hp hal (operand_inf ha) (operand_zero hb)
    · rw [← atanOutcome_zero_pos hv y]
      exact comes_atan p hp hal ha.operand (operand_zero hb)
  · exact (comes_atan p hp hal (operand_inf ha) hb.operand).zero
  · rcases h with ⟨y, ⟨hb, ha | ha | ⟨v, hv, ha⟩⟩ | ⟨hb, n, ha | ha⟩⟩ | ⟨w, hb, ha | ⟨n, ha⟩⟩
    · exact atan_inexact hp hal hm (x := .zero true) (y := .zero y) ha hb (.inl rfl)
    · exact atan_inexact hp hal hm (x := .inf true) (y := .zero y) ha hb (.inr (.inl rfl))
    · exact atan_inexact hp hal hm (x := .num v) (y := .zero y) ha hb (.inr (.inr ⟨v, hv, rfl⟩))
    · exact atan_inexact hp hal hm (x := .inf n) (y := .inf y) ha hb trivial
    · obtain ⟨x, hx, -⟩ := ha.hasValue
      exact atan_inexact hp hal hm (y := .inf y) hx hb trivial
    · exact atan_inexact hp hal hm (x := .inf true) (y := .num w) ha hb (by simp [HasArc])
    · obtain ⟨x, hx, hinf⟩ := ha.hasValue
      exact atan_inexact hp hal hm (y := .num w) hx hb (hinf false)

end Sys2Proof.Proofs
end

section
/-! PROOFS. The logarithmic instructions: the exponent of an operand, and the outcomes of the logarithms by the classes of
their operands (R350 to R363). -/
namespace Sys2Proof.Claims
open Sys2Proof.Machine

/-! ### The exponents of operands (R164, R165) -/

theorem floorLog2_signed_mul {neg : Bool} {n j k : Nat} (c : Int) (hlo : 2 ^ j ≤ n) (hhi : n < 2 ^ k) :
    j + c ≤ floorLog2 (signed neg (n * pow2 c)) ∧ floorLog2 (signed neg (n * pow2 c)) < k + c := by
  have hn : (n : Rat) ≠ 0 := by exact_mod_cast ((Nat.two_pow_pos j).trans_le hlo).ne'
  have h0 : signed neg (n * pow2 c) ≠ 0 := by
    rw [← abs_ne_zero, abs_signed, abs_ne_zero]
    exact mul_ne_zero hn (pow2_ne_zero c)
  have hc := pow2_pos c
  rw [le_floorLog2_iff h0, floorLog2_le_iff h0, abs_signed, abs_mul_pow2, Nat.abs_cast, pow2_add, pow2_add, pow2_nat,
    pow2_nat]
  exact ⟨mul_le_mul_of_nonneg_right (by exact_mod_cast hlo) hc.le,
    mul_lt_mul_of_pos_right (by exact_mod_cast hhi) hc⟩

/-- The exponent of a number is from that of the least denormalized to that of the greatest number of its format. -/
theorem classify_exponent {f : Fmt} {neg : Bool} {e : Nat} {j : Bool} {frac : Nat} (he : e < 2 ^ expBits f)
    (hf : frac < 2 ^ fracBits f) {n : Bool} {v : Rat}
    (h : classify f neg e j frac = .norm n v ∨ classify f neg e j frac = .denorm n v) :
    eMin f - fracBits f ≤ floorLog2 v ∧ floorLog2 v ≤ eMax f := by
  have hmin : eMin f ≤ eMax f := by cases f <;> decide
  unfold classify at h
  dsimp only at h
  split_ifs at h with h0 _ hfrac _ hmax
  · rcases h with h | h <;> cases h
  · rcases h with h | h <;> cases h
  · cases h.resolve_left (by simp)
    obtain ⟨hlo, hhi⟩ := floorLog2_signed_mul (neg := neg) (j := 0) (eMin f - fracBits f)
      (Nat.one_le_iff_ne_zero.mpr hfrac) hf
    constructor <;> omega
  · rcases h with h | h <;> cases h
  · rcases h with h | h <;> cases h
  · rcases h with h | h <;> cases h
  · rcases h with h | h <;> cases h
  · cases h.resolve_right (by simp)
    obtain ⟨hlo, hhi⟩ := floorLog2_signed_mul (neg := neg) (n := 2 ^ fracBits f + frac) (k := fracBits f + 1)
      ((e : Int) - expBias f - fracBits f) (Nat.le_add_right _ _) (by rw [pow_succ]; omega)
    have hbias : expMax f = 2 * expBias f + 1 := by cases f <;> decide
    have hbits : 2 ^ expBits f = expMax f + 1 := by cases f <;> decide
    unfold eMin eMax
    constructor <;> omega

theorem fetch_exponent {f : Fmt} {s : State} {a : FpSrc} {n : Bool} {v : Rat}
    (h : fetch f s a = .norm n v ∨ fetch f s a = .denorm n v) :
    eMin .ext - fracBits .ext ≤ floorLog2 v ∧ floorLog2 v ≤ eMax .ext := by
  have widen {g : Fmt} (h : eMin g - fracBits g ≤ floorLog2 v ∧ floorLog2 v ≤ eMax g) :
      eMin .ext - fracBits .ext ≤ floorLog2 v ∧ floorLog2 v ≤ eMax .ext := by
    have hlo : eMin .ext - fracBits .ext ≤ eMin g - fracBits g := by cases g <;> decide
    have hhi : eMax g ≤ eMax .ext := by cases g <;> decide
    exact ⟨hlo.trans h.1, h.2.trans hhi⟩
  cases a with
  | zero => rcases h with h | h <;> cases h
  | one =>
    cases h.resolve_right nofun
    rw [← pow2_zero, floorLog2_pow2]
    decide
  | fpr k => exact widen (classify_exponent (f := .ext) (BitVec.isLt _) (BitVec.isLt _) h)
  | reg r =>
    cases f with
    | real => exact widen (classify_exponent (f := .real) (BitVec.isLt _) (BitVec.isLt _) h)
    | long => exact widen (classify_exponent (f := .long) (BitVec.isLt _) (BitVec.isLt _) h)
    | ext => exact widen (classify_exponent (f := .ext) (BitVec.isLt _) (BitVec.isLt _) h)

theorem Number.exponent {f : Fmt} {s : State} {a : FpSrc} {v : Rat} (h : Number f s a v) :
    eMin .ext - fracBits .ext ≤ floorLog2 v ∧ floorLog2 v ≤ eMax .ext := by
  rcases h with ⟨n, h⟩ | ⟨-, n, h⟩
  · exact fetch_exponent (.inl h)
  · exact fetch_exponent (.inr h)

/-- The exponent of an operand, where it is not 0, is a number of every format. -/
theorem exponent_represented {f : Fmt} {s : State} {a : FpSrc} {v : Rat} (h : Number f s a v) (h0 : floorLog2 v ≠ 0)
    (F : Fmt) : OnGrid F (floorLog2 v : Rat) ∧ pow2 (eMin F) ≤ |(floorLog2 v : Rat)| ∧
      |(floorLog2 v : Rat)| < pow2 (eMax F + 1) := by
  obtain ⟨hlo, hhi⟩ := h.exponent
  have hmin : eMin .ext - fracBits .ext = -16445 := rfl
  have hmax : eMax .ext = 16383 := rfl
  have hbits : 2 ^ 15 ≤ 2 ^ fracBits F := Nat.pow_le_pow_right (by decide) (by cases F <;> decide)
  refine represented_int h0 ?_
  rw [pow2_nat, ← Int.cast_abs]
  have habs : |floorLog2 v| ≤ ((2 ^ fracBits F : Nat) : Int) := by
    rw [abs_le]
    constructor <;> omega
  exact_mod_cast habs

/-! ### The outcomes of the logarithms (R354, R358, R362) -/

theorem logbnOutcome_num (F : Fmt) (v : Rat) : logbnOutcome F (.num v) =
    if floorLog2 v = 0 then .zero false else .exact (floorLog2 v) := rfl

theorem ylog2xFn_wide (v w : Rat) (f : Fmt) : ylog2xFn v w ≠ 0 ∧ ¬ OnGrid f (ylog2xFn v w) :=
  constrained_wide isWide_wideHalf f

theorem ylog2xp1Fn_wide (v w : Rat) (f : Fmt) : ylog2xp1Fn v w ≠ 0 ∧ ¬ OnGrid f (ylog2xp1Fn v w) :=
  constrained_wide isWide_wideHalf f

section
variable {v : Rat}

theorem logOutcome_one (h : v = 1) (w : Rat) : logOutcome (.num v) (.num w) = .zero (isNeg w) :=
  (if_neg (by linarith)).trans (if_pos h)

theorem logOutcome_num_inf (h0 : 0 < v) (h1 : v ≠ 1) (y : Bool) :
    logOutcome (.num v) (.inf y) = .inf (y ^^ decide (v < 1)) :=
  if_neg (not_or_intro h0.not_gt h1)

theorem logOutcome_num_zero (h0 : 0 < v) (y : Bool) : logOutcome (.num v) (.zero y) = .zero (y ^^ decide (v < 1)) :=
  if_neg h0.not_gt

theorem logepOutcome_minusOne_inf (h : v = -1) (y : Bool) : logepOutcome (.num v) (.inf y) = .inf (!y) :=
  (if_neg h.not_lt).trans (if_pos h)

theorem logepOutcome_num_inf (h : -1 < v) (y : Bool) : logepOutcome (.num v) (.inf y) = .inf (y ^^ isNeg v) :=
  (if_neg h.not_gt).trans (if_neg h.ne')

theorem logepOutcome_num_zero (h : -1 < v) (y : Bool) : logepOutcome (.num v) (.zero y) = .zero (y ^^ isNeg v) :=
  if_neg h.not_ge

end

/-! ### Log binary -/

section
variable {s : State} {a b : FpSrc} {d : FpDst}

theorem logbn_leaves {p : Fmt × (FpSrc → FpDst → Instr)} (hp : p ∈ [(Fmt.real, Instr.logbnr), (.long, .logbnrl)])
    (hal : (a.fits p.1 && d.fits p.1) = true) {v : Rat} (ha : Number p.1 s a v) :
    Leaves (p.2 a d) p.1 d
      (if floorLog2 v = 0 then .zero false else .norm (decide (floorLog2 v < 0)) (floorLog2 v)) s := by
  have h := comes_logbn p hp (d := d) hal ha.operand
  rw [logbnOutcome_num] at h
  split
  · next h0 =>
    rw [if_pos h0] at h
    exact h.zero
  · next h0 =>
    rw [if_neg h0] at h
    obtain ⟨hg, hlo, hhi⟩ := exponent_represented ha h0 (destFmt p.1 d)
    have hneg : decide ((floorLog2 v : Rat) < 0) = decide (floorLog2 v < 0) := by simp
    rw [← hneg]
    exact h.exact (by exact_mod_cast h0) hg hlo hhi

/-! ### Log and log epsilon -/

variable {p : Fmt × (FpSrc → FpSrc → FpDst → Instr)} {y : Bool}

/-- An infinite Y, or a zero Y, with each class of argument that has a logarithm (R358). -/
theorem logs_special (hp : p ∈ logs) (hal : (a.fits p.1 && b.fits p.1 && d.fits p.1) = true) :
    (fetch p.1 s a = .inf false → NonzeroSign p.1 s b y → Leaves (p.2 a b d) p.1 d (.inf y) s) ∧
    (∀ z, fetch p.1 s a = .zero z → fetch p.1 s b = .inf y → Leaves (p.2 a b d) p.1 d (.inf (!y)) s) ∧
    (∀ v, Number p.1 s a v → 0 < v →
      (v ≠ 1 → fetch p.1 s b = .inf y → Leaves (p.2 a b d) p.1 d (.inf (y ^^ decide (v < 1))) s) ∧
      (fetch p.1 s b = .zero y → Leaves (p.2 a b d) p.1 d (.zero (y ^^ decide (v < 1))) s)) := by
  have log {x y : Arg} := comes_log (a := a) (b := b) (d := d) (s := s) (x := x) (y := y) p hp hal
  refine ⟨fun ha hb => ?_, fun z ha hb => ?_, fun v ha h0 => ⟨fun h1 hb => ?_, fun hb => ?_⟩⟩
  · rcases hb.operand with hy | ⟨w, hw, rfl⟩
    · exact (log (operand_inf ha) hy).inf
    · exact (log (operand_inf ha) hw).inf
  · exact (log (operand_zero ha) (operand_inf hb)).inf
  · have h := log ha.operand (operand_inf hb)
    rw [logOutcome_num_inf h0 h1] at h
    exact h.inf
  · have h := log ha.operand (operand_zero hb)
    rw [logOutcome_num_zero h0] at h
    exact h.zero

/-- An infinite Y, a zero Y, or a zero X, with each class of argument that has a logarithm (R362). -/
theorem logEpsilons_special (hp : p ∈ logEpsilons) (hal : (a.fits p.1 && b.fits p.1 && d.fits p.1) = true) :
    (fetch p.1 s a = .inf false → NonzeroSign p.1 s b y → Leaves (p.2 a b d) p.1 d (.inf y) s) ∧
    (Number p.1 s a (-1) → fetch p.1 s b = .inf y → Leaves (p.2 a b d) p.1 d (.inf (!y)) s) ∧
    (∀ x, fetch p.1 s a = .zero x → FiniteSign p.1 s b y → Leaves (p.2 a b d) p.1 d (.zero (x ^^ y)) s) ∧
    (∀ v, Number p.1 s a v → -1 < v →
      (fetch p.1 s b = .inf y → Leaves (p.2 a b d) p.1 d (.inf (y ^^ decide (v < 0))) s) ∧
      (fetch p.1 s b = .zero y → Leaves (p.2 a b d) p.1 d (.zero (y ^^ decide (v < 0))) s)) := by
  have logep {x y : Arg} := comes_logep (a := a) (b := b) (d := d) (s := s) (x := x) (y := y) p hp hal
  refine ⟨fun ha hb => ?_, fun ha hb => ?_, fun x ha hb => ?_, fun v ha h1 => ⟨fun hb => ?_, fun hb => ?_⟩⟩
  · rcases hb.operand with hy | ⟨w, hw, rfl⟩
    · exact (logep (operand_inf ha) hy).inf
    · exact (logep (operand_inf ha) hw).inf
  · have h := logep ha.operand (operand_inf hb)
    rw [logepOutcome_minusOne_inf rfl] at h
    exact h.inf
  · rcases hb.operand with hy | ⟨w, hw, rfl⟩
    · exact (logep (operand_zero ha) hy).zero
    · exact (logep (operand_zero ha) hw).zero
  · have h := logep ha.operand (operand_inf hb)
    rw [logepOutcome_num_inf h1] at h
    exact h.inf
  · have h := logep ha.operand (operand_zero hb)
    rw [logepOutcome_num_zero h1] at h
    exact h.zero

end

end Sys2Proof.Claims

namespace Sys2Proof.Proofs
open Sys2Proof.Machine Sys2Proof.Claims

/-- Settles O59: the exponent of every operand is a number of every format, and each class of argument of the logarithms
has its outcome. -/
theorem logarithms : Obligations.Logarithms := by
  unfold Obligations.Logarithms
  refine fun s a b d => ⟨fun p hp hal => ⟨fun v k ha hlo hhi => ?_, fun neg ha => ?_⟩,
    fun p hp hal => ⟨fun y k ha hb => ⟨fun hk => ?_, fun hk hr hq => ?_⟩, fun v y ha hb h0 hk hm => ?_,
      fun y => logs_special hp hal⟩,
    fun p hp hal => ⟨fun y k ha hb _ hr hq => ?_, fun v y ha hb h1 hk hm => ?_, fun y => logEpsilons_special hp hal⟩⟩
  · obtain rfl := floorLog2_unique hlo hhi
    exact logbn_leaves hp hal ha
  · exact (comes_logbn p hp hal (operand_inf ha)).inf
  · subst hk
    have h := comes_log p hp (d := d) hal ha.operand hb.operand
    rw [logOutcome_one pow2_zero] at h
    exact h.zero
  · have h := comes_log p hp (d := d) hal ha.operand hb.operand
    rw [logOutcome_power hk] at h
    exact h.stored hr hq
  · have h := comes_log p hp (d := d) hal ha.operand hb.operand
    rw [logOutcome_other h0 hk] at h
    obtain ⟨hne, hx⟩ := ylog2xFn_wide v y (destFmt p.1 d)
    exact h.inexactFlag hne hm hx
  · have h := comes_logep p hp (d := d) hal ha.operand hb.operand
    rw [logepOutcome_power] at h
    exact h.stored hr hq
  · have h := comes_logep p hp (d := d) hal ha.operand hb.operand
    rw [logepOutcome_other h1 hk] at h
    obtain ⟨hne, hx⟩ := ylog2xp1Fn_wide v y (destFmt p.1 d)
    exact h.inexactFlag hne hm hx

end Sys2Proof.Proofs
end

section
/-! PROOFS. `bal` and `balx` (R390 to R392, R542). -/
namespace Sys2Proof.Claims
open Sys2Proof.Machine

/-- The state whose call event a branch-and-link signals: under call-trace mode the prereturn-trace flag of the current
frame is set (R391). -/
def prereturnMarked (s : State) : State :=
  if traceMode s .call = true then setReg s pfpReg (getReg s pfpReg ||| 8#32) else s

theorem traceMode_setReg (s : State) (d : Reg) (v : Word) (e : TraceEvent) :
    traceMode (setReg s d v) e = traceMode s e := by
  simp [traceMode]

theorem linkEvent_eq (s : State) : linkEvent s = signalIfEnabled .call (prereturnMarked s) := by
  unfold linkEvent signalIfEnabled prereturnMarked
  by_cases h : traceMode s .call = true
  · rw [if_pos h, if_pos h, traceMode_setReg, if_pos h]
    rfl
  · rw [if_neg h, if_neg h, if_neg h]

theorem eventOnly_linkEvent (s : State) : EventOnly .call s (linkEvent s) := by
  rw [linkEvent_eq]
  refine (eventOnly_signalIfEnabled .call (prereturnMarked s)).congr ?_ ?_ ?_ ?_
  all_goals
    unfold prereturnMarked
    split <;> simp

theorem linkEvent_ac (s : State) : (linkEvent s).ac = s.ac := by
  rw [linkEvent_eq, signalIfEnabled_ac]
  unfold prereturnMarked
  split <;> simp

theorem getReg_linkEvent (s : State) (r : Reg) :
    getReg (linkEvent s) r =
      if r = pfpReg ∧ getBit s.tc 3 = true then getReg s pfpReg ||| 8#32 else getReg s r := by
  rw [linkEvent_eq, getReg_signalIfEnabled]
  unfold prereturnMarked
  change getReg (if getBit s.tc 3 = true then _ else _) r = _
  by_cases h : getBit s.tc 3 = true
  · simp only [h, if_true, getReg_setReg, and_true]
  · simp only [h, if_false, and_false, Bool.false_eq_true]

theorem kept_linkEvent (s : State) : Kept (only pfpReg) nothing nothing s (linkEvent s) := by
  have marked : Kept (only pfpReg) nothing nothing s (prereturnMarked s) := by
    unfold prereturnMarked
    split
    · exact kept_setReg s pfpReg _
    · exact Kept.of_fields (fun _ => rfl) (fun _ => rfl) rfl rfl (SameSystem.refl s)
  rw [linkEvent_eq]
  exact marked.trans (Kept.of_fields (by simp) (fun k => by simp [getFp]) (by simp) (by simp)
    (sameSystem_signalIfEnabled _ _))

/-- What a branch-and-link to `target` leaves that writes the return address `v` to the register `d` (R391, R392). -/
structure Linked (d : Reg) (v target : Word) (s u : State) : Prop where
  ip : u.ip = target
  link : getReg u d = if d = pfpReg ∧ getBit s.tc 3 = true then v ||| 8#32 else v
  pfp : d ≠ pfpReg → getReg u pfpReg =
    if getBit s.tc 3 = true then getReg s pfpReg ||| 8#32 else getReg s pfpReg
  event : EventOnly .call s u
  ac : u.ac = s.ac
  kept : Kept (fun r => r = d ∨ r = pfpReg) nothing nothing s u

/-- The state a branch-and-link leaves before the events of every instruction. -/
def linked (d : Reg) (v target : Word) (s : State) : State := { linkEvent (setReg s d v) with ip := target }

theorem linked_spec (d : Reg) (v target : Word) (s : State) : Linked d v target s (linked d v target s) where
  ip := rfl
  link := by
    refine (getReg_linkEvent (setReg s d v) d).trans ?_
    rw [setReg_tc]
    by_cases h : d = pfpReg
    · rw [← h, getReg_setReg_same]
    · simp [h]
  pfp := fun hd => by
    refine (getReg_linkEvent (setReg s d v) pfpReg).trans ?_
    rw [setReg_tc, getReg_setReg, if_neg hd.symm]
    simp
  event := (eventOnly_linkEvent (setReg s d v)).congr (by simp) (by simp) (by simp) (by simp)
  ac := (linkEvent_ac _).trans (setReg_ac s d v)
  kept := by
    have write : Kept (fun r => r = d ∨ r = pfpReg) nothing nothing s (setReg s d v) :=
      (kept_setReg s d v).mono (fun _ h => .inl h) (fun _ h => h) fun _ h => h
    have event : Kept (fun r => r = d ∨ r = pfpReg) nothing nothing (setReg s d v) (linkEvent (setReg s d v)) :=
      (kept_linkEvent _).mono (fun _ h => .inr h) (fun _ h => h) fun _ h => h
    exact (write.trans event).trans (kept_withIp _ target)

theorem exec_bal (t : CtrlDisp) (s : State) :
    exec (.bal t) s = .next (ended s.ip (linked linkReg (s.ip + 4#32) (ctrlTarget s t) s)) := rfl

theorem exec_balx (m : Addr) (d : Reg) (s : State) :
    exec (.balx m d) s =
      .next (ended s.ip (linked d (s.ip + memLength m) (wordAligned (effectiveAddr s m)) s)) := rfl

end Sys2Proof.Claims

namespace Sys2Proof.Proofs
open Sys2Proof.Machine Sys2Proof.Claims

/-- Settles O24: `bal` and `balx` are one branch-and-link (`Linked`), with g14 and with the destination as the link
register. -/
theorem branchAndLink : Obligations.BranchAndLink := by
  unfold Obligations.BranchAndLink
  refine fun s t m d => ⟨?_, ?_, by decide⟩
  · have h := linked_spec linkReg (s.ip + 4#32) (ctrlTarget s t) s
    have hne : linkReg ≠ pfpReg := by decide
    refine ⟨_, exec_bal t s, h.ip.trans (ctrlTarget_eq s t), h.link.trans (if_neg fun hc => hne hc.1),
      fun h3 => (h.pfp hne).trans (if_neg ?_), fun h3 => (h.pfp hne).trans (if_pos h3), h.event, h.ac, h.kept⟩
    rw [h3]
    decide
  · have h := linked_spec d (s.ip + memLength m) (wordAligned (effectiveAddr s m)) s
    refine ⟨_, exec_balx m d s, h.ip, fun hc => h.link.trans (if_neg ?_), fun hd h3 => h.link.trans (if_pos ⟨hd, h3⟩),
      h.pfp, h.event, h.ac, h.kept⟩
    rintro ⟨hd, h3⟩
    rcases hc with hc | hc
    · exact hc hd
    · rw [h3] at hc
      cases hc

end Sys2Proof.Proofs
end

section
/-! PROOFS. Taking a fault with a register set free, and without room for its record and frame (R382, R480, R487). -/
namespace Sys2Proof.Claims
open Sys2Proof.Machine

theorem deliverFault_noRoom {f : FaultInfo} {s : State} {entry nsp : Word} {sup : Option Word}
    (h : HandledAt f s entry nsp sup) (hroom : ¬ recordRoom nsp 48#32) :
    deliverFault f s = .error (.refused .frameOverflow) := by
  have hc : ¬ (decide (nsp.toNat + 48 < 2 ^ 32) && frameFits (nsp + faultRecordSize)) = true := by
    rw [Bool.and_eq_true, decide_eq_true_eq, frameFits_iff]
    exact hroom
  unfold deliverFault
  rw [faultHandler_of h]
  dsimp only [bind, Except.bind]
  rw [if_neg hc]
  rfl

/-- Taking a fault with a register set free: no byte of memory but those of the record changes (R383, R480). -/
theorem deliverFault_room {f : FaultInfo} {s : State} {entry nsp nfp : Word} {sup : Option Word}
    (h : HandledAt f s entry nsp sup) (hroom : recordRoom nsp 48#32) (hnfp : nfp = frameAbove (nsp + 48#32))
    (hlo : isReserved (nfp - 28#32) = false) (hm : Memory.wf s.mem = true) (ho : s.older.length ≤ 2)
    (hlay : s.params.faultRecord = defaultFaultLayout) :
    ∃ (u : State) (r2 : Word), deliverFault f s = .ok u ∧ Called entry (nsp + 48#32) 0b001#3 s u ∧
      FaultRecorded f nfp s u ∧ (∀ a, f.sip = some a → r2 = a) ∧ Pushed (setReg s ripReg r2) u ∧
      (∀ a, ¬ bytesFrom (nfp.toNat - 28) 28 a → memRead u.mem a = memRead s.mem a) ∧
      HandlerControls sup s u ∧ SameSystem s u := by
  obtain ⟨mem, stale, r2, hd, hsip, -, hn, hin, hout⟩ := deliverFault_of h hroom hnfp hlo hm hlay
  obtain ⟨u, hu, hcalled, hev, hsys, hp, hmem⟩ := callOp_record_room (target := wordAligned entry)
    (status := 0b001#3) (callerAt_fault sup s mem stale r2) hroom.2 ho
  have words : ∀ (i : Nat) (hi : i < 7), wordAt u (nfp.toNat - 28 + 4 * i) =
      (faultWords f s.pc s.ac (handlerStart sup s))[i] := fun i hi => by
    rw [← hin i hi, wordAt, hmem, hsys.params]
  refine ⟨u, r2, hd.trans hu, hcalled.unaligned, faultRecorded_of hn words, hsip, hp, fun a ha => ?_, ?_, hsys⟩
  · rw [hmem, hout a ha]
  · exact handlerControls_of (hev.congr (by simp) (by simp) (by simp) (by simp))

end Sys2Proof.Claims

namespace Sys2Proof.Proofs
open Sys2Proof.Machine Sys2Proof.Claims

/-- Settles O33: taking a fault through any usable entry, without and with room for its record and frame. -/
theorem faultDelivered : Obligations.FaultDelivered := by
  unfold Obligations.FaultDelivered
  exact fun s f entry nsp nfp sup h => ⟨deliverFault_noRoom h, fun hroom hnfp hlo _ hm ho hlay =>
    deliverFault_room h hroom hnfp hlo hm ho hlay⟩

end Sys2Proof.Proofs
end

section
/-! PROOFS. The local return and the return from a fault handler (R396 to R400, R491, R492). -/
namespace Sys2Proof.Claims
open Sys2Proof.Machine

/-! ### Returns that end with the return event (R398, R491) -/

theorem ruleRet_local {s : State} (h : (getReg s pfpReg).setWidth 3 = 0#3) :
    ruleRet s = (returnOp s >>= fun u => .ok (.done (returnEvent u))) := by
  unfold ruleRet
  rw [h]
  rfl

/-- A `ret` whose rule is the return operation, from `s` with the arithmetic controls `ac`, and then the return
event. -/
theorem exec_ret_event {s : State} {ac t : Word}
    (hrule : ruleRet s = (returnOp { s with ac := ac } >>= fun u => .ok (.done (returnEvent u))))
    (ht : t = getReg s pfpReg &&& 0xFFFFFFC0#32) (hr : Returnable t s) :
    ∃ u, exec .ret s = .next (ended s.ip u) ∧ u.ac = ac ∧ Returned t s u ∧ EventOnly .ret s u ∧ SameSystem s u := by
  obtain ⟨globals, cur, older, ip, draws, hop, hret⟩ := returnOp_returned (c := { s with ac := ac }) ht hr
  have hfrom : Returned t s { s with
      ac := ac, globals := globals, cur := cur, older := older, ip := ip, draws := draws } :=
    Returned.transfer hret rfl rfl rfl rfl rfl rfl
  refine ⟨returnEvent { s with
    ac := ac, globals := globals, cur := cur, older := older, ip := ip, draws := draws }, ?_, ?_,
    hfrom.afterEvent .ret, ?_, ?_⟩
  · change finish s (ruleRet s) = _
    rw [hrule, hop]
    exact finish_done s _
  · exact signalIfEnabled_ac .ret _
  · exact (eventOnly_signalIfEnabled .ret _).congr rfl rfl rfl rfl
  · exact SameSystem.trans (by constructor <;> rfl) (sameSystem_signalIfEnabled .ret _)

theorem exec_ret_local {s : State} {t : Word} (h : (getReg s pfpReg).setWidth 3 = 0#3)
    (ht : t = getReg s pfpReg &&& 0xFFFFFFC0#32) (hr : Returnable t s) :
    ∃ u, exec .ret s = .next (ended s.ip u) ∧ u.ac = s.ac ∧ Returned t s u ∧ EventOnly .ret s u ∧ SameSystem s u :=
  exec_ret_event (ac := s.ac) (ruleRet_local h) ht hr

/-- A PFP that does not name the newest cached frame (R383). -/
theorem returnOp_changed {s : State} {e : RegSet} {rest : List RegSet} (ho : s.older = e :: rest)
    (he : e.addr ≠ getReg s pfpReg &&& 0xFFFFFFC0#32) : returnOp s = .error (.refused .pfpChanged) := by
  have release : releaseSet (setReg s fpReg (frameAligned (getReg s pfpReg))) (frameAligned (getReg s pfpReg)) =
      .error (.refused .pfpChanged) := by
    unfold releaseSet
    rw [setReg_older, ho]
    exact if_neg he
  unfold returnOp
  dsimp only
  rw [release]

theorem exec_ret_changed {s : State} {e : RegSet} {rest : List RegSet} (h : (getReg s pfpReg).setWidth 3 = 0#3)
    (ho : s.older = e :: rest) (he : e.addr ≠ getReg s pfpReg &&& 0xFFFFFFC0#32) :
    exec .ret s = .refused .pfpChanged := by
  change finish s (ruleRet s) = _
  rw [ruleRet_local h, returnOp_changed ho he]
  rfl

/-! ### Returns that restore PC (R491, R527) -/

/-- AC and PC restored, then the return operation; `check` asks for a check of pending interrupts (R491, R527). -/
def restoreAndReturn (ac pc : Word) (check : Bool) (s : State) : Result Effect :=
  restorePc pc { retOwnEvents s.ip s with ac := ac } >>= fun c => returnOp c >>= fun u => .ok (.restored u check)

/-- A saved PC whose resume flag is set is refused (D14). -/
theorem restoreAndReturn_resume {ac pc : Word} {check : Bool} {s : State} (h : getBit pc 9 = true) :
    restoreAndReturn ac pc check s = .error (.refused .resumeFlag) := by
  unfold restoreAndReturn
  rw [show restorePc pc _ = .error (.refused .resumeFlag) from if_pos h]
  rfl

theorem restoreAndReturn_of {ac pc : Word} {check : Bool} {s : State} (h : getBit pc 9 = false) :
    restoreAndReturn ac pc check s =
      (returnOp (restoredFrom ac pc s) >>= fun u => .ok (.restored u check)) := by
  unfold restoreAndReturn
  rw [show restorePc pc _ = .ok (restoredFrom ac pc s) from if_neg (by rw [resumeFlag, h]; decide)]
  rfl

section
variable {s : State} {rec : Word}

/-- The saved AC and PC of a fault record lie 12 and 16 bytes below the frame, as R487 lays the record out. -/
theorem faultRecord_addrs (hrec : rec = getReg s fpReg &&& 0xFFFFFFC0#32)
    (hlay : s.params.faultRecord = defaultFaultLayout) :
    curFrame s - faultRecordSize + s.params.faultRecord.ac = rec - 12#32 ∧
      curFrame s - faultRecordSize + s.params.faultRecord.pc = rec - 16#32 := by
  rw [hlay, hrec]
  change curFrame s - 48#32 + 36#32 = curFrame s - 12#32 ∧ curFrame s - 48#32 + 32#32 = curFrame s - 16#32
  constructor <;> bv_omega

/-- The saved AC and PC of an interrupt record lie 12 and 16 bytes below the frame, as R520 lays the record out. -/
theorem interruptRecord_addrs (hrec : rec = getReg s fpReg &&& 0xFFFFFFC0#32)
    (hlay : s.params.interruptRecord = defaultInterruptLayout) :
    curFrame s - s.params.interruptRecord.size + s.params.interruptRecord.ac = rec - 12#32 ∧
      curFrame s - s.params.interruptRecord.size + s.params.interruptRecord.pc = rec - 16#32 := by
  rw [hlay, hrec]
  change curFrame s - 16#32 + 4#32 = curFrame s - 12#32 ∧ curFrame s - 16#32 + 0#32 = curFrame s - 16#32
  constructor <;> bv_omega

/-- A fault return in user mode restores AC alone (R491, R492). -/
theorem ruleRet_fault_user (hem : pcEm s = false) (hrec : rec = getReg s fpReg &&& 0xFFFFFFC0#32)
    (h : (getReg s pfpReg).setWidth 3 = 1#3) (hlay : s.params.faultRecord = defaultFaultLayout)
    (hac : okWord s (rec - 12#32)) :
    ruleRet s = (returnOp { s with ac := wordAt s (rec - 12#32).toNat } >>=
      fun u => .ok (.done (returnEvent u))) := by
  unfold ruleRet
  rw [h]
  change faultReturn s = _
  unfold faultReturn
  rw [hem]
  change (loadWord s _ >>= _) = _
  rw [(faultRecord_addrs hrec hlay).1, loadWord_okWord hac]
  rfl

theorem ruleRet_fault_supervisor (hem : pcEm s = true) (hrec : rec = getReg s fpReg &&& 0xFFFFFFC0#32)
    (h : (getReg s pfpReg).setWidth 3 = 1#3) (hlay : s.params.faultRecord = defaultFaultLayout)
    (hac : okWord s (rec - 12#32)) (hpc : okWord s (rec - 16#32)) :
    ruleRet s = restoreAndReturn (wordAt s (rec - 12#32).toNat) (wordAt s (rec - 16#32).toNat) false s := by
  unfold ruleRet
  rw [h]
  change faultReturn s = _
  unfold faultReturn
  rw [hem]
  change (loadWord s _ >>= _) = _
  rw [(faultRecord_addrs hrec hlay).1, loadWord_okWord hac]
  change (loadWord s _ >>= _) = _
  rw [(faultRecord_addrs hrec hlay).2, loadWord_okWord hpc]
  rfl

theorem ruleRet_interrupt_record (hem : pcEm s = true) (hrec : rec = getReg s fpReg &&& 0xFFFFFFC0#32)
    (h : (getReg s pfpReg).setWidth 3 = 7#3) (hlay : s.params.interruptRecord = defaultInterruptLayout)
    (hac : okWord s (rec - 12#32)) (hpc : okWord s (rec - 16#32)) :
    ruleRet s = restoreAndReturn (wordAt s (rec - 12#32).toNat) (wordAt s (rec - 16#32).toNat) true s := by
  unfold ruleRet
  rw [h]
  change interruptReturn s = _
  unfold interruptReturn
  rw [hem]
  change (loadWord s _ >>= _) = _
  rw [(interruptRecord_addrs hrec hlay).1, loadWord_okWord hac]
  change (loadWord s _ >>= _) = _
  rw [(interruptRecord_addrs hrec hlay).2, loadWord_okWord hpc]
  rfl

theorem sameSystem_restoredFrom (ac pc : Word) (s : State) : SameSystem s (restoredFrom ac pc s) := by
  constructor <;> simp [restoredFrom, retOwnEvents, returnEvent]

/-- The return operation with AC and PC restored: both stay as restored (R491, R527). -/
theorem returnOp_restoredFrom {t : Word} (ac pc : Word) (ht : t = getReg s pfpReg &&& 0xFFFFFFC0#32)
    (hr : Returnable t s) :
    ∃ u, returnOp (restoredFrom ac pc s) = .ok u ∧ u.pc = pc ∧ u.ac = ac ∧ Returned t s u ∧ SameSystem s u := by
  have hreg : getReg (restoredFrom ac pc s) pfpReg = getReg s pfpReg :=
    (getReg_commonEvents s.ip _ _).trans (getReg_signalIfEnabled .ret s _)
  have hold : (restoredFrom ac pc s).older = s.older := by simp [restoredFrom, retOwnEvents, returnEvent]
  have hsys := sameSystem_restoredFrom ac pc s
  obtain ⟨globals, cur, older, ip, draws, hop, hret⟩ := returnOp_returned (c := restoredFrom ac pc s) (t := t)
    (by rw [hreg]; exact ht) (by unfold Returnable; rw [hold]; exact hr)
  refine ⟨_, hop, rfl, rfl, hret.transfer ?_ hold ?_ ?_ hsys.prcbBase hsys.params,
    hsys.trans (by constructor <;> rfl)⟩
  all_goals simp [restoredFrom, retOwnEvents, returnEvent]

/-- A fault return in supervisor mode (R491). -/
theorem exec_ret_fault_supervisor {t : Word} (hem : pcEm s = true) (hrec : rec = getReg s fpReg &&& 0xFFFFFFC0#32)
    (ht : t = getReg s pfpReg &&& 0xFFFFFFC0#32) (hr : Returnable t s) (h : (getReg s pfpReg).setWidth 3 = 1#3)
    (hlay : s.params.faultRecord = defaultFaultLayout) (hac : okWord s (rec - 12#32)) (hpc : okWord s (rec - 16#32))
    (hres : getBit (wordAt s (rec - 16#32).toNat) 9 = false) :
    ∃ v, exec .ret s = .next v ∧ v.pc = wordAt s (rec - 16#32).toNat ∧ v.ac = wordAt s (rec - 12#32).toNat ∧
      Returned t s v ∧ v.lastIp = s.ip ∧ SameSystem s v := by
  obtain ⟨u, hu, upc, uac, uret, usys⟩ := returnOp_restoredFrom (wordAt s (rec - 12#32).toNat)
    (wordAt s (rec - 16#32).toNat) ht hr
  refine ⟨retire s.ip u, ?_, upc, uac, uret.retired s.ip, rfl, usys.trans SameSystem.of_fields⟩
  change finish s (ruleRet s) = _
  rw [ruleRet_fault_supervisor hem hrec h hlay hac hpc, restoreAndReturn_of hres, hu]
  rfl

/-- A fault or an interrupt return whose saved PC has the resume flag set (D14). -/
theorem exec_ret_resume (hem : pcEm s = true) (hrec : rec = getReg s fpReg &&& 0xFFFFFFC0#32)
    (hfault : s.params.faultRecord = defaultFaultLayout)
    (hint : s.params.interruptRecord = defaultInterruptLayout)
    (h : (getReg s pfpReg).setWidth 3 = 1#3 ∨ (getReg s pfpReg).setWidth 3 = 7#3) (hac : okWord s (rec - 12#32))
    (hpc : okWord s (rec - 16#32)) (hres : getBit (wordAt s (rec - 16#32).toNat) 9 = true) :
    exec .ret s = .refused .resumeFlag := by
  change finish s (ruleRet s) = _
  rcases h with h | h
  · rw [ruleRet_fault_supervisor hem hrec h hfault hac hpc, restoreAndReturn_resume hres]
    rfl
  · rw [ruleRet_interrupt_record hem hrec h hint hac hpc, restoreAndReturn_resume hres]
    rfl

end

/-! ### Returns the spec gives no meaning (D28, D41) -/

theorem exec_ret_reserved {s : State} (h : (getReg s pfpReg).setWidth 3 = 4#3 ∨
    (getReg s pfpReg).setWidth 3 = 5#3 ∨ (getReg s pfpReg).setWidth 3 = 6#3) :
    exec .ret s = .refused .reservedReturnStatus := by
  change finish s (ruleRet s) = _
  unfold ruleRet
  rcases h with h | h | h
  all_goals
    rw [h]
    rfl

theorem supervisorReturn_user {s : State} (te : Bool) (hem : pcEm s = false) :
    supervisorReturn te s = .error (.refused .returnInUserMode) := by
  unfold supervisorReturn
  rw [hem]
  rfl

theorem interruptReturn_user {s : State} (hem : pcEm s = false) :
    interruptReturn s = .error (.refused .returnInUserMode) := by
  unfold interruptReturn
  rw [hem]
  rfl

theorem exec_ret_userMode {s : State} (hem : pcEm s = false) (h : (getReg s pfpReg).setWidth 3 = 2#3 ∨
    (getReg s pfpReg).setWidth 3 = 3#3 ∨ (getReg s pfpReg).setWidth 3 = 7#3) :
    exec .ret s = .refused .returnInUserMode := by
  change finish s (ruleRet s) = _
  unfold ruleRet
  rcases h with h | h | h
  · rw [h]
    exact congrArg (finish s) (supervisorReturn_user false hem)
  · rw [h]
    exact congrArg (finish s) (supervisorReturn_user true hem)
  · rw [h]
    exact congrArg (finish s) (interruptReturn_user hem)

end Sys2Proof.Claims

namespace Sys2Proof.Proofs
open Sys2Proof.Machine Sys2Proof.Claims

/-- Settles O28: a local return is the return operation and the return event, whose frame's registers are on the chip,
in memory, or not found. -/
theorem localReturn : Obligations.LocalReturn := by
  unfold Obligations.LocalReturn
  rintro s t h ht
  refine ⟨fun e rest ho he => ?_, fun e rest ho he => exec_ret_changed h ho (ht ▸ he), fun ho hres => ?_⟩
  · have hr : Returnable t s := ⟨fun e' rest' ho' => by cases ho.symm.trans ho'; exact he,
      fun hn => nomatch ho.symm.trans hn⟩
    obtain ⟨u, hu, hac, hret, hev, hsys⟩ := exec_ret_local h ht hr
    obtain ⟨hcur, hold⟩ := hret.fromChip e rest ho
    exact ⟨u, hu, hcur, hold, hret.fp, hret.ip, hret.globals, hret.fps, hac, hret.mem, hev, hsys⟩
  · have hr : Returnable t s := ⟨fun e rest ho' => (nomatch ho.symm.trans ho'), fun _ => hres⟩
    obtain ⟨u, hu, hac, hret, hev, hsys⟩ := exec_ret_local h ht hr
    obtain ⟨hold, hcur⟩ := hret.fromMemory ho
    exact ⟨u, hu, hcur, hold, hret.fp, hret.ip, hret.globals, hret.fps, hac, hret.mem, hev, hsys⟩

/-- Settles O30: the fault return in both modes, and the refused returns. -/
theorem faultReturn : Obligations.FaultReturn := by
  unfold Obligations.FaultReturn
  refine ⟨fun s rec t h hrec ht hr hlay hac => ⟨fun hem hpc hres => ?_, fun hem => ?_⟩, fun s =>
    ⟨exec_ret_reserved, exec_ret_userMode, fun rec hrec hem hfault hint h hac hpc hres => ?_⟩⟩
  · exact exec_ret_fault_supervisor hem hrec ht hr h hlay hac hpc hres
  · exact exec_ret_event (ruleRet_fault_user hem hrec h hlay hac) ht hr
  · exact exec_ret_resume hem hrec hfault hint h hac hpc hres

end Sys2Proof.Proofs
end

section
/-! PROOFS. A return after a call (R384 to R389, R397 to R399). -/
namespace Sys2Proof.Claims
open Sys2Proof.Machine

/-! ### The end of an instruction -/

theorem getBit_signalIfEnabled_pc {i : Nat} (hi : i ≠ 10) (e : TraceEvent) (s : State) :
    getBit (signalIfEnabled e s).pc i = getBit s.pc i := by
  rw [(signalIfEnabled_bits e s).2 i]
  simp [hi]

/-- The events of a completed instruction change of PC the trace-fault-pending flag alone (R547). -/
theorem getBit_ended_pc {i : Nat} (hi : i ≠ 10) (a : Word) (u : State) :
    getBit (ended a u).pc i = getBit u.pc i := by
  change getBit (signalIfEnabled .instruction (signalBreakpoint a u)).pc i = _
  rw [getBit_signalIfEnabled_pc hi]
  unfold signalBreakpoint
  split
  · exact getBit_signalIfEnabled_pc hi _ _
  · rfl

theorem getReg_ended (a : Word) (u : State) (r : Reg) : getReg (ended a u) r = getReg u r :=
  getReg_commonEvents a u r

theorem sameSystem_ended (a : Word) (u : State) : SameSystem u (ended a u) :=
  SameSystem.of_fields (u := retire a (commonEvents a u))

theorem Returned.ended {t : Word} {s u : State} (h : Returned t s u) (a : Word) : Returned t s (ended a u) := by
  obtain ⟨tc, pc, he⟩ := commonEvents_eq a u
  have h' : Returned t s (commonEvents a u) := by
    rw [he]
    exact ⟨h.fromChip, h.fromMemory, h.fp, h.ip, h.globals, h.fps, h.mem⟩
  exact h'.retired a

/-- A return from the state at the end of an instruction, seen from before the instruction's events. -/
theorem Returned.ofEnded {a t : Word} {u w : State} (h : Returned t (Claims.ended a u) w) : Returned t u w := by
  refine h.transfer ?_ ?_ ?_ ?_ ?_ ?_
  all_goals simp [Claims.ended]

/-! ### The caller's frame -/

theorem getReg_local {s t : State} (h : t.cur = s.cur) {r : Reg} (hr : isGlobal r = false) :
    getReg t r = getReg s r := by
  unfold getReg
  simp [hr, h]

/-- The caller whose registers were pushed is where a return finds its registers (R383). -/
theorem Pushed.returnable {s u : State} {rip : Word} (h : Pushed (setReg s ripReg rip) u) (a : Word) :
    Returnable (getReg s fpReg &&& 0xFFFFFFC0#32) (ended a u) := by
  have ho : (ended a u).older = _ := (commonEvents_older a u).trans h
  refine ⟨fun e rest he => ?_, fun hn => nomatch ho.symm.trans hn⟩
  cases ho.symm.trans he
  rfl

/-- The caller is as it was before its call, but for r2, which holds the return address `rip`, and the low six bits of
FP; IP is the return address. -/
structure CallerBack (rip : Word) (s v : State) : Prop where
  ip : v.ip = rip
  regs : ∀ r, r ≠ ripReg → r ≠ fpReg → getReg v r = getReg s r
  rip : getReg v ripReg = rip
  fp : getReg v fpReg = getReg s fpReg &&& 0xFFFFFFC0#32
  fps : v.fp = s.fp
  ac : v.ac = s.ac
  mem : v.mem = s.mem
  cache : v.older = s.older
  system : SameSystem s v

/-- What a call has left, and a return to the caller's frame: the caller is back (R384, R397). -/
theorem callerBack_of_returned {target b rip : Word} {status : BitVec 3} {s u v : State}
    (called : Called target b status s u) (pushed : Pushed (setReg s ripReg rip) u) (mem : u.mem = s.mem)
    (system : SameSystem s u) (hrip : isCodeAddress rip)
    (returned : Returned (getReg s fpReg &&& 0xFFFFFFC0#32) u v) (ac : v.ac = u.ac) (system' : SameSystem u v) :
    CallerBack rip s v := by
  obtain ⟨hcur, hold⟩ := returned.fromChip _ _ pushed
  have locals : ∀ r, isGlobal r = false → getReg v r = if r = ripReg then rip else getReg s r := fun r hr =>
    (getReg_local hcur hr).trans (getReg_setReg s ripReg r rip)
  have r2 : getReg v ripReg = rip := (locals ripReg (by decide)).trans (if_pos rfl)
  refine ⟨?_, fun r h2 h15 => ?_, r2, returned.fp, returned.fps.trans called.fps, ac.trans called.ac,
    returned.mem.trans mem, hold.trans (setReg_older _ _ _), system.trans system'⟩
  · rw [returned.ip, r2]
    exact hrip
  · cases hr : isGlobal r with
    | false => exact (locals r hr).trans (if_neg h2)
    | true => exact (returned.globals r hr h15).trans (called.globals r hr h15)

/-- The same for whole instructions, with the events that end each of them. -/
theorem callerBack_ended {target b rip a a' : Word} {status : BitVec 3} {s u w : State}
    (called : Called target b status s u) (pushed : Pushed (setReg s ripReg rip) u) (mem : u.mem = s.mem)
    (system : SameSystem s u) (hrip : isCodeAddress rip)
    (returned : Returned (getReg s fpReg &&& 0xFFFFFFC0#32) (ended a u) w) (ac : w.ac = (ended a u).ac)
    (system' : SameSystem (ended a u) w) : CallerBack rip s (ended a' w) := by
  refine callerBack_of_returned called pushed mem system hrip (returned.ofEnded.ended a') ?_
    (((sameSystem_ended a u).trans system').trans (sameSystem_ended a' w))
  exact ((commonEvents_ac a' w).trans ac).trans (commonEvents_ac a u)

/-! ### `call`, `callx` and `calls`, then `ret` -/

/-- A MEM instruction is one or two words long (R131). -/
theorem memLength_words (m : Addr) : memLength m = 4#32 ∨ memLength m = 8#32 := by
  cases m <;> simp [memLength]

theorem isCodeAddress_memLength (m : Addr) : isCodeAddress (memLength m) := by
  rcases memLength_words m with h | h
  all_goals
    rw [h]
    exact rfl

theorem CallOf.isCodeAddress_len {s : State} {i : Instr} {target len : Word} (h : CallOf s i target len) :
    isCodeAddress len := by
  obtain ⟨_, -, -, rfl⟩ | ⟨m, -, -, rfl⟩ := h
  · rfl
  · exact isCodeAddress_memLength m

theorem exec_ret_after_call {s t : State} {i : Instr} {target len : Word} (hi : CallOf s i target len)
    (hip : isCodeAddress s.ip) (ho : s.older.length ≤ 2) (hx : exec i s = .next t) :
    ∃ v, exec .ret t = .next v ∧ CallerBack (s.ip + len) s v := by
  have hb : roomAt (getReg s spReg) := by
    by_contra hb
    rw [exec_call_noRoom hi hb] at hx
    cases hx
  obtain ⟨u, hu, hcalled, hp, -, hmem, hsys⟩ := exec_call_room hi hb ho
  obtain rfl : ended s.ip u = t := Host.Outcome.next.inj (hu.symm.trans hx)
  obtain ⟨w, hw, hac, hret, -, hsys'⟩ := exec_ret_local (s := ended s.ip u)
    (by rw [getReg_ended]; exact hcalled.pfpStatus) (by rw [getReg_ended]; exact hcalled.pfpFrame.symm)
    (hp.returnable s.ip)
  exact ⟨_, hw, callerBack_ended hcalled hp hmem hsys (isCodeAddress_add hip hi.isCodeAddress_len) hret hac hsys'⟩

/-- A supervisor entry called from user mode records the trace-enable flag in the return status (R388). -/
theorem SystemEntry.userStatus {n entry w b : Word} {s : State} {status : BitVec 3}
    (h : SystemEntry n s entry w b status) (hem : pcEm s = false) (ht : entry.setWidth 2 = 2#2) :
    status = if pcTe s = true then 3#3 else 2#3 := by
  obtain ⟨-, -, -, ⟨h0 | ⟨-, h1⟩, -⟩ | ⟨-, -, -, -, -, rfl⟩⟩ := h
  · rw [ht] at h0
    exact absurd h0 (by decide)
  · rw [hem] at h1
    cases h1
  · change _ = if getBit s.pc 0 = true then 3#3 else 2#3
    cases getBit s.pc 0 <;> rfl

theorem exec_ret_after_calls {s t : State} {x : Src} {entry w b : Word} {status : BitVec 3}
    (hip : isCodeAddress s.ip) (ho : s.older.length ≤ 2) (hem : pcEm s = false)
    (he : SystemEntry (srcValue s x) s entry w b status) (ht : entry.setWidth 2 = 2#2)
    (hx : exec (.calls x) s = .next t) :
    pcEm t = true ∧ ∃ v, exec .ret t = .next v ∧ CallerBack (s.ip + 4#32) s v ∧
      ∀ i, i ≠ 10 → getBit v.pc i = getBit s.pc i := by
  have hb : roomAt b := by
    by_contra hb
    rw [exec_calls_noRoom he hb] at hx
    cases hx
  obtain ⟨u, hu, hcalled, hp, hctl, hmem, hsys⟩ := exec_calls_room he hb ho
  obtain rfl : ended s.ip u = t := Host.Outcome.next.inj (hu.symm.trans hx)
  obtain ⟨hu1, -, -, hrest⟩ := (hctl.2 ht).2.2 hem
  have hem' : pcEm (ended s.ip u) = true := (getBit_ended_pc (by decide) s.ip u).trans hu1
  obtain ⟨v, hv, hret, hac, hv1, hv0, -, hvrest, -, hsys'⟩ := exec_ret_supervisor (te := pcTe s) hem'
    (by rw [getReg_ended]; exact hcalled.pfpFrame.symm) (hp.returnable s.ip)
    (by rw [getReg_ended, hcalled.pfpStatus]; exact he.userStatus hem ht)
  refine ⟨hem', _, hv, callerBack_ended hcalled hp hmem hsys (isCodeAddress_add hip rfl) hret hac hsys',
    fun i hi => (getBit_ended_pc hi _ v).trans ?_⟩
  by_cases h0 : i = 0
  · rw [h0, hv0]
    rfl
  by_cases h1 : i = 1
  · rw [h1, hv1]
    exact hem.symm
  · rw [hvrest i h0 h1 hi, getBit_ended_pc hi, hrest i h0 h1 hi]

end Sys2Proof.Claims

namespace Sys2Proof.Proofs
open Sys2Proof.Machine Sys2Proof.Claims

/-- Settles O29: the call keeps the caller's registers on the chip under the frame that its PFP names, and the return
takes them back. -/
theorem callThenReturn : Obligations.CallThenReturn := by
  unfold Obligations.CallThenReturn
  refine fun s t hip ho => ⟨fun i len hi hx => ?_, fun x entry w b status hem he ht hx => ?_⟩
  · obtain ⟨target, hi⟩ : ∃ target, CallOf s i target len := by
      obtain ⟨d, rfl, rfl⟩ | ⟨m, rfl, rfl⟩ := hi
      · exact ⟨_, .inl ⟨d, rfl, rfl, rfl⟩⟩
      · exact ⟨_, .inr ⟨m, rfl, rfl, rfl⟩⟩
    obtain ⟨v, hv, h⟩ := exec_ret_after_call hi hip ho hx
    exact ⟨v, hv, h.ip, h.regs, h.rip, h.fp, h.fps, h.ac, h.mem, h.cache, h.system⟩
  · obtain ⟨hem', v, hv, h, hpc⟩ := exec_ret_after_calls hip ho hem he ht hx
    exact ⟨hem', v, hv, h.ip, (hpc 1 (by decide)).trans hem, hpc 0 (by decide), h.regs, h.rip, h.fp, hpc, h.fps, h.ac,
      h.mem, h.cache, h.system⟩

end Sys2Proof.Proofs
end

section
/-! PROOFS. Stores at aligned addresses (R448 to R450). -/
namespace Sys2Proof.Claims
open Sys2Proof.Machine

theorem DataAllowed.of_aligned {s : State} {align n : Nat} {a : Word} (hres : isReserved a = false)
    (ha : a.toNat % align = 0) : DataAllowed s align n a := ⟨hres, .inl ha⟩

end Sys2Proof.Claims

namespace Sys2Proof.Proofs
open Sys2Proof.Machine Sys2Proof.Claims

/-- Settles O15: an aligned store is allowed under either policy, and is a run of word writes. -/
theorem stores : Obligations.Stores := by
  unfold Obligations.Stores
  rintro s m r _ hm rfl hres
  refine ⟨fun ha => ?_, fun ha hr => ?_, fun ha hr => ?_, by decide, by decide, by decide, by decide⟩
  · obtain ⟨u, hu, hs⟩ := exec_st_of r (.of_aligned hres ha) hm
    exact ⟨u, hu, hs.first (by decide), hs.ip, hs.ac, hs.controls, hs.kept⟩
  · obtain ⟨u, hu, hs⟩ := exec_stl_of (.of_aligned hres ha) hr hm
    exact ⟨u, hu, hs.first (by decide), hs.words 1 (by decide), hs.ip, hs.ac, hs.controls, hs.kept⟩
  · obtain ⟨u, hu, hs⟩ := exec_stt_of (.of_aligned hres ha) hr hm
    exact ⟨u, hu, hs.first (by decide), hs.words 1 (by decide), hs.words 2 (by decide), hs.ip, hs.ac, hs.controls,
      hs.kept⟩

end Sys2Proof.Proofs
end

section
/-! PROOFS. The instructions on the control registers: `modac`, `modtc` and `modpc` (R420, R422, R424). -/
namespace Sys2Proof.Claims
open Sys2Proof.Machine

/-! ### What writes of TC and PC, and the end of an instruction, keep -/

theorem kept_withControls {R : Reg → Prop} {F : BitVec 2 → Prop} {B : Nat → Prop} (s : State) (tc pc : Word) :
    Kept R F B s { s with tc := tc, pc := pc } :=
  Kept.of_fields (fun _ => rfl) (fun _ => rfl) rfl rfl (by constructor <;> rfl)

theorem kept_ended {R : Reg → Prop} {F : BitVec 2 → Prop} {B : Nat → Prop} (a : Word) (u : State) :
    Kept R F B u (ended a u) :=
  Kept.of_fields (getReg_ended a u) (getFp_commonEvents a u) (commonEvents_mem a u) (commonEvents_older a u)
    (sameSystem_ended a u)

/-- An instruction that writes no memory and ends with no interrupt pending: the check for one finds none (R518). -/
theorem checkPending_ended {R : Reg → Prop} {F : BitVec 2 → Prop} {s u : State} (h : Kept R F nothing s u) (a : Word)
    (hok : okWord s s.intTable) (hz : wordAt s s.intTable.toNat = 0#32) :
    checkPending (ended a u) = .ok (ended a u) := by
  have hk : Kept R F nothing s (ended a u) := h.trans (kept_ended a u)
  obtain ⟨halign, hres, hscratch⟩ := hok
  apply checkPending_zero
  · rw [hk.system.intTable]
    exact ⟨halign, hres, (scratchWord_congr hk.system.prcbBase _).trans hscratch⟩
  · rw [hk.system.intTable, hk.wordAt_eq, hz]

/-! ### `modac` and `modtc` (R422, R424) -/

/-- The mode and event flags of TC (R48). -/
theorem getBit_tcDefined (i : Nat) :
    getBit tcDefined i = (decide (1 ≤ i ∧ i ≤ 7) || decide (17 ≤ i ∧ i ≤ 23)) := by
  by_cases hi : i < 32
  · have hall : ∀ j : Fin 32, getBit tcDefined j = (decide (1 ≤ j.val ∧ j.val ≤ 7) ||
        decide (17 ≤ j.val ∧ j.val ≤ 23)) := by decide
    exact hall ⟨i, hi⟩
  · rw [getBit_ge (by omega), decide_eq_false (by omega), decide_eq_false (by omega), Bool.or_false]

section
variable (s : State) (m x : Src) (d : Reg)

theorem exec_modac : ∃ u, exec (.modac m x d) s = .next (ended s.ip u) ∧ getReg u d = s.ac ∧
    (∀ i, getBit u.ac i = if getBit (srcValue s m) i = true then getBit (srcValue s x) i else getBit s.ac i) ∧
    u.ip = s.ip + 4#32 ∧ SameControls s u ∧ Kept (only d) nothing nothing s u := by
  refine ⟨_, finish_next4 s _, getReg_setReg_same _ d s.ac, fun i => ?_, ?_, ?_,
    ((kept_withAc s _).trans (kept_setReg _ d s.ac)).trans (kept_withIp _ _)⟩
  · rw [setReg_ac]
    exact getBit_maskedUpdate _ _ _ i
  · rw [setReg_ip]
  · exact ⟨setReg_pc _ d _, setReg_tc _ d _⟩

theorem exec_modtc : ∃ u, exec (.modtc m x d) s = .next (ended s.ip u) ∧ getReg u d = s.tc ∧
    (∀ i, getBit u.tc i =
      if (getBit (srcValue s m) i && (decide (1 ≤ i ∧ i ≤ 7) || decide (17 ≤ i ∧ i ≤ 23))) = true
      then getBit (srcValue s x) i else getBit s.tc i) ∧
    u.ip = s.ip + 4#32 ∧ u.ac = s.ac ∧ u.pc = s.pc ∧ Kept (only d) nothing nothing s u := by
  refine ⟨_, finish_next4 s _, getReg_setReg_same _ d s.tc, fun i => ?_, ?_, setReg_ac _ d _, setReg_pc _ d _,
    ((kept_withControls s _ s.pc).trans (kept_setReg _ d s.tc)).trans (kept_withIp _ _)⟩
  · have hmask : getBit (srcValue s m &&& tcDefined) i = (getBit (srcValue s m) i && getBit tcDefined i) :=
      BitVec.getLsbD_and
    rw [setReg_tc, ← getBit_tcDefined, ← hmask]
    exact getBit_maskedUpdate _ _ _ i
  · rw [setReg_ip]

end

/-! ### `modpc` (R420) -/

/-- `modpc` changes of the state PC and the delay of a trace-enable change (R595). -/
theorem modifyPc_eq (pc : Word) (s : State) :
    ∃ hold old, modifyPc pc s = { s with pc := pc, teHold := hold, teOld := old } := by
  unfold modifyPc
  split
  · exact ⟨_, _, rfl⟩
  · split
    · exact ⟨_, _, rfl⟩
    · exact ⟨_, _, rfl⟩

/-- What a `modpc` leaves that makes `pc` the process controls and keeps the old ones in `d` (R420). -/
def pcModified (pc : Word) (d : Reg) (s : State) : State :=
  { setReg (modifyPc pc s) d s.pc with ip := s.ip + 4#32 }

section
variable (pc : Word) (d : Reg) (s : State)

theorem pcModified_pc : (pcModified pc d s).pc = pc := by
  obtain ⟨hold, old, he⟩ := modifyPc_eq pc s
  exact (setReg_pc _ d _).trans (by rw [he])

theorem pcModified_tc : (pcModified pc d s).tc = s.tc := by
  obtain ⟨hold, old, he⟩ := modifyPc_eq pc s
  exact (setReg_tc _ d _).trans (by rw [he])

theorem pcModified_ac : (pcModified pc d s).ac = s.ac := by
  obtain ⟨hold, old, he⟩ := modifyPc_eq pc s
  exact (setReg_ac _ d _).trans (by rw [he])

theorem getReg_pcModified : getReg (pcModified pc d s) d = s.pc := getReg_setReg_same _ d _

theorem kept_pcModified : Kept (only d) nothing nothing s (pcModified pc d s) := by
  obtain ⟨hold, old, he⟩ := modifyPc_eq pc s
  have hk : Kept (only d) nothing nothing s (modifyPc pc s) := by
    rw [he]
    exact Kept.of_fields (fun _ => rfl) (fun _ => rfl) rfl rfl (by constructor <;> rfl)
  exact (hk.trans (kept_setReg _ d s.pc)).trans (kept_withIp _ _)

end

/-- Whether tracing is seen enabled once an instruction has ended: by PC, or by the flag held back (R595). -/
theorem seenTe_ended (a : Word) (u : State) :
    seenTe (ended a u) = if u.teHold - 1 = 0 then getBit u.pc 0 else u.teOld := by
  have hpc : pcTe (ended a u) = getBit u.pc 0 := getBit_ended_pc (by decide) a u
  unfold seenTe
  rw [hpc]
  simp [ended, retire]

/-- A changed trace-enable flag is seen at once, or the flag seen before goes on being seen for a while (R595). -/
theorem seenTe_pcModified {pc : Word} {s : State} (d : Reg) (a : Word) (h : getBit pc 0 ≠ getBit s.pc 0) :
    seenTe (ended a (pcModified pc d s)) = if Config.modpcTraceDelay.val = 0 then getBit pc 0 else seenTe s := by
  rw [seenTe_ended, pcModified_pc]
  have hne : getBit pc 0 ≠ pcTe s := h
  unfold pcModified modifyPc
  rw [if_neg hne]
  by_cases hdelay : Config.modpcTraceDelay.val = 0
  · simp [hdelay]
  · simp [hdelay]

section
variable {s : State} {m : Src} (x : Src) (d : Reg)

theorem exec_modpc_read (h : srcValue s m = 0#32) : ∃ u, exec (.modpc x m d) s = .next (ended s.ip u) ∧
    getReg u d = s.pc ∧ WritesOnly (only d) s u := by
  change ∃ u, finish s (ruleModpc m d s) = _ ∧ _
  unfold ruleModpc
  dsimp only
  rw [if_pos h]
  exact finish_setReg s d s.pc

/-- In user mode a nonzero mask takes Type.Mismatch (R420, R477). -/
theorem exec_modpc_user (h : srcValue s m ≠ 0#32) (hem : pcEm s = false) : exec (.modpc x m d) s =
    faultsWith { ftype := 0x0A, subtype := 0x01, afi := some s.ip, sip := none } s := by
  change finish s (ruleModpc m d s) = _
  unfold ruleModpc
  dsimp only
  rw [if_neg h, hem]
  rfl

/-- A mask that selects a reserved bit is refused (D16). -/
theorem exec_modpc_reserved (hem : pcEm s = true) (h : srcValue s m &&& pcReserved ≠ 0#32) :
    exec (.modpc x m d) s = .refused .reservedPcBits := by
  have hm : srcValue s m ≠ 0#32 := fun h0 => h (by rw [h0, BitVec.zero_and])
  change finish s (ruleModpc m d s) = _
  unfold ruleModpc
  dsimp only
  rw [if_neg hm, hem, if_neg (by decide), if_pos h]
  rfl

section
variable {pc : Word} (hm : srcValue s m ≠ 0#32) (hem : pcEm s = true) (hres : srcValue s m &&& pcReserved = 0#32)
  (hpc : pc = maskedUpdate s.pc (srcValue s m) (getReg s d))
include hm hem hres hpc

/-- In supervisor mode PC is replaced; a lowered priority asks for a check of pending interrupts (R420, R518). -/
theorem ruleModpc_modify : ruleModpc m d s = .ok
    (if (pc.extractLsb' 16 5).toNat < (pcPriority s).toNat then .doneCheck (pcModified pc d s)
      else .done (pcModified pc d s)) := by
  unfold ruleModpc
  dsimp only
  rw [if_neg hm, hem, if_neg (by decide), if_neg (not_not.mpr hres), ← hpc]
  have hlow : (pcPriority (pcModified pc d s)).ult (pcPriority s) = true ↔
      (pc.extractLsb' 16 5).toNat < (pcPriority s).toNat := by
    rw [BitVec.ult_iff_lt, BitVec.lt_def, pcPriority, pcModified_pc]
  exact congrArg Except.ok (if_congr hlow rfl rfl)

theorem exec_modpc_lowered (hlow : (pc.extractLsb' 16 5).toNat < (pcPriority s).toNat) :
    exec (.modpc x m d) s = toOutcome (checkPending (ended s.ip (pcModified pc d s))) := by
  change finish s (ruleModpc m d s) = _
  rw [ruleModpc_modify d hm hem hres hpc, if_pos hlow]
  rfl

theorem exec_modpc_next (h : (pcPriority s).toNat ≤ (pc.extractLsb' 16 5).toNat ∨
    (okWord s s.intTable ∧ wordAt s s.intTable.toNat = 0#32)) :
    exec (.modpc x m d) s = .next (ended s.ip (pcModified pc d s)) := by
  by_cases hlow : (pc.extractLsb' 16 5).toNat < (pcPriority s).toNat
  · obtain ⟨hok, hz⟩ := h.resolve_left (by omega)
    rw [exec_modpc_lowered x d hm hem hres hpc hlow, checkPending_ended (kept_pcModified pc d s) s.ip hok hz]
    rfl
  · change finish s (ruleModpc m d s) = _
    rw [ruleModpc_modify d hm hem hres hpc, if_neg hlow]
    rfl

end

end

end Sys2Proof.Claims

namespace Sys2Proof.Proofs
open Sys2Proof.Machine Sys2Proof.Claims

/-- Settles O18: both are masked updates; the mask of `modtc` is cut down to the mode and event flags. -/
theorem modifyControls : Obligations.ModifyControls := by
  unfold Obligations.ModifyControls
  exact fun s m x d => ⟨exec_modac s m x d, exec_modtc s m x d, by decide⟩

/-- Settles O19: the branches of `modpc` by mask, mode and reserved bits; PC is determined by its bits, and a check
for pending interrupts that finds none goes on. -/
theorem modifyProcessControls : Obligations.ModifyProcessControls := by
  unfold Obligations.ModifyProcessControls
  refine fun s x m d => ⟨fun h0 => ?_, fun hm hem hres pc hbits => ?_, exec_modpc_user x d, exec_modpc_reserved x d⟩
  · obtain ⟨u, hu, hreg, hip, hac, hctl, hkept⟩ := exec_modpc_read x d h0
    exact ⟨u, hu, hreg, hip, hac, hctl, hkept⟩
  · have hpc : pc = maskedUpdate s.pc (srcValue s m) (getReg s d) :=
      getBit_ext fun i hi => (hbits i hi).trans (getBit_maskedUpdate _ _ _ i).symm
    exact ⟨pcModified pc d s, exec_modpc_next x d hm hem hres hpc, exec_modpc_lowered x d hm hem hres hpc,
      pcModified_pc pc d s, getReg_pcModified pc d s, seenTe_pcModified d s.ip, pcModified_tc pc d s,
      pcModified_ac pc d s, rfl, kept_pcModified pc d s⟩

end Sys2Proof.Proofs
end

section
/-! PROOFS. The breakpoint instructions, the fault-if instructions and `syncf` (R426, R427, R430, R440). -/
namespace Sys2Proof.Claims
open Sys2Proof.Machine

/-! ### `mark` and `fmark` (R426, R427) -/

/-- A bit of a word in which bit `i` is set, if the condition `c` holds. -/
theorem getBit_setBitIf (v : Word) (c : Bool) {i : Nat} (hi : i < 32) (j : Nat) :
    getBit (if c then setBit v i true else v) j = (getBit v j || (c && j == i)) := by
  cases c with
  | false => simp
  | true =>
    rw [if_pos rfl, getBit_setBit]
    by_cases hj : j = i
    · simp [hj, hi]
    · simp [hj]

/-- The state with the event `e` signaled, if the condition `c` holds (R547). -/
theorem signalIf_eq (c : Bool) (e : TraceEvent) (s : State) :
    (if c then signal e s else s) = { s with
      tc := if c then setBit s.tc (16 + modeBit e) true else s.tc
      pc := if c && seenTe s then setBit s.pc 10 true else s.pc } := by
  cases c with
  | false => rfl
  | true => exact signal_eq e s

theorem finish_signalIf (c : Bool) (e : TraceEvent) (s : State) :
    ∃ u, finish s (.ok (next4 (if c then signal e s else s))) = .next (ended s.ip u) ∧
      (∀ i, getBit u.tc i = (getBit s.tc i || (c && i == 16 + modeBit e))) ∧
      (∀ i, getBit u.pc i = (getBit s.pc i || (c && seenTe s && i == 10))) ∧
      u.ip = s.ip + 4#32 ∧ u.ac = s.ac ∧ Kept nothing nothing nothing s u := by
  have hbit : 16 + modeBit e < 32 := by cases e <;> decide
  rw [signalIf_eq]
  exact ⟨_, finish_next4 s _, getBit_setBitIf s.tc c hbit, getBit_setBitIf s.pc (c && seenTe s) (by decide), rfl, rfl,
    (kept_withControls s _ _).trans (kept_withIp _ _)⟩

/-! ### The fault-if instructions (R440) -/

theorem exec_faultIfs : ∀ p ∈ faultIfs, ∀ s, exec p.2 s = finish s (ruleFaultIf p.1 s) := by
  simp only [faultIfs, List.forall_mem_cons, List.not_mem_nil, false_imp_iff, implies_true, and_true]
  and_intros
  all_goals exact fun _ => rfl

section
variable {m : BitVec 3} {s : State}

theorem ruleFaultIf_taken (h : Holds m (acCc s)) :
    ruleFaultIf m s = .ok (.late { s with ip := s.ip + 4#32 } (constraintRangeFault s)) :=
  congrArg Except.ok (if_pos ((conditionHolds_iff m _).mpr h))

theorem ruleFaultIf_notTaken (h : ¬ Holds m (acCc s)) : ruleFaultIf m s = .ok (next4 s) :=
  congrArg Except.ok (if_neg (mt (conditionHolds_iff m _).mp h))

end

end Sys2Proof.Claims

namespace Sys2Proof.Proofs
open Sys2Proof.Machine Sys2Proof.Claims

/-- Settles O20: each signals the breakpoint event under its own condition. -/
theorem breakpointInstructions : Obligations.BreakpointInstructions := by
  unfold Obligations.BreakpointInstructions
  exact fun s => ⟨finish_signalIf (pcTe s && traceMode s .breakpoint) .breakpoint s,
    finish_signalIf (pcTe s) .breakpoint s, by decide, by decide⟩

/-- Settles O32: the fault is taken after the instruction has ended, if its condition holds. -/
theorem faultIfs : Obligations.FaultIfs := by
  unfold Obligations.FaultIfs
  refine fun s p hp => ⟨fun h => ?_, fun h => ?_⟩
  · rw [exec_faultIfs p hp, ruleFaultIf_notTaken h]
    obtain ⟨u, hu, -, hrest⟩ := (RegsOnly.refl nothing s).finish
    exact ⟨u, hu, hrest⟩
  · rw [exec_faultIfs p hp, ruleFaultIf_taken h]
    exact finish_late s _ _

/-- Settles O21: the rule of `syncf` is the end of an instruction of one word. -/
theorem syncfIsNoOp : Obligations.SyncfIsNoOp := by
  unfold Obligations.SyncfIsNoOp
  exact fun s => ⟨finish_next4 s s, by decide⟩

end Sys2Proof.Proofs
end

section
/-! PROOFS. What the end of every completed instruction changes (R540, R546, R547, R549). -/
namespace Sys2Proof.Claims
open Sys2Proof.Machine

/-- The instruction at `a` causes the breakpoint event: its mode is on, and a breakpoint register holds `a` (R546). -/
def breakpointAt (a : Word) (u : State) : Bool :=
  traceMode u .breakpoint && (bpMatches u.bp0 a || bpMatches u.bp1 a)

theorem signalBreakpoint_eq (a : Word) (u : State) :
    signalBreakpoint a u = if breakpointAt a u then signal .breakpoint u else u := by
  unfold signalBreakpoint breakpointAt signalIfEnabled
  cases traceMode u .breakpoint
  · exact ite_self u
  · rfl

/-- Whether tracing is seen enabled depends on the trace-enable flag and on what is held back of it (R595). -/
theorem seenTe_congr {s u : State} (h : getBit u.pc 0 = getBit s.pc 0) (hold : u.teHold = s.teHold)
    (old : u.teOld = s.teOld) : seenTe u = seenTe s := by
  unfold seenTe pcTe
  rw [h, hold, old]

/-- The breakpoint event leaves alone the instruction-trace mode and whether tracing is seen enabled. -/
theorem signalBreakpoint_bits (a : Word) (u : State) :
    (∀ i, getBit (signalBreakpoint a u).tc i = (getBit u.tc i || (breakpointAt a u && i == 23))) ∧
    (∀ i, getBit (signalBreakpoint a u).pc i = (getBit u.pc i || (breakpointAt a u && seenTe u && i == 10))) ∧
    traceMode (signalBreakpoint a u) .instruction = traceMode u .instruction ∧
    seenTe (signalBreakpoint a u) = seenTe u := by
  rw [signalBreakpoint_eq, signalIf_eq]
  have htc := getBit_setBitIf u.tc (breakpointAt a u) (i := 23) (by decide)
  have hpc := getBit_setBitIf u.pc (breakpointAt a u && seenTe u) (i := 10) (by decide)
  exact ⟨htc, hpc, (htc 1).trans (by simp [traceMode, modeBit]), seenTe_congr ((hpc 0).trans (by simp)) rfl rfl⟩

theorem getBit_ended_tc (a : Word) (u : State) (i : Nat) :
    getBit (ended a u).tc i = (getBit u.tc i || (traceMode u .instruction && i == 17) ||
      (breakpointAt a u && i == 23)) := by
  obtain ⟨htc, -, hmode, -⟩ := signalBreakpoint_bits a u
  change getBit (signalIfEnabled .instruction (signalBreakpoint a u)).tc i = _
  rw [(signalIfEnabled_bits _ _).1 i, htc, hmode, Bool.or_right_comm]
  rfl

theorem getBit_ended_pc_eq (a : Word) (u : State) (i : Nat) :
    getBit (ended a u).pc i = (getBit u.pc i ||
      ((traceMode u .instruction || breakpointAt a u) && seenTe u && i == 10)) := by
  obtain ⟨-, hpc, hmode, hseen⟩ := signalBreakpoint_bits a u
  change getBit (signalIfEnabled .instruction (signalBreakpoint a u)).pc i = _
  rw [(signalIfEnabled_bits _ _).2 i, hpc, hmode, hseen, Bool.or_comm (traceMode u .instruction),
    Bool.and_or_distrib_right, Bool.and_or_distrib_right, Bool.or_assoc]

end Sys2Proof.Claims

namespace Sys2Proof.Proofs
open Sys2Proof.Machine Sys2Proof.Claims

/-- Settles O11: the breakpoint event and then the instruction event, which change PC and TC alone. -/
theorem eventsAfterInstruction : Obligations.EventsAfterInstruction := by
  unfold Obligations.EventsAfterInstruction
  rintro a u ins bpt rfl rfl
  exact ⟨getBit_ended_tc a u, getBit_ended_pc_eq a u, rfl, commonEvents_ip a u, commonEvents_ac a u, kept_ended a u⟩

end Sys2Proof.Proofs
end

section
/-! PROOFS. Faults whose fault-table entry names no handler (R482, R483, R497). -/
namespace Sys2Proof.Claims
open Sys2Proof.Machine

/-- The entry names no handler: it has a reserved type, it names no procedure table or no procedure of it, or the
procedure's entry has a reserved type (R482, R483). -/
def UnusableEntry (s : State) (e0 e1 : Word) : Prop :=
  e0.setWidth 2 = 1#2 ∨ e0.setWidth 2 = 3#2 ∨
    (e0.setWidth 2 = 2#2 ∧ ((e1 ≠ 0x27F#32 ∧ e1 ≠ 0x2BF#32 ∧ e1 ≠ 0x2FF#32) ∨ 259 < (e0 >>> 2).toNat)) ∨
    ∃ base entry, ProcedureTableEntry s e0 e1 base entry ∧ (entry.setWidth 2 = 1#2 ∨ entry.setWidth 2 = 3#2)

/-- A procedure table has 260 entries (R387). -/
theorem procedureHandler_beyond {s : State} {n : Word} (table : Word) (h : 259 < n.toNat) :
    procedureHandler s table n = .ok none := if_pos h

theorem procedureHandler_reserved {s : State} {table n : Word} (hn : n.toNat ≤ 259)
    (hok : okEntry s table (procedureOffset n))
    (ht : (wordAt s (table + procedureOffset n).toNat).setWidth 2 = 1#2 ∨
      (wordAt s (table + procedureOffset n).toNat).setWidth 2 = 3#2) :
    procedureHandler s table n = .ok none := by
  unfold procedureHandler
  rw [if_neg (by omega), loadEntry_okEntry hok]
  dsimp only [bind, Except.bind]
  rcases ht with ht | ht
  all_goals
    rw [ht]
    rfl

theorem faultHandler_unusable {f : FaultInfo} {s : State} {e0 e1 : Word} (h : FaultTableEntry f s e0 e1)
    (hu : UnusableEntry s e0 e1) : faultHandler s f.ftype = .ok none := by
  obtain ⟨ok0, ok1, h0, h1⟩ := h
  unfold faultHandler faultOffset
  rw [loadEntry_okEntry ok0]
  dsimp only [bind, Except.bind]
  rw [loadEntry_okEntry ok1, ← h0, ← h1]
  dsimp only
  obtain ht | ht | ⟨ht, ⟨hsys, htr1, htr2⟩ | hn⟩ | ⟨base, entry, ⟨ht, hn, hbase, hok, rfl⟩, hent⟩ := hu
  · rw [ht]
    rfl
  · rw [ht]
    rfl
  · rw [ht]
    change (if e1 = 0x27F#32 then _ else if e1 = 0x2BF#32 ∨ e1 = 0x2FF#32 then _ else _) = _
    rw [if_neg hsys, if_neg (not_or.mpr ⟨htr1, htr2⟩)]
    rfl
  · rw [ht, procedureHandler_beyond _ hn, procedureHandler_beyond _ hn]
    change (if e1 = 0x27F#32 then Except.ok none else if _ then Except.ok none else Except.ok none) = _
    rw [ite_self, ite_self]
  · have handler := procedureHandler_reserved hn hok hent
    rw [ht]
    change (if e1 = 0x27F#32 then _ else if e1 = 0x2BF#32 ∨ e1 = 0x2FF#32 then _ else _) = _
    obtain ⟨rfl, rfl⟩ | ⟨hk, rfl⟩ := hbase
    · rw [if_pos rfl, handler]
    · have hne : e1 ≠ 0x27F#32 := by
        rintro rfl
        exact absurd hk (by decide)
      rw [if_neg hne, if_pos hk, handler]

/-- With no handler the processor is stuck (R497). -/
theorem deliverFault_stuck {f : FaultInfo} {s : State} (h : faultHandler s f.ftype = .ok none) :
    deliverFault f s = .ok { s with status := .stuck } := by
  unfold deliverFault
  rw [h]
  rfl

end Sys2Proof.Claims

namespace Sys2Proof.Proofs
open Sys2Proof.Machine Sys2Proof.Claims

/-- Settles O34: such an entry gives no handler, and a stuck processor makes no step. -/
theorem unusableFaultEntrySticks : Obligations.UnusableFaultEntrySticks := by
  unfold Obligations.UnusableFaultEntrySticks
  exact fun s f e0 e1 h hu => ⟨deliverFault_stuck (faultHandler_unusable h hu), rfl⟩

end Sys2Proof.Proofs
end

section
/-! PROOFS. A step up to its instruction: the trace stage, the fetch and the prereturn check (R545, R548, R552). -/
namespace Sys2Proof.Claims
open Sys2Proof.Machine

/-! ### What the stages come to in the step (R552) -/

theorem step_run {s t : State} {i : Instr} (hrun : isRunningState s) (h : prepare s = .ok (.run i t)) :
    step s = exec i t := by
  unfold step
  rw [show s.status = .running from hrun, h]

theorem step_traceFault {s t : State} {sip : Word} {afi : Option Word} (hrun : isRunningState s)
    (h : prepare s = (traceFault sip afi t).map .ended) :
    step s = faultsWith { ftype := 0x01, subtype := eventFlags t ++ 0#1, afi := afi, sip := some sip }
      (setTfp (clearEvents t) false) := by
  change step s = toOutcome (traceFault sip afi t)
  unfold step
  rw [show s.status = .running from hrun, h]
  cases traceFault sip afi t <;> rfl

/-- With no pin latched the first stage does nothing (R517). -/
theorem prepare_unlatched {s : State} (hpin : s.pinLatch = 0#4) : prepare s = traceStage s := by
  have hskip : servicePins (pinSequence s.params.pinOrder) s = .ok s := by
    rw [← List.append_nil (pinSequence _), servicePins_skip fun j _ => by rw [hpin, BitVec.getLsbD_zero]]
    rfl
  unfold prepare
  rw [hskip]
  rfl

/-! ### The trace stage (R548) -/

theorem traceStage_pending {s : State} (htfp : pcTfp s = true) (hte : seenTe s = true) :
    traceStage s = (traceFault s.ip (some s.lastIp) s).map .ended := by
  unfold traceStage
  rw [htfp, hte]
  rfl

/-- With tracing disabled the event flags of a pending trace fault are cleared, and the step goes on (D43). -/
theorem traceStage_disabled {s : State} (hte : seenTe s = false) :
    traceStage s = fetchStage (if pcTfp s = true then clearEvents s else s) := by
  unfold traceStage
  rw [hte]
  cases pcTfp s <;> rfl

theorem getBit_clearEvents (s : State) (i : Nat) :
    getBit (clearEvents s).tc i = (getBit s.tc i && !(decide (17 ≤ i ∧ i ≤ 23))) := by
  refine (getBit_setField s.tc 17 7 0#7 i).trans ?_
  by_cases h : 17 ≤ i ∧ i ≤ 23
  · rw [if_pos (by omega), BitVec.getLsbD_zero, decide_eq_true h, Bool.not_true, Bool.and_false]
  · rw [if_neg (by omega), decide_eq_false h, Bool.not_false, Bool.and_true]

theorem getBit_setTfp_false (s : State) (i : Nat) : getBit (setTfp s false).pc i = (getBit s.pc i && i != 10) := by
  refine (getBit_setBit s.pc 10 i false).trans ?_
  by_cases h : i = 10
  · simp [h]
  · simp [h]

/-- A state is determined by its bits of TC and by the rest of it. -/
theorem eq_of_tc {s t q : State} (hq : q = { s with tc := q.tc }) (ht : t = { s with tc := t.tc })
    (h : ∀ i, getBit q.tc i = getBit t.tc i) : q = t := by
  rw [hq, ht, getBit_ext fun i _ => h i]

/-! ### Fetch (R121, R131) -/

/-- A fetch notes the words executed and may draw free values (R108, R587). -/
theorem fetchWord_eq {s : State} {a : Word} {q : Word × State} (e : fetchWord s a = .ok q) :
    ∃ executed draws, q.2 = { s with executed := executed, draws := draws } := by
  unfold fetchWord at e
  split at e
  · cases e
  · split at e
    · cases e
    · cases e
      obtain ⟨⟨k, hk⟩, -⟩ := readWord_eq (scratchWord s a) (markExecuted s a.toNat) a
      exact ⟨_, _, hk⟩

theorem fetchInstr_eq {s : State} {q : Word × Word × State} (e : fetchInstr s = .ok q) :
    ∃ executed draws, q.2.2 = { s with executed := executed, draws := draws } := by
  obtain ⟨r, hr, e⟩ := result_bind_ok e
  obtain ⟨x1, n1, h1⟩ := fetchWord_eq hr
  dsimp only at e
  split at e
  · obtain ⟨r2, hr2, e⟩ := result_bind_ok e
    obtain ⟨x2, n2, h2⟩ := fetchWord_eq hr2
    cases e
    exact ⟨x2, n2, by rw [h2, h1]⟩
  · cases e
    exact ⟨x1, n1, h1⟩

/-- What a fetch keeps: all that an instruction sees (R121). -/
structure FetchKeeps (s t : State) : Prop where
  regs : ∀ r, getReg t r = getReg s r
  ip : t.ip = s.ip
  ac : t.ac = s.ac
  pc : t.pc = s.pc
  tc : t.tc = s.tc
  mem : t.mem = s.mem
  seen : seenTe t = seenTe s
  kept : Kept nothing nothing nothing s t

theorem fetchKeeps_of_fetchInstr {s t : State} {w d : Word} (e : fetchInstr s = .ok (w, d, t)) : FetchKeeps s t := by
  obtain ⟨executed, draws, rfl⟩ := fetchInstr_eq e
  exact ⟨fun _ => rfl, rfl, rfl, rfl, rfl, rfl, rfl,
    Kept.of_fields (fun _ => rfl) (fun _ => rfl) rfl rfl (by constructor <;> rfl)⟩

/-- The words of an instruction whose one or two words are readable and not stale (R131). -/
theorem fetchInstr_of {s s1 : State} {w d : Word} (hok : okWord s s.ip) (hn : s.ip.toNat ∉ s.stale)
    (hw : w = wordAt s s.ip.toNat)
    (h2 : if hasSecondWord w = true then
        okWord s (s.ip + 4#32) ∧ (s.ip + 4#32).toNat ∉ s.stale ∧ d = wordAt s (s.ip + 4#32).toNat ∧
          s1 = markExecuted (markExecuted s s.ip.toNat) (s.ip + 4#32).toNat
      else d = 0#32 ∧ s1 = markExecuted s s.ip.toNat) :
    fetchInstr s = .ok (w, d, s1) := by
  unfold fetchInstr
  rw [fetchWord_of hok hn, ← hw]
  dsimp only [bind, Except.bind]
  split at h2
  · rename_i hs
    obtain ⟨hok2, hn2, rfl, rfl⟩ := h2
    rw [if_pos hs, fetchWord_of (s := markExecuted s s.ip.toNat) hok2 hn2]
    rfl
  · rename_i hs
    obtain ⟨rfl, rfl⟩ := h2
    rw [if_neg hs]
    rfl

theorem fetchStage_instr {s s1 : State} {w d : Word} {i : Instr} (hf : fetchInstr s = .ok (w, d, s1))
    (hd : decode w d = .instr i) (hi : i ≠ .ret) : fetchStage s = .ok (.run i s1) := by
  unfold fetchStage
  rw [hf]
  dsimp only [bind, Except.bind]
  rw [hd]
  exact if_neg hi

theorem fetchStage_ret {s s1 : State} {w d : Word} (hf : fetchInstr s = .ok (w, d, s1))
    (hd : decode w d = .instr .ret) :
    fetchStage s = (prereturnCheck s1).map fun x => if x.1 then .ended x.2 else .run .ret x.2 := by
  unfold fetchStage
  rw [hf]
  dsimp only [bind, Except.bind]
  rw [hd]
  cases prereturnCheck s1 <;> rfl

/-! ### The prereturn check (R545) -/

/-- A `ret` causes the prereturn event: its prereturn-trace flag is set, and the mode is on (R545). -/
def Prereturns (s : State) : Prop := getBit (getReg s pfpReg) 3 = true ∧ traceMode s .prereturn = true

/-- The prereturn event: the prereturn-trace flag is cleared and the event signaled (R545, D45). -/
def prereturned (s : State) : State := signal .prereturn (setReg s pfpReg (setBit (getReg s pfpReg) 3 false))

theorem prereturnCheck_none {s : State} (h : getBit (getReg s pfpReg) 3 = false ∨ traceMode s .prereturn = false) :
    prereturnCheck s = .ok (false, s) := by
  unfold prereturnCheck
  rcases h with h | h
  · rw [h]
    rfl
  · rw [h, Bool.and_false]
    rfl

theorem prereturned_eq (s : State) :
    prereturned s = { setReg s pfpReg (getReg s pfpReg &&& 0xFFFFFFF7#32) with
      tc := setBit s.tc 21 true, pc := if seenTe s then setBit s.pc 10 true else s.pc } := by
  unfold prereturned
  rw [signal_eq]
  rfl

theorem getReg_prereturned (s : State) (r : Reg) :
    getReg (prereturned s) r = if r = pfpReg then getReg s pfpReg &&& 0xFFFFFFF7#32 else getReg s r := by
  rw [prereturned_eq]
  exact getReg_setReg s pfpReg r _

theorem getBit_prereturned_tc (s : State) (i : Nat) :
    getBit (prereturned s).tc i = (getBit s.tc i || i == 21) := by
  rw [prereturned_eq]
  exact getBit_setBitIf s.tc true (by decide) i

theorem getBit_prereturned_pc (s : State) (i : Nat) :
    getBit (prereturned s).pc i = (getBit s.pc i || (seenTe s && i == 10)) := by
  rw [prereturned_eq]
  exact getBit_setBitIf s.pc (seenTe s) (by decide) i

theorem seenTe_prereturned (s : State) : seenTe (prereturned s) = seenTe s :=
  seenTe_congr ((getBit_prereturned_pc s 0).trans (by simp)) (by rw [prereturned_eq, setReg_teHold])
    (by rw [prereturned_eq, setReg_teOld])

theorem kept_prereturned (s : State) : Kept (only pfpReg) nothing nothing s (prereturned s) := by
  rw [prereturned_eq]
  exact (kept_setReg s pfpReg _).trans (kept_withControls _ _ _)

theorem prereturns_congr {s t : State} (hreg : ∀ r, getReg t r = getReg s r) (hmode : getBit t.tc 5 = getBit s.tc 5)
    (h : Prereturns s) : Prereturns t := by
  refine ⟨?_, hmode.trans h.2⟩
  rw [hreg]
  exact h.1

theorem prereturnCheck_enabled {s : State} (h : Prereturns s) (hte : seenTe s = true) :
    prereturnCheck s = (traceFault s.ip none (prereturned s)).map fun t => (true, t) := by
  have hpend : (pcTfp (prereturned s) && seenTe (prereturned s)) = true := by
    rw [seenTe_prereturned, hte, Bool.and_true]
    exact (getBit_prereturned_pc s 10).trans (by simp [hte])
  unfold prereturnCheck
  rw [h.1, h.2]
  exact if_pos hpend

theorem prereturnCheck_disabled {s : State} (h : Prereturns s) (hte : seenTe s = false) :
    prereturnCheck s = .ok (false, prereturned s) := by
  have hpend : ¬ (pcTfp (prereturned s) && seenTe (prereturned s)) = true := by
    rw [seenTe_prereturned, hte, Bool.and_false]
    exact Bool.false_ne_true
  unfold prereturnCheck
  rw [h.1, h.2]
  exact if_neg hpend

/-- Bit 5 of the subtype of a trace fault is the prereturn-event flag (R471). -/
theorem subtype_prereturn (s : State) : (eventFlags s ++ 0#1).getLsbD 5 = getBit s.tc 21 := by
  rw [BitVec.getLsbD_append, if_neg (by decide), eventFlags, BitVec.getLsbD_extractLsb']
  rfl

/-! ### The steps -/

section
variable {s : State} (hrun : isRunningState s) (hpin : s.pinLatch = 0#4)
include hrun hpin

theorem step_instr {s1 : State} {w d : Word} {i : Instr} (htfp : pcTfp s = false)
    (hf : fetchInstr s = .ok (w, d, s1)) (hd : decode w d = .instr i)
    (hret : i = .ret → getBit (getReg s pfpReg) 3 = false ∨ traceMode s .prereturn = false) :
    step s = exec i s1 := by
  refine step_run hrun ((prepare_quiet hpin htfp).trans ?_)
  by_cases hi : i = .ret
  · subst hi
    have hk := fetchKeeps_of_fetchInstr hf
    have hnone : getBit (getReg s1 pfpReg) 3 = false ∨ traceMode s1 .prereturn = false := by
      unfold traceMode
      rw [hk.regs, hk.tc]
      exact hret rfl
    rw [fetchStage_ret hf hd, prereturnCheck_none hnone]
    rfl
  · exact fetchStage_instr hf hd hi

/-- A pending trace fault is taken before the instruction (R548). -/
theorem step_pending (htfp : pcTfp s = true) (hte : seenTe s = true) :
    ∃ s1 : State, (∀ i, getBit s1.tc i = (getBit s.tc i && !(decide (17 ≤ i ∧ i ≤ 23)))) ∧
      (∀ i, getBit s1.pc i = (getBit s.pc i && i != 10)) ∧ s1 = { s with tc := s1.tc, pc := s1.pc } ∧
      step s = faultsWith { ftype := 0x01, subtype := s.tc.extractLsb' 17 7 ++ 0#1, afi := some s.lastIp,
                            sip := some s.ip } s1 :=
  ⟨setTfp (clearEvents s) false, getBit_clearEvents s, getBit_setTfp_false (clearEvents s), rfl,
    step_traceFault hrun ((prepare_unlatched hpin).trans (traceStage_pending htfp hte))⟩

theorem step_pending_disabled (htfp : pcTfp s = true) (hte : seenTe s = false) :
    ∃ s1 : State, (∀ i, getBit s1.tc i = (getBit s.tc i && !(decide (17 ≤ i ∧ i ≤ 23)))) ∧
      s1 = { s with tc := s1.tc } ∧
      ∀ w d s2 i, fetchInstr s1 = .ok (w, d, s2) → decode w d = .instr i → i ≠ .ret → step s = exec i s2 := by
  refine ⟨clearEvents s, getBit_clearEvents s, rfl, fun w d s2 i hf hd hi => step_run hrun ?_⟩
  rw [prepare_unlatched hpin, traceStage_disabled hte, if_pos htfp]
  exact fetchStage_instr hf hd hi

/-- A `ret` that causes the prereturn event with tracing enabled is not executed (R545). -/
theorem step_prereturn {s1 : State} {w d : Word} (htfp : pcTfp s = false) (hf : fetchInstr s = .ok (w, d, s1))
    (hd : decode w d = .instr .ret) (h : Prereturns s) (hte : seenTe s = true) :
    ∃ (s2 : State) (sub : Byte), sub.getLsbD 5 = true ∧
      getReg s2 pfpReg = getReg s pfpReg &&& 0xFFFFFFF7#32 ∧ s2.ip = s.ip ∧
      getBit s2.tc 21 = false ∧ getBit s2.pc 10 = false ∧
      (∀ r, r ≠ pfpReg → getReg s2 r = getReg s r) ∧ s2.mem = s.mem ∧ s2.ac = s.ac ∧
      step s = faultsWith { ftype := 0x01, subtype := sub, afi := none, sip := some s.ip } s2 := by
  have hk := fetchKeeps_of_fetchInstr hf
  have hprepare : prepare s = (traceFault s.ip none (prereturned s1)).map .ended := by
    rw [prepare_quiet hpin htfp, fetchStage_ret hf hd,
      prereturnCheck_enabled (prereturns_congr hk.regs (by rw [hk.tc]) h) (hk.seen.trans hte), hk.ip]
    cases traceFault s.ip none (prereturned s1) <;> rfl
  refine ⟨setTfp (clearEvents (prereturned s1)) false, _, (subtype_prereturn _).trans ?_, ?_, ?_, ?_, ?_,
    fun r hr => ?_, ?_, ?_, step_traceFault hrun hprepare⟩
  · rw [getBit_prereturned_tc]
    exact Bool.or_true _
  · exact (getReg_prereturned s1 pfpReg).trans (by rw [if_pos rfl, hk.regs])
  · change (prereturned s1).ip = s.ip
    rw [prereturned_eq, setReg_ip, hk.ip]
  · exact (getBit_clearEvents (prereturned s1) 21).trans (Bool.and_false _)
  · exact (getBit_setTfp_false _ 10).trans (Bool.and_false _)
  · exact (getReg_prereturned s1 r).trans (by rw [if_neg hr, hk.regs])
  · change (prereturned s1).mem = s.mem
    rw [prereturned_eq, setReg_mem, hk.mem]
  · change (prereturned s1).ac = s.ac
    rw [prereturned_eq, setReg_ac, hk.ac]

/-- With tracing disabled the `ret` is executed with its prereturn event signaled (R545, D45). -/
theorem step_prereturn_disabled {q s1 : State} {w d : Word} (hq : q = if pcTfp s = true then clearEvents s else s)
    (hf : fetchInstr q = .ok (w, d, s1)) (hd : decode w d = .instr .ret) (h : Prereturns s) (hte : seenTe s = false) :
    ∃ s2 : State, getReg s2 pfpReg = getReg s pfpReg &&& 0xFFFFFFF7#32 ∧
      (∀ i, getBit s2.tc i = (getBit q.tc i || i == 21)) ∧ s2.pc = s.pc ∧ s2.ip = s.ip ∧ s2.ac = s.ac ∧
      Kept (only pfpReg) nothing nothing s s2 ∧ step s = exec .ret s2 := by
  have hk := fetchKeeps_of_fetchInstr hf
  obtain ⟨qreg, qmode, qpc, qip, qac, qseen, qkept⟩ : (∀ r, getReg q r = getReg s r) ∧
      getBit q.tc 5 = getBit s.tc 5 ∧ q.pc = s.pc ∧ q.ip = s.ip ∧ q.ac = s.ac ∧ seenTe q = seenTe s ∧
      Kept nothing nothing nothing s q := by
    rw [hq]
    split
    · exact ⟨fun _ => rfl, (getBit_clearEvents s 5).trans (Bool.and_true _), rfl, rfl, rfl, rfl,
        kept_withControls s _ s.pc⟩
    · exact ⟨fun _ => rfl, rfl, rfl, rfl, rfl, rfl, kept_withControls s _ _⟩
  have hseen : seenTe s1 = false := hk.seen.trans (qseen.trans hte)
  refine ⟨prereturned s1, ?_, fun i => ?_, ?_, ?_, ?_, ?_, step_run hrun ?_⟩
  · exact (getReg_prereturned s1 pfpReg).trans (by rw [if_pos rfl, hk.regs, qreg])
  · rw [getBit_prereturned_tc, hk.tc]
  · rw [prereturned_eq, hseen, ← qpc, ← hk.pc]
    rfl
  · rw [prereturned_eq, setReg_ip, hk.ip, qip]
  · rw [prereturned_eq, setReg_ac, hk.ac, qac]
  · exact ((qkept.trans hk.kept).mono (fun _ h => h.elim) (fun _ h => h) fun _ h => h).trans (kept_prereturned s1)
  · rw [prepare_unlatched hpin, traceStage_disabled hte, ← hq, fetchStage_ret hf hd,
      prereturnCheck_disabled (prereturns_congr hk.regs (by rw [hk.tc]) (prereturns_congr qreg qmode h)) hseen]
    rfl

end

end Sys2Proof.Claims

namespace Sys2Proof.Proofs
open Sys2Proof.Machine Sys2Proof.Claims

/-- Settles O6: nothing comes before the fetch, and the fetched words decode to an instruction. -/
theorem stepRunsInstruction : Obligations.StepRunsInstruction := by
  unfold Obligations.StepRunsInstruction
  exact fun s w d i s1 hrun hpin htfp hok hn hw h2 hd hret =>
    step_instr hrun hpin htfp (fetchInstr_of hok hn hw h2) hd hret

/-- Settles O39: a pending trace fault, and the prereturn event of a `ret`, each with tracing enabled and disabled. -/
theorem traceFaults : Obligations.TraceFaults := by
  unfold Obligations.TraceFaults
  refine fun s hrun hpin => ⟨step_pending hrun hpin, step_pending_disabled hrun hpin,
    fun w d s1 htfp hf hd hflag hmode => step_prereturn hrun hpin htfp hf hd ⟨hflag, hmode⟩,
    fun w d q s1 hq hbits hf hd hflag hmode => step_prereturn_disabled hrun hpin ?_ hf hd ⟨hflag, hmode⟩⟩
  cases htfp : pcTfp s with
  | false =>
    rw [htfp] at hq
    exact hq
  | true =>
    rw [htfp] at hq
    simp only [htfp, Bool.true_and] at hbits
    exact eq_of_tc hq rfl fun i => (hbits i).trans (getBit_clearEvents s i).symm

end Sys2Proof.Proofs
end

section
/-! PROOFS. Which pending interrupt a check takes (R513, R518, R519). -/
namespace Sys2Proof.Claims
open Sys2Proof.Machine

/-! ### The highest bit of a byte -/

theorem highestBit_of {b : Byte} {k : Nat} (hk : b.getLsbD k = true) :
    ∀ {n : Nat}, k < n → (∀ j, k < j → j < n → b.getLsbD j = false) → highestBit b n = some k
  | n + 1, hlt, habove => by
    unfold highestBit
    by_cases hkn : k = n
    · rw [← hkn]
      exact if_pos hk
    · rw [habove n (by omega) (by omega), if_neg Bool.false_ne_true]
      exact highestBit_of hk (by omega) fun j h1 h2 => habove j h1 (by omega)

theorem highestBit_zero : ∀ n : Nat, highestBit 0#8 n = none
  | 0 => rfl
  | n + 1 => by
    unfold highestBit
    rw [BitVec.getLsbD_zero]
    exact highestBit_zero n

/-! ### The search (R518) -/

/-- The byte of pending vectors of priority `p` lies `4 + p` bytes into the interrupt table (R513). -/
theorem pendingOffset_ofNat {p : Nat} (hp : p < 32) :
    pendingOffset (BitVec.ofNat 5 p) = BitVec.ofNat 32 (4 + p) := by
  apply BitVec.eq_of_toNat_eq
  unfold pendingOffset
  rw [BitVec.toNat_add, BitVec.toNat_setWidth, BitVec.toNat_ofNat, BitVec.toNat_ofNat, BitVec.toNat_ofNat]
  omega

/-- No priority above `p` has a vector that a check of pending interrupts would take. -/
def NoneAbove (pp : Word) (p : Nat) (s : State) : Prop :=
  ∀ q : Fin 32, p < q.val → getBit pp q.val = true → isServiced s (BitVec.ofNat 5 q.val) = true → NothingAt s q

/-- What the search does with the byte `b` of pending vectors of priority `p` (R518). -/
def takePending (pp : Word) (s : State) (p : Nat) (b : Byte) (k : Nat) : Result State := do
  let s1 ← storeByte s (s.intTable + BitVec.ofNat 32 (4 + p)) (b &&& ~~~(1#8 <<< k))
  let s2 ← if b &&& ~~~(1#8 <<< k) = 0#8 then storeWord s1 s.intTable (setBit pp p false) else pure s1
  interruptEntry (BitVec.ofNat 8 (8 * p + k)) s2

section
variable {s : State} (hend : s.intTable.toNat + 36 ≤ 0xFF000000)
include hend

/-- The search looks at the byte of a serviceable priority whose bit is set. -/
theorem checkPendingFrom_succ {pp : Word} {p : Nat} (hp : p + 1 < 32) (hbit : getBit pp (p + 1) = true)
    (hserv : isServiced s (BitVec.ofNat 5 (p + 1)) = true)
    (hsc : inScratch s (s.intTable + BitVec.ofNat 32 (4 + (p + 1))) = false) :
    checkPendingFrom pp s (p + 1) =
      (highestBit (memRead s.mem (s.intTable.toNat + 4 + (p + 1))) 8).elim (checkPendingFrom pp s p)
        (takePending pp s (p + 1) (memRead s.mem (s.intTable.toNat + 4 + (p + 1)))) := by
  obtain ⟨haddr, hentry⟩ := pendingByte_addr (BitVec.ofNat 5 (p + 1)) hend
  rw [BitVec.toNat_ofNat, Nat.mod_eq_of_lt (by omega), pendingOffset_ofNat hp] at haddr
  rw [pendingOffset_ofNat hp] at hentry
  have hres := (isReserved_false_iff (s.intTable + BitVec.ofNat 32 (4 + (p + 1)))).mpr (by omega)
  rw [checkPendingFrom]
  dsimp only
  rw [hbit, hserv, Bool.and_true, if_pos rfl, pendingOffset_ofNat hp, hentry]
  dsimp only [bind, Except.bind]
  rw [loadByte_of hres hsc, haddr]
  dsimp only
  cases highestBit (memRead s.mem (s.intTable.toNat + 4 + (p + 1))) 8 <;> rfl

/-- Priorities that are not serviceable, or whose bit is clear or over an empty byte, are skipped (D47). -/
theorem checkPendingFrom_skip {pp : Word} {p : Nat} (h : NoneAbove pp p s) :
    ∀ {n : Nat}, p ≤ n → n < 32 → checkPendingFrom pp s n = checkPendingFrom pp s p
  | 0, hpn, _ => by rw [Nat.le_zero.mp hpn]
  | n + 1, hpn, hn => by
    by_cases hpe : p = n + 1
    · rw [hpe]
    have ih := checkPendingFrom_skip h (n := n) (by omega) (by omega)
    by_cases hc : (getBit pp (n + 1) && isServiced s (BitVec.ofNat 5 (n + 1))) = true
    · obtain ⟨hbit, hserv⟩ := Bool.and_eq_true_iff.mp hc
      obtain ⟨hsc, hbyte⟩ := h ⟨n + 1, hn⟩ (show p < n + 1 by omega) hbit hserv
      rw [checkPendingFrom_succ hend hn hbit hserv hsc, show memRead _ _ = _ from hbyte, highestBit_zero]
      exact ih
    · rw [checkPendingFrom]
      exact (if_neg hc).trans ih

/-- Taking a pending vector clears its bit, and its priority's bit if none is left of that priority, and enters its
interrupt. -/
theorem takePending_of (hal : s.intTable.toNat % 4 = 0) (hres : isReserved s.intTable = false) {p : Nat} (hp : p < 32)
    (pp : Word) (b : Byte) (k : Nat) :
    ∃ mem stale, takePending pp s p b k =
        interruptEntry (BitVec.ofNat 8 (8 * p + k)) { s with mem := mem, stale := stale } ∧
      mem = if b &&& ~~~(1#8 <<< k) = 0#8
        then memWriteWord s.params.byteOrder (memWrite s.mem (s.intTable.toNat + 4 + p) (b &&& ~~~(1#8 <<< k)))
          s.intTable.toNat (setBit pp p false)
        else memWrite s.mem (s.intTable.toNat + 4 + p) (b &&& ~~~(1#8 <<< k)) := by
  have haddr := (pendingByte_addr (BitVec.ofNat 5 p) hend).1
  rw [BitVec.toNat_ofNat, Nat.mod_eq_of_lt (by omega), pendingOffset_ofNat hp] at haddr
  obtain ⟨stale1, hstore⟩ := storeByte_of (s := s) (b &&& ~~~(1#8 <<< k))
    ((isReserved_false_iff (s.intTable + BitVec.ofNat 32 (4 + p))).mpr (by omega))
  rw [haddr] at hstore
  unfold takePending
  rw [hstore]
  dsimp only [bind, Except.bind]
  split
  · obtain ⟨stale2, hput⟩ := putWord_eq { s with
      mem := memWrite s.mem (s.intTable.toNat + 4 + p) (b &&& ~~~(1#8 <<< k)), stale := stale1 } s.intTable
      (setBit pp p false)
    rw [storeWord_of _ hal hres, hput]
    exact ⟨_, stale2, rfl, rfl⟩
  · exact ⟨_, stale1, rfl, rfl⟩

end

/-! ### The check (R518, R519) -/

section
variable {s : State} {pp : Word} (hok : okWord s s.intTable) (hend : s.intTable.toNat + 36 ≤ 0xFF000000)
  (hpp : pp = wordAt s s.intTable.toNat)
include hok hpp

theorem checkPending_eq : checkPending s = checkPendingFrom pp s 31 := by
  unfold checkPending
  rw [loadWord_okWord hok, ← hpp]
  rfl

include hend

theorem checkPending_nothing (h : NoneAbove pp 0 s) : checkPending s = .ok s := by
  rw [checkPending_eq hok hpp, checkPendingFrom_skip hend h (Nat.zero_le 31) (by decide)]
  rfl

theorem checkPending_chosen {p : Fin 32} {b : Byte} {k : Fin 8} (hp : 0 < p.val) (hbit : getBit pp p.val = true)
    (hserv : isServiced s (BitVec.ofNat 5 p.val) = true) (habove : NoneAbove pp p.val s)
    (hsc : inScratch s (s.intTable + BitVec.ofNat 32 (4 + p.val)) = false)
    (hb : b = memRead s.mem (s.intTable.toNat + 4 + p.val)) (hk : b.getLsbD k.val = true)
    (hhigh : ∀ j : Fin 8, k < j → b.getLsbD j.val = false) :
    checkPending s = takePending pp s p.val b k.val := by
  obtain ⟨_ | n, hn⟩ := p
  · exact absurd hp (Nat.lt_irrefl 0)
  · have hbest := highestBit_of hk k.isLt fun j h1 h2 => hhigh ⟨j, h2⟩ h1
    rw [checkPending_eq hok hpp, checkPendingFrom_skip hend habove (show n + 1 ≤ 31 by omega) (by decide),
      checkPendingFrom_succ hend hn hbit hserv hsc, ← show b = memRead _ (_ + 4 + (n + 1)) from hb, hbest]
    rfl

end

end Sys2Proof.Claims

namespace Sys2Proof.Proofs
open Sys2Proof.Machine Sys2Proof.Claims

/-- Settles O37: the search skips the priorities above the one chosen, and takes the highest vector of its byte. -/
theorem pendingInterruptChosen : Obligations.PendingInterruptChosen := by
  unfold Obligations.PendingInterruptChosen
  refine fun s pp hok hend hpp => ⟨checkPending_nothing hok hend hpp,
    fun p b k hp hbit hserv habove hsc hb hk hhigh => ?_⟩
  obtain ⟨mem, stale, htake, hmem⟩ := takePending_of hend hok.1 hok.2.1 p.isLt pp b k.val
  exact ⟨{ s with mem := mem, stale := stale },
    (checkPending_chosen hok hend hpp hp hbit hserv habove hsc hb hk hhigh).trans htake, hmem, rfl, rfl, rfl,
    fun _ => rfl, sameSystem_withMem s mem stale⟩

end Sys2Proof.Proofs
end

section
/-! PROOFS. A return from an interrupt handler to the program it interrupted (R520, R523, R527). -/
namespace Sys2Proof.Claims
open Sys2Proof.Machine

/-! ### The record (R520) -/

/-- The saved PC and AC of an interrupt record below the frame at `nfp`: they are in memory, in the byte order `o`, at
addresses the processor may read (R520). -/
structure RecordStored (o : ByteOrder) (nfp pc ac : Word) (mem : Memory) : Prop where
  pc : memReadWord o mem (nfp - 16#32).toNat = pc
  ac : memReadWord o mem (nfp - 12#32).toNat = ac
  pcAddr : (nfp - 16#32).toNat % 4 = 0 ∧ isReserved (nfp - 16#32) = false
  acAddr : (nfp - 12#32).toNat % 4 = 0 ∧ isReserved (nfp - 12#32) = false

/-- The first two words of a run of stores that is allowed are at addresses the processor may read. -/
theorem storeWords_addrs {s t : State} {a x y : Word} {vs : List Word} (h : storeWords s a (x :: y :: vs) = .ok t) :
    (a.toNat % 4 = 0 ∧ isReserved a = false) ∧ (a + 4#32).toNat % 4 = 0 ∧ isReserved (a + 4#32) = false := by
  rw [storeWords] at h
  split at h
  · cases h
  · rename_i s1 h1
    rw [storeWords] at h
    split at h
    · cases h
    · rename_i s2 h2
      obtain ⟨hx, hx', -⟩ := storeWord_ok h1
      obtain ⟨hy, hy', -⟩ := storeWord_ok h2
      exact ⟨⟨hx, hx'⟩, hy, hy'⟩

theorem recordStored_of {v : Byte} {nfp : Word} {s t : State} (hm : Memory.wf s.mem = true) (hn : 16 ≤ nfp.toNat)
    (hlay : s.params.interruptRecord = defaultInterruptLayout)
    (h : storeFields s (nfp - s.params.interruptRecord.size) (interruptRecord v s) = .ok t) :
    ∃ mem stale, t = { s with mem := mem, stale := stale } ∧
      RecordStored s.params.byteOrder nfp s.pc s.ac mem := by
  rw [storeFields_interruptRecord v nfp s s hlay] at h
  have h16 : (nfp - 16#32).toNat = nfp.toNat - 16 := sub_toNat hn
  have hlt := nfp.isLt
  obtain ⟨⟨mem, stale, rfl⟩, -, hwords, -⟩ := storeWords_ok h hm
    (show (nfp - 16#32).toNat + 4 * 3 ≤ 2 ^ 32 by omega)
  obtain ⟨haddr16, haddr12⟩ := storeWords_addrs h
  rw [show nfp - 16#32 + 4#32 = nfp - 12#32 by bv_omega] at haddr12
  refine ⟨mem, stale, rfl, hwords 0 (show 0 < 3 by decide), ?_, haddr16, haddr12⟩
  rw [show (nfp - 12#32).toNat = (nfp - 16#32).toNat + 4 * 1 by bv_omega]
  exact hwords 1 (show 1 < 3 by decide)

/-! ### What interrupt entry leaves (R523) -/

/-- The state in which the handler of the vector `v` is called, the record in the memory `mem` (R523). -/
def handlerCaller (v : Byte) (mem : Memory) (stale : List Nat) (k : Nat) (s : State) : State :=
  drawn (setPc (setReg { s with mem := mem, stale := stale } ripReg s.ip) (interruptPc v s)) k

/-- Interrupt entry that answers is a call operation above a record that has been stored. -/
theorem interruptEntry_stored {v : Byte} {s t : State} (hm : Memory.wf s.mem = true)
    (hlay : s.params.interruptRecord = defaultInterruptLayout) (e : interruptEntry v s = .ok t) :
    ∃ (target b : Word) (mem : Memory) (stale : List Nat) (k : Nat), roomAt b ∧
      RecordStored s.params.byteOrder (frameAbove b) s.pc s.ac mem ∧
      callOp target b 0b111#3 (handlerCaller v mem stale k s) = .ok t := by
  obtain ⟨⟨w, _⟩, ⟨w', _⟩, s2, hlt, hfit, hbefore, hrec, hafter, hcall⟩ := interruptEntry_ok e
  obtain ⟨-, -, -, ⟨j, rfl⟩, -⟩ := loadEntry_ok hbefore
  obtain ⟨-, -, -, ⟨k, rfl⟩, -⟩ := loadEntry_ok hafter
  have hroom := (frameFits_iff _).mp hfit
  have hn : 16 ≤ (frameAbove (interruptStackPointer s + s.params.interruptRecord.size)).toNat := by
    rw [hlay] at hlt hroom ⊢
    exact (recordRoom_frame ⟨hlt, hroom⟩).2
  obtain ⟨mem, stale, rfl, hstored⟩ := recordStored_of (s := drawn s j) hm hn hlay hrec
  have hcaller : drawn (setPc (setReg { drawn s j with mem := mem, stale := stale } ripReg s.ip) (interruptPc v s)) 1 =
      handlerCaller v mem stale (j + 1) s :=
    drawn_drawn (setPc (setReg { s with mem := mem, stale := stale } ripReg s.ip) (interruptPc v s)) j 1
  dsimp only at hcall
  rw [hcaller, handlerCaller, drawn_drawn, drawn_drawn] at hcall
  exact ⟨_, _, mem, stale, _, hroom, hstored, hcall⟩

/-- PC in a handler whose call event has been signaled is that of R523: tracing is off there. -/
theorem interruptPc_afterCall {v : Byte} {s u : State} {mem : Memory} {stale : List Nat} {k : Nat}
    (h : EventOnly .call (handlerCaller v mem stale k s) u) : u.pc = interruptPc v s := by
  have hte : seenTe (handlerCaller v mem stale k s) = false := by
    change getBit (interruptPc v s) 0 = false
    rw [getBit_interruptPc]
    rfl
  refine getBit_ext fun i _ => ?_
  rw [h.2 i, hte, Bool.and_false, Bool.false_and, Bool.or_false]
  rfl

/-- In `t` an interrupt handler interrupts the program of `s`: its PC and AC are in a record below the frame, its
registers on the chip (R520, R523). -/
structure Interrupting (s t : State) : Prop where
  called : ∃ target b, Called target b 0b111#3 s t
  pushed : Pushed (setReg s ripReg s.ip) t
  system : SameSystem s t
  supervisor : pcEm t = true
  recorded : RecordStored s.params.byteOrder (getReg t fpReg &&& 0xFFFFFFC0#32) s.pc s.ac t.mem

theorem interrupting_of_entry {v : Byte} {s t : State} (hm : Memory.wf s.mem = true) (ho : s.older.length ≤ 2)
    (hlay : s.params.interruptRecord = defaultInterruptLayout) (e : interruptEntry v s = .ok t) :
    Interrupting s t := by
  obtain ⟨target, b, mem, stale, k, hroom, hstored, hcall⟩ := interruptEntry_stored hm hlay e
  obtain ⟨u, hu, hcalled, hev, hsys, hpush, rfl⟩ := callOp_record_room (target := target) (status := 0b111#3)
    (callerAt_interrupt v s mem stale k) hroom ho
  obtain rfl : u = t := Except.ok.inj (hu.symm.trans hcall)
  refine ⟨⟨target, b, hcalled⟩, hpush, hsys, ?_, ?_⟩
  · unfold pcEm
    rw [interruptPc_afterCall hev, getBit_interruptPc]
    rfl
  · rw [hcalled.fp, show frameAbove b &&& 0xFFFFFFC0#32 = frameAbove b from frameAligned_idem _]
    exact hstored

/-! ### The return (R527) -/

/-- The program is in the processor state it was in: executing or interrupted (R56). -/
theorem procState_congr {s u : State} (hstatus : u.status = s.status) (hpc : u.pc = s.pc) :
    procState u = procState s := by
  unfold procState pcState
  rw [hstatus, hpc]

/-- A return from the handler restores the program that it interrupts, in the memory that the handler leaves. -/
theorem exec_ret_interrupting {s t : State} (h : Interrupting s t) (hip : isCodeAddress s.ip)
    (hlay : s.params.interruptRecord = defaultInterruptLayout) (hres : getBit s.pc 9 = false)
    (hscr : ∀ rec : Word, rec = getReg t fpReg &&& 0xFFFFFFC0#32 →
      scratchWord t (rec - 16#32) = false ∧ scratchWord t (rec - 12#32) = false)
    (hok : okWord t t.intTable) (hz : wordAt t t.intTable.toNat = 0#32) :
    ∃ u, exec .ret t = .next u ∧ u.pc = s.pc ∧ CallerBack s.ip { s with mem := t.mem } u := by
  obtain ⟨⟨target, b, hcalled⟩, hpush, hsys, hem, hrec⟩ := h
  obtain ⟨hscr16, hscr12⟩ := hscr _ rfl
  have word : ∀ a, wordAt t a = memReadWord s.params.byteOrder t.mem a := fun a => by rw [wordAt, hsys.params]
  have hpc := (word _).trans hrec.pc
  have hac := (word _).trans hrec.ac
  have hreturnable : Returnable (getReg s fpReg &&& 0xFFFFFFC0#32) t :=
    ⟨fun e rest he => by cases hpush.symm.trans he; rfl, fun hn => nomatch hpush.symm.trans hn⟩
  obtain ⟨u, upc, uac, uret, -, usys, -, -, -, hexec⟩ := exec_ret_interrupt hem rfl hcalled.pfpFrame.symm hreturnable
    hcalled.pfpStatus (by rw [hsys.params]; exact hlay) ⟨hrec.acAddr.1, hrec.acAddr.2, hscr12⟩
    ⟨hrec.pcAddr.1, hrec.pcAddr.2, hscr16⟩ (by rw [hpc]; exact hres)
  have hcalled' : Called target b 0b111#3 { s with mem := t.mem } t := hcalled.transfer rfl rfl rfl rfl
  have hsys' : SameSystem { s with mem := t.mem } t := SameSystem.trans (by constructor <;> rfl) hsys
  exact ⟨u, hexec hok hz, upc.trans hpc, callerBack_of_returned hcalled' hpush rfl hsys' hip uret
    ((uac.trans hac).trans hcalled.ac.symm) usys⟩

end Sys2Proof.Claims

namespace Sys2Proof.Proofs
open Sys2Proof.Machine Sys2Proof.Claims

/-- Settles O36: interrupt entry saves the program in its record and on the chip, and the return takes it back from
there. -/
theorem interruptThenReturn : Obligations.InterruptThenReturn := by
  unfold Obligations.InterruptThenReturn
  intro s t v hm hip ho _ hlay hres he hscr hok hz
  obtain ⟨u, hu, hpc, hback⟩ := exec_ret_interrupting (interrupting_of_entry hm ho hlay he) hip hlay hres hscr hok hz
  exact ⟨u, hu, hpc, hback.ac, hback.ip, hback.regs, hback.fp, hback.fps, hback.cache, hback.mem,
    procState_congr hback.system.status hpc⟩

end Sys2Proof.Proofs
end

section
/-! PROOFS. The values after RESET (R570, R574, R576, R578): the controls that the first stage of initialization leaves
as RESET sets them, the pin fields of the interrupt-control register, and the invariant. -/
namespace Sys2Proof.Claims
open Sys2Proof.Machine

/-! ### The controls that RESET sets -/

/-- The trace controls, the breakpoint registers, the interrupt-control register and the pin latch hold their values
after RESET (R576). -/
structure ResetControls (t : State) : Prop where
  tc : t.tc = 0#32
  bp0 : t.bp0.enabled = false
  bp1 : t.bp1.enabled = false
  icr : t.icr = 0xFF000000#32
  pinLatch : t.pinLatch = 0#4

theorem resetControls_hardReset (s : State) : ResetControls (hardReset s) where
  tc := rfl
  bp0 := rfl
  bp1 := rfl
  icr := rfl
  pinLatch := rfl

theorem ResetControls.of_stopped {s : State} (h : ResetControls s) :
    ResetControls { s with status := .stopped, failPin := true } := { h with }

theorem ResetControls.of_loadPointers {sat prcb : Word} {s u : State} (h : ResetControls s)
    (e : loadPointers sat prcb s = .ok u) : ResetControls u := by
  obtain ⟨_, _, _, _, _, _, _, _, rfl⟩ := loadPointers_ok e
  exact { h with }

theorem ResetControls.of_booted {u : State} (h : ResetControls u) (start : Word) : ResetControls (booted start u) where
  tc := (setReg_tc u fpReg u.intStack).trans h.tc
  bp0 := (congrArg Breakpoint.enabled (setReg_bp0 u fpReg u.intStack)).trans h.bp0
  bp1 := (congrArg Breakpoint.enabled (setReg_bp1 u fpReg u.intStack)).trans h.bp1
  icr := (setReg_icr u fpReg u.intStack).trans h.icr
  pinLatch := rfl

/-- The first stage of initialization stops the processor with FAIL asserted, or starts it with its pointers loaded
(R571, R572). -/
theorem firstStage_ok {s t : State} (e : firstStage s = .ok t) :
    t = { s with status := .stopped, failPin := true } ∨
      ∃ u, loadPointers (wordAt s 0) (wordAt s 4) s = .ok u ∧ t = booted (wordAt s 12) u := by
  by_cases hsum : checksum s = 0#32
  · cases hload : loadPointers (wordAt s 0) (wordAt s 4) s with
    | ok u => exact .inr ⟨u, rfl, (Except.ok.inj ((firstStage_of hsum hload).symm.trans e)).symm⟩
    | error x => cases (firstStage_error hsum hload).symm.trans e
  · unfold firstStage at e
    rw [if_pos hsum] at e
    exact .inl (Except.ok.inj e).symm

theorem ResetControls.of_firstStage {s t : State} (h : ResetControls s) (e : firstStage s = .ok t) :
    ResetControls t := by
  obtain rfl | ⟨u, hu, rfl⟩ := firstStage_ok e
  · exact h.of_stopped
  · exact (h.of_loadPointers hu).of_booted _

/-- The machine at RESET, and after the step that follows it. -/
theorem resetControls_of {s t : State} (h : t = hardReset s ∨ step (hardReset s) = .next t) : ResetControls t := by
  obtain rfl | hstep := h
  · exact resetControls_hardReset s
  · rw [step_reset rfl] at hstep
    exact (resetControls_hardReset s).of_firstStage (toOutcome_next hstep)

/-! ### The pins (R528, R576) -/

/-- With 0xFF000000 in the interrupt-control register, INT0 and INT1 have vector 0, INTR takes the controller's vector
and INTA is an output. -/
theorem pinVector_resetIcr {t : State} (h : t.icr = 0xFF000000#32) :
    pinVector t 0 = some 0#8 ∧ pinVector t 1 = some 0#8 ∧ pinVector t 2 = some t.intrVector ∧ pinVector t 3 = none := by
  have hmode : t.icr.extractLsb' 16 8 = 0#8 := by rw [h]; decide
  have hfield : ∀ k : Fin 4, k.val < 2 → (0xFF000000#32).extractLsb' (8 * k.val) 8 = 0#8 := by decide
  have vector_zero : ∀ k : Fin 4, k.val < 2 → pinVector t k.val = some 0#8 := fun k hk => pinVector_some <| by
    rw [if_neg (by omega), h]
    exact ⟨by omega, (hfield k hk).symm⟩
  have vector_intr : pinVector t (2 : Fin 4).val = some t.intrVector := pinVector_some <| by
    rw [if_pos ⟨rfl, hmode⟩]
  exact ⟨vector_zero 0 (by decide), vector_zero 1 (by decide), vector_intr, pinVector_inta hmode⟩

/-- No processor priority is below that of vector 0, so it is never serviced (R515, R576). -/
theorem receiveInterrupt_zero (s : State) : receiveInterrupt 0#8 s = postInterrupt 0#8 s :=
  receiveInterrupt_posted (Nat.zero_le _) (by decide)

/-! ### The invariant -/

theorem inv_reset : Inv State.reset where
  memory := rfl
  cached := Nat.zero_le _
  frames := fun _ he => absurd he List.not_mem_nil
  code := (isCodeAddress_iff 0#32).mpr rfl
  lastCode := (isCodeAddress_iff 0#32).mpr rfl
  trace := BitVec.zero_and
  fail := ⟨fun h => (nomatch h), fun h => (nomatch h)⟩
  delay := Nat.zero_le _
  executedRising := rfl
  staleRising := rfl
  staleExecuted := fun _ ha => ha

end Sys2Proof.Claims

namespace Sys2Proof.Proofs
open Sys2Proof.Machine Sys2Proof.Claims

/-- Settles O1: RESET sets the controls and the first stage of initialization keeps them; priority 0 is above none. -/
theorem resetValues : Obligations.ResetValues := by
  unfold Obligations.ResetValues
  refine ⟨fun s t h => ?_, receiveInterrupt_zero⟩
  have hc := resetControls_of h
  exact ⟨hc.tc, hc.bp0, hc.bp1, hc.icr, hc.pinLatch, pinVector_resetIcr hc.icr⟩

/-- Settles O7: every part of the invariant holds of the values after RESET. -/
theorem invAtReset : Obligations.InvAtReset := by
  unfold Obligations.InvAtReset
  exact inv_reset

end Sys2Proof.Proofs
end
